-- ==== Sys2Proof/Word.lean ====
section
/-! DEFINITION. The words of the HZ440: bytes, register words, message numbers, and the numbers of lines, context records,
source slots and segment indices. -/

namespace Sys2Proof

/-- A line byte, a payload byte, an address of a node (spec 00 4.6). -/
abbrev Byte := BitVec 8

/-- A 16-bit register word of the host window (spec 08 8.1). -/
abbrev Word := BitVec 16

/-- A message number, compared for equality only (spec 00 4.6). -/
abbrev MsgNo := BitVec 12

/-- A message check word (spec 05 R90). -/
abbrev Word32 := BitVec 32

/-- A set of lines, bit n standing for line n (spec 01 R1, 11 11.4). -/
abbrev LineMask := BitVec 4

/-- A line L0..L3 (spec 00 4.7). -/
abbrev LineNo := Fin 4

/-- A context record's number, its position in the table (spec 01 R1). -/
abbrev CtxNo := Fin 32

/-- A slot of the source table (spec 03 3.4). -/
abbrev SlotNo := Fin 64

/-- A segment index (spec 01 R1). -/
abbrev SegIndex := Fin 64

/-- An argument register's or a result register's number (spec 09 R150). -/
abbrev ArgNo := Fin 6

/-- An address of the host window, A6..A0 (spec 08 8.1). -/
abbrev RegAddr := BitVec 7

end Sys2Proof
end

