-- ==== Sys2Proof/Config.lean ====
section
/-! DEFINITION. What the HZ440 fixes: capacities, code points, reset settings; and the one free value of the model. -/

namespace Sys2Proof.Config

/-- Cells of the pool (spec 02 R31). -/
def poolCells : Nat := 1024

/-- Payload bytes of one cell (spec 02 R31). -/
def cellBytes : Nat := 32

/-- Entries of one control frame queue (spec 06 R106). -/
def txQueueCap : Nat := 8

/-- Records of the event queue (spec 10 R173). -/
def eventQueueCap : Nat := 64

/-- Frame buffers of one line (spec 07 7.6). -/
def frameBuffers : Nat := 2

/-- Most content bytes of a received frame (spec 07 R123). -/
def maxContent : Nat := 141

/-- Fewest content bytes of a frame that is not a runt (spec 07 R124). -/
def minContent : Nat := 10

/-- Records of one source's history (spec 03 R66). -/
def historyCap : Nat := 4

/-- The reply credit of a newly pushed history record (spec 03 R66). -/
def pushCredit : Nat := 3

/-- The frame delimiter (spec 07 7.3). -/
def DELIM : Byte := 0xD5

/-- The escape byte (spec 07 7.3). -/
def ESC : Byte := 0xD6

/-- The kind byte of a segment frame (spec 03 R50). -/
def segmentKind : Byte := 0xA1

/-- The segment index of a refusal that concerns no one segment (spec 06 R101). -/
def noSegment : Byte := 0xFF

/-- What a cell byte that no segment has written reads as. DESIGN CHOICE, unsafe: the spec does not set it at reset (02 R34);
log 4. -/
def unwrittenByte : Byte := 0x00

/-- FREE VALUE: where in a frame on the wire a cut finds the transmitter (spec 06 R113: "The byte being shifted out"). The model
holds no time, so it does not know the place; the step reads it at the counter `State.cutSeq`. No body: nothing is known of it.
DESIGN CHOICE, safe; log 9. -/
opaque cutPosition : Nat → Nat

end Sys2Proof.Config

namespace Sys2Proof

/-- The twenty commands of the command unit (spec 09 9.4, 11 11.5). -/
inductive HostCommand
  | setStation | setLearn | setTiming | setReserve | setLine | lineOn | lineOff
  | srcAdd | srcRemove | srcSuspend | srcResume | ctxAbort | release | flush
  | start | stop | queryCtx | querySrc | queryPool | clearLoss
  deriving DecidableEq, Repr

/-- Command codes (spec 11 11.5). -/
def HostCommand.code : HostCommand → Byte
  | .setStation => 0x01
  | .setLearn => 0x02
  | .setTiming => 0x03
  | .setReserve => 0x04
  | .setLine => 0x05
  | .lineOn => 0x08
  | .lineOff => 0x09
  | .srcAdd => 0x10
  | .srcRemove => 0x11
  | .srcSuspend => 0x12
  | .srcResume => 0x13
  | .ctxAbort => 0x18
  | .release => 0x19
  | .flush => 0x1A
  | .start => 0x20
  | .stop => 0x21
  | .queryCtx => 0x28
  | .querySrc => 0x29
  | .queryPool => 0x2A
  | .clearLoss => 0x30

/-- Every command, in the order of the code table (spec 11 11.5). -/
def HostCommand.all : List HostCommand :=
  [.setStation, .setLearn, .setTiming, .setReserve, .setLine, .lineOn, .lineOff, .srcAdd, .srcRemove, .srcSuspend,
   .srcResume, .ctxAbort, .release, .flush, .start, .stop, .queryCtx, .querySrc, .queryPool, .clearLoss]

/-- A word written to CMD names a command when bits 15..8 are zero and bits 7..0 are a code of 11.5 (spec 11 R182). -/
def namesCommand (w : Word) : Bool :=
  HostCommand.all.any fun c => w == (c.code).setWidth 16

end Sys2Proof
end

