-- ==== Sys2Proof/Syntax.lean ====
section
/-! DEFINITION. The commands of the HZ440: one constructor per row of spec/opcode_table.json, in the table's order. A write of a
code to CMD carries no operand of its own: its arguments are the words of CMD_ARG0..CMD_ARG5 (spec 09 R151, 11 R182). -/

namespace Sys2Proof

inductive Instr
  /-- RSTN goes low, or power-up (09 R150). -/
  | hardwareReset
  /-- One 1 ms tick (04 R74). -/
  | tick
  /-- The timer's decision for one record (04 R76). -/
  | expiryDecision (n : CtxNo)
  /-- A line byte received, with its value and whether its stop bit was good (07 R120). -/
  | byteReception (l : LineNo) (value : Byte) (stopGood : Bool)
  /-- The admission unit takes one waiting frame (03 R47). -/
  | admissionEvent
  /-- The check engine takes the head of the Check Queue (05 R88). -/
  | takeHead
  /-- The cell being read completes (05 R89). -/
  | cellCompletion
  /-- A transmitter starts its head entry (06 R110). -/
  | frameStart (l : LineNo)
  /-- The closing DELIM's stop bit has been sent (06 R111). -/
  | frameEnd (l : LineNo)
  /-- The abort sequence's DELIM ends (06 R115). -/
  | abortEnd (l : LineNo)
  /-- STOP completes (09 R159). -/
  | stopCompletion
  /-- A read of MSG_HEAD0 (08 R139). -/
  | msgHead0
  /-- A read of DATA (08 R142). -/
  | data
  /-- A read of EVT_POP (10 R176). -/
  | evtPop
  /-- A read of CMD_RESULT (09 R154). -/
  | cmdResult
  /-- A write to EVT_MASK0 (reg 0) or EVT_MASK1 (reg 1) (10 R175). -/
  | evtMaskWrite (reg : Fin 2) (word : Word)
  /-- A write to IRQ_EN (10 R181). -/
  | irqEn (word : Word)
  /-- A write to CMD_ARG0..CMD_ARG5 (09 R151). -/
  | cmdArg (reg : ArgNo) (word : Word)
  /-- A write to a read-only or unassigned register (11 R185). -/
  | ignoredWrite (addr : RegAddr) (word : Word)
  /-- A CMD write naming no command (11 R182). -/
  | badCommand (word : Word)
  | setStation
  | setLearn
  | setTiming
  | setReserve
  | setLine
  | lineOn
  | lineOff
  | srcAdd
  | srcSuspend
  | srcResume
  | srcRemove
  | ctxAbort
  | release
  | flush
  | start
  | stop
  | queryCtx
  | querySrc
  | queryPool
  | clearLoss
  /-- RXD is at mark after LINE_ON or after a missing stop bit (07 R120). -/
  | rxdReturnToMark (l : LineNo)
  /-- RSTN goes high with REFCLK running (11 11.9, 04 R69). -/
  | leaveReset
  deriving DecidableEq, Repr

end Sys2Proof
end

