-- ==== Sys2Proof/WellFormed.lean ====
section
/-! DEFINITION. Which commands are well formed. The operand types rule out numbers out of range; two rows also limit a word or
an address. -/

namespace Sys2Proof

/-- The registers whose write the map takes: CMD, CMD_ARG0..CMD_ARG5, EVT_MASK0, EVT_MASK1, IRQ_EN (spec 11 11.3). -/
def writableAddr (a : RegAddr) : Bool :=
  a == 0x00 || (0x02 ≤ a && a ≤ 0x07) || a == 0x25 || a == 0x26 || a == 0x28

/-- BAD_COMMAND's word names no command (11 R182); IGNORED_WRITE's address is read-only or unassigned (11 R185). -/
def Instr.wf : Instr → Bool
  | .badCommand w => !namesCommand w
  | .ignoredWrite a _ => !writableAddr a
  | .hardwareReset | .tick | .expiryDecision _ | .byteReception _ _ _ | .admissionEvent | .takeHead | .cellCompletion
  | .frameStart _ | .frameEnd _ | .abortEnd _ | .stopCompletion | .msgHead0 | .data | .evtPop | .cmdResult
  | .evtMaskWrite _ _ | .irqEn _ | .cmdArg _ _ | .setStation | .setLearn | .setTiming | .setReserve | .setLine | .lineOn
  | .lineOff | .srcAdd | .srcSuspend | .srcResume | .srcRemove | .ctxAbort | .release | .flush | .start | .stop | .queryCtx
  | .querySrc | .queryPool | .clearLoss | .rxdReturnToMark _ | .leaveReset => true

end Sys2Proof
end

