-- ==== Sys2Proof/Decode.lean ====
section
/-! DEFINITION. What a host access names: the row of a write, by its address and word, and of a read with a side effect, by its
address (spec 11 11.3, 11.5, R182, R184, R185). The opcode table itself gives no row bits, so no table word spells a command. -/

namespace Sys2Proof

/-- The row of a command of the command unit (spec 09 9.4). -/
def HostCommand.row : HostCommand → Instr
  | .setStation => .setStation
  | .setLearn => .setLearn
  | .setTiming => .setTiming
  | .setReserve => .setReserve
  | .setLine => .setLine
  | .lineOn => .lineOn
  | .lineOff => .lineOff
  | .srcAdd => .srcAdd
  | .srcRemove => .srcRemove
  | .srcSuspend => .srcSuspend
  | .srcResume => .srcResume
  | .ctxAbort => .ctxAbort
  | .release => .release
  | .flush => .flush
  | .start => .start
  | .stop => .stop
  | .queryCtx => .queryCtx
  | .querySrc => .querySrc
  | .queryPool => .queryPool
  | .clearLoss => .clearLoss

/-- The command that a word written to CMD names: bits 15..8 zero and bits 7..0 its code (spec 11 R182). -/
def commandOfWord (w : Word) : Option HostCommand := HostCommand.all.find? fun c => w == c.code.setWidth 16

/-- A write to CMD: the command that its word names, or the row of a word that names none (spec 11 R182). -/
def rowOfCmdWord (w : Word) : Instr :=
  match commandOfWord w with
  | some c => c.row
  | none => .badCommand w

/-- The row of a host write: CMD, an argument register, a mask, the enables, or a register that ignores it (spec 11 11.3, R182 to
R185). -/
def rowOfWrite (a : RegAddr) (w : Word) : Instr :=
  match a.toNat with
  | 0x00 => rowOfCmdWord w
  | 0x02 => .cmdArg 0 w
  | 0x03 => .cmdArg 1 w
  | 0x04 => .cmdArg 2 w
  | 0x05 => .cmdArg 3 w
  | 0x06 => .cmdArg 4 w
  | 0x07 => .cmdArg 5 w
  | 0x25 => .evtMaskWrite 0 w
  | 0x26 => .evtMaskWrite 1 w
  | 0x28 => .irqEn w
  | _ => .ignoredWrite a w

/-- The row of a host read, for the four registers whose read has a side effect (spec 11 11.3); every other read is the word of
`State.readWord` and changes nothing (log 17). -/
def rowOfRead (a : RegAddr) : Option Instr :=
  match a.toNat with
  | 0x01 => some .cmdResult
  | 0x10 => some .msgHead0
  | 0x14 => some .data
  | 0x20 => some .evtPop
  | _ => none

/-- No row of spec/opcode_table.json gives bits: no table word spells a command. What a word on the host bus names is `rowOfWrite`
(log 15). -/
def decodeTableWord (_nbits _w : Nat) : Option Instr := none

end Sys2Proof
end

