-- ==== Sys2Proof/Machine/State.lean ====
section
/-! DEFINITION. The state of the HZ440 as plain data, block by block, and the part right after reset. -/

namespace Sys2Proof.Machine

/-! ## The reassembly context table (spec 01) -/

/-- Class of a message (spec 00 4.6). -/
inductive MsgClass
  | ordinary | urgent
  deriving DecidableEq, Repr

/-- The five states of a context record (spec 01 1.2). -/
inductive CtxState
  | free | collecting | verifying | ready | delivering
  deriving DecidableEq, Repr

/-- A present slot of a segment map (spec 01 R2). -/
structure Slot where
  length : Nat
  first : Nat
  cells : Nat
  line : LineNo
  deriving DecidableEq, Repr

/-- A context record (spec 01 R1). `chain` is the cell chain in link order: its first element is the head, its last the tail,
its length the cell count (log 5). -/
structure Ctx where
  state : CtxState
  source : Byte
  msgno : MsgNo
  cls : MsgClass
  lastIndex : Option SegIndex
  checkWord : Option Word32
  slots : Vector (Option Slot) 64
  chain : List Nat
  presentCount : Nat
  byteCount : Nat
  replyLine : LineNo
  lineMask : LineMask
  retries : Nat
  idle : Nat
  lifetime : Nat
  starved : Bool
  dupCount : Nat
  abortPending : Bool
  deriving DecidableEq, Repr

/-- The cleared values of a record (spec 01 R5). -/
def Ctx.cleared : Ctx :=
  { state := .free, source := 0, msgno := 0, cls := .ordinary, lastIndex := none, checkWord := none,
    slots := Vector.replicate 64 none, chain := [], presentCount := 0, byteCount := 0, replyLine := 0, lineMask := 0,
    retries := 0, idle := 0, lifetime := 0, starved := false, dupCount := 0, abortPending := false }

/-! ## The cell pool (spec 02) -/

/-- The payload bytes of the cells: (address, byte) pairs, addresses rising, none equal to the unwritten byte. Cell c byte o is
at address 32 * c + o (log 4). -/
abbrev Memory := List Host.Cell

/-- The canonical form of the payload bytes: addresses strictly rising, no entry that reads as an unlisted address does. -/
def Memory.wf : Memory → Bool
  | [] => true
  | [c] => c.2 != Config.unwrittenByte
  | c :: d :: rest => c.2 != Config.unwrittenByte && c.1 < d.1 && Memory.wf (d :: rest)

/-- The cell pool. `freeList` is the free list in link order: head first; its length is the free count (spec 02 R33, log 5). -/
structure CellPool where
  mem : Memory
  freeList : List Nat
  reserve : Nat
  deriving DecidableEq, Repr

/-! ## The source table (spec 03) -/

/-- The four states of a source entry (spec 03 R59). -/
inductive SourceState
  | unused | enabled | suspended | removing
  deriving DecidableEq, Repr

/-- A record of a source's history (spec 03 R66). -/
structure HistRec where
  msgno : MsgNo
  credit : Nat
  deriving DecidableEq, Repr

/-- A source entry (spec 03 R59); its history is oldest first. -/
structure SourceEntry where
  state : SourceState
  address : Byte
  maxSegs : Nat
  openLimit : Nat
  urgentOk : Bool
  openCount : Nat
  history : List HistRec
  deriving DecidableEq, Repr

/-- The values of an UNUSED entry (spec 03 R59). -/
def SourceEntry.cleared : SourceEntry :=
  { state := .unused, address := 0, maxSegs := 1, openLimit := 1, urgentOk := false, openCount := 0, history := [] }

/-! ## The reassembly timer (spec 04) -/

/-- One set of timing settings; `lifetime` in units of 100 ms (spec 04 R70). -/
structure Timing where
  gap : Nat
  retryLimit : Nat
  lifetime : Nat
  deriving DecidableEq, Repr

/-- The timer: the settings of both classes; for each record whether a tick has left it due and its decision is still to be taken
(spec 04 R70, R74; log 7); and whether STOP found that decision not yet taken, which then waits for the first tick of the next RUN
(R75). -/
structure Timer where
  ordinary : Timing
  urgent : Timing
  owed : Vector Bool 32
  deferred : Vector Bool 32
  deriving DecidableEq, Repr

/-! ## The check engine (spec 05) -/

/-- A walk position: the slot index being read, the cell of that slot (1 is its first) and how many of the slot's bytes have
been taken (spec 05 R87, 08 R137). -/
structure Walk where
  slot : SegIndex
  cell : Nat
  taken : Nat
  deriving DecidableEq, Repr

/-- The check engine's state, with the running CRC and the walk position, which are present only out of IDLE (spec 05 R87). -/
inductive EngineState
  | idle
  | checking (crc : Word32) (walk : Walk)
  | stopPending (crc : Word32) (walk : Walk)
  deriving DecidableEq, Repr

/-- The check engine with the Check Queue, head first (spec 05 R85, R87). -/
structure Checker where
  queue : List CtxNo
  engine : EngineState
  deriving DecidableEq, Repr

/-! ## Lines and transmitters (spec 06, 07) -/

/-- Line states (spec 07 7.1). -/
inductive LineState
  | off | on | closing | faulted
  deriving DecidableEq, Repr

/-- Receiver states (spec 07 7.4). -/
inductive RxState
  | hunt | frame | escape
  deriving DecidableEq, Repr

/-- Transmitter states (spec 06 6.5). -/
inductive TxState
  | idle | sending | aborting
  deriving DecidableEq, Repr

/-- Refusal reasons of a REFUSAL frame (spec 06 R101). -/
inductive Reason
  | busy | evicted | timeout | check | suspended | tooLong | aborted
  deriving DecidableEq, Repr

/-- The fields of a control frame beyond its key, by kind (spec 06 R101). -/
inductive CtrlBody
  | gap (tail : Bool) (reference : SegIndex) (missing : List SegIndex)
  | receipt (length : Nat) (count : Nat)
  | refusal (reason : Reason) (segIndex : Byte)
  deriving DecidableEq, Repr

/-- A control frame queue entry (spec 06 R101). -/
structure CtrlFrame where
  dest : Byte
  msgno : MsgNo
  body : CtrlBody
  deriving DecidableEq, Repr

/-- One line with its receiver, its waiting frame buffers (first completed first) and its transmitter (spec 07, 06). `wire` is
the run of line bytes the transmitter is sending; none while TXD rests at mark. -/
structure LineUnit where
  state : LineState
  divisor : Nat
  threshold : Nat
  rx : RxState
  assembly : List Byte
  awaitMark : Bool
  badCount : Nat
  buffers : List (List Byte)
  tx : TxState
  queue : List CtrlFrame
  wire : List Byte
  deriving DecidableEq, Repr

/-- A line after hardware reset (spec 07 R118 and the paragraph after it; `awaitMark`: log 10). -/
def LineUnit.reset : LineUnit :=
  { state := .off, divisor := 139, threshold := 8, rx := .hunt, assembly := [], awaitMark := false, badCount := 0,
    buffers := [], tx := .idle, queue := [], wire := [] }

/-! ## The readout port (spec 08) -/

/-- The readout state; the held context and the walk position are present only in HELD (spec 08 8.2). -/
inductive Port
  | none
  | held (ctx : CtxNo) (walk : Walk)
  | lost
  deriving DecidableEq, Repr

/-- The head record of the message last claimed (spec 08 8.2). -/
structure HeadRec where
  ctx : CtxNo
  cls : MsgClass
  source : Byte
  msgno : MsgNo
  length : Nat
  deriving DecidableEq, Repr

/-- The cleared head record (spec 08 R137). -/
def HeadRec.cleared : HeadRec := { ctx := 0, cls := .ordinary, source := 0, msgno := 0, length := 0 }

/-- The readout port (spec 08 8.2). -/
structure Readout where
  port : Port
  head : HeadRec
  remaining : Nat
  deriving DecidableEq, Repr

/-- The port with nothing claimed (spec 08 R137). -/
def Readout.cleared : Readout := { port := .none, head := .cleared, remaining := 0 }

/-! ## The command unit (spec 09) -/

/-- Global modes (spec 09 9.3). -/
inductive Mode
  | config | run | stopping
  deriving DecidableEq, Repr

/-- Result codes (spec 09 R155). -/
inductive Result
  | ok | badCommand | badArgument | wrongMode | noSuchSource | sourceExists | tableFull | noSuchContext | notHeld | lineState
  deriving DecidableEq, Repr

/-- A command in flight, with the arguments copied at its acceptance that it still needs (spec 09 R151, R156), and for the
commands that count them the records freed so far. -/
inductive Waiting
  | stop
  | lineOff (l : LineNo)
  | srcRemove (address : Byte) (freed : Nat)
  | ctxAbort (n : CtxNo) (notify : Bool)
  | flush (freed : Nat)
  deriving DecidableEq, Repr

/-- Command states (spec 09 9.2). -/
inductive CmdState
  | idle
  | busy (w : Waiting)
  deriving DecidableEq, Repr

/-- The command unit (spec 09 R150). -/
structure CommandUnit where
  state : CmdState
  mode : Mode
  station : Byte
  learn : Bool
  refused : Bool
  done : Bool
  lastAccepted : Byte
  lastCompleted : Byte
  lastResult : Result
  args : Vector Word 6
  results : Vector Word 6
  deriving DecidableEq, Repr

/-- The command unit after hardware reset (spec 09 R150). -/
def CommandUnit.reset : CommandUnit :=
  { state := .idle, mode := .config, station := 0, learn := false, refused := false, done := false, lastAccepted := 0,
    lastCompleted := 0, lastResult := .ok, args := Vector.replicate 6 0, results := Vector.replicate 6 0 }

/-! ## The event queue and interrupt output (spec 10) -/

/-- The 21 event kinds (spec 10 10.2). -/
inductive EventKind
  | msgReady | ctxOpened | ctxExpired | ctxEvicted | ctxAborted | checkFailed | refused | conflict | dupDropped | poolShort
  | gapSent | txDropped | lineError | lineFault | rxOverrun | malformed | unknownSource | sourceLearned | foreign
  | unexpectedKind | readoutLost
  deriving DecidableEq, Repr

/-- An event record (spec 10 R172); the detail is encoded as 11 11.7 gives it. -/
structure EventRec where
  kind : EventKind
  line : Option LineNo
  ctx : Option CtxNo
  source : Option Byte
  msgno : Option MsgNo
  detail : Word
  deriving DecidableEq, Repr

/-- The latches of the record last popped (spec 10 R176). -/
structure Latches where
  ctx : Option CtxNo
  source : Option Byte
  msgno : Option MsgNo
  detail : Word
  deriving DecidableEq, Repr

/-- The latches after reset and after a pop of the empty queue: they read 0 (spec 10 R176). -/
def Latches.cleared : Latches := { ctx := none, source := none, msgno := none, detail := 0 }

/-- The event block (spec 10). In the mask a set bit masks its kind. -/
structure EventBlock where
  queue : List EventRec
  mask0 : BitVec 16
  mask1 : BitVec 5
  loss : Nat
  overflow : Bool
  latches : Latches
  irqEn : BitVec 3
  deriving DecidableEq, Repr

/-- The event block after hardware reset (spec 10 R179, 11 11.3). -/
def EventBlock.reset : EventBlock :=
  { queue := [], mask0 := 0x1502, mask1 := 0x0C, loss := 0, overflow := false, latches := .cleared, irqEn := 0 }

/-! ## The machine -/

/-- Pins that hold something: RSTN low, and the word the last read with a side effect drove on D15..D0 (spec 11 11.9;
logs 3 and 6). -/
structure Pins where
  rstnLow : Bool
  dataOut : Option Word
  deriving DecidableEq, Repr

/-- The whole state. `cutSeq` is the model's own counter for the free value `Config.cutPosition` (log 9); `pending` is the queue
of commands waiting, first in first out. -/
structure State where
  ctxs : Vector Ctx 32
  ageList : List CtxNo
  pool : CellPool
  rotation : LineNo
  sources : Vector SourceEntry 64
  timer : Timer
  checker : Checker
  delivery : List CtxNo
  lines : Vector LineUnit 4
  readout : Readout
  cmd : CommandUnit
  ev : EventBlock
  pins : Pins
  cutSeq : Nat
  pending : List Instr
  deriving DecidableEq, Repr

/-- No command of the HZ440 stops the part with a fault: the spec reports every failure as a result code, an event, a refusal
frame or a line state, each a next state. -/
inductive Fault
  deriving DecidableEq, Repr

/-- Why a command has no meaning. -/
inductive Refusal
  /-- Raised by a refused arm of exec, by name. No arm is refused. -/
  | notModelled (mnemonic : String)
  /-- Raised by BAD_COMMAND and IGNORED_WRITE on a term that is not well formed: the word names a command, or the register can
  be written, so the access is another row's. Safe: the model stops where that other row has the meaning (log 13). -/
  | illFormed (mnemonic : String)
  deriving DecidableEq, Repr

/-- The outcome of a command. -/
abbrev Out := Host.Outcome State Fault Refusal

/-- The machine right after reset: every register at the value the spec states for hardware reset, RSTN high again (log 3). -/
def State.reset : State :=
  { ctxs := Vector.replicate 32 .cleared
    ageList := []
    pool := { mem := [], freeList := List.range' 0 Config.poolCells, reserve := 64 }
    rotation := 3
    sources := Vector.replicate 64 .cleared
    timer :=
      { ordinary := { gap := 200, retryLimit := 3, lifetime := 50 }
        urgent := { gap := 50, retryLimit := 5, lifetime := 20 }
        owed := Vector.replicate 32 false
        deferred := Vector.replicate 32 false }
    checker := { queue := [], engine := .idle }
    delivery := []
    lines := Vector.replicate 4 .reset
    readout := .cleared
    cmd := .reset
    ev := .reset
    pins := { rstnLow := false, dataOut := none }
    cutSeq := 0
    pending := [] }

end Sys2Proof.Machine
end

