-- ==== Sys2Proof/Machine/Flags.lean ====
section
/-! DEFINITION. Check words, code points, event masks and details, interrupt sources, and the words of the status registers. -/

namespace Sys2Proof.Machine

/-! ## Check computations -/

/-- One shift of the frame check's register (spec 07 R121). -/
def crc16Shift (r : Word) : Word := if r.msb then (r <<< 1) ^^^ 0x1021 else r <<< 1

/-- One byte into the frame check's register: XORed into the high eight bits, then eight shifts (spec 07 R121). -/
def crc16Byte (r : Word) (b : Byte) : Word := crc16Shift^[8] (r ^^^ (b.setWidth 16 <<< 8))

/-- The frame check over a run of content bytes (spec 06 R102, 07 R121). -/
def frameCheck (content : List Byte) : Word := content.foldl crc16Byte 0xFFFF

/-- One shift of the message check word's register, towards its least significant bit (spec 05 R90). -/
def crc32Shift (r : Word32) : Word32 := if r.getLsbD 0 then (r >>> 1) ^^^ 0xEDB88320 else r >>> 1

/-- One byte into the message check word's register (spec 05 R90). -/
def crc32Byte (r : Word32) (b : Byte) : Word32 := crc32Shift^[8] (r ^^^ b.setWidth 32)

/-- A run of bytes folded into the running CRC (spec 05 R89, R90). -/
def crc32Fold (r : Word32) (bytes : List Byte) : Word32 := bytes.foldl crc32Byte r

/-- The running CRC's first value, and the value XORed in at the end (spec 05 R88, R90). -/
def crc32Ones : Word32 := 0xFFFFFFFF

/-- The message check word of a payload (spec 05 R90). -/
def messageCheck (payload : List Byte) : Word32 := crc32Fold crc32Ones payload ^^^ crc32Ones

/-! ## Code points -/

/-- A flag at bit k of a register word. -/
def flagAt (b : Bool) (k : Nat) : Word := if b then 1 <<< k else 0

/-- A number in a register word, from bit k upwards. -/
def numAt (n : Nat) (k : Nat) : Word := BitVec.ofNat 16 n <<< k

/-- spec 11 11.4: 0 ordinary, 1 urgent. -/
def MsgClass.code : MsgClass → Nat
  | .ordinary => 0
  | .urgent => 1

/-- spec 11 11.4. -/
def CtxState.code : CtxState → Nat
  | .free => 0
  | .collecting => 1
  | .verifying => 2
  | .ready => 3
  | .delivering => 4

/-- spec 11 11.4. -/
def SourceState.code : SourceState → Nat
  | .unused => 0
  | .enabled => 1
  | .suspended => 2
  | .removing => 3

/-- spec 11 11.4. -/
def LineState.code : LineState → Nat
  | .off => 0
  | .on => 1
  | .closing => 2
  | .faulted => 3

/-- spec 11 11.4. -/
def TxState.code : TxState → Nat
  | .idle => 0
  | .sending => 1
  | .aborting => 2

/-- spec 11 11.4. -/
def Mode.code : Mode → Nat
  | .config => 0
  | .run => 1
  | .stopping => 2

/-- spec 09 R155. -/
def Result.code : Result → Nat
  | .ok => 0
  | .badCommand => 1
  | .badArgument => 2
  | .wrongMode => 3
  | .noSuchSource => 4
  | .sourceExists => 5
  | .tableFull => 6
  | .noSuchContext => 7
  | .notHeld => 8
  | .lineState => 9

/-- spec 06 R102, 11 11.6. -/
def Reason.code : Reason → Nat
  | .busy => 1
  | .evicted => 2
  | .timeout => 3
  | .check => 4
  | .suspended => 5
  | .tooLong => 6
  | .aborted => 7

/-- Kind bytes of the control frames (spec 06 R102). -/
def CtrlBody.kindByte : CtrlBody → Byte
  | .gap _ _ _ => 0xB2
  | .receipt _ _ => 0xB3
  | .refusal _ _ => 0xB4

/-- spec 10 10.2. -/
def EventKind.code : EventKind → Nat
  | .msgReady => 0x01
  | .ctxOpened => 0x02
  | .ctxExpired => 0x03
  | .ctxEvicted => 0x04
  | .ctxAborted => 0x05
  | .checkFailed => 0x06
  | .refused => 0x07
  | .conflict => 0x08
  | .dupDropped => 0x09
  | .poolShort => 0x0A
  | .gapSent => 0x0B
  | .txDropped => 0x0C
  | .lineError => 0x0D
  | .lineFault => 0x0E
  | .rxOverrun => 0x0F
  | .malformed => 0x10
  | .unknownSource => 0x11
  | .sourceLearned => 0x12
  | .foreign => 0x13
  | .unexpectedKind => 0x14
  | .readoutLost => 0x15

/-- Whether a kind is masked (spec 10 R175, 11 11.3: bit k - 1 of EVT_MASK0, bit k - 0x11 of EVT_MASK1). -/
def EventBlock.masks (ev : EventBlock) (k : EventKind) : Bool :=
  if k.code ≤ 0x10 then ev.mask0.getLsbD (k.code - 1) else ev.mask1.getLsbD (k.code - 0x11)

/-! ## Details of the event records (spec 11 11.7) -/

/-- Why a record expires (spec 04 R76). -/
inductive ExpiryCause
  | idle | lifetime
  deriving DecidableEq, Repr

/-- Why a record is evicted (spec 01 R12, 02 R42). -/
inductive EvictCause
  | slot | cells
  deriving DecidableEq, Repr

/-- Why a received frame ends without delivery (spec 07 R125). -/
inductive LineReason
  | symbol | escape | overlength | runt | check | aborted
  deriving DecidableEq, Repr

/-- Why a segment conflicts with its record (spec 01 R16, R17). -/
inductive ConflictKind
  | length | last | beyondLast
  deriving DecidableEq, Repr

/-- Why a segment is a duplicate (spec 01 R17, 03 R57, R58). -/
inductive DupKind
  | stored | answered | silent | late
  deriving DecidableEq, Repr

/-- Why a header is malformed (spec 03 R52). -/
inductive HeaderFault
  | source | flags | index | length | size
  deriving DecidableEq, Repr

/-- Why the held message was lost (spec 08 R146). -/
inductive LossCause
  | abort | remove | flush
  deriving DecidableEq, Repr

def LineReason.code : LineReason → Nat
  | .symbol => 1
  | .escape => 2
  | .overlength => 3
  | .runt => 4
  | .check => 5
  | .aborted => 6

def EvictCause.code : EvictCause → Nat
  | .slot => 1
  | .cells => 2

def ConflictKind.code : ConflictKind → Nat
  | .length => 1
  | .last => 2
  | .beyondLast => 3

def DupKind.code : DupKind → Nat
  | .stored => 1
  | .answered => 2
  | .silent => 3
  | .late => 4

def HeaderFault.code : HeaderFault → Nat
  | .source => 1
  | .flags => 2
  | .index => 3
  | .length => 4
  | .size => 5

def LossCause.code : LossCause → Nat
  | .abort => 1
  | .remove => 2
  | .flush => 3

/-- CTX_EXPIRED: bit 0 cause, bit 1 starved flag. -/
def expiredDetail (cause : ExpiryCause) (starved : Bool) : Word := flagAt (cause == .lifetime) 0 ||| flagAt starved 1

/-- CTX_ABORTED: bits 2..0 state freed from, bit 4 notify. -/
def abortedDetail (st : CtxState) (notify : Bool) : Word := numAt st.code 0 ||| flagAt notify 4

/-- GAP_SENT: bits 2..0 retries used, bit 4 TAIL. -/
def gapSentDetail (retries : Nat) (tail : Bool) : Word := numAt retries 0 ||| flagAt tail 4

/-- TX_DROPPED: bits 1..0 cause (1 NO_LINE, 2 QUEUE_FULL), bits 15..8 the frame's kind byte. -/
def txDroppedDetail (queueFull : Bool) (kind : Byte) : Word :=
  numAt (if queueFull then 2 else 1) 0 ||| (kind.setWidth 16 <<< 8)

/-- LINE_ERROR: bits 2..0 reason, bits 11..8 the consecutive-bad counter after the frame. -/
def lineErrorDetail (r : LineReason) (count : Nat) : Word := numAt r.code 0 ||| numAt count 8

/-! ## Interrupt output (spec 10 R180) -/

/-- EVT holds while the event queue holds a record. -/
def State.evtHolds (s : State) : Bool := !s.ev.queue.isEmpty

/-- DLV holds while the delivery queue holds a record. -/
def State.dlvHolds (s : State) : Bool := !s.delivery.isEmpty

/-- CMD holds while the command-done flag is set. -/
def State.cmdHolds (s : State) : Bool := s.cmd.done

/-- IRQN is asserted (driven low) while a source is holding and enabled; it is high while RSTN is low (spec 10 R180). -/
def State.irqAsserted (s : State) : Bool :=
  !s.pins.rstnLow &&
    ((s.evtHolds && s.ev.irqEn.getLsbD 0) || (s.dlvHolds && s.ev.irqEn.getLsbD 1) || (s.cmdHolds && s.ev.irqEn.getLsbD 2))

/-! ## Status words (spec 11 11.4) -/

def CmdState.isBusy : CmdState → Bool
  | .idle => false
  | .busy _ => true

/-- The CMD read word. -/
def CommandUnit.statusWord (c : CommandUnit) : Word :=
  flagAt c.state.isBusy 0 ||| numAt c.mode.code 1 ||| flagAt c.refused 3 ||| flagAt c.done 4 |||
    (c.lastAccepted.setWidth 16 <<< 8)

/-- The CMD_RESULT read word. -/
def CommandUnit.resultWord (c : CommandUnit) : Word :=
  numAt c.lastResult.code 0 ||| (c.lastCompleted.setWidth 16 <<< 8)

/-- The LINE_STATn read word. -/
def LineUnit.statusWord (u : LineUnit) : Word :=
  numAt u.state.code 0 ||| numAt u.tx.code 2 ||| numAt u.badCount 4 ||| numAt u.buffers.length 8

/-- The EVT_STAT read word. -/
def EventBlock.statusWord (ev : EventBlock) : Word :=
  numAt ev.queue.length 0 ||| flagAt ev.overflow 7 ||| numAt ev.loss 8

/-- The IRQ_STAT read word. -/
def State.irqStatusWord (s : State) : Word :=
  flagAt s.evtHolds 0 ||| flagAt s.dlvHolds 1 ||| flagAt s.cmdHolds 2 ||| flagAt s.irqAsserted 3

/-- The EVT_POP read word for the queue as it stands (spec 10 R176). -/
def EventBlock.popWord (ev : EventBlock) : Word :=
  match ev.queue with
  | [] => flagAt ev.overflow 1
  | e :: _ =>
    flagAt true 0 ||| flagAt ev.overflow 1 ||| flagAt e.line.isSome 2 ||| numAt ((e.line.map Fin.val).getD 0) 3 |||
      numAt e.kind.code 8

/-- The EVT_CTXSRC read word. -/
def Latches.ctxSrcWord (t : Latches) : Word :=
  (t.source.getD 0).setWidth 16 ||| numAt ((t.ctx.map Fin.val).getD 0) 8 ||| flagAt t.ctx.isSome 15

/-- The EVT_MSGNO read word. -/
def Latches.msgnoWord (t : Latches) : Word := (t.msgno.getD 0).setWidth 16 ||| flagAt t.msgno.isSome 15

/-- The MSG_HEAD0 read word of a claimed or lost message. -/
def headWord (valid lost : Bool) (cls : MsgClass) (n : CtxNo) : Word :=
  flagAt valid 0 ||| flagAt lost 1 ||| numAt cls.code 2 ||| numAt n.val 8

end Sys2Proof.Machine
end

