-- ==== Sys2Proof/Machine/Operands.lean ====
section
/-! DEFINITION. What commands and frames carry: argument ranges, the fields of a segment frame, the bytes of a control frame, the
framing on the line and the receiver's reading of it. -/

namespace Sys2Proof.Machine

/-! ## Command arguments (spec 09 R151, 9.4; 11 R183: the whole word is tested as one number) -/

/-- A word in lo..hi as a number. -/
def natArg (lo hi : Nat) (w : Word) : Option Nat := if lo ≤ w.toNat ∧ w.toNat ≤ hi then some w.toNat else none

/-- A node or station address, 1..254. -/
def addressArg (w : Word) : Option Byte := (natArg 1 254 w).map fun _ => w.setWidth 8

/-- An on or off argument, 0..1. -/
def boolArg (w : Word) : Option Bool := (natArg 0 1 w).map (· == 1)

/-- A class argument, 0 ordinary, 1 urgent. -/
def classArg (w : Word) : Option MsgClass := (boolArg w).map fun u => if u then .urgent else .ordinary

/-- A line number, 0..3. -/
def lineArg (w : Word) : Option LineNo := if h : w.toNat < 4 then some ⟨w.toNat, h⟩ else none

/-- A context number, 0..31. -/
def ctxArg (w : Word) : Option CtxNo := if h : w.toNat < 32 then some ⟨w.toNat, h⟩ else none

/-- A segment index, 0..63. -/
def indexArg (w : Word) : Option SegIndex := if h : w.toNat < 64 then some ⟨w.toNat, h⟩ else none

/-! ## The segment frame (spec 11 11.1) -/

/-- Content byte k of a frame. -/
def byteAt (content : List Byte) (k : Nat) : Byte := content.getD k 0

/-- The two-byte message number field's number: bits 3..0 of the first byte, then the second. -/
def fieldMsgno (hi lo : Byte) : MsgNo := (hi.setWidth 4 ++ lo : BitVec 12)

/-- An address of a node lies in 1..254 (spec 00 4.6). -/
def validAddress (b : Byte) : Bool := b != 0 && b != 0xFF

/-- Cells that n payload bytes need: ceil(n / 32) (spec 02 R35). -/
def cellsFor (n : Nat) : Nat := (n + 31) / 32

/-- Offset of the payload: 7, or 11 with the check word of a LAST segment. -/
def payloadOffset (last : Bool) : Nat := if last then 11 else 7

/-- The header tests of admission's third check, in order; the first that fails (spec 03 R52). -/
def headerFault (content : List Byte) : Option HeaderFault :=
  if !validAddress (byteAt content 2) then some .source
  else if (byteAt content 3).getLsbD 7 || (byteAt content 3).getLsbD 6 then some .flags
  else if (byteAt content 5).getLsbD 7 || (byteAt content 5).getLsbD 6 then some .index
  else if (byteAt content 6).toNat < 1 ∨ 128 < (byteAt content 6).toNat then some .length
  else if content.length ≠ payloadOffset ((byteAt content 3).getLsbD 4) + (byteAt content 6).toNat + 2 then some .size
  else none

/-- A segment as admission hands it on: arrival line, key, flags, index, length, check word (with LAST) and payload. -/
structure Segment where
  line : LineNo
  source : Byte
  msgno : MsgNo
  last : Bool
  urg : Bool
  index : SegIndex
  length : Nat
  checkWord : Word32
  payload : List Byte
  deriving DecidableEq, Repr

/-- The segment of a frame whose header is valid (spec 11 11.1; the check word low byte first, 00 4.2). -/
def parseSegment (l : LineNo) (content : List Byte) : Segment :=
  let last := (byteAt content 3).getLsbD 4
  { line := l
    source := byteAt content 2
    msgno := fieldMsgno (byteAt content 3) (byteAt content 4)
    last := last
    urg := (byteAt content 3).getLsbD 5
    index := ((byteAt content 5).setWidth 6).toFin
    length := (byteAt content 6).toNat
    checkWord := byteAt content 10 ++ byteAt content 9 ++ byteAt content 8 ++ byteAt content 7
    payload := (content.drop (payloadOffset last)).take (byteAt content 6).toNat }

/-! ## Control frames (spec 06 R102, 11 11.2) -/

/-- The high byte of a word. -/
def hiByte (w : Word) : Byte := (w >>> 8).setWidth 8

/-- The low byte of a word. -/
def loByte (w : Word) : Byte := w.setWidth 8

/-- Byte k of the missing-index map: bit j stands for index 8 * k + j. -/
def mapByte (missing : List SegIndex) (k : Nat) : Byte :=
  (List.range 8).foldl (fun acc j => if missing.any (fun i => i.val == 8 * k + j) then acc ||| (1 <<< j) else acc) 0

/-- The TAIL flag as the message number field carries it. -/
def CtrlBody.tailFlag : CtrlBody → Bool
  | .gap tail _ _ => tail
  | .receipt _ _ => false
  | .refusal _ _ => false

/-- The body bytes of a control frame. -/
def CtrlBody.bytes : CtrlBody → List Byte
  | .gap _ reference missing => BitVec.ofNat 8 reference.val :: (List.range 8).map (mapByte missing)
  | .receipt length count => [hiByte (BitVec.ofNat 16 length), loByte (BitVec.ofNat 16 length), BitVec.ofNat 8 count]
  | .refusal reason segIndex => [BitVec.ofNat 8 reason.code, segIndex]

/-- The content bytes before the frame check: common header, then body. -/
def CtrlFrame.headed (f : CtrlFrame) (station : Byte) : List Byte :=
  [f.body.kindByte, station, f.dest,
    hiByte (f.msgno.setWidth 16) ||| (if f.body.tailFlag then 0x10 else 0), loByte (f.msgno.setWidth 16)] ++ f.body.bytes

/-- A run of content bytes with its frame check behind it, most significant byte first. -/
def withFrameCheck (content : List Byte) : List Byte :=
  content ++ [hiByte (frameCheck content), loByte (frameCheck content)]

/-- The content bytes of a control frame, frame check included, with the station address of the moment it starts. -/
def CtrlFrame.content (f : CtrlFrame) (station : Byte) : List Byte := withFrameCheck (f.headed station)

/-- One content byte on the line (spec 06 R103, 07 7.3). -/
def stuffByte (b : Byte) : List Byte := if b = Config.DELIM ∨ b = Config.ESC then [Config.ESC, b ^^^ 0x80] else [b]

/-- The content bytes of a frame on the line. -/
def stuff (content : List Byte) : List Byte := content.flatMap stuffByte

/-- The line bytes of a frame: opening DELIM, stuffed content, closing DELIM (spec 06 R103). -/
def frameOnLine (content : List Byte) : List Byte := Config.DELIM :: (stuff content ++ [Config.DELIM])

/-- The abort sequence behind the byte that was on the wire (spec 06 R113, R115). Which byte that was is a free value (log 9). -/
def abortOnLine (wire : List Byte) (seq : Nat) : List Byte :=
  (wire[Config.cutPosition seq % wire.length]?).toList ++ [Config.ESC, Config.DELIM]

/-- Bit times of one line byte in 8N1 form (spec 07 R119). -/
def lineByteBits : Nat := 10

/-- REFCLK cycles (16 MHz) that a run of line bytes takes on a line with this divisor (spec 06 R103, 07 R119). -/
def wireCycles (divisor : Nat) (wire : List Byte) : Nat := wire.length * lineByteBits * divisor

/-- A line byte on the wire in 8N1 form, mark being true: start bit at space, data bits least significant first, stop bit at
mark (spec 07 R119). -/
def lineBits (b : Byte) : List Bool := false :: ((List.range 8).map b.getLsbD ++ [true])

/-- What the receiver's samples give: noise where the start sample is back at mark, else the byte's value and whether its stop
bit was good (spec 07 R120). -/
def sampledByte (startMark : Bool) (bits : Vector Bool 8) (stopMark : Bool) : Option (Byte × Bool) :=
  if startMark then none
  else some ((List.finRange 8).foldl (fun acc i => if bits[i] then acc ||| (1 <<< i.val) else acc) 0, stopMark)

/-! ## The receiver (spec 07 7.4) -/

/-- What one received byte makes of the receiver's state and the frame being assembled. -/
inductive RxResult
  /-- The receiver goes on in this state with this assembly. -/
  | stay (rx : RxState) (assembly : List Byte)
  /-- The frame ends without delivery. -/
  | drop (reason : LineReason)
  /-- The frame is good. -/
  | good (content : List Byte)
  deriving DecidableEq, Repr

/-- A content byte appended, unless it is one too many (spec 07 R123). -/
def appendContent (assembly : List Byte) (b : Byte) : RxResult :=
  if assembly.length < Config.maxContent then .stay .frame (assembly ++ [b]) else .drop .overlength

/-- A frame passes its frame check: the check over all content bytes but the last two equals the value those two hold
(spec 07 R121). -/
def passesFrameCheck (content : List Byte) : Bool :=
  frameCheck (content.take (content.length - 2)) ==
    (byteAt content (content.length - 2) ++ byteAt content (content.length - 1) : BitVec 16)

/-- A DELIM in FRAME (spec 07 R124). -/
def closeFrame (assembly : List Byte) : RxResult :=
  if assembly.length = 0 then .stay .frame []
  else if assembly.length < Config.minContent then .drop .runt
  else if passesFrameCheck assembly then .good assembly
  else .drop .check

/-- One received byte, by the receiver's state (spec 07 R122, R123, the table of 7.4). -/
def rxByte (rx : RxState) (assembly : List Byte) (b : Byte) (stopGood : Bool) : RxResult :=
  match rx with
  | .hunt => if stopGood && b == Config.DELIM then .stay .frame [] else .stay .hunt assembly
  | .frame =>
    if !stopGood then .drop .symbol
    else if b = Config.DELIM then closeFrame assembly
    else if b = Config.ESC then .stay .escape assembly
    else appendContent assembly b
  | .escape =>
    if !stopGood then .drop .symbol
    else if b = 0x55 ∨ b = 0x56 then appendContent assembly (b ^^^ 0x80)
    else if b = Config.DELIM then .drop .aborted
    else .drop .escape

/-! ## Gap requests (spec 04 R78, R79) -/

/-- The highest present index of a record; 0 where none is present, which no COLLECTING record shows. -/
def Ctx.highestPresent (r : Ctx) : SegIndex :=
  (((List.finRange 64).filter fun i => (r.slots[i]).isSome).getLast?).getD 0

/-- The absent indices from 0 to the reference index. -/
def Ctx.missingUpTo (r : Ctx) (reference : SegIndex) : List SegIndex :=
  (List.finRange 64).filter fun i => i ≤ reference && (r.slots[i]).isNone

/-- The GAP body built from a record as it stands. -/
def Ctx.gapBody (r : Ctx) : CtrlBody :=
  match r.lastIndex with
  | some last => .gap false last (r.missingUpTo last)
  | none => .gap true r.highestPresent (r.missingUpTo r.highestPresent)

end Sys2Proof.Machine
end

