-- ==== Sys2Proof/Machine/Ops.lean ====
section
/-! DEFINITION. The named operations every command is built from: registers and tables, payload memory, the cell pool, posting
events, handing over control frames, freeing a record, completing a command. -/

namespace Sys2Proof.Machine

/-! ## Access to the tables -/

/-- Context record n. -/
def State.ctx (s : State) (n : CtxNo) : Ctx := s.ctxs[n]

def State.setCtx (s : State) (n : CtxNo) (r : Ctx) : State := { s with ctxs := s.ctxs.set n r }

/-- Source entry in slot k. -/
def State.source (s : State) (k : SlotNo) : SourceEntry := s.sources[k]

def State.setSource (s : State) (k : SlotNo) (e : SourceEntry) : State := { s with sources := s.sources.set k e }

/-- Line l. -/
def State.line (s : State) (l : LineNo) : LineUnit := s.lines[l]

def State.setLine (s : State) (l : LineNo) (u : LineUnit) : State := { s with lines := s.lines.set l u }

/-- Argument register i. -/
def State.arg (s : State) (i : ArgNo) : Word := s.cmd.args[i]

/-- The timing settings of a class (spec 04 R70). -/
def Timer.settings (t : Timer) : MsgClass → Timing
  | .ordinary => t.ordinary
  | .urgent => t.urgent

/-- The part takes an event only out of reset: while RSTN is low it stands at its reset values (spec 11 11.9; log 3). -/
def awake (s : State) (f : State → State) : Out := .next (if s.pins.rstnLow then s else f s)

/-- Key lookup: the record that is not FREE and holds the key (spec 01 R7). -/
def State.lookupKey (s : State) (source : Byte) (msgno : MsgNo) : Option CtxNo :=
  (List.finRange 32).find? fun n =>
    (s.ctx n).state != .free && (s.ctx n).source == source && (s.ctx n).msgno == msgno

/-- The lowest-numbered FREE record (spec 01 R11). -/
def State.lowestFree (s : State) : Option CtxNo := (List.finRange 32).find? fun n => (s.ctx n).state == .free

/-- Source lookup: the entry that is not UNUSED and holds the address (spec 03 R60). -/
def State.findSource (s : State) (address : Byte) : Option SlotNo :=
  (List.finRange 64).find? fun k => (s.source k).state != .unused && (s.source k).address == address

/-- The lowest-numbered UNUSED slot (spec 03 R60). -/
def State.lowestUnused (s : State) : Option SlotNo := (List.finRange 64).find? fun k => (s.source k).state == .unused

/-- The history record of a message number (spec 03 R66). -/
def SourceEntry.findHistory (e : SourceEntry) (msgno : MsgNo) : Option HistRec :=
  e.history.find? fun h => h.msgno == msgno

/-- The record under check: the head of the Check Queue while the engine is out of IDLE (spec 05 R86). -/
def State.underCheck (s : State) : Option CtxNo :=
  match s.checker.engine with
  | .idle => none
  | .checking _ _ => s.checker.queue.head?
  | .stopPending _ _ => s.checker.queue.head?

/-! ## Payload memory (spec 02 R31, R36; log 4) -/

/-- One byte of the pool's storage. -/
def Memory.read : Memory → Nat → Byte
  | [], _ => Config.unwrittenByte
  | c :: rest, a => if c.1 = a then c.2 else Memory.read rest a

/-- One byte stored, the list kept in canonical form. -/
def Memory.write : Memory → Nat → Byte → Memory
  | [], a, b => if b = Config.unwrittenByte then [] else [(a, b)]
  | c :: rest, a, b =>
    if a < c.1 then (if b = Config.unwrittenByte then c :: rest else (a, b) :: c :: rest)
    else if a = c.1 then (if b = Config.unwrittenByte then rest else (a, b) :: rest)
    else c :: Memory.write rest a b

/-- Bytes stored from an address upwards. -/
def Memory.writeBytes : Memory → Nat → List Byte → Memory
  | m, _, [] => m
  | m, a, b :: rest => Memory.writeBytes (m.write a b) (a + 1) rest

/-- The address of byte o of a cell. -/
def cellAddr (cell o : Nat) : Nat := Config.cellBytes * cell + o

/-- A payload written into its cells, 32 bytes to each but the last (spec 01 R3, 02 R36). -/
def Memory.writeCells : Memory → List Nat → List Byte → Memory
  | m, [], _ => m
  | m, c :: rest, bytes =>
    Memory.writeCells (m.writeBytes (cellAddr c 0) (bytes.take Config.cellBytes)) rest (bytes.drop Config.cellBytes)

/-- n bytes of a cell from byte o on. -/
def Memory.readCell (m : Memory) (cell o n : Nat) : List Byte := (List.range n).map fun j => m.read (cellAddr cell (o + j))

/-! ## Chains and walks (spec 01 R3, 02 R31) -/

/-- The cell that follows a cell in a list of linked cells: its link there. -/
def nextIn : List Nat → Nat → Option Nat
  | [], _ => none
  | [_], _ => none
  | c :: d :: rest, cell => if c = cell then some d else nextIn (d :: rest) cell

/-- A cell's link: the next cell of the free list or of the chain that holds the cell; none marks the last of its list (spec 02
R31, R33; log 5). -/
def State.link (s : State) (cell : Nat) : Option Nat :=
  if cell ∈ s.pool.freeList then nextIn s.pool.freeList cell
  else ((List.finRange 32).find? fun n => decide (cell ∈ (s.ctx n).chain)).bind fun n => nextIn (s.ctx n).chain cell

/-- The cells of a slot: from its first cell along the chain (spec 01 R3). -/
def Ctx.slotCells (r : Ctx) (sl : Slot) : List Nat := (r.chain.dropWhile (· != sl.first)).take sl.cells

/-- The cell a walk position stands in. -/
def Ctx.walkCell (r : Ctx) (sl : Slot) (cell : Nat) : Nat := (r.slotCells sl).getD (cell - 1) 0

/-- The walk's start: slot 0, its first cell, no byte taken (spec 05 R88, 08 R139). -/
def Walk.start : Walk := { slot := 0, cell := 1, taken := 0 }

/-- The last index a walk runs to. -/
def Ctx.walkEnd (r : Ctx) : SegIndex := r.lastIndex.getD 0

/-- Bytes the cell being read gives the check walk: 32, or what is left of the slot (spec 05 R89). -/
def Ctx.walkBytes (r : Ctx) (m : Memory) (w : Walk) : List Byte :=
  match r.slots[w.slot] with
  | some sl => m.readCell (r.walkCell sl w.cell) 0 (min Config.cellBytes (sl.length - w.taken))
  | none => []

/-- The walk position after the cell being read: the slot's next cell, the next slot's first, or none at the end of the check
(spec 05 R89). -/
def Ctx.walkNext (r : Ctx) (w : Walk) : Option Walk :=
  if w.cell < ((r.slots[w.slot]).map Slot.cells).getD 0 then
    some { w with cell := w.cell + 1, taken := w.taken + Config.cellBytes }
  else if w.slot < r.walkEnd then some { slot := w.slot + 1, cell := 1, taken := 0 }
  else none

/-- The byte a readout walk stands at (spec 08 R142). -/
def Ctx.readoutByte (r : Ctx) (m : Memory) (w : Walk) : Byte :=
  match r.slots[w.slot] with
  | some sl => m.read (cellAddr (r.walkCell sl w.cell) (w.taken % Config.cellBytes))
  | none => 0

/-- The readout walk one byte on: within the slot, or to the next slot's first cell; at the message's last byte it stays in the
last slot with all its bytes delivered (spec 08 R142, R144; log 11). -/
def Ctx.readoutNext (r : Ctx) (w : Walk) : Walk :=
  if w.taken + 1 < ((r.slots[w.slot]).map Slot.length).getD 0 then
    { w with cell := (w.taken + 1) / Config.cellBytes + 1, taken := w.taken + 1 }
  else if w.slot < r.walkEnd then { slot := w.slot + 1, cell := 1, taken := 0 }
  else { w with taken := w.taken + 1 }

/-! ## Posting events (spec 10 R173, R174) -/

def EventBlock.post (ev : EventBlock) (e : EventRec) : EventBlock :=
  if ev.masks e.kind then ev
  else if ev.queue.length < Config.eventQueueCap then { ev with queue := ev.queue ++ [e] }
  else { ev with overflow := true, loss := min 255 (ev.loss + 1) }

def State.post (s : State) (e : EventRec) : State := { s with ev := s.ev.post e }

/-! ## Handing over control frames (spec 06 R104 to R109) -/

/-- A line mask with one more line. -/
def maskWith (m : LineMask) (l : LineNo) : LineMask := m ||| (1 <<< l.val)

/-- Whether a line is ON. -/
def State.lineOn (s : State) (l : LineNo) : Bool := (s.line l).state == .on

/-- The choice of line: the requested line if ON, else the lowest ON line of the mask, else the lowest ON line (spec 06 R104). -/
def State.txLine (s : State) (requested : LineNo) (mask : LineMask) : Option LineNo :=
  if s.lineOn requested then some requested
  else ((List.finRange 4).find? fun l => mask.getLsbD l.val && s.lineOn l).or ((List.finRange 4).find? fun l => s.lineOn l)

/-- Entries of a queue that are on the wire (spec 06 R106). -/
def LineUnit.inFlight (u : LineUnit) : Nat := if u.tx = .sending then 1 else 0

/-- Whether an entry is a GAP for a key. -/
def CtrlFrame.isGapFor (f : CtrlFrame) (dest : Byte) (msgno : MsgNo) : Bool :=
  match f.body with
  | .gap _ _ _ => f.dest == dest && f.msgno == msgno
  | .receipt _ _ => false
  | .refusal _ _ => false

/-- The first GAP for the frame's key replaced by the frame; none if there is none (spec 06 R107). -/
def replaceGap (f : CtrlFrame) : List CtrlFrame → Option (List CtrlFrame)
  | [] => none
  | g :: rest => if g.isGapFor f.dest f.msgno then some (f :: rest) else (replaceGap f rest).map (g :: ·)

/-- The tail of the queue, or none when the queue is full (spec 06 R109, cases 3 and 4). -/
def appendFrame (f : CtrlFrame) (queue : List CtrlFrame) : Option (List CtrlFrame) :=
  if queue.length < Config.txQueueCap then some (queue ++ [f]) else none

/-- The placing of a frame on the chosen queue, whose first `inFlight` entries are on the wire: replaced, merged, at the tail,
or none for a full queue (spec 06 R109). -/
def placeFrame (f : CtrlFrame) (inFlight : Nat) (queue : List CtrlFrame) : Option (List CtrlFrame) :=
  match f.body with
  | .gap _ _ _ =>
    match replaceGap f (queue.drop inFlight) with
    | some waiting => some (queue.take inFlight ++ waiting)
    | none => appendFrame f queue
  | .receipt _ _ => if f ∈ queue.drop inFlight then some queue else appendFrame f queue
  | .refusal _ _ => appendFrame f queue

/-- TX_DROPPED (spec 06 R105, R109). -/
def txDropped (line : Option LineNo) (queueFull : Bool) (f : CtrlFrame) : EventRec :=
  { kind := .txDropped, line := line, ctx := none, source := some f.dest, msgno := some f.msgno,
    detail := txDroppedDetail queueFull f.body.kindByte }

/-- A frame handed to the transmitters (spec 06 R104 to R109). -/
def State.handOver (s : State) (f : CtrlFrame) (requested : LineNo) (mask : LineMask) : State :=
  match s.txLine requested mask with
  | none => s.post (txDropped none false f)
  | some l =>
    match placeFrame f (s.line l).inFlight (s.line l).queue with
    | some queue => s.setLine l { s.line l with queue := queue }
    | none => s.post (txDropped (some l) true f)

/-- A refusal that concerns a record: segment index 0xFF, on its reply line with its line mask (spec 06 R104, 01 R24). -/
def State.refuseCtx (s : State) (r : Ctx) (reason : Reason) : State :=
  s.handOver { dest := r.source, msgno := r.msgno, body := .refusal reason Config.noSegment } r.replyLine r.lineMask

/-! ## Transmitters (spec 06 R113, R114) -/

/-- The receiver stopped: HUNT, nothing in assembly (spec 07 R117, R129; log 10). -/
def LineUnit.rxStopped (u : LineUnit) : LineUnit := { u with rx := .hunt, assembly := [], awaitMark := false }

/-- The queue flushed, a frame on the wire cut by the abort sequence; IDLE stays IDLE and ABORTING goes on (spec 06 R113,
R114). -/
def LineUnit.flushed (u : LineUnit) (seq : Nat) : LineUnit :=
  match u.tx with
  | .sending => { u with queue := [], tx := .aborting, wire := abortOnLine u.wire seq }
  | .idle => { u with queue := [] }
  | .aborting => { u with queue := [] }

/-- A line's queue flushed in the event of LINE_OFF or of a fault (spec 06 R113, R114). -/
def State.flushLine (s : State) (l : LineNo) : State :=
  { s.setLine l ((s.line l).flushed s.cutSeq) with cutSeq := s.cutSeq + 1 }

/-! ## Freeing a record (spec 01 R26, 02 R44) -/

/-- The open count of the source holding an address falls by one, whatever the entry's state (spec 01 R26, 03 R64). -/
def State.lowerOpen (s : State) (address : Byte) : State :=
  match s.findSource address with
  | some k => s.setSource k { s.source k with openCount := (s.source k).openCount - 1 }
  | none => s

/-- Freeing: the chain joins the tail of the free list, the record leaves its collection, its source's open count falls, its
fields take their cleared values (spec 01 R26). The readout port is told by `loseHeld` or by RELEASE. -/
def State.freeCtx (s : State) (n : CtxNo) : State :=
  let r := s.ctx n
  State.setCtx
    (State.lowerOpen
      { s with
        pool := { s.pool with freeList := s.pool.freeList ++ r.chain }
        ageList := s.ageList.erase n
        checker := { s.checker with queue := s.checker.queue.erase n }
        delivery := s.delivery.erase n }
      r.source)
    n .cleared

/-- READOUT_LOST (spec 08 R146). -/
def readoutLostEvent (n : CtxNo) (r : Ctx) (cause : LossCause) : EventRec :=
  { kind := .readoutLost, line := none, ctx := some n, source := some r.source, msgno := some r.msgno,
    detail := numAt cause.code 0 }

/-- The port told that a command frees the DELIVERING record: LOST, the head record kept (spec 08 R146). -/
def State.loseHeld (s : State) (n : CtxNo) (cause : LossCause) : State :=
  if (s.ctx n).state = .delivering then
    State.post { s with readout := { s.readout with port := .lost, remaining := 0 } } (readoutLostEvent n (s.ctx n) cause)
  else s

/-- A record freed by CTX_ABORT, SRC_REMOVE or FLUSH (spec 01 R25, R26). -/
def State.freeByCommand (s : State) (n : CtxNo) (cause : LossCause) : State := (s.loseHeld n cause).freeCtx n

/-- The record under check must be freed: its abort is pending and the engine stops at its cell's completion (spec 05 R94). -/
def State.requestStop (s : State) (n : CtxNo) : State :=
  let t := s.setCtx n { s.ctx n with abortPending := true }
  match s.checker.engine with
  | .checking crc w => { t with checker := { t.checker with engine := .stopPending crc w } }
  | .idle => t
  | .stopPending _ _ => t

/-! ## The command unit (spec 09 R152 to R155) -/

/-- All six result words 0 (spec 09 R154). -/
def noWords : Vector Word 6 := Vector.replicate 6 0

/-- Completion: result code and command code, result words, IDLE, command-done flag (spec 09 R154). -/
def State.complete (s : State) (c : Byte) (r : Result) (words : Vector Word 6) : State :=
  { s with cmd := { s.cmd with lastResult := r, lastCompleted := c, results := words, state := .idle, done := true } }

/-- A command ends with OK and its result words. -/
def State.finish (s : State) (c : HostCommand) (words : Vector Word 6) : State := s.complete c.code .ok words

/-- A command ends with another result: all six words 0 (spec 09 R154). -/
def State.fail (s : State) (c : HostCommand) (r : Result) : State := s.complete c.code r noWords

/-- Acceptance: both flags cleared, the written code recorded (spec 09 R152). -/
def State.accept (s : State) (c : Byte) : State :=
  { s with cmd := { s.cmd with refused := false, done := false, lastAccepted := c } }

/-- A command that must wait: the unit becomes BUSY (spec 09 R152). -/
def State.wait (s : State) (w : Waiting) : State := { s with cmd := { s.cmd with state := .busy w } }

/-- A write of a code to CMD: refused while BUSY (spec 09 R153), else accepted and carried out (R152). -/
def cmdWrite (c : Byte) (carryOut : State → State) (s : State) : State :=
  match s.cmd.state with
  | .busy _ => { s with cmd := { s.cmd with refused := true } }
  | .idle => carryOut (s.accept c)

/-- A write of a command's code to CMD. -/
def hostCommand (c : HostCommand) (carryOut : State → State) (s : State) : Out := awake s (cmdWrite c.code carryOut)

/-- Every transmitter is IDLE. -/
def State.txAllIdle (s : State) : Bool := (List.finRange 4).all fun l => (s.line l).tx == .idle

/-- STOP completes in the event that leaves the engine and every transmitter IDLE together (spec 09 R159). -/
def State.stopIfDone (s : State) : State :=
  if s.cmd.mode = .stopping ∧ s.cmd.state = .busy .stop ∧ s.checker.engine = .idle ∧ s.txAllIdle then
    State.finish { s with cmd := { s.cmd with mode := .config } } .stop noWords
  else s

/-! ## Host reads (spec 08 R135) -/

/-- The DATA port's word: the next two payload bytes, one with the rest 0, or 0 (spec 08 R142, R143). -/
def State.dataWord (s : State) : Word :=
  match s.readout.port with
  | .held n w =>
    let r := s.ctx n
    let b0 := r.readoutByte s.pool.mem w
    if s.readout.remaining = 0 then 0
    else if s.readout.remaining = 1 then b0.setWidth 16
    else r.readoutByte s.pool.mem (r.readoutNext w) ++ b0
  | .none => 0
  | .lost => 0

/-- The MSG_HEAD0 word for the state the read finds (spec 08 R139). -/
def State.head0Word (s : State) : Word :=
  match s.readout.port with
  | .none =>
    match s.delivery with
    | [] => 0
    | n :: _ => headWord true false (s.ctx n).cls n
  | .held _ _ => headWord true false s.readout.head.cls s.readout.head.ctx
  | .lost => headWord false true s.readout.head.cls s.readout.head.ctx

/-- The word that a read of a register returns as the state stands (spec 08 R135, 11 11.3, 11.4); an unassigned address reads
0. -/
def State.readWord (s : State) (a : RegAddr) : Word :=
  if a = 0x00 then s.cmd.statusWord
  else if a = 0x01 then s.cmd.resultWord
  else if 0x02 ≤ a ∧ a ≤ 0x07 then s.cmd.args.toList.getD (a.toNat - 0x02) 0
  else if 0x08 ≤ a ∧ a ≤ 0x0D then s.cmd.results.toList.getD (a.toNat - 0x08) 0
  else if a = 0x10 then s.head0Word
  else if a = 0x11 then s.readout.head.source.setWidth 16
  else if a = 0x12 then s.readout.head.msgno.setWidth 16
  else if a = 0x13 then numAt s.readout.head.length 0
  else if a = 0x14 then s.dataWord
  else if a = 0x15 then numAt s.readout.remaining 0
  else if a = 0x20 then s.ev.popWord
  else if a = 0x21 then s.ev.latches.ctxSrcWord
  else if a = 0x22 then s.ev.latches.msgnoWord
  else if a = 0x23 then s.ev.latches.detail
  else if a = 0x24 then s.ev.statusWord
  else if a = 0x25 then s.ev.mask0
  else if a = 0x26 then s.ev.mask1.setWidth 16
  else if a = 0x28 then s.ev.irqEn.setWidth 16
  else if a = 0x29 then s.irqStatusWord
  else if 0x30 ≤ a ∧ a ≤ 0x33 then (s.lines.toList.map LineUnit.statusWord).getD (a.toNat - 0x30) 0
  else 0

/-- A read: the register's value on D15..D0, and its side effect in the same event (spec 08 R135; log 6). In reset the register
reads its reset value and nothing else happens (log 3). -/
def hostRead (a : RegAddr) (effect : State → State) (s : State) : Out :=
  .next
    (let t := if s.pins.rstnLow then s else effect s
     { t with pins := { t.pins with dataOut := some (s.readWord a) } })

end Sys2Proof.Machine
end

