-- ==== Sys2Proof/Machine/Admission.lean ====
section
/-! DEFINITION. ADMISSION_EVENT: the arbiter, the admission checks, key resolution, opening a record, storing a segment and
eviction (spec 03, 01, 02). -/

namespace Sys2Proof.Machine

/-! ## Event records of admission -/

/-- An event about a segment: arrival line, source and message number, and the record concerned if any. -/
def segmentEvent (kind : EventKind) (seg : Segment) (n : Option CtxNo) (detail : Word) : EventRec :=
  { kind := kind, line := some seg.line, ctx := n, source := some seg.source, msgno := some seg.msgno, detail := detail }

/-- An event about a frame that names no source and no message (spec 03 R50, R51). -/
def frameEvent (kind : EventKind) (l : LineNo) (value : Byte) : EventRec :=
  { kind := kind, line := some l, ctx := none, source := none, msgno := none, detail := value.setWidth 16 }

/-- MALFORMED (spec 03 R52). -/
def malformedEvent (l : LineNo) (content : List Byte) (fault : HeaderFault) : EventRec :=
  { kind := .malformed, line := some l, ctx := none,
    source := if validAddress (byteAt content 2) then some (byteAt content 2) else none,
    msgno := some (fieldMsgno (byteAt content 3) (byteAt content 4)), detail := numAt fault.code 0 }

/-- CTX_EVICTED (spec 01 R12, 02 R42). -/
def evictedEvent (n : CtxNo) (r : Ctx) (l : LineNo) (cause : EvictCause) : EventRec :=
  { kind := .ctxEvicted, line := some l, ctx := some n, source := some r.source, msgno := some r.msgno,
    detail := numAt cause.code 0 }

/-! ## Cells (spec 02) -/

/-- Whether a record may be evicted: ordinary (those on the Age List are COLLECTING) (spec 02 R39). -/
def State.evictable (s : State) (n : CtxNo) : Bool := (s.ctx n).cls == .ordinary

/-- The cells of the ordinary records of a list (spec 02 R39). -/
def State.evictableCells (s : State) (records : List CtxNo) : Nat :=
  ((records.filter s.evictable).map fun n => (s.ctx n).chain.length).sum

/-- Free cells (spec 02 R33). -/
def State.freeCount (s : State) : Nat := s.pool.freeList.length

/-- The test of a request for k cells under a class: the reserve for ordinary (spec 02 R37), the sufficiency check for urgent
(R39). -/
def State.requestPasses (s : State) (cls : MsgClass) (k : Nat) : Bool :=
  match cls with
  | .ordinary => decide (k + s.pool.reserve ≤ s.freeCount)
  | .urgent => decide (k ≤ s.freeCount + s.evictableCells s.ageList)

/-- The sufficiency check with a slot candidate: its cells count as free, once (spec 01 R13, 02 R40). -/
def State.candidatePasses (s : State) (v : CtxNo) (k : Nat) : Bool :=
  decide (k ≤ s.freeCount + (s.ctx v).chain.length + s.evictableCells (s.ageList.erase v))

/-- Eviction of one record: REFUSAL(EVICTED), CTX_EVICTED, freeing (spec 01 R12, 02 R42). -/
def evict (cause : EvictCause) (l : LineNo) (n : CtxNo) (s : State) : State :=
  let r := s.ctx n
  ((s.refuseCtx r .evicted).post (evictedEvent n r l cause)).freeCtx n

/-- Eviction for cells along the Age List, urgent records skipped, until k cells are free (spec 02 R41). -/
def evictForCells (k : Nat) (l : LineNo) : List CtxNo → State → State
  | [], s => s
  | n :: rest, s =>
    if k ≤ s.freeCount then s
    else evictForCells k l rest (if s.evictable n then evict .cells l n s else s)

/-! ## Storing a segment (spec 01 R15 to R20) -/

/-- The record with a segment stored in the given cells (spec 01 R19). -/
def Ctx.stored (r : Ctx) (seg : Segment) (cells : List Nat) : Ctx :=
  { r with
    slots := r.slots.set seg.index
      (some { length := seg.length, first := cells.headD 0, cells := cellsFor seg.length, line := seg.line })
    chain := r.chain ++ cells
    presentCount := r.presentCount + 1
    byteCount := r.byteCount + seg.length
    replyLine := seg.line
    lineMask := maskWith r.lineMask seg.line
    lastIndex := if seg.last then some seg.index else r.lastIndex
    checkWord := if seg.last then some seg.checkWord else r.checkWord
    retries := 0
    idle := 0 }

/-- The message is whole: last index known, and as many slots present as it says (spec 01 R20). -/
def Ctx.whole (r : Ctx) : Bool :=
  match r.lastIndex with
  | some last => r.presentCount == last.val + 1
  | none => false

/-- A whole message leaves the Age List, becomes VERIFYING and joins the Check Queue (spec 01 R20). -/
def joinIfWhole (n : CtxNo) (s : State) : State :=
  if (s.ctx n).whole then
    State.setCtx
      { s with
        ageList := s.ageList.erase n
        checker := { s.checker with queue := s.checker.queue ++ [n] } }
      n { s.ctx n with state := .verifying }
  else s

/-- The k cells at the head of the free list go to record n, and the payload into them (spec 02 R35, R36; 01 R19). -/
def allocateAndStore (n : CtxNo) (seg : Segment) (s : State) : State :=
  let k := cellsFor seg.length
  let cells := s.pool.freeList.take k
  State.setCtx
    { s with
      pool := { s.pool with
        mem := s.pool.mem.writeCells cells seg.payload
        freeList := s.pool.freeList.drop k } }
    n ((s.ctx n).stored seg cells)

/-- Storing: for an urgent record cells are first got by eviction where the free list is short (spec 02 R35, R39, R41), then the
segment is stored, then the message tested (spec 01 R19, R20). -/
def storeSegment (n : CtxNo) (seg : Segment) (s : State) : State :=
  let t :=
    match (s.ctx n).cls with
    | .urgent => evictForCells (cellsFor seg.length) seg.line s.ageList s
    | .ordinary => s
  joinIfWhole n (allocateAndStore n seg t)

/-- The LAST tests (spec 01 R16). -/
def Ctx.lastConflict (r : Ctx) (seg : Segment) : Option ConflictKind :=
  match r.lastIndex with
  | some last =>
    if seg.last then (if seg.index = last then none else some .last)
    else (if last ≤ seg.index then some .beyondLast else none)
  | none =>
    if seg.last && (List.finRange 64).any (fun i => decide (seg.index < i) && (r.slots[i]).isSome) then some .beyondLast
    else none

/-- The record after a stored duplicate: the duplicate count raised, and a LAST copy records an absent last index (spec 01
R17). -/
def Ctx.duplicated (r : Ctx) (seg : Segment) : Ctx :=
  let d := { r with dupCount := min 255 (r.dupCount + 1) }
  if seg.last ∧ r.lastIndex = none then { d with lastIndex := some seg.index, checkWord := some seg.checkWord } else d

/-- A stored duplicate (spec 01 R17): the message is tested only when the copy recorded the last index (R20). -/
def storedDuplicate (n : CtxNo) (seg : Segment) (s : State) : State :=
  let r := s.ctx n
  let t := (s.setCtx n (r.duplicated seg)).post (segmentEvent .dupDropped seg (some n) (numAt DupKind.stored.code 0))
  if seg.last ∧ r.lastIndex = none then joinIfWhole n t else t

/-- A starved segment (spec 01 R18). -/
def starve (n : CtxNo) (seg : Segment) (s : State) : State :=
  (s.setCtx n { s.ctx n with starved := true }).post (segmentEvent .poolShort seg (some n) (numAt 1 0))

/-- CONFLICT (spec 01 R16, R17). -/
def conflict (n : CtxNo) (seg : Segment) (kind : ConflictKind) (s : State) : State :=
  s.post (segmentEvent .conflict seg (some n) (numAt kind.code 0))

/-- A segment for a COLLECTING record: its tests in order, the first that matches deciding (spec 01 R15 to R19). -/
def storeInto (n : CtxNo) (seg : Segment) (s : State) : State :=
  let r := s.ctx n
  match r.lastConflict seg with
  | some kind => conflict n seg kind s
  | none =>
    match r.slots[seg.index] with
    | some sl => if sl.length = seg.length then storedDuplicate n seg s else conflict n seg .length s
    | none => if s.requestPasses r.cls (cellsFor seg.length) then storeSegment n seg s else starve n seg s

/-! ## Opening a record (spec 01 R9 to R14) -/

/-- A refusal to a segment: its source, its message number, its index, requesting the arrival line (spec 03 R49, 01 R9). -/
def refuseSegment (seg : Segment) (reason : Reason) (s : State) : State :=
  s.handOver
    { dest := seg.source, msgno := seg.msgno, body := .refusal reason (BitVec.ofNat 8 seg.index.val) } seg.line 0

/-- REFUSED behind its refusal frame (spec 03 R49, 01 R9). -/
def refuseAndPost (seg : Segment) (reason : Reason) (s : State) : State :=
  (refuseSegment seg reason s).post (segmentEvent .refused seg none (numAt reason.code 0))

/-- An open refused for cells: REFUSAL(BUSY), then POOL_SHORT NEW (spec 01 R9, 02 R43). -/
def refuseForCells (seg : Segment) (s : State) : State :=
  (refuseSegment seg .busy s).post (segmentEvent .poolShort seg none (numAt 2 0))

/-- The record as it opens (spec 01 R14). -/
def Ctx.opened (cls : MsgClass) (seg : Segment) : Ctx :=
  { Ctx.cleared with state := .collecting, source := seg.source, msgno := seg.msgno, cls := cls }

/-- The open itself: the record COLLECTING at the Age List's tail, the open count raised, CTX_OPENED, the segment stored (spec 01
R14). -/
def openAt (n : CtxNo) (k : SlotNo) (cls : MsgClass) (seg : Segment) (s : State) : State :=
  let t := State.setCtx { s with ageList := s.ageList ++ [n] } n (Ctx.opened cls seg)
  let u := t.setSource k { t.source k with openCount := (t.source k).openCount + 1 }
  storeSegment n seg (u.post (segmentEvent .ctxOpened seg (some n) (numAt cls.code 0)))

/-- The candidate for slot eviction: the first ordinary record on the Age List (spec 01 R12). -/
def State.slotCandidate (s : State) : Option CtxNo := s.ageList.find? s.evictable

/-- An open request: open limit, FREE record or candidate, cells, open; the first test that fails refuses (spec 01 R9 to
R14). -/
def openContext (k : SlotNo) (cls : MsgClass) (seg : Segment) (s : State) : State :=
  let cells := cellsFor seg.length
  if (s.source k).openLimit ≤ (s.source k).openCount then refuseAndPost seg .busy s
  else
    match s.lowestFree with
    | some n => if s.requestPasses cls cells then openAt n k cls seg s else refuseForCells seg s
    | none =>
      match cls with
      | .ordinary => refuseAndPost seg .busy s
      | .urgent =>
        match s.slotCandidate with
        | none => refuseAndPost seg .busy s
        | some v =>
          if s.candidatePasses v cells then openAt v k .urgent seg (evict .slot seg.line v s)
          else refuseForCells seg s

/-! ## Key resolution (spec 03 R56 to R58) -/

/-- A history with the credit of one message number lowered by one (spec 03 R57). -/
def SourceEntry.spendCredit (e : SourceEntry) (msgno : MsgNo) : SourceEntry :=
  { e with history := e.history.map fun h => if h.msgno = msgno then { h with credit := h.credit - 1 } else h }

/-- The record that an answer from history names: a READY or DELIVERING one (spec 03 R57). -/
def State.answeredCtx (s : State) (n : Option CtxNo) : Option CtxNo :=
  n.filter fun n => (s.ctx n).state == .ready || (s.ctx n).state == .delivering

/-- The RECEIPT of an answer from history (spec 03 R57). -/
def historyReceipt (seg : Segment) : CtrlFrame := { dest := seg.source, msgno := seg.msgno, body := .receipt 0 0 }

/-- An answer from history: a RECEIPT while credit remains (spec 03 R57). -/
def answerFromHistory (k : SlotNo) (h : HistRec) (seg : Segment) (n : Option CtxNo) (s : State) : State :=
  if 0 < h.credit then
    let t := s.handOver (historyReceipt seg) seg.line 0
    (t.setSource k ((t.source k).spendCredit seg.msgno)).post
      (segmentEvent .dupDropped seg (s.answeredCtx n) (numAt DupKind.answered.code 0))
  else s.post (segmentEvent .dupDropped seg (s.answeredCtx n) (numAt DupKind.silent.code 0))

/-- What resolution does where no COLLECTING record holds the key (spec 03 R56): history, then a late record, then an open. -/
def resolveElsewhere (k : SlotNo) (cls : MsgClass) (seg : Segment) (n : Option CtxNo) (s : State) : State :=
  match (s.source k).findHistory seg.msgno with
  | some h => answerFromHistory k h seg n s
  | none =>
    match n with
    | some n => s.post (segmentEvent .dupDropped seg (some n) (numAt DupKind.late.code 0))
    | none => openContext k cls seg s

/-- Key resolution (spec 03 R56). -/
def resolveKey (k : SlotNo) (cls : MsgClass) (seg : Segment) (s : State) : State :=
  match s.lookupKey seg.source seg.msgno with
  | some n =>
    if (s.ctx n).state = .collecting then storeInto n seg s else resolveElsewhere k cls seg (some n) s
  | none => resolveElsewhere k cls seg none s

/-! ## The admission checks (spec 03 R50 to R55) -/

/-- The effective class (spec 03 R55). -/
def effectiveClass (e : SourceEntry) (seg : Segment) : MsgClass := if seg.urg && e.urgentOk then .urgent else .ordinary

/-- Checks 5 and 6 against an ENABLED entry, then resolution (spec 03 R54, R55). -/
def admitFrom (k : SlotNo) (seg : Segment) (s : State) : State :=
  if (s.source k).maxSegs ≤ seg.index.val then refuseAndPost seg .tooLong s
  else resolveKey k (effectiveClass (s.source k) seg) seg s

/-- The entry that learn mode creates (spec 03 R65). -/
def SourceEntry.learned (address : Byte) : SourceEntry :=
  { state := .enabled, address := address, maxSegs := 64, openLimit := 2, urgentOk := false, openCount := 0, history := [] }

/-- Check 4: the source entry (spec 03 R53). Where no entry is ENABLED and learn mode is off, 12 R186 names UNKNOWN_SOURCE for
every segment; a segment whose source has a SUSPENDED entry is refused there, and one whose source has a REMOVING entry is dropped
silently there, as R53 says for them everywhere (DESIGN CHOICE, log 20). -/
def checkSource (seg : Segment) (s : State) : State :=
  match s.findSource seg.source with
  | some k =>
    match (s.source k).state with
    | .removing => s
    | .suspended => refuseAndPost seg .suspended s
    | .enabled => admitFrom k seg s
    | .unused => s
  | none =>
    if s.cmd.learn then
      match s.lowestUnused with
      | some k =>
        admitFrom k seg
          ((s.setSource k (.learned seg.source)).post (segmentEvent .sourceLearned seg none (numAt k.val 0)))
      | none => s.post (segmentEvent .unknownSource seg none (numAt 2 0))
    else s.post (segmentEvent .unknownSource seg none (numAt 1 0))

/-- Checks 1 to 3, then the rest (spec 03 R50 to R52). -/
def admitFrame (l : LineNo) (content : List Byte) (s : State) : State :=
  if byteAt content 0 ≠ Config.segmentKind then s.post (frameEvent .unexpectedKind l (byteAt content 0))
  else if byteAt content 1 ≠ s.cmd.station then s.post (frameEvent .foreign l (byteAt content 1))
  else
    match headerFault content with
    | some fault => s.post (malformedEvent l content fault)
    | none => checkSource (parseSegment l content) s

/-! ## The arbiter (spec 03 R47, R48) -/

/-- The lines in the order the arbiter looks at them: from the one after the pointer round to the pointer's own. -/
def arbiterOrder (pointer : LineNo) : List LineNo := [pointer + 1, pointer + 2, pointer + 3, pointer]

/-- The line served: the first in that order with a waiting buffer. -/
def State.servedLine (s : State) : Option LineNo :=
  (arbiterOrder s.rotation).find? fun l => !(s.line l).buffers.isEmpty

/-- The buffer that held a line's oldest frame becomes empty (spec 03 R47, 07 R132). -/
def State.emptyOldest (s : State) (l : LineNo) : State :=
  s.setLine l { s.line l with buffers := (s.line l).buffers.tail }

/-- One frame admitted from a line: the pointer names it, its oldest frame goes through every test, its buffer becomes empty. -/
def serveLine (l : LineNo) (s : State) : State :=
  State.emptyOldest (admitFrame l ((s.line l).buffers.headD []) { s with rotation := l }) l

/-- ADMISSION_EVENT: in RUN, with a frame waiting (spec 03 R47, R48). -/
def execAdmissionEvent (s : State) : Out :=
  awake s fun s =>
    if s.cmd.mode = .run then
      match s.servedLine with
      | some l => serveLine l s
      | none => s
    else s

end Sys2Proof.Machine
end

