-- ==== Sys2Proof/Machine/Check.lean ====
section
/-! DEFINITION. The check engine: TAKE_HEAD and CELL_COMPLETION (spec 05). -/

namespace Sys2Proof.Machine

/-- TAKE_HEAD: an IDLE engine in RUN takes the head of the Check Queue (spec 05 R88). -/
def execTakeHead (s : State) : Out :=
  awake s fun s =>
    if s.checker.engine = .idle ∧ s.cmd.mode = .run ∧ s.checker.queue ≠ [] then
      { s with checker := { s.checker with engine := .checking crc32Ones Walk.start } }
    else s

/-- The engine IDLE, its CRC and walk position absent (spec 05 R87). -/
def State.engineIdle (s : State) : State := { s with checker := { s.checker with engine := .idle } }

/-- The delivery queue with a READY record inserted: an urgent one behind the last urgent entry, an ordinary one at the tail
(spec 05 R99). -/
def deliveryInsert (cls : CtxNo → MsgClass) (queue : List CtxNo) (n : CtxNo) : List CtxNo :=
  match cls n with
  | .urgent => queue.takeWhile (fun m => cls m == .urgent) ++ n :: queue.dropWhile (fun m => cls m == .urgent)
  | .ordinary => queue ++ [n]

/-- A message number pushed into a history: the oldest of four removed, the new one at the tail with credit 3 (spec 03 R66). -/
def SourceEntry.pushHistory (e : SourceEntry) (msgno : MsgNo) : SourceEntry :=
  let kept := if e.history.length < Config.historyCap then e.history else e.history.tail
  { e with history := kept ++ [{ msgno := msgno, credit := Config.pushCredit }] }

/-- The push into the entry holding an address (spec 05 R91). -/
def State.pushHistory (s : State) (address : Byte) (msgno : MsgNo) : State :=
  match s.findSource address with
  | some k => s.setSource k ((s.source k).pushHistory msgno)
  | none => s

/-- MSG_READY and CHECK_FAILED (spec 05 R91, R93). -/
def checkEvent (kind : EventKind) (n : CtxNo) (r : Ctx) : EventRec :=
  { kind := kind, line := some r.replyLine, ctx := some n, source := some r.source, msgno := some r.msgno,
    detail := numAt r.cls.code 0 }

/-- The RECEIPT of a match (spec 05 R91). -/
def matchReceipt (r : Ctx) : CtrlFrame :=
  { dest := r.source, msgno := r.msgno, body := .receipt r.byteCount r.presentCount }

/-- A match: READY and in the delivery queue, RECEIPT handed over, history pushed, MSG_READY posted, engine IDLE (spec 05
R91). -/
def endMatch (n : CtxNo) (s : State) : State :=
  let r := s.ctx n
  let t := State.setCtx
    { s with
      checker := { s.checker with queue := s.checker.queue.erase n }
      delivery := deliveryInsert (fun m => (s.ctx m).cls) s.delivery n }
    n { r with state := .ready }
  State.engineIdle
    (State.post ((t.handOver (matchReceipt r) r.replyLine r.lineMask).pushHistory r.source r.msgno)
      (checkEvent .msgReady n r))

/-- A mismatch: REFUSAL(CHECK) handed over, CHECK_FAILED posted, record freed, engine IDLE (spec 05 R93). -/
def endMismatch (n : CtxNo) (s : State) : State :=
  let r := s.ctx n
  (((s.refuseCtx r .check).post (checkEvent .checkFailed n r)).freeCtx n).engineIdle

/-- CTX_ABORTED (spec 09 R165). -/
def ctxAbortedEvent (n : CtxNo) (r : Ctx) (notify : Bool) : EventRec :=
  { kind := .ctxAborted, line := none, ctx := some n, source := some r.source, msgno := some r.msgno,
    detail := abortedDetail r.state notify }

/-- The outputs of CTX_ABORT's freeing: REFUSAL(ABORTED) if notify is 1, then CTX_ABORTED (spec 09 R165). -/
def abortOutputs (n : CtxNo) (r : Ctx) (notify : Bool) (s : State) : State :=
  (if notify then s.refuseCtx r .aborted else s).post (ctxAbortedEvent n r notify)

/-- The result words of CTX_ABORT: source, message number, state freed from (spec 09 R165). -/
def abortWords (r : Ctx) : Vector Word 6 := #v[r.source.setWidth 16, r.msgno.setWidth 16, numAt r.state.code 0, 0, 0, 0]

/-- One result word and five zeros. -/
def oneWord (n : Nat) : Vector Word 6 := #v[numAt n 0, 0, 0, 0, 0, 0]

/-- An entry returns to UNUSED with cleared values (spec 03 R63). -/
def State.dropSource (s : State) (address : Byte) : State :=
  match s.findSource address with
  | some k => s.setSource k .cleared
  | none => s

/-- The command that made the engine stop completes (spec 05 R95, 09 R164 to R167). `r` is the record as it stood before it was
freed. -/
def completeStopped (r : Ctx) (s : State) : State :=
  match s.cmd.state with
  | .busy (.ctxAbort _ _) => s.finish .ctxAbort (abortWords r)
  | .busy (.srcRemove address freed) => (s.dropSource address).finish .srcRemove (oneWord (freed + 1))
  | .busy (.flush freed) => s.finish .flush (oneWord (freed + 1))
  | .busy .stop => s
  | .busy (.lineOff _) => s
  | .idle => s

/-- The outputs that the stopping command sends before the record is freed (spec 05 R95). -/
def stopOutputs (n : CtxNo) (s : State) : State :=
  match s.cmd.state with
  | .busy (.ctxAbort _ notify) => abortOutputs n (s.ctx n) notify s
  | .busy (.srcRemove _ _) => s
  | .busy (.flush _) => s
  | .busy .stop => s
  | .busy (.lineOff _) => s
  | .idle => s

/-- The engine's stop: outputs, freeing, IDLE, completion (spec 05 R95). -/
def engineStop (n : CtxNo) (s : State) : State :=
  completeStopped (s.ctx n) (((stopOutputs n s).freeCtx n).engineIdle)

/-- The completion of a cell while CHECKING: its bytes folded in, the walk advanced, or the check ended with a match or a
mismatch (spec 05 R89 to R93). -/
def checkCell (n : CtxNo) (crc : Word32) (w : Walk) (s : State) : State :=
  let r := s.ctx n
  let folded := crc32Fold crc (r.walkBytes s.pool.mem w)
  match r.walkNext w with
  | some next => { s with checker := { s.checker with engine := .checking folded next } }
  | none => if r.checkWord = some (folded ^^^ crc32Ones) then (endMatch n s).stopIfDone else (endMismatch n s).stopIfDone

/-- CELL_COMPLETION (spec 05 R89, R95). -/
def execCellCompletion (s : State) : Out :=
  awake s fun s =>
    match s.checker.queue with
    | [] => s
    | n :: _ =>
      match s.checker.engine with
      | .idle => s
      | .checking crc w => checkCell n crc w s
      | .stopPending _ _ => engineStop n s

/-- STOP_COMPLETION: STOP completes once the engine and every transmitter are IDLE (spec 09 R159; log 8). -/
def execStopCompletion (s : State) : Out := awake s State.stopIfDone

end Sys2Proof.Machine
end

