-- ==== Sys2Proof/Machine/CmdSources.lean ====
section
/-! DEFINITION. The source commands SRC_ADD, SRC_SUSPEND, SRC_RESUME, SRC_REMOVE (spec 03 R61 to R63, 09 R163, R164). -/

namespace Sys2Proof.Machine

/-- The arguments of SRC_ADD as the entry they describe (spec 09 9.4, 03 R61). -/
def srcAddArgs (s : State) : Option SourceEntry := do
  let address ← addressArg (s.arg 0)
  let maxSegs ← natArg 1 64 (s.arg 1)
  let openLimit ← natArg 1 8 (s.arg 2)
  let urgentOk ← boolArg (s.arg 3)
  return { state := .enabled, address, maxSegs, openLimit, urgentOk, openCount := 0, history := [] }

/-- SRC_ADD (spec 03 R61, 09 R163). -/
def doSrcAdd (s : State) : State :=
  match srcAddArgs s with
  | none => s.fail .srcAdd .badArgument
  | some e =>
    match s.findSource e.address with
    | some _ => s.fail .srcAdd .sourceExists
    | none =>
      match s.lowestUnused with
      | none => s.fail .srcAdd .tableFull
      | some k => (s.setSource k e).finish .srcAdd (oneWord k.val)

def execSrcAdd (s : State) : Out := hostCommand .srcAdd doSrcAdd s

/-- The records of a source in a given state, in ascending number (spec 01 R27). -/
def State.recordsOf (s : State) (address : Byte) (keep : CtxNo → Bool) : List CtxNo :=
  (List.finRange 32).filter fun n => (s.ctx n).state != .free && (s.ctx n).source == address && keep n

/-- A COLLECTING record freed by suspension: REFUSAL(SUSPENDED), then freeing (spec 03 R62). -/
def suspendCtx (n : CtxNo) (s : State) : State := (s.refuseCtx (s.ctx n) .suspended).freeCtx n

/-- An ENABLED entry suspended and its COLLECTING records freed in ascending number (spec 03 R62). -/
def suspendSource (k : SlotNo) (s : State) : State :=
  let records := s.recordsOf (s.source k).address fun n => (s.ctx n).state == .collecting
  State.finish (records.foldl (fun t n => suspendCtx n t) (s.setSource k { s.source k with state := .suspended }))
    .srcSuspend (oneWord records.length)

/-- SRC_SUSPEND (spec 03 R62, 09 R163). No command finds an entry REMOVING (R163). -/
def doSrcSuspend (s : State) : State :=
  match addressArg (s.arg 0) with
  | none => s.fail .srcSuspend .badArgument
  | some a =>
    match s.findSource a with
    | none => s.fail .srcSuspend .noSuchSource
    | some k => if (s.source k).state = .enabled then suspendSource k s else s.finish .srcSuspend noWords

def execSrcSuspend (s : State) : Out := hostCommand .srcSuspend doSrcSuspend s

/-- SRC_RESUME (spec 03 R62, 09 R163). -/
def doSrcResume (s : State) : State :=
  match addressArg (s.arg 0) with
  | none => s.fail .srcResume .badArgument
  | some a =>
    match s.findSource a with
    | none => s.fail .srcResume .noSuchSource
    | some k =>
      if (s.source k).state = .suspended then (s.setSource k { s.source k with state := .enabled }).finish .srcResume noWords
      else s.finish .srcResume noWords

def execSrcResume (s : State) : Out := hostCommand .srcResume doSrcResume s

/-- Every record of a list freed in turn (spec 01 R27). -/
def freeAll (records : List CtxNo) (cause : LossCause) (s : State) : State :=
  records.foldl (fun t n => t.freeByCommand n cause) s

/-- The record under check, if it is one of this source's (spec 03 R63). -/
def State.checkedOf (s : State) (address : Byte) : Option CtxNo := s.underCheck.filter fun n => (s.ctx n).source == address

/-- SRC_REMOVE of an entry: REMOVING, every record of the source not under check freed; then the entry becomes UNUSED, or the
command waits for the engine's stop (spec 03 R63, 09 R164). -/
def removeSource (k : SlotNo) (s : State) : State :=
  let a := (s.source k).address
  let records := s.recordsOf a fun n => s.underCheck != some n
  let t := freeAll records .remove (s.setSource k { s.source k with state := .removing })
  match s.checkedOf a with
  | none => (t.setSource k .cleared).finish .srcRemove (oneWord records.length)
  | some n => (t.requestStop n).wait (.srcRemove a records.length)

/-- SRC_REMOVE (spec 03 R63, 09 R164). -/
def doSrcRemove (s : State) : State :=
  match addressArg (s.arg 0) with
  | none => s.fail .srcRemove .badArgument
  | some a =>
    match s.findSource a with
    | none => s.fail .srcRemove .noSuchSource
    | some k => removeSource k s

def execSrcRemove (s : State) : Out := hostCommand .srcRemove doSrcRemove s

end Sys2Proof.Machine
end

