-- ==== Sys2Proof/Machine/CmdContexts.lean ====
section
/-! DEFINITION. CTX_ABORT, RELEASE and FLUSH (spec 09 R165 to R168, 08 R145, 01 R29). -/

namespace Sys2Proof.Machine

/-- The arguments of CTX_ABORT: context, notify (spec 09 9.4). -/
def ctxAbortArgs (s : State) : Option (CtxNo × Bool) := do
  let n ← ctxArg (s.arg 0)
  let notify ← boolArg (s.arg 1)
  return (n, notify)

/-- CTX_ABORT of a record that is not under check: outputs, freeing, OK (spec 09 R165). -/
def abortNow (n : CtxNo) (notify : Bool) (s : State) : State :=
  let r := s.ctx n
  ((abortOutputs n r notify s).freeByCommand n .abort).finish .ctxAbort (abortWords r)

/-- CTX_ABORT (spec 09 R165, R166). -/
def doCtxAbort (s : State) : State :=
  match ctxAbortArgs s with
  | none => s.fail .ctxAbort .badArgument
  | some (n, notify) =>
    if (s.ctx n).state = .free then s.fail .ctxAbort .noSuchContext
    else if s.underCheck = some n then (s.requestStop n).wait (.ctxAbort n notify)
    else abortNow n notify s

def execCtxAbort (s : State) : Out := hostCommand .ctxAbort doCtxAbort s

/-- RELEASE (spec 08 R145). -/
def doRelease (s : State) : State :=
  match s.readout.port with
  | .held n _ => State.finish { s.freeCtx n with readout := .cleared } .release noWords
  | .lost => State.finish { s with readout := .cleared } .release noWords
  | .none => s.fail .release .notHeld

def execRelease (s : State) : Out := hostCommand .release doRelease s

/-- FLUSH: every record that is not FREE and not under check freed in ascending number; completes, or waits for the engine's stop
(spec 01 R29, 09 R167). -/
def doFlush (s : State) : State :=
  let records := (List.finRange 32).filter fun n => (s.ctx n).state != .free && s.underCheck != some n
  let t := freeAll records .flush s
  match s.underCheck with
  | none => t.finish .flush (oneWord records.length)
  | some n => (t.requestStop n).wait (.flush records.length)

def execFlush (s : State) : Out := hostCommand .flush doFlush s

end Sys2Proof.Machine
end

