-- ==== Sys2Proof/Machine/CmdLines.lean ====
section
/-! DEFINITION. The line commands SET_LINE, LINE_ON, LINE_OFF (spec 07 R116 to R118, 06 R113, 09 R162). -/

namespace Sys2Proof.Machine

/-- The arguments of SET_LINE: line, divisor, fault threshold (spec 09 9.4). -/
def setLineArgs (s : State) : Option (LineNo × Nat × Nat) := do
  let l ← lineArg (s.arg 0)
  let divisor ← natArg 8 65535 (s.arg 1)
  let threshold ← natArg 0 15 (s.arg 2)
  return (l, divisor, threshold)

/-- SET_LINE: both settings of an OFF line (spec 07 R118). -/
def doSetLine (s : State) : State :=
  match setLineArgs s with
  | none => s.fail .setLine .badArgument
  | some (l, divisor, threshold) =>
    if (s.line l).state = .off then
      (s.setLine l { s.line l with divisor := divisor, threshold := threshold }).finish .setLine noWords
    else s.fail .setLine .lineState

def execSetLine (s : State) : Out := hostCommand .setLine doSetLine s

/-- The line brought ON: receiver in HUNT with an empty assembly, waiting for mark, counter cleared (spec 07 R116). -/
def LineUnit.broughtOn (u : LineUnit) : LineUnit :=
  { u with state := .on, rx := .hunt, assembly := [], awaitMark := true, badCount := 0 }

/-- LINE_ON (spec 07 R116). -/
def doLineOn (s : State) : State :=
  match lineArg (s.arg 0) with
  | none => s.fail .lineOn .badArgument
  | some l =>
    match (s.line l).state with
    | .off => (s.setLine l (s.line l).broughtOn).finish .lineOn noWords
    | .faulted => (s.setLine l (s.line l).broughtOn).finish .lineOn noWords
    | .on => s.fail .lineOn .lineState
    | .closing => s.fail .lineOn .lineState

def execLineOn (s : State) : Out := hostCommand .lineOn doLineOn s

/-- LINE_OFF on a line whose transmitter is IDLE ends at once; else the line is CLOSING and the command waits for the end of the
abort sequence (spec 07 R117, 06 R113). -/
def closeLine (l : LineNo) (s : State) : State :=
  if (s.line l).tx = .idle then (s.setLine l { s.line l with state := .off }).finish .lineOff noWords
  else (s.setLine l { s.line l with state := .closing }).wait (.lineOff l)

/-- LINE_OFF (spec 07 R117). -/
def doLineOff (s : State) : State :=
  match lineArg (s.arg 0) with
  | none => s.fail .lineOff .badArgument
  | some l =>
    match (s.line l).state with
    | .on => closeLine l ((s.setLine l (s.line l).rxStopped).flushLine l)
    | .faulted => closeLine l s
    | .off => s.finish .lineOff noWords
    | .closing => s.wait (.lineOff l)

def execLineOff (s : State) : Out := hostCommand .lineOff doLineOff s

end Sys2Proof.Machine
end

