-- ==== Sys2Proof/Machine/CmdMode.lean ====
section
/-! DEFINITION. START and STOP (spec 09 R157 to R159). -/

namespace Sys2Proof.Machine

def State.withMode (s : State) (m : Mode) : State := { s with cmd := { s.cmd with mode := m } }

/-- START (spec 09 R157). -/
def doStart (s : State) : State :=
  if s.cmd.mode ≠ .config then s.fail .start .wrongMode
  else if s.cmd.station = 0 then s.fail .start .badArgument
  else (s.withMode .run).finish .start noWords

def execStart (s : State) : Out := hostCommand .start doStart s

/-- Every waiting frame buffer of every line discarded (spec 07 R132, R133). -/
def State.discardBuffers (s : State) : State := { s with lines := s.lines.map fun u => { u with buffers := [] } }

/-- The timers freeze: no decision is taken outside RUN, and one still to be taken is kept for the first tick of the next RUN (spec
04 R75, 09 R158). -/
def State.freezeTimers (s : State) : State :=
  { s with
    timer :=
      { s.timer with
        owed := Vector.replicate 32 false
        deferred := Vector.ofFn fun n => s.timer.owed[n] || s.timer.deferred[n] } }

/-- STOP (spec 09 R158): STOPPING, buffers discarded, timers frozen; it completes in the same event if nothing is in flight. -/
def doStop (s : State) : State :=
  if s.cmd.mode ≠ .run then s.fail .stop .wrongMode
  else (((s.withMode .stopping).discardBuffers.freezeTimers).wait .stop).stopIfDone

def execStop (s : State) : Out := hostCommand .stop doStop s

end Sys2Proof.Machine
end

