-- ==== Sys2Proof/Machine/CmdQueries.lean ====
section
/-! DEFINITION. QUERY_CTX, QUERY_SRC, QUERY_POOL (spec 09 R169 to R171, 11 11.4). -/

namespace Sys2Proof.Machine

/-- The arguments of QUERY_CTX: context, view, and an index that only view 4 tests (spec 09 R169). -/
def queryCtxArgs (s : State) : Option (CtxNo × Nat × SegIndex) := do
  let n ← ctxArg (s.arg 0)
  let view ← natArg 0 4 (s.arg 1)
  let i ← if view = 4 then indexArg (s.arg 2) else some 0
  return (n, view, i)

/-- View 0, identity. -/
def Ctx.identityWords (r : Ctx) : Vector Word 6 :=
  #v[numAt r.state.code 0 ||| numAt r.cls.code 4, r.source.setWidth 16, r.msgno.setWidth 16,
    numAt ((r.lastIndex.map Fin.val).getD 0) 0 ||| flagAt r.lastIndex.isSome 15, numAt r.presentCount 0, numAt r.byteCount 0]

/-- View 1, chain. -/
def Ctx.chainWords (r : Ctx) : Vector Word 6 :=
  let w := r.checkWord.getD 0
  #v[w.setWidth 16, (w >>> 16).setWidth 16, numAt (r.chain.head?.getD 0) 0, numAt (r.chain.getLast?.getD 0) 0,
    numAt r.chain.length 0, numAt r.replyLine.val 0 ||| (r.lineMask.setWidth 16 <<< 4)]

/-- View 2, timers. -/
def Ctx.timerWords (r : Ctx) : Vector Word 6 :=
  #v[numAt r.idle 0, numAt r.lifetime 0, numAt r.retries 0, numAt r.dupCount 0,
    flagAt r.starved 0 ||| flagAt r.abortPending 1, 0]

/-- Sixteen slots of the segment map as one word: bit j is slot 16 * w + j. -/
def Ctx.mapWord (r : Ctx) (w : Nat) : Word :=
  (List.finRange 64).foldl
    (fun acc i => if i.val / 16 = w ∧ (r.slots[i]).isSome then acc ||| (1 <<< (i.val % 16)) else acc) 0

/-- View 3, segment map. -/
def Ctx.mapWords (r : Ctx) : Vector Word 6 := #v[r.mapWord 0, r.mapWord 1, r.mapWord 2, r.mapWord 3, 0, 0]

/-- View 4, one slot. -/
def Ctx.slotWords (r : Ctx) (i : SegIndex) : Vector Word 6 :=
  match r.slots[i] with
  | some sl => #v[1, numAt sl.length 0, numAt sl.first 0, numAt sl.cells 0, numAt sl.line.val 0, 0]
  | none => noWords

/-- The words of a view (spec 09 R169). -/
def Ctx.viewWords (r : Ctx) (view : Nat) (i : SegIndex) : Vector Word 6 :=
  if view = 0 then r.identityWords
  else if view = 1 then r.chainWords
  else if view = 2 then r.timerWords
  else if view = 3 then r.mapWords
  else r.slotWords i

/-- QUERY_CTX (spec 09 R169). -/
def doQueryCtx (s : State) : State :=
  match queryCtxArgs s with
  | none => s.fail .queryCtx .badArgument
  | some (n, view, i) => s.finish .queryCtx ((s.ctx n).viewWords view i)

def execQueryCtx (s : State) : Out := hostCommand .queryCtx doQueryCtx s

/-- History record j of an entry as a result word: message number, reply credit; 0 beyond their number. -/
def SourceEntry.historyWord (e : SourceEntry) (j : Nat) : Word :=
  match e.history[j]? with
  | some h => h.msgno.setWidth 16 ||| numAt h.credit 12
  | none => 0

/-- The result words of QUERY_SRC (spec 09 R170). -/
def SourceEntry.queryWords (e : SourceEntry) : Vector Word 6 :=
  #v[numAt e.state.code 0 ||| flagAt e.urgentOk 4 ||| numAt e.history.length 8,
    numAt e.maxSegs 0 ||| numAt e.openLimit 8 ||| numAt e.openCount 12,
    e.historyWord 0, e.historyWord 1, e.historyWord 2, e.historyWord 3]

/-- QUERY_SRC (spec 09 R170). -/
def doQuerySrc (s : State) : State :=
  match addressArg (s.arg 0) with
  | none => s.fail .querySrc .badArgument
  | some a =>
    match s.findSource a with
    | none => s.fail .querySrc .noSuchSource
    | some k => s.finish .querySrc (s.source k).queryWords

def execQuerySrc (s : State) : Out := hostCommand .querySrc doQuerySrc s

/-- The number of FREE records. -/
def State.freeRecords (s : State) : Nat := ((List.finRange 32).filter fun n => (s.ctx n).state == .free).length

/-- The result words of QUERY_POOL (spec 09 R171). -/
def State.poolWords (s : State) : Vector Word 6 :=
  #v[numAt s.pool.freeList.length 0, numAt s.freeRecords 0, numAt s.checker.queue.length 0, numAt s.delivery.length 0,
    numAt s.ageList.length 0, 0]

/-- QUERY_POOL (spec 09 R171). -/
def doQueryPool (s : State) : State := s.finish .queryPool s.poolWords

def execQueryPool (s : State) : Out := hostCommand .queryPool doQueryPool s

end Sys2Proof.Machine
end

