-- ==== Sys2Proof/Machine/CmdSettings.lean ====
section
/-! DEFINITION. CMD writes that name no command, and the commands that replace a setting: SET_STATION, SET_LEARN, SET_TIMING,
SET_RESERVE, CLEAR_LOSS (spec 09 R155, R160, R161, R168). -/

namespace Sys2Proof.Machine

/-- BAD_COMMAND: accepted while IDLE and completed with BAD_COMMAND; bits 7..0 are recorded in both code fields (spec 11
R182). -/
def execBadCommand (word : Word) (s : State) : Out :=
  if namesCommand word then .refused (.illFormed "BAD_COMMAND")
  else awake s (cmdWrite (loByte word) fun s => s.complete (loByte word) .badCommand noWords)

/-- SET_STATION, in CONFIG (spec 09 R160). -/
def doSetStation (s : State) : State :=
  match addressArg (s.arg 0) with
  | none => s.fail .setStation .badArgument
  | some a =>
    if s.cmd.mode = .config then State.finish { s with cmd := { s.cmd with station := a } } .setStation noWords
    else s.fail .setStation .wrongMode

def execSetStation (s : State) : Out := hostCommand .setStation doSetStation s

/-- SET_LEARN (spec 09 R161). -/
def doSetLearn (s : State) : State :=
  match boolArg (s.arg 0) with
  | none => s.fail .setLearn .badArgument
  | some on => State.finish { s with cmd := { s.cmd with learn := on } } .setLearn noWords

def execSetLearn (s : State) : Out := hostCommand .setLearn doSetLearn s

/-- The arguments of SET_TIMING: class, gap interval, retry limit, lifetime (spec 09 9.4). -/
def timingArgs (s : State) : Option (MsgClass × Timing) := do
  let cls ← classArg (s.arg 0)
  let gap ← natArg 1 1023 (s.arg 1)
  let retryLimit ← natArg 0 7 (s.arg 2)
  let lifetime ← natArg 1 255 (s.arg 3)
  return (cls, { gap, retryLimit, lifetime })

/-- All three settings of one class replaced (spec 04 R71). -/
def Timer.withSettings (t : Timer) (cls : MsgClass) (v : Timing) : Timer :=
  match cls with
  | .ordinary => { t with ordinary := v }
  | .urgent => { t with urgent := v }

/-- SET_TIMING (spec 04 R71, 09 R161). -/
def doSetTiming (s : State) : State :=
  match timingArgs s with
  | none => s.fail .setTiming .badArgument
  | some (cls, v) => State.finish { s with timer := s.timer.withSettings cls v } .setTiming noWords

def execSetTiming (s : State) : Out := hostCommand .setTiming doSetTiming s

/-- SET_RESERVE (spec 02 R38, 09 R161). -/
def doSetReserve (s : State) : State :=
  match natArg 0 512 (s.arg 0) with
  | none => s.fail .setReserve .badArgument
  | some v => State.finish { s with pool := { s.pool with reserve := v } } .setReserve noWords

def execSetReserve (s : State) : Out := hostCommand .setReserve doSetReserve s

/-- CLEAR_LOSS (spec 10 R178, 09 R168). -/
def doClearLoss (s : State) : State :=
  State.finish { s with ev := { s.ev with loss := 0, overflow := false } } .clearLoss noWords

def execClearLoss (s : State) : Out := hostCommand .clearLoss doClearLoss s

end Sys2Proof.Machine
end

