-- ==== Sys2Proof/Machine/HostAccess.lean ====
section
/-! DEFINITION. Host reads with a side effect and writes to registers other than CMD (spec 08, 10, 11). -/

namespace Sys2Proof.Machine

/-- The claim of the head of the delivery queue (spec 08 R139, NONE with the queue not empty). -/
def claim (n : CtxNo) (rest : List CtxNo) (s : State) : State :=
  let r := s.ctx n
  State.setCtx
    { s with
      delivery := rest
      readout :=
        { port := .held n Walk.start
          head := { ctx := n, cls := r.cls, source := r.source, msgno := r.msgno, length := r.byteCount }
          remaining := r.byteCount } }
    n { r with state := .delivering }

/-- The side effect of a read of MSG_HEAD0 (spec 08 R139). -/
def head0Effect (s : State) : State :=
  match s.readout.port with
  | .none =>
    match s.delivery with
    | [] => s
    | n :: rest => claim n rest s
  | .held _ _ => s
  | .lost => s

/-- MSG_HEAD0 (spec 08 R139). -/
def execMsgHead0 (s : State) : Out := hostRead 0x10 head0Effect s

/-- The side effect of a read of DATA: the walk advances by the bytes delivered (spec 08 R142, R143). -/
def dataEffect (s : State) : State :=
  match s.readout.port with
  | .held n w =>
    let r := s.ctx n
    if s.readout.remaining = 0 then s
    else if s.readout.remaining = 1 then
      { s with readout := { s.readout with port := .held n (r.readoutNext w), remaining := 0 } }
    else
      { s with
        readout :=
          { s.readout with
            port := .held n (r.readoutNext (r.readoutNext w)), remaining := s.readout.remaining - 2 } }
  | .none => s
  | .lost => s

/-- DATA (spec 08 R142). -/
def execData (s : State) : Out := hostRead 0x14 dataEffect s

/-- The side effect of a read of EVT_POP: the head leaves and its fields are latched, or the latches are cleared (spec 10
R176). -/
def popEffect (s : State) : State :=
  match s.ev.queue with
  | [] => { s with ev := { s.ev with latches := .cleared } }
  | e :: rest =>
    { s with
      ev :=
        { s.ev with
          queue := rest
          latches := { ctx := e.ctx, source := e.source, msgno := e.msgno, detail := e.detail } } }

/-- EVT_POP (spec 10 R176). -/
def execEvtPop (s : State) : Out := hostRead 0x20 popEffect s

/-- CMD_RESULT: the read clears the command-done flag (spec 09 R154). -/
def execCmdResult (s : State) : Out :=
  hostRead 0x01 (fun s => { s with cmd := { s.cmd with done := false } }) s

/-- EVT_MASK_WRITE: replaces the mask of the register's kinds; EVT_MASK1's bits 15..5 are discarded (spec 10 R175, 11 R184). -/
def execEvtMaskWrite (reg : Fin 2) (word : Word) (s : State) : Out :=
  awake s fun s =>
    if reg = 0 then { s with ev := { s.ev with mask0 := word } }
    else { s with ev := { s.ev with mask1 := word.setWidth 5 } }

/-- IRQ_EN: replaces the three enables; bits 15..3 are discarded (spec 10 R181, 11 R184). -/
def execIrqEn (word : Word) (s : State) : Out :=
  awake s fun s => { s with ev := { s.ev with irqEn := word.setWidth 3 } }

/-- CMD_ARG: stores the 16-bit word, in any mode and command state (spec 09 R151, 11 R183). -/
def execCmdArg (reg : ArgNo) (word : Word) (s : State) : Out :=
  awake s fun s => { s with cmd := { s.cmd with args := s.cmd.args.set reg word } }

/-- IGNORED_WRITE: a write to a read-only or unassigned register changes nothing (spec 11 R185, 08 R136). -/
def execIgnoredWrite (addr : RegAddr) (_word : Word) (s : State) : Out :=
  if writableAddr addr then .refused (.illFormed "IGNORED_WRITE") else .next s

end Sys2Proof.Machine
end

