-- ==== Sys2Proof/Machine/Receiver.lean ====
section
/-! DEFINITION. The line receivers: BYTE_RECEPTION and RXD_RETURN_TO_MARK (spec 07). -/

namespace Sys2Proof.Machine

/-- LINE_ERROR (spec 07 R125). -/
def lineErrorEvent (l : LineNo) (reason : LineReason) (count : Nat) : EventRec :=
  { kind := .lineError, line := some l, ctx := none, source := none, msgno := none, detail := lineErrorDetail reason count }

/-- LINE_FAULT (spec 07 R129). -/
def lineFaultEvent (l : LineNo) (reason : LineReason) : EventRec :=
  { kind := .lineFault, line := some l, ctx := none, source := none, msgno := none, detail := numAt reason.code 0 }

/-- RX_OVERRUN (spec 07 R131). -/
def rxOverrunEvent (l : LineNo) : EventRec :=
  { kind := .rxOverrun, line := some l, ctx := none, source := none, msgno := none, detail := 0 }

/-- The line faults: FAULTED, receiver stopped, queue flushed, LINE_FAULT posted (spec 07 R129, 06 R114). -/
def faultLine (l : LineNo) (reason : LineReason) (s : State) : State :=
  ((s.setLine l { (s.line l).rxStopped with state := .faulted }).flushLine l).post (lineFaultEvent l reason)

/-- The consecutive-bad counter after a frame that ended for a reason: an aborted frame leaves it (spec 07 R125, R127). -/
def nextBadCount (reason : LineReason) (count : Nat) : Nat := if reason = .aborted then count else min 15 (count + 1)

/-- A frame ends without delivery: discarded, receiver in HUNT, counter raised if bad, LINE_ERROR posted, and the line faults if
the counter rose to its threshold (spec 07 R125 to R129). -/
def dropFrame (l : LineNo) (reason : LineReason) (s : State) : State :=
  let u := s.line l
  let count := nextBadCount reason u.badCount
  let t := (s.setLine l { u with rx := .hunt, assembly := [], badCount := count }).post (lineErrorEvent l reason count)
  if reason ≠ .aborted ∧ u.threshold ≠ 0 ∧ count = u.threshold then faultLine l reason t else t

/-- A good frame: the counter cleared, the receiver ready in FRAME; in RUN it is placed in a buffer or lost to overrun, outside
RUN it is discarded (spec 07 R124, R130, R131, R133). -/
def goodFrame (l : LineNo) (content : List Byte) (s : State) : State :=
  let u := { s.line l with rx := .frame, assembly := [], badCount := 0 }
  if s.cmd.mode ≠ .run then s.setLine l u
  else if u.buffers.length < Config.frameBuffers then s.setLine l { u with buffers := u.buffers ++ [content] }
  else (s.setLine l u).post (rxOverrunEvent l)

/-- A byte reception by the receiver of a line that is ON; after a missing stop bit it seeks no start bit before RXD is back at
mark (spec 07 R120, 7.4). -/
def receiveByte (l : LineNo) (b : Byte) (stopGood : Bool) (s : State) : State :=
  let u := s.line l
  let t := s.setLine l { u with awaitMark := !stopGood }
  match rxByte u.rx u.assembly b stopGood with
  | .stay rx assembly => t.setLine l { t.line l with rx := rx, assembly := assembly }
  | .drop reason => dropFrame l reason t
  | .good content => goodFrame l content t

/-- BYTE_RECEPTION: received on an ON line whose receiver seeks start bits, else not received (spec 07 R120; log 2). -/
def execByteReception (l : LineNo) (b : Byte) (stopGood : Bool) (s : State) : Out :=
  awake s fun s =>
    if (s.line l).state = .on ∧ (s.line l).awaitMark = false then receiveByte l b stopGood s else s

/-- RXD_RETURN_TO_MARK: the receiver of an ON line has seen RXD at mark and seeks a start bit (spec 07 R116, R120). -/
def execRxdReturnToMark (l : LineNo) (s : State) : Out :=
  awake s fun s =>
    if (s.line l).state = .on then s.setLine l { s.line l with awaitMark := false } else s

end Sys2Proof.Machine
end

