-- ==== Sys2Proof/Machine/Reset.lean ====
section
/-! DEFINITION. HARDWARE_RESET and LEAVE_RESET. -/

namespace Sys2Proof.Machine

/-- HARDWARE_RESET: every block takes its reset values, whatever was in flight, without result or event (spec 09 R150 and the
reset rule of every chapter); the payload bytes of the cells stay (02 R34). The part stays in reset, RSTN low, until LEAVE_RESET
(11 11.9; log 3). -/
def execHardwareReset (s : State) : Out :=
  .next
    { State.reset with
      pool := { State.reset.pool with mem := s.pool.mem }
      pins := { rstnLow := true, dataOut := none }
      cutSeq := s.cutSeq
      pending := s.pending }

/-- LEAVE_RESET: RSTN high with REFCLK running; the part leaves reset and the tick starts afresh (spec 04 R69, 11 11.9). -/
def execLeaveReset (s : State) : Out := .next { s with pins := { s.pins with rstnLow := false } }

end Sys2Proof.Machine
end

