-- ==== Sys2Proof/Machine/Timer.lean ====
section
/-! DEFINITION. The reassembly timer: TICK and EXPIRY_DECISION (spec 04). -/

namespace Sys2Proof.Machine

/-- The lifetime of a class in milliseconds (spec 04 R70). -/
def Timing.lifetimeMs (t : Timing) : Nat := t.lifetime * 100

/-- Both counts of a COLLECTING record raised by one; a record in another state is not reached (spec 04 R74). -/
def Ctx.ticked (r : Ctx) : Ctx :=
  if r.state = .collecting then { r with idle := r.idle + 1, lifetime := r.lifetime + 1 } else r

/-- A record is due (spec 04 R74). -/
def Ctx.due (r : Ctx) (t : Timing) : Bool :=
  r.state == .collecting && (decide (t.gap ≤ r.idle) || decide (t.lifetimeMs ≤ r.lifetime))

/-- A record whose decision STOP deferred still awaits it: COLLECTING, and not opened since, for the deferred record has received a
tick and one opened after it has not (spec 04 R73, R75, R76; log 7). -/
def Ctx.awaitsDeferred (r : Ctx) : Bool := r.state == .collecting && r.lifetime != 0

/-- A tick in RUN: every COLLECTING record's counts rise, and a decision is owed to each record it leaves due (spec 04 R74) and to
each whose decision STOP deferred, due or not at its counts and settings now (R75). A decision that STOP defers in two successive
RUNs lets its counts rise once in each, past the 1024 and 25 501 of R72 and R73: R75 is followed there (DESIGN CHOICE, log 16). -/
def tickInRun (s : State) : State :=
  let ctxs := s.ctxs.map Ctx.ticked
  { s with
    ctxs := ctxs
    timer :=
      { s.timer with
        owed := Vector.ofFn fun n =>
          ctxs[n].due (s.timer.settings ctxs[n].cls) || (s.timer.deferred[n] && s.ctxs[n].awaitsDeferred)
        deferred := Vector.replicate 32 false } }

/-- GAP_SENT (spec 04 R77). -/
def gapSentEvent (n : CtxNo) (r : Ctx) (retries : Nat) (tail : Bool) : EventRec :=
  { kind := .gapSent, line := some r.replyLine, ctx := some n, source := some r.source, msgno := some r.msgno,
    detail := gapSentDetail retries tail }

/-- A gap request: GAP handed over, retries used raised, idle timer restarted, GAP_SENT posted (spec 04 R77). -/
def sendGap (n : CtxNo) (s : State) : State :=
  let r := s.ctx n
  let body := r.gapBody
  let t := s.handOver { dest := r.source, msgno := r.msgno, body := body } r.replyLine r.lineMask
  (t.setCtx n { r with retries := r.retries + 1, idle := 0 }).post (gapSentEvent n r (r.retries + 1) body.tailFlag)

/-- CTX_EXPIRED (spec 04 R81). -/
def expiredEvent (n : CtxNo) (r : Ctx) (cause : ExpiryCause) : EventRec :=
  { kind := .ctxExpired, line := some r.replyLine, ctx := some n, source := some r.source, msgno := some r.msgno,
    detail := expiredDetail cause r.starved }

/-- Expiry: REFUSAL(TIMEOUT) handed over, CTX_EXPIRED posted, record freed (spec 04 R81). -/
def expire (n : CtxNo) (cause : ExpiryCause) (s : State) : State :=
  let r := s.ctx n
  ((s.refuseCtx r .timeout).post (expiredEvent n r cause)).freeCtx n

/-- The tests of a decision on the record as it stands (spec 04 R76). -/
def decideExpiry (n : CtxNo) (s : State) : State :=
  let r := s.ctx n
  let t := s.timer.settings r.cls
  if r.state ≠ .collecting then s
  else if t.lifetimeMs ≤ r.lifetime then expire n .lifetime s
  else if t.gap ≤ r.idle then (if r.retries < t.retryLimit then sendGap n s else expire n .idle s)
  else s

/-- The decision owed to a record is being taken. -/
def State.settleDecision (s : State) (n : CtxNo) : State :=
  { s with timer := { s.timer with owed := s.timer.owed.set n false } }

/-- The decision of a record, if it is owed and not yet taken (spec 04 R74). -/
def takeDecision (n : CtxNo) (s : State) : State :=
  if s.timer.owed[n] then decideExpiry n (s.settleDecision n) else s

/-- Every decision still to be taken, in ascending number: a record's decision comes before its next tick (spec 04 R74; the
order among them is the model's, log 7). -/
def takeOwed (s : State) : State := (List.finRange 32).foldl (fun t n => takeDecision n t) s

/-- TICK: in RUN the decisions of the tick before that are not yet taken, then the tick (spec 04 R74); outside RUN it advances
nothing (R75). -/
def execTick (s : State) : Out := awake s fun s => if s.cmd.mode = .run then tickInRun (takeOwed s) else s

/-- EXPIRY_DECISION: taken in RUN for a record that a tick left due, or whose deferred decision a tick of this RUN has released
(spec 04 R74 to R76; log 7). -/
def execExpiryDecision (n : CtxNo) (s : State) : Out :=
  awake s fun s => if s.cmd.mode = .run then takeDecision n s else s

end Sys2Proof.Machine
end

