-- ==== Sys2Proof/Machine/Transmit.lean ====
section
/-! DEFINITION. The transmitters: FRAME_START, FRAME_END, ABORT_END (spec 06). -/

namespace Sys2Proof.Machine

/-- FRAME_START: an IDLE transmitter of an ON line in RUN builds its head entry's frame, with the station address as it stands,
and sends it (spec 06 R102, R103, R110). -/
def execFrameStart (l : LineNo) (s : State) : Out :=
  awake s fun s =>
    match (s.line l).queue with
    | [] => s
    | f :: _ =>
      if (s.line l).tx = .idle ∧ (s.line l).state = .on ∧ s.cmd.mode = .run then
        s.setLine l { s.line l with tx := .sending, wire := frameOnLine (f.content s.cmd.station) }
      else s

/-- FRAME_END: the head entry leaves, the transmitter becomes IDLE, and STOP completes if this was what it waited for (spec 06
R111, 09 R159). -/
def execFrameEnd (l : LineNo) (s : State) : Out :=
  awake s fun s =>
    if (s.line l).tx = .sending then
      (s.setLine l { s.line l with queue := (s.line l).queue.tail, tx := .idle, wire := [] }).stopIfDone
    else s

/-- The LINE_OFF that made a line CLOSING completes (spec 06 R115). -/
def completeLineOff (l : LineNo) (s : State) : State :=
  if s.cmd.state = .busy (.lineOff l) then s.finish .lineOff noWords else s

/-- ABORT_END: the transmitter becomes IDLE; a CLOSING line becomes OFF and LINE_OFF completes; STOP completes if this was what
it waited for (spec 06 R115, R112, 09 R159). -/
def execAbortEnd (l : LineNo) (s : State) : Out :=
  awake s fun s =>
    if (s.line l).tx = .aborting then
      let u := { s.line l with tx := .idle, wire := [] }
      if u.state = .closing then (completeLineOff l (s.setLine l { u with state := .off })).stopIfDone
      else (s.setLine l u).stopIfDone
    else s

end Sys2Proof.Machine
end

