-- ==== Sys2Proof/Machine/Dispatch.lean ====
section
/-! DEFINITION. One arm per command, in the order of spec/opcode_table.json. -/

namespace Sys2Proof.Machine

def exec (i : Instr) (s : State) : Host.Outcome State Fault Refusal :=
  match i with
  | .hardwareReset => Sys2Proof.Machine.execHardwareReset s
  | .tick => Sys2Proof.Machine.execTick s
  | .expiryDecision n => Sys2Proof.Machine.execExpiryDecision n s
  | .byteReception l b g => Sys2Proof.Machine.execByteReception l b g s
  | .admissionEvent => Sys2Proof.Machine.execAdmissionEvent s
  | .takeHead => Sys2Proof.Machine.execTakeHead s
  | .cellCompletion => Sys2Proof.Machine.execCellCompletion s
  | .frameStart l => Sys2Proof.Machine.execFrameStart l s
  | .frameEnd l => Sys2Proof.Machine.execFrameEnd l s
  | .abortEnd l => Sys2Proof.Machine.execAbortEnd l s
  | .stopCompletion => Sys2Proof.Machine.execStopCompletion s
  | .msgHead0 => Sys2Proof.Machine.execMsgHead0 s
  | .data => Sys2Proof.Machine.execData s
  | .evtPop => Sys2Proof.Machine.execEvtPop s
  | .cmdResult => Sys2Proof.Machine.execCmdResult s
  | .evtMaskWrite r w => Sys2Proof.Machine.execEvtMaskWrite r w s
  | .irqEn w => Sys2Proof.Machine.execIrqEn w s
  | .cmdArg r w => Sys2Proof.Machine.execCmdArg r w s
  | .ignoredWrite a w => Sys2Proof.Machine.execIgnoredWrite a w s
  | .badCommand w => Sys2Proof.Machine.execBadCommand w s
  | .setStation => Sys2Proof.Machine.execSetStation s
  | .setLearn => Sys2Proof.Machine.execSetLearn s
  | .setTiming => Sys2Proof.Machine.execSetTiming s
  | .setReserve => Sys2Proof.Machine.execSetReserve s
  | .setLine => Sys2Proof.Machine.execSetLine s
  | .lineOn => Sys2Proof.Machine.execLineOn s
  | .lineOff => Sys2Proof.Machine.execLineOff s
  | .srcAdd => Sys2Proof.Machine.execSrcAdd s
  | .srcSuspend => Sys2Proof.Machine.execSrcSuspend s
  | .srcResume => Sys2Proof.Machine.execSrcResume s
  | .srcRemove => Sys2Proof.Machine.execSrcRemove s
  | .ctxAbort => Sys2Proof.Machine.execCtxAbort s
  | .release => Sys2Proof.Machine.execRelease s
  | .flush => Sys2Proof.Machine.execFlush s
  | .start => Sys2Proof.Machine.execStart s
  | .stop => Sys2Proof.Machine.execStop s
  | .queryCtx => Sys2Proof.Machine.execQueryCtx s
  | .querySrc => Sys2Proof.Machine.execQuerySrc s
  | .queryPool => Sys2Proof.Machine.execQueryPool s
  | .clearLoss => Sys2Proof.Machine.execClearLoss s
  | .rxdReturnToMark l => Sys2Proof.Machine.execRxdReturnToMark l s
  | .leaveReset => Sys2Proof.Machine.execLeaveReset s

end Sys2Proof.Machine
end

