-- ==== Sys2Proof/Safety.lean ====
section
/-! DEFINITION. What the spec says holds of the HZ440 at every moment, as invariants of the state, and the terms that statements
about commands use. -/

namespace Sys2Proof

/-- The code byte of a write to CMD; none for a command that is not one (spec 11 11.5, R182). -/
def Instr.cmdCode : Instr → Option Byte
  | .badCommand w => some (Machine.loByte w)
  | .setStation => some 0x01
  | .setLearn => some 0x02
  | .setTiming => some 0x03
  | .setReserve => some 0x04
  | .setLine => some 0x05
  | .lineOn => some 0x08
  | .lineOff => some 0x09
  | .srcAdd => some 0x10
  | .srcRemove => some 0x11
  | .srcSuspend => some 0x12
  | .srcResume => some 0x13
  | .ctxAbort => some 0x18
  | .release => some 0x19
  | .flush => some 0x1A
  | .start => some 0x20
  | .stop => some 0x21
  | .queryCtx => some 0x28
  | .querySrc => some 0x29
  | .queryPool => some 0x2A
  | .clearLoss => some 0x30
  | .hardwareReset | .tick | .expiryDecision _ | .byteReception _ _ _ | .admissionEvent | .takeHead | .cellCompletion
  | .frameStart _ | .frameEnd _ | .abortEnd _ | .stopCompletion | .msgHead0 | .data | .evtPop | .cmdResult
  | .evtMaskWrite _ _ | .irqEn _ | .cmdArg _ _ | .ignoredWrite _ _ | .rxdReturnToMark _ | .leaveReset => none

end Sys2Proof

namespace Sys2Proof.Machine

/-! ## Invariants -/

/-- The cells of all chains, record by record. -/
def State.allChains (s : State) : List Nat := (List.finRange 32).flatMap fun n => (s.ctx n).chain

/-- Every cell is on the free list or on the chain of exactly one record that is not FREE, and on it once (spec 02 R31, R33). -/
structure PoolInv (s : State) : Prop where
  cells : List.Perm (s.pool.freeList ++ s.allChains) (List.range Config.poolCells)
  freeHasNone : ∀ n, (s.ctx n).state = .free → (s.ctx n).chain = []

/-- Each collection holds the records of its state, each exactly once (spec 01 R21, 05 R85, R99); the port is HELD exactly when
one record is DELIVERING, its held context (08 R138); an engine out of IDLE has a record under check (05 R86); a FREE record has
the cleared values (01 R5). -/
structure CollectionsInv (s : State) : Prop where
  ageNodup : s.ageList.Nodup
  ageHolds : ∀ n, n ∈ s.ageList ↔ (s.ctx n).state = .collecting
  checkNodup : s.checker.queue.Nodup
  checkHolds : ∀ n, n ∈ s.checker.queue ↔ (s.ctx n).state = .verifying
  deliveryNodup : s.delivery.Nodup
  deliveryHolds : ∀ n, n ∈ s.delivery ↔ (s.ctx n).state = .ready
  portHolds : ∀ n, (∃ w, s.readout.port = .held n w) ↔ (s.ctx n).state = .delivering
  checkedExists : s.checker.engine ≠ .idle → s.checker.queue ≠ []
  freeIsCleared : ∀ n, (s.ctx n).state = .free → s.ctx n = Ctx.cleared

/-- Every urgent entry of the delivery queue stands before every ordinary one (spec 05 R99). -/
def DeliveryOrder (s : State) : Prop :=
  s.delivery.Pairwise fun a b => (s.ctx b).cls = .urgent → (s.ctx a).cls = .urgent

/-- No two records that are not FREE hold the same key (spec 01 R7). -/
def KeysUnique (s : State) : Prop :=
  ∀ m n, (s.ctx m).state ≠ .free → (s.ctx n).state ≠ .free → (s.ctx m).source = (s.ctx n).source →
    (s.ctx m).msgno = (s.ctx n).msgno → m = n

/-- The present slots of a record, in index order. -/
def Ctx.presentSlots (r : Ctx) : List Slot := r.slots.toList.filterMap id

/-- The three counts of a record follow from its segment map, and each present slot is of a legal size (spec 01 R2). -/
structure CountsFollow (r : Ctx) : Prop where
  present : r.presentCount = r.presentSlots.length
  bytes : r.byteCount = (r.presentSlots.map Slot.length).sum
  cells : r.chain.length = (r.presentSlots.map Slot.cells).sum
  slots : ∀ sl ∈ r.presentSlots, 1 ≤ sl.length ∧ sl.length ≤ 128 ∧ sl.cells = cellsFor sl.length

/-- No present slot lies above a known last index; a COLLECTING record is not whole; a record past COLLECTING has a known last
index and exactly the slots up to it; the check word is known with the last index (spec 01 R1, R20). -/
structure WholeFollows (r : Ctx) : Prop where
  below : ∀ last, r.lastIndex = some last → ∀ i : SegIndex, (r.slots[i]).isSome → i ≤ last
  lacks : r.state = .collecting → r.whole = false
  complete : r.state = .verifying ∨ r.state = .ready ∨ r.state = .delivering →
    ∃ last, r.lastIndex = some last ∧ ∀ i : SegIndex, i ≤ last → (r.slots[i]).isSome
  checkWord : r.checkWord.isSome = r.lastIndex.isSome

/-- Capacities (spec 06 R106, 07 7.4, R126, 7.6, 10 R173, R174, 03 R66, 01 R17). -/
structure CapacityInv (s : State) : Prop where
  events : s.ev.queue.length ≤ Config.eventQueueCap
  loss : s.ev.loss ≤ 255
  txQueues : ∀ l, (s.line l).queue.length ≤ Config.txQueueCap
  buffers : ∀ l, (s.line l).buffers.length ≤ Config.frameBuffers
  assembly : ∀ l, (s.line l).assembly.length ≤ Config.maxContent
  badCount : ∀ l, (s.line l).badCount ≤ 15
  history : ∀ k, (s.source k).history.length ≤ Config.historyCap
  duplicates : ∀ n, (s.ctx n).dupCount ≤ 255

/-- STOPPING lasts exactly while STOP waits; in CONFIG the engine and every transmitter are IDLE (spec 09 9.3); outside RUN no
frame buffer waits (03 R47) and no decision is to be taken before a tick (04 R75); the engine is STOP-PENDING exactly while the
command that stops it waits (05 R94, R98). -/
structure ModeInv (s : State) : Prop where
  buffersInRun : s.cmd.mode ≠ .run → ∀ l, (s.line l).buffers = []
  owedInRun : s.cmd.mode ≠ .run → ∀ n : CtxNo, s.timer.owed[n] = false
  stopping : s.cmd.mode = .stopping ↔ s.cmd.state = .busy .stop
  configEngine : s.cmd.mode = .config → s.checker.engine = .idle
  configTx : s.cmd.mode = .config → ∀ l, (s.line l).tx = .idle
  stopPending : (∃ crc w, s.checker.engine = .stopPending crc w) ↔
    (∃ n notify, s.cmd.state = .busy (.ctxAbort n notify)) ∨ (∃ a f, s.cmd.state = .busy (.srcRemove a f)) ∨
      (∃ f, s.cmd.state = .busy (.flush f))

/-- One line's states agree: only an ON line has a queue; a SENDING transmitter's line is ON and its queue holds the entry on the
wire; an OFF line's transmitter is IDLE and a CLOSING line's is ABORTING; a receiver that is stopped is in HUNT with nothing in
assembly, and one in HUNT assembles nothing; an IDLE transmitter has nothing on the wire (spec 06 6.5, R106, 07 7.1, R122). -/
structure LineAgrees (u : LineUnit) : Prop where
  queueOn : u.state ≠ .on → u.queue = []
  sending : u.tx = .sending → u.state = .on ∧ u.queue ≠ []
  offIdle : u.state = .off → u.tx = .idle
  closingAborting : u.state = .closing → u.tx = .aborting
  stopped : u.state ≠ .on → u.rx = .hunt
  huntEmpty : u.rx = .hunt → u.assembly = []
  idleMark : u.tx = .idle → u.wire = []

/-- Two waiting frames that the merge rules would have made one: GAPs for one key, or identical RECEIPTs (spec 06 R106). -/
def CtrlFrame.mergesWith (f g : CtrlFrame) : Bool :=
  match f.body with
  | .gap _ _ _ => g.isGapFor f.dest f.msgno
  | .receipt _ _ => f == g
  | .refusal _ _ => false

/-- A queue never holds two waiting GAPs for one key or two identical waiting RECEIPTs (spec 06 R106). -/
def WaitingDistinct (u : LineUnit) : Prop := (u.queue.drop u.inFlight).Pairwise fun f g => f.mergesWith g = false

/-- A source's history never holds two records with one message number, and never the number of a COLLECTING or VERIFYING record
of its source; a credit is at most 3 (spec 03 R66). -/
structure HistoryInv (s : State) : Prop where
  nodup : ∀ k, ((s.source k).history.map HistRec.msgno).Nodup
  credit : ∀ k, ∀ h ∈ (s.source k).history, h.credit ≤ 3
  notCollecting : ∀ k, (s.source k).state ≠ .unused → ∀ h ∈ (s.source k).history, ∀ n,
    (s.ctx n).source = (s.source k).address → (s.ctx n).msgno = h.msgno →
    (s.ctx n).state ≠ .collecting ∧ (s.ctx n).state ≠ .verifying

/-- Abort pending is set exactly for the record at the head of the Check Queue while the engine is STOP-PENDING (spec 01 R23, 05
R94). -/
def AbortPendingInv (s : State) : Prop :=
  ∀ n, (s.ctx n).abortPending = true ↔ s.checker.queue.head? = some n ∧ ∃ crc w, s.checker.engine = .stopPending crc w

/-- The chain of a record is the cells of its present slots, in an order of storing: each slot once, its cells side by side from
its first cell on, as many as its cell count (spec 01 R2, R3). -/
def Ctx.ChainFollows (r : Ctx) : Prop :=
  ∃ runs : List (SegIndex × List Nat),
    (runs.map Prod.fst).Nodup ∧ (∀ i, i ∈ runs.map Prod.fst ↔ (r.slots[i]).isSome) ∧
      (∀ p ∈ runs, ∃ sl, r.slots[p.1] = some sl ∧ p.2.head? = some sl.first ∧ p.2.length = sl.cells) ∧
      r.chain = runs.flatMap Prod.snd

/-- The records, their cells and their collections agree. -/
structure RecordsInv (s : State) : Prop where
  pool : PoolInv s
  collections : CollectionsInv s
  counts : ∀ n, CountsFollow (s.ctx n)
  whole : ∀ n, WholeFollows (s.ctx n)
  chains : ∀ n, (s.ctx n).ChainFollows

/-- The non-FREE records of a source address. -/
def State.heldBy (s : State) (a : Byte) : List CtxNo :=
  (List.finRange 32).filter fun n => (s.ctx n).state != .free && (s.ctx n).source == a

/-- The source table agrees with the records: no two entries in use hold one address (spec 03 R60); every record in use has its
source's entry; an entry's open count is the number of its records in use and within its limit (R64); an entry is REMOVING only
while its SRC_REMOVE waits, and then its one record left is the one under check (R63). -/
structure SourcesInv (s : State) : Prop where
  unique : ∀ j k, (s.source j).state ≠ .unused → (s.source k).state ≠ .unused →
    (s.source j).address = (s.source k).address → j = k
  present : ∀ n, (s.ctx n).state ≠ .free → ∃ k, (s.source k).state ≠ .unused ∧ (s.source k).address = (s.ctx n).source
  counts : ∀ k, (s.source k).state ≠ .unused → (s.source k).openCount = (s.heldBy (s.source k).address).length
  limits : ∀ k, (s.source k).openCount ≤ (s.source k).openLimit
  unusedCleared : ∀ k, (s.source k).state = .unused → s.source k = .cleared
  removing : ∀ k, (s.source k).state = .removing →
    (∃ f, s.cmd.state = .busy (.srcRemove (s.source k).address f)) ∧
      ∃ n, s.checker.queue.head? = some n ∧ s.heldBy (s.source k).address = [n]
  waiting : ∀ a f, s.cmd.state = .busy (.srcRemove a f) → ∃ k, (s.source k).state = .removing ∧ (s.source k).address = a

/-! ## Terms of the statements -/

/-- The command unit after a command of this code was accepted and completed in one event (spec 09 R152, R154). -/
def CommandUnit.completed (c : CommandUnit) (code : Byte) (r : Result) (words : Vector Word 6) : CommandUnit :=
  { c with
    state := .idle, refused := false, done := true, lastAccepted := code, lastCompleted := code, lastResult := r,
    results := words }

/-- The command unit after a command of this code was accepted and waits (spec 09 R152). -/
def CommandUnit.waiting (c : CommandUnit) (code : Byte) (w : Waiting) : CommandUnit :=
  { c with state := .busy w, refused := false, done := false, lastAccepted := code }

/-- The command unit after the event that ends a waiting command with OK (spec 09 R154). -/
def CommandUnit.ended (c : CommandUnit) (code : Byte) (words : Vector Word 6) : CommandUnit :=
  { c with state := .idle, done := true, lastCompleted := code, lastResult := .ok, results := words }

/-- A refusal of a record for a reason: its source, its message number, segment index 0xFF (spec 06 R101). -/
def Ctx.refusal (r : Ctx) (reason : Reason) : CtrlFrame :=
  { dest := r.source, msgno := r.msgno, body := .refusal reason 0xFF }

/-- A refusal of one segment for a reason (spec 03 R49). -/
def Segment.refusal (seg : Segment) (reason : Reason) : CtrlFrame :=
  { dest := seg.source, msgno := seg.msgno, body := .refusal reason (BitVec.ofNat 8 seg.index.val) }

/-- The LAST tests let the segment pass (spec 01 R16). -/
def Ctx.lastTestsPass (r : Ctx) (seg : Segment) : Prop :=
  (∀ last, r.lastIndex = some last → if seg.last then seg.index = last else seg.index < last) ∧
    (r.lastIndex = none → seg.last = true → ∀ i : SegIndex, seg.index < i → r.slots[i] = none)

/-- The part is out of reset and its command unit IDLE: a CMD write is accepted (spec 09 R152). -/
def State.accepts (s : State) : Prop := s.pins.rstnLow = false ∧ s.cmd.state = .idle

/-- The next admission event serves this frame of line l (spec 03 R47, R48). -/
structure Serves (s : State) (l : LineNo) (content : List Byte) : Prop where
  awake : s.pins.rstnLow = false
  run : s.cmd.mode = .run
  line : s.servedLine = some l
  oldest : (s.line l).buffers.head? = some content

/-- The state in which an admission event's outputs land: the pointer names the line, its oldest buffer is empty. -/
def State.afterServing (s : State) (l : LineNo) : State :=
  { s with
    rotation := l
    lines := s.lines.set l { s.line l with buffers := (s.line l).buffers.tail } }

/-- The served frame passes checks 1 to 3 (spec 03 R50 to R52) and is the segment. -/
structure Passes (s : State) (content : List Byte) (l : LineNo) (seg : Segment) : Prop where
  kind : byteAt content 0 = 0xA1
  station : byteAt content 1 = s.cmd.station
  header : headerFault content = none
  segment : seg = parseSegment l content

/-- The segment passes checks 4 and 5 against the ENABLED entry in slot k (spec 03 R53, R54). -/
structure Admitted (s : State) (k : SlotNo) (seg : Segment) : Prop where
  entry : s.findSource seg.source = some k
  enabled : (s.source k).state = .enabled
  index : seg.index.val < (s.source k).maxSegs

/-- The payload bytes of a slot: its cells in chain order, its length in bytes (spec 01 R3). -/
def Ctx.slotBytes (r : Ctx) (m : Memory) (sl : Slot) : List Byte :=
  ((r.slotCells sl).flatMap fun c => m.readCell c 0 Config.cellBytes).take sl.length

/-- The payload of a whole record in index order, 0 to the last index (spec 01 R3). -/
def Ctx.payload (r : Ctx) (m : Memory) : List Byte :=
  (List.finRange 64).flatMap fun i =>
    if i ≤ r.walkEnd then ((r.slots[i]).map (r.slotBytes m)).getD [] else []

/-- A record whose walks are defined: every slot up to the last index is present, of a legal size, with its cells on the chain
(spec 01 R2, R3, R20). -/
def Ctx.walkable (r : Ctx) : Prop :=
  ∀ i : SegIndex, i ≤ r.walkEnd → ∃ sl, r.slots[i] = some sl ∧ 1 ≤ sl.length ∧ sl.length ≤ 128 ∧
    sl.cells = cellsFor sl.length ∧ (r.slotCells sl).length = sl.cells

/-- The cells of the slots a walk reads: the number of its cell reads (spec 05 R89). -/
def Ctx.walkCells (r : Ctx) : Nat :=
  ((List.finRange 64).map fun i => if i ≤ r.walkEnd then ((r.slots[i]).map Slot.cells).getD 0 else 0).sum

/-- The bytes that k cell reads from a walk position on give, ending where the check ends (spec 05 R89). -/
def Ctx.checkRun (r : Ctx) (m : Memory) : Nat → Walk → List Byte
  | 0, _ => []
  | k + 1, w =>
    match r.walkNext w with
    | some next => r.walkBytes m w ++ r.checkRun m k next
    | none => r.walkBytes m w

/-- The bytes that k steps of the readout walk deliver from a position on (spec 08 R142). -/
def Ctx.readoutRun (r : Ctx) (m : Memory) : Nat → Walk → List Byte
  | 0, _ => []
  | k + 1, w => r.readoutByte m w :: r.readoutRun m k (r.readoutNext w)

/-- The message is past COLLECTING: VERIFYING, READY or DELIVERING (spec 01 R20). -/
def Ctx.past (r : Ctx) : Prop := r.state = .verifying ∨ r.state = .ready ∨ r.state = .delivering

/-- A check from walk position w on has k cell reads to go (spec 05 R89). -/
def Ctx.readsLeft (r : Ctx) (w : Walk) (k : Nat) : Prop :=
  (fun o : Option Walk => o.bind r.walkNext)^[k] (some w) = none ∧
    ∀ j < k, (fun o : Option Walk => o.bind r.walkNext)^[j] (some w) ≠ none

/-- Payload bytes that stand before a walk position: the lengths of the slots below its slot, and the bytes taken of that one. -/
def Ctx.bytesBefore (r : Ctx) (w : Walk) : Nat :=
  ((List.finRange 64).map fun i => if i < w.slot then ((r.slots[i]).map Slot.length).getD 0 else 0).sum + w.taken

/-- The engine's walk and running CRC out of IDLE: the walk stands at a cell of a present slot up to the last index, all cells
before it taken; the payload is the bytes already read and the bytes of the cell reads to go; and the CRC has run over the bytes
already read (spec 05 R87, R89, R90). -/
def CheckFollows (s : State) : Prop :=
  ∀ n rest crc w, s.checker.queue = n :: rest → s.checker.engine = .checking crc w ∨ s.checker.engine = .stopPending crc w →
    let r := s.ctx n
    w.slot ≤ r.walkEnd ∧
      (∃ sl, r.slots[w.slot] = some sl ∧ 1 ≤ w.cell ∧ w.cell ≤ sl.cells ∧ w.taken = 32 * (w.cell - 1)) ∧
      ∃ bytesRead k, r.readsLeft w k ∧ bytesRead ++ r.checkRun s.pool.mem k w = r.payload s.pool.mem ∧
        bytesRead.length = r.bytesBefore w ∧ crc = crc32Fold 0xFFFFFFFF bytesRead

/-- The readout port: in HELD the head record names the held message, and its payload is the bytes delivered and the bytes
remaining, which the walk reads from where it stands; in NONE and LOST no byte remains, and in NONE no head record stands (spec 08
R139, R142, R144, R145, R146). -/
structure ReadoutFollows (s : State) : Prop where
  none : s.readout.port = .none → s.readout = ⟨.none, ⟨0, .ordinary, 0, 0, 0⟩, 0⟩
  lost : s.readout.port = .lost → s.readout.remaining = 0
  held : ∀ n w, s.readout.port = .held n w →
    let r := s.ctx n
    s.readout.head = ⟨n, r.cls, r.source, r.msgno, r.byteCount⟩ ∧
      (∃ delivered, delivered ++ r.readoutRun s.pool.mem s.readout.remaining w = r.payload s.pool.mem ∧
        delivered.length + s.readout.remaining = r.byteCount) ∧
      (0 < s.readout.remaining →
        w.slot ≤ r.walkEnd ∧ r.bytesBefore w + s.readout.remaining = r.byteCount ∧ w.cell = w.taken / 32 + 1 ∧
          ∃ sl, r.slots[w.slot] = some sl ∧ w.taken < sl.length)

/-- The end of a check, a frame or an abort sequence, with STOP's completion where STOP waits and nothing is in flight any more
(spec 09 R159). -/
def State.afterEnd (t : State) : State :=
  if t.cmd.mode = .stopping ∧ t.cmd.state = .busy .stop ∧ t.checker.engine = .idle ∧ ∀ l, (t.line l).tx = .idle then
    { t with cmd := { t.cmd.ended 0x21 (Vector.replicate 6 0) with mode := .config } }
  else t

/-- The state with a segment stored in record n, from a state u that has the cells (spec 01 R19, R20, 02 R35, R36): the fields of
R19, the cells from the head of the free list, and the Check Queue when the message is whole. -/
def StoresInto (u : State) (n : CtxNo) (seg : Segment) (t : State) : Prop :=
  let r := u.ctx n
  let need := (seg.length + 31) / 32
  let last := if seg.last then some seg.index else r.lastIndex
  let whole := ∃ i, last = some i ∧ r.presentCount = i.val
  t =
      { u with
        ctxs := u.ctxs.set n
          { r with
            state := (t.ctx n).state
            lastIndex := last
            checkWord := if seg.last then some seg.checkWord else r.checkWord
            slots := r.slots.set seg.index (some ⟨seg.length, u.pool.freeList.headD 0, need, seg.line⟩)
            chain := r.chain ++ u.pool.freeList.take need
            presentCount := r.presentCount + 1
            byteCount := r.byteCount + seg.length
            replyLine := seg.line
            lineMask := maskWith r.lineMask seg.line
            retries := 0
            idle := 0 }
        ageList := t.ageList
        pool :=
          { u.pool with
            mem := u.pool.mem.writeCells (u.pool.freeList.take need) seg.payload
            freeList := u.pool.freeList.drop need }
        checker := t.checker } ∧
    (whole → (t.ctx n).state = .verifying ∧ t.ageList = u.ageList.erase n ∧
      t.checker = { u.checker with queue := u.checker.queue ++ [n] }) ∧
    (¬whole → (t.ctx n).state = r.state ∧ t.ageList = u.ageList ∧ t.checker = u.checker)

/-- Ordinary records of a list, in its order (spec 02 R39). -/
def State.ordinaryOf (s : State) (records : List CtxNo) : List CtxNo := records.filter fun m => (s.ctx m).cls == .ordinary

/-- The cells that a list of records holds. -/
def State.cellsOf (s : State) (records : List CtxNo) : Nat := (records.map fun m => (s.ctx m).chain.length).sum

/-- The victims of an urgent request for k cells: the fewest ordinary records, from the head of the Age List on, that bring the
free count to k; none where it is k already (spec 02 R41). -/
structure FewestVictims (s : State) (k : Nat) (victims : List CtxNo) : Prop where
  oldest : ∃ spared, s.ordinaryOf s.ageList = victims ++ spared
  enough : k ≤ s.pool.freeList.length + s.cellsOf victims
  fewest : victims = [] ∨ s.pool.freeList.length + s.cellsOf victims.dropLast < k

/-- Records evicted in turn for a segment that arrived on line l: each one's REFUSAL(EVICTED), then its CTX_EVICTED with the given
detail (1 SLOT, 2 CELLS), then its freeing (spec 01 R12, 02 R41, R42). -/
def State.evicting (l : LineNo) (detail : Word) (victims : List CtxNo) (s : State) : State :=
  victims.foldl
    (fun u m =>
      let r := u.ctx m
      ((u.handOver (r.refusal .evicted) r.replyLine r.lineMask).post
        ⟨.ctxEvicted, some l, some m, some r.source, some r.msgno, detail⟩).freeCtx m)
    s

/-- Record n opened as urgent for a segment from source slot k, before its store: COLLECTING at the Age List's tail, the open
count raised, CTX_OPENED posted (spec 01 R14). -/
def State.openedUrgent (s : State) (n : CtxNo) (k : SlotNo) (seg : Segment) : State :=
  State.post
    { s with
      ctxs := s.ctxs.set n { Ctx.cleared with state := .collecting, source := seg.source, msgno := seg.msgno, cls := .urgent }
      ageList := s.ageList ++ [n]
      sources := s.sources.set k { s.source k with openCount := (s.source k).openCount + 1 } }
    ⟨.ctxOpened, some seg.line, some n, some seg.source, some seg.msgno, 1⟩

/-- Slot i of record n is new in t: present there, and in s absent or of another message. -/
def NewSlot (s t : State) (n : CtxNo) (i : SegIndex) : Prop :=
  ((t.ctx n).slots[i]).isSome ∧
    ¬(((s.ctx n).slots[i]).isSome ∧ (s.ctx n).source = (t.ctx n).source ∧ (s.ctx n).msgno = (t.ctx n).msgno)

/-- A run of good bytes read by a receiver, ending at the first that ends a frame. -/
def rxRun (rx : RxState) (assembly : List Byte) : List Byte → RxResult
  | [] => .stay rx assembly
  | b :: rest =>
    match rxByte rx assembly b true with
    | .stay rx' assembly' => rxRun rx' assembly' rest
    | .drop reason => .drop reason
    | .good content => .good content

end Sys2Proof.Machine
end

