-- ==== Sys2Proof/Certificates/Slice0/Obligations.lean ====
section
/-! DEFINITION. The statements for the provers. An event record is written ⟨kind, line, context, source, message number,
detail⟩, with the detail's number as 11 11.7 gives it. -/

open Sys2Proof Sys2Proof.Machine

/-! ## The queue of commands -/

/-- The block's step: the front command, run on the state with the queue's rest; with no command waiting, nothing happens (the
model's choice, log 1). -/
def Obligations.StepRunsTheFrontCommand : Prop :=
  (∀ (s : State) (c : Instr) (rest : List Instr), s.pending = c :: rest → step s = exec c { s with pending := rest }) ∧
    ∀ s : State, s.pending = [] → step s = .next s

/-- Every well-formed command answers a next state in every state; the two ill-formed terms are refused (the model's choice, log 13).
An event of the part's own or of a line whose condition does not hold answers the same state (the model's choice, log 2; for
STOP_COMPLETION log 8, for EXPIRY_DECISION log 7).
No command touches the queue, HARDWARE_RESET included (the model's choice, log 19), and what waits in the queue changes nothing of
what a command does. -/
def Obligations.CommandsCompleteWithoutTheQueue : Prop :=
  (∀ (c : Instr) (s : State),
     (c.wf = true → ∃ t, exec c s = .next t) ∧ (c.wf = false → ∃ m, exec c s = .refused (.illFormed m))) ∧
    (∀ s : State,
      (s.cmd.mode ≠ .run ∨ (∀ l, (s.line l).buffers = []) → exec .admissionEvent s = .next s) ∧
      (s.checker.engine ≠ .idle ∨ s.cmd.mode ≠ .run ∨ s.checker.queue = [] → exec .takeHead s = .next s) ∧
      (s.checker.engine = .idle → exec .cellCompletion s = .next s) ∧
      (¬(s.cmd.mode = .stopping ∧ s.cmd.state = .busy .stop ∧ s.checker.engine = .idle ∧ ∀ l, (s.line l).tx = .idle) →
        exec .stopCompletion s = .next s) ∧
      (∀ n : CtxNo, s.cmd.mode ≠ .run ∨ s.timer.owed[n] = false → exec (.expiryDecision n) s = .next s) ∧
      ∀ l : LineNo,
        ((s.line l).queue = [] ∨ (s.line l).tx ≠ .idle ∨ (s.line l).state ≠ .on ∨ s.cmd.mode ≠ .run →
          exec (.frameStart l) s = .next s) ∧
        ((s.line l).tx ≠ .sending → exec (.frameEnd l) s = .next s) ∧
        ((s.line l).tx ≠ .aborting → exec (.abortEnd l) s = .next s) ∧
        ((s.line l).state ≠ .on ∨ (s.line l).awaitMark = true → ∀ b good, exec (.byteReception l b good) s = .next s) ∧
        ((s.line l).state ≠ .on → exec (.rxdReturnToMark l) s = .next s)) ∧
    ∀ (c : Instr) (s t : State), exec c s = .next t →
      t.pending = s.pending ∧ ∀ q, exec c { s with pending := q } = .next { t with pending := q }

/-! ## Reset -/

/-- HARDWARE_RESET in any state: every block stands at the values the spec gives (01 R5, 02 R34, 03 R48, R59, 04 R70, 05 R87,
06 6.5, 07 R118, 08 R137, 09 R150, 10 R179, 11 11.3), and the payload bytes of the cells stay as they were (02 R34). No decision is
owed or deferred after it (the flags are the model's, log 7), and RSTN stays low (the model's choice, log 3).
LEAVE_RESET raises RSTN and changes nothing else; while RSTN is low no command but HARDWARE_RESET and LEAVE_RESET changes
anything, but for the word a read drives on D15..D0 (11 11.9; the model's choice, log 3). -/
def Obligations.ResetValuesAndHold : Prop :=
  (∀ s : State, ∃ t, exec .hardwareReset s = .next t ∧
     (∀ n, t.ctx n =
       ⟨.free, 0, 0, .ordinary, none, none, Vector.replicate 64 none, [], 0, 0, 0, 0, 0, 0, 0, false, 0, false⟩) ∧
     t.ageList = [] ∧ t.pool.freeList = List.range 1024 ∧ t.pool.reserve = 64 ∧ t.pool.mem = s.pool.mem ∧ t.rotation = 3 ∧
     (∀ k, t.source k = ⟨.unused, 0, 1, 1, false, 0, []⟩) ∧
     t.timer = ⟨⟨200, 3, 50⟩, ⟨50, 5, 20⟩, Vector.replicate 32 false, Vector.replicate 32 false⟩ ∧
     t.checker.queue = [] ∧ t.checker.engine = .idle ∧ t.delivery = [] ∧
     (∀ l, (t.line l).state = .off ∧ (t.line l).divisor = 139 ∧ (t.line l).threshold = 8 ∧ (t.line l).rx = .hunt ∧
       (t.line l).assembly = [] ∧ (t.line l).badCount = 0 ∧ (t.line l).buffers = [] ∧ (t.line l).tx = .idle ∧
       (t.line l).queue = [] ∧ (t.line l).wire = []) ∧
     t.readout = ⟨.none, ⟨0, .ordinary, 0, 0, 0⟩, 0⟩ ∧
     t.cmd = ⟨.idle, .config, 0, false, false, false, 0, 0, .ok, Vector.replicate 6 0, Vector.replicate 6 0⟩ ∧
     t.ev = ⟨[], 0x1502, 0x0C, 0, false, ⟨none, none, none, 0⟩, 0⟩ ∧
     t.irqAsserted = false ∧ t.pins.rstnLow = true ∧
     ∀ a, t.readWord a = if a = 0x25 then 0x1502 else if a = 0x26 then 0x000C else 0) ∧
    (∀ s : State, exec .leaveReset s = .next { s with pins := { s.pins with rstnLow := false } }) ∧
      ∀ (c : Instr) (s t : State), s.pins.rstnLow = true → c ≠ .hardwareReset → c ≠ .leaveReset → exec c s = .next t →
        ∃ d, t = { s with pins := { s.pins with dataOut := d } }

/-! ## Ticks, gap requests, expiry -/

/-- TICK in RUN, with no decision of an earlier tick still to be taken, raises both counts of every COLLECTING record, leaves due
the records the settings of their class say, and changes nothing else (04 R74). A record whose decision STOP deferred has it taken
after this tick, whether it is due now or not (R75), unless it has left COLLECTING or was opened since, when it had received no tick
(the model's inference, log 7).
Where a decision is still to be taken, it comes before the tick, for a record's decision comes before its next tick (R74); that the
lowest number goes first is the model's choice (log 7), as are the flags that say a decision is to be taken.
Outside RUN neither a tick nor a decision changes anything (R75); that the decision then answers the same state is the model's choice
(log 2). -/
def Obligations.TickAdvancesCollectingRecords : Prop :=
  ∀ s : State, s.pins.rstnLow = false →
    (s.cmd.mode = .run → (∀ n : CtxNo, s.timer.owed[n] = false) → ∃ t, exec .tick s = .next t ∧
      (∀ n, t.ctx n =
        if (s.ctx n).state = .collecting then
          { s.ctx n with idle := (s.ctx n).idle + 1, lifetime := (s.ctx n).lifetime + 1 }
        else s.ctx n) ∧
      (∀ n : CtxNo, t.timer.owed[n] = true ↔
        (t.ctx n).state = .collecting ∧
          ((s.timer.settings (t.ctx n).cls).gap ≤ (t.ctx n).idle ∨
            (s.timer.settings (t.ctx n).cls).lifetime * 100 ≤ (t.ctx n).lifetime ∨
            (s.timer.deferred[n] = true ∧ (s.ctx n).lifetime ≠ 0))) ∧
      t =
        { s with
          ctxs := t.ctxs
          timer := { s.timer with owed := t.timer.owed, deferred := Vector.replicate 32 false } }) ∧
    (s.cmd.mode = .run → ∀ n : CtxNo, s.timer.owed[n] = true → (∀ m : CtxNo, m < n → s.timer.owed[m] = false) →
      ∃ u, exec (.expiryDecision n) s = .next u ∧ exec .tick s = exec .tick u) ∧
    (s.cmd.mode ≠ .run → exec .tick s = .next s ∧ ∀ n, exec (.expiryDecision n) s = .next s)

/-- EXPIRY_DECISION, owed to record n in RUN: it tests the record as it stands and does nothing, expires it for LIFETIME, sends a
gap request, or expires it for IDLE, with the outputs in the order of 04 R77 and R81 (R76). -/
def Obligations.ExpiryDecisionDecides : Prop :=
  ∀ (s : State) (n : CtxNo), s.pins.rstnLow = false → s.cmd.mode = .run → s.timer.owed[n] = true →
    let r := s.ctx n
    let v := s.timer.settings r.cls
    let u := { s with timer := { s.timer with owed := s.timer.owed.set n false } }
    let expired (detail : Word) : State :=
      ((u.handOver (r.refusal .timeout) r.replyLine r.lineMask).post
        ⟨.ctxExpired, some r.replyLine, some n, some r.source, some r.msgno, detail⟩).freeCtx n
    (r.state ≠ .collecting → exec (.expiryDecision n) s = .next u) ∧
    (r.state = .collecting → v.lifetime * 100 ≤ r.lifetime →
      exec (.expiryDecision n) s = .next (expired (if r.starved then 3 else 1))) ∧
    (r.state = .collecting → r.lifetime < v.lifetime * 100 → v.gap ≤ r.idle → r.retries < v.retryLimit →
      exec (.expiryDecision n) s = .next
        (((u.handOver ⟨r.source, r.msgno, r.gapBody⟩ r.replyLine r.lineMask).setCtx n
            { r with retries := r.retries + 1, idle := 0 }).post
          ⟨.gapSent, some r.replyLine, some n, some r.source, some r.msgno,
            BitVec.ofNat 16 (r.retries + 1) ||| (if r.lastIndex.isNone then 0x10 else 0)⟩)) ∧
    (r.state = .collecting → r.lifetime < v.lifetime * 100 → v.gap ≤ r.idle → v.retryLimit ≤ r.retries →
      exec (.expiryDecision n) s = .next (expired (if r.starved then 2 else 0))) ∧
    (r.state = .collecting → r.lifetime < v.lifetime * 100 → r.idle < v.gap → exec (.expiryDecision n) s = .next u)

/-! ## Receivers -/

/-- The receiver's table: what a byte means in HUNT, FRAME and ESCAPE (07 R122, R123, R124 and the table of 7.4). -/
def Obligations.ReceiverTable : Prop :=
  ∀ (a : List Byte) (b : Byte) (good : Bool),
    (rxByte .hunt a b good = if good ∧ b = 0xD5 then .stay .frame [] else .stay .hunt a) ∧
    (rxByte .frame a b false = .drop .symbol ∧ rxByte .escape a b false = .drop .symbol) ∧
    (a.length = 0 → rxByte .frame a 0xD5 true = .stay .frame []) ∧
    (1 ≤ a.length → a.length ≤ 9 → rxByte .frame a 0xD5 true = .drop .runt) ∧
    (10 ≤ a.length → rxByte .frame a 0xD5 true = if passesFrameCheck a then .good a else .drop .check) ∧
    rxByte .frame a 0xD6 true = .stay .escape a ∧
    (b ≠ 0xD5 → b ≠ 0xD6 → a.length < 141 → rxByte .frame a b true = .stay .frame (a ++ [b])) ∧
    (b ≠ 0xD5 → b ≠ 0xD6 → 141 ≤ a.length → rxByte .frame a b true = .drop .overlength) ∧
    (a.length < 141 → rxByte .escape a 0x55 true = .stay .frame (a ++ [0xD5]) ∧
      rxByte .escape a 0x56 true = .stay .frame (a ++ [0xD6])) ∧
    (141 ≤ a.length → rxByte .escape a 0x55 true = .drop .overlength ∧ rxByte .escape a 0x56 true = .drop .overlength) ∧
    rxByte .escape a 0xD5 true = .drop .aborted ∧
    (b ≠ 0x55 → b ≠ 0x56 → b ≠ 0xD5 → rxByte .escape a b true = .drop .escape)

/-- A byte that ends no frame moves only its line's receiver; a line that is not ON, or whose receiver waits for mark after a
missing stop bit, receives nothing; RXD back at mark lets the receiver of an ON line seek a start bit (07 R116, R120). That a byte not
received, or RXD at mark on a line that is not ON, answers the same state is the model's choice (log 2). -/
def Obligations.BytesMoveOnlyTheirReceiver : Prop :=
  ∀ (s : State) (l : LineNo) (b : Byte) (good : Bool), s.pins.rstnLow = false →
    ((s.line l).state = .on → (s.line l).awaitMark = false → ∀ rx a,
      rxByte (s.line l).rx (s.line l).assembly b good = .stay rx a →
      exec (.byteReception l b good) s = .next
        { s with lines := s.lines.set l { s.line l with rx := rx, assembly := a, awaitMark := !good } }) ∧
    ((s.line l).state ≠ .on ∨ (s.line l).awaitMark = true → exec (.byteReception l b good) s = .next s) ∧
    ((s.line l).state = .on →
      exec (.rxdReturnToMark l) s = .next { s with lines := s.lines.set l { s.line l with awaitMark := false } }) ∧
    ((s.line l).state ≠ .on → exec (.rxdReturnToMark l) s = .next s)

/-- A frame that ends without delivery: discarded, the receiver in HUNT, the counter raised (up to 15) if it was bad and kept if
it was aborted, LINE_ERROR posted; and where the counter rises to a threshold other than 0 the line faults behind it: FAULTED, queue
flushed, a frame being sent cut by the abort sequence, LINE_FAULT posted (07 R125 to R129, 06 R114). Which byte the cut finds on the
wire is a free value (log 9); the statement holds for each. That a stopped receiver waits for no mark is the model's choice (log
10). -/
def Obligations.BadFrameCountedAndFaults : Prop :=
  ∀ (s : State) (l : LineNo) (b : Byte) (good : Bool) (reason : LineReason), s.pins.rstnLow = false →
    (s.line l).state = .on → (s.line l).awaitMark = false →
    rxByte (s.line l).rx (s.line l).assembly b good = .drop reason →
    let u := s.line l
    let count := if reason = .aborted then u.badCount else min 15 (u.badCount + 1)
    let error : EventRec := ⟨.lineError, some l, none, none, none, BitVec.ofNat 16 (reason.code + 256 * count)⟩
    (reason = .aborted ∨ u.threshold = 0 ∨ count ≠ u.threshold →
      exec (.byteReception l b good) s = .next
        (State.post
          { s with lines := s.lines.set l { u with rx := .hunt, assembly := [], badCount := count, awaitMark := !good } }
          error)) ∧
    (reason ≠ .aborted → u.threshold ≠ 0 → count = u.threshold →
      exec (.byteReception l b good) s = .next
        (State.post
          (State.post
            { s with
              lines := s.lines.set l
                { u with
                  state := .faulted, rx := .hunt, assembly := [], badCount := count, awaitMark := false, queue := []
                  tx := if u.tx = .sending then .aborting else u.tx
                  wire := if u.tx = .sending then abortOnLine u.wire s.cutSeq else u.wire }
              cutSeq := s.cutSeq + 1 }
            error)
          ⟨.lineFault, some l, none, none, none, BitVec.ofNat 16 reason.code⟩))

/-- A good frame clears the counter and leaves the receiver in FRAME; in RUN it is placed behind the line's waiting frame, or lost
with RX_OVERRUN when both buffers wait; outside RUN it is discarded (07 R124, R130, R131, R133). -/
def Obligations.GoodFramePlacedOrLost : Prop :=
  ∀ (s : State) (l : LineNo) (b : Byte) (good : Bool) (content : List Byte), s.pins.rstnLow = false →
    (s.line l).state = .on → (s.line l).awaitMark = false →
    rxByte (s.line l).rx (s.line l).assembly b good = .good content →
    let u := { s.line l with rx := .frame, assembly := [], badCount := 0 }
    (s.cmd.mode ≠ .run → exec (.byteReception l b good) s = .next { s with lines := s.lines.set l u }) ∧
    (s.cmd.mode = .run → u.buffers.length < 2 →
      exec (.byteReception l b good) s = .next
        { s with lines := s.lines.set l { u with buffers := u.buffers ++ [content] } }) ∧
    (s.cmd.mode = .run → 2 ≤ u.buffers.length →
      exec (.byteReception l b good) s = .next
        (State.post { s with lines := s.lines.set l u } ⟨.rxOverrun, some l, none, none, none, 0⟩))

/-- The frame check, from its algorithm to the residue; every frame the part sends passes it (07 R121).
The message check word, from its algorithm to its example, and folded run by run (05 R90). -/
def Obligations.CheckWordsComputed : Prop :=
  ((∀ content : List Byte,
      frameCheck content =
        content.foldl
          (fun (r : Word) b =>
            (List.range 8).foldl (fun (r : Word) _ => if r.getLsbD 15 then (r <<< 1) ^^^ 0x1021 else r <<< 1)
              (r ^^^ ((b.setWidth 16 : Word) <<< 8)))
          0xFFFF) ∧
      frameCheck [0x31, 0x32, 0x33, 0x34, 0x35, 0x36, 0x37, 0x38, 0x39] = 0x29B1 ∧
      (∀ (covered : List Byte) (hi lo : Byte),
        passesFrameCheck (covered ++ [hi, lo]) = decide (frameCheck covered = (hi ++ lo : BitVec 16))) ∧
      (∀ (f : CtrlFrame) (station : Byte), passesFrameCheck (f.content station) = true) ∧
      ∀ content : List Byte, 2 ≤ content.length → (frameCheck content = 0 ↔ passesFrameCheck content = true)) ∧
    (∀ payload : List Byte,
      messageCheck payload =
        payload.foldl
          (fun (r : Word32) b =>
            (List.range 8).foldl (fun (r : Word32) _ => if r.getLsbD 0 then (r >>> 1) ^^^ 0xEDB88320 else r >>> 1)
              (r ^^^ b.setWidth 32))
          0xFFFFFFFF ^^^ 0xFFFFFFFF) ∧
      messageCheck [0x31, 0x32, 0x33, 0x34, 0x35, 0x36, 0x37, 0x38, 0x39] = 0xCBF43926 ∧
      ∀ a b : List Byte, messageCheck (a ++ b) = crc32Fold (crc32Fold 0xFFFFFFFF a) b ^^^ 0xFFFFFFFF

/-- A receiver in HUNT that reads the line bytes of a frame, delimiters and escapes included, reads its content: framing loses no
byte and adds none (06 R103, 07 7.3, R121 to R124). -/
def Obligations.ReceiverReadsWhatFramingSends : Prop :=
  ∀ (rest body : List Byte), 8 ≤ body.length → body.length ≤ 139 →
    rxRun .hunt [] (frameOnLine (withFrameCheck body) ++ rest) = .good (withFrameCheck body)

/-! ## Transmitters -/

/-- FRAME_START puts the head entry's frame on the wire, built with the station address as it stands, exactly when the transmitter
is IDLE, its line ON, the part in RUN and the queue not empty, and otherwise starts nothing; FRAME_END removes the head entry (06
R110, R111, R112); that FRAME_START otherwise answers the same state is the model's choice (log 2).
ABORT_END: the transmitter is IDLE; a CLOSING line becomes OFF and its LINE_OFF completes with OK; a FAULTED line stays
FAULTED and an ON line keeps the frames handed to it (06 R115).
Both ends do the same work in STOPPING, where no frame starts and the end that leaves nothing in flight completes STOP (06 R112, 09
R159).
On the wire a frame is a delimiter, its content bytes, each 0xD5 and 0xD6 among them sent as 0xD6 and the byte XOR 0x80, and a
delimiter: one line byte for each content byte and for each escape, and two (06 R103). An abort sequence is one byte of what was on the
wire, then 0xD6 and 0xD5 (06 R113, R115); which byte of it is a free value (log 9), and the statement holds for each. -/
def Obligations.TransmittersSendAndAbort : Prop :=
  ((∀ content : List Byte,
      frameOnLine content =
        [0xD5] ++ content.flatMap (fun b => if b = 0xD5 ∨ b = 0xD6 then [0xD6, b ^^^ 0x80] else [b]) ++ [0xD5] ∧
      (frameOnLine content).length = content.length + (content.filter fun b => b = 0xD5 ∨ b = 0xD6).length + 2) ∧
    (∀ (wire : List Byte) (seq : Nat), wire ≠ [] → ∃ b ∈ wire, abortOnLine wire seq = [b, 0xD6, 0xD5])) ∧
  (∀ (s : State) (l : LineNo), s.pins.rstnLow = false →
     (∀ f rest, (s.line l).queue = f :: rest → (s.line l).tx = .idle → (s.line l).state = .on → s.cmd.mode = .run →
       exec (.frameStart l) s = .next
         { s with
           lines := s.lines.set l { s.line l with tx := .sending, wire := frameOnLine (f.content s.cmd.station) } }) ∧
     ((s.line l).queue = [] ∨ (s.line l).tx ≠ .idle ∨ (s.line l).state ≠ .on ∨ s.cmd.mode ≠ .run →
       exec (.frameStart l) s = .next s) ∧
     ((s.line l).tx = .sending →
       exec (.frameEnd l) s = .next
         (State.afterEnd
           { s with lines := s.lines.set l { s.line l with queue := (s.line l).queue.tail, tx := .idle, wire := [] } }))) ∧
    ∀ (s : State) (l : LineNo), s.pins.rstnLow = false → (s.line l).tx = .aborting →
      ((s.line l).state = .closing → s.cmd.state = .busy (.lineOff l) →
        exec (.abortEnd l) s = .next
          { s with
            lines := s.lines.set l { s.line l with state := .off, tx := .idle, wire := [] }
            cmd := s.cmd.ended 0x09 (Vector.replicate 6 0) }) ∧
      ((s.line l).state = .faulted ∨ (s.line l).state = .on →
        exec (.abortEnd l) s = .next
          (State.afterEnd { s with lines := s.lines.set l { s.line l with tx := .idle, wire := [] } }))

/-- The content bytes of the three control frames: kind, station, destination, message number with TAIL, body, frame check (06
R102, 11 11.2).
The GAP of a record: with a known last index TAIL is clear, the reference is the last index and the absent indices up to it
are listed; with none, TAIL is set, the reference is the highest present index and the absent ones below it are listed (04 R78,
R79). -/
def Obligations.ControlFramesBuilt : Prop :=
  (∀ (station dest : Byte) (msgno : MsgNo),
      (∀ length count, CtrlFrame.content ⟨dest, msgno, .receipt length count⟩ station =
        withFrameCheck
          [0xB3, station, dest, (msgno >>> 8).setWidth 8, msgno.setWidth 8, BitVec.ofNat 8 (length / 256),
            BitVec.ofNat 8 length, BitVec.ofNat 8 count]) ∧
      (∀ reason index, CtrlFrame.content ⟨dest, msgno, .refusal reason index⟩ station =
        withFrameCheck
          [0xB4, station, dest, (msgno >>> 8).setWidth 8, msgno.setWidth 8, BitVec.ofNat 8 reason.code, index]) ∧
      (∀ tail reference missing, ∃ map : List Byte, map.length = 8 ∧
        (∀ i : SegIndex, (map.getD (i.val / 8) 0).getLsbD (i.val % 8) = decide (i ∈ missing)) ∧
        CtrlFrame.content ⟨dest, msgno, .gap tail reference missing⟩ station =
          withFrameCheck
            ([0xB2, station, dest, (msgno >>> 8).setWidth 8 ||| (if tail then 0x10 else 0), msgno.setWidth 8,
              BitVec.ofNat 8 reference.val] ++ map)) ∧
      ∀ content, withFrameCheck content =
        content ++ [(frameCheck content >>> 8).setWidth 8, (frameCheck content).setWidth 8]) ∧
    ∀ r : Ctx,
      (∀ last, r.lastIndex = some last → ∃ missing, r.gapBody = .gap false last missing ∧
        ∀ i : SegIndex, i ∈ missing ↔ i ≤ last ∧ r.slots[i] = none) ∧
      (r.lastIndex = none → ∀ high : SegIndex, (r.slots[high]).isSome → (∀ i : SegIndex, high < i → r.slots[i] = none) →
        ∃ missing, r.gapBody = .gap true high missing ∧ ∀ i : SegIndex, i ∈ missing ↔ i ≤ high ∧ r.slots[i] = none)

/-- The choice of line: the requested line if ON, else the lowest ON line of the mask, else the lowest ON line, else none (06
R104).
A frame handed over: with no ON line it is dropped with TX_DROPPED NO_LINE; on the chosen line a GAP takes the place of the
waiting GAP for its key, a RECEIPT identical to a waiting one is merged, else the frame joins the tail of a queue with room, else it
is dropped with TX_DROPPED QUEUE_FULL. The entry of a SENDING transmitter is not waiting (06 R105 to R109). -/
def Obligations.HandOverPlacesTheFrame : Prop :=
  (∀ (s : State) (requested : LineNo) (mask : LineMask),
     ((s.line requested).state = .on → s.txLine requested mask = some requested) ∧
     (∀ l : LineNo, (s.line requested).state ≠ .on → mask.getLsbD l.val = true → (s.line l).state = .on →
       (∀ m : LineNo, m < l → mask.getLsbD m.val = true → (s.line m).state ≠ .on) → s.txLine requested mask = some l) ∧
     (∀ l : LineNo, (∀ m : LineNo, mask.getLsbD m.val = true → (s.line m).state ≠ .on) → (s.line requested).state ≠ .on →
       (s.line l).state = .on → (∀ m : LineNo, m < l → (s.line m).state ≠ .on) → s.txLine requested mask = some l) ∧
     ((∀ l, (s.line l).state ≠ .on) → s.txLine requested mask = none)) ∧
    ∀ (s : State) (f : CtrlFrame) (requested : LineNo) (mask : LineMask),
      (s.txLine requested mask = none →
        s.handOver f requested mask =
          s.post ⟨.txDropped, none, none, some f.dest, some f.msgno, 1 ||| (f.body.kindByte.setWidth 16 <<< 8)⟩) ∧
      ∀ l, s.txLine requested mask = some l →
        let queue := (s.line l).queue
        let inFlight := if (s.line l).tx = .sending then 1 else 0
        let isGap := ∃ tail reference missing, f.body = .gap tail reference missing
        let isReceipt := ∃ length count, f.body = .receipt length count
        let replaced (i : Nat) := isGap ∧ inFlight ≤ i ∧ ∃ g, queue[i]? = some g ∧ g.isGapFor f.dest f.msgno = true
        (∀ i, replaced i → (∀ j < i, ¬replaced j) →
          s.handOver f requested mask = s.setLine l { s.line l with queue := queue.set i f }) ∧
        (isReceipt → f ∈ queue.drop inFlight → s.handOver f requested mask = s) ∧
        ((∀ i, ¬replaced i) → ¬(isReceipt ∧ f ∈ queue.drop inFlight) → queue.length < 8 →
          s.handOver f requested mask = s.setLine l { s.line l with queue := queue ++ [f] }) ∧
        ((∀ i, ¬replaced i) → ¬(isReceipt ∧ f ∈ queue.drop inFlight) → 8 ≤ queue.length →
          s.handOver f requested mask =
            s.post ⟨.txDropped, some l, none, some f.dest, some f.msgno, 2 ||| (f.body.kindByte.setWidth 16 <<< 8)⟩)

/-! ## Events and the interrupt output -/

/-- A posting: a masked kind is discarded, a queue of fewer than 64 takes the record at its tail, a full queue loses it, sets the
overflow flag and counts the loss up to 255 (10 R173, R174).
IRQN is asserted exactly while a source holds with its enable set and RSTN is high: EVT with a record in the event queue, DLV
with a record in the delivery queue, CMD with the command-done flag (10 R180). -/
def Obligations.EventsPostedAndIrqn : Prop :=
  (∀ (s : State) (e : EventRec),
     let masked := if e.kind.code ≤ 0x10 then s.ev.mask0.getLsbD (e.kind.code - 1) else s.ev.mask1.getLsbD (e.kind.code - 0x11)
     (masked = true → s.post e = s) ∧
     (masked = false → s.ev.queue.length < 64 → s.post e = { s with ev := { s.ev with queue := s.ev.queue ++ [e] } }) ∧
     (masked = false → 64 ≤ s.ev.queue.length →
       s.post e = { s with ev := { s.ev with overflow := true, loss := min 255 (s.ev.loss + 1) } })) ∧
    ∀ s : State, s.irqAsserted = true ↔
      s.pins.rstnLow = false ∧
        ((s.ev.queue ≠ [] ∧ s.ev.irqEn.getLsbD 0 = true) ∨ (s.delivery ≠ [] ∧ s.ev.irqEn.getLsbD 1 = true) ∨
          (s.cmd.done = true ∧ s.ev.irqEn.getLsbD 2 = true))

/-! ## Admission -/

/-- The arbiter serves the first line with a waiting frame after the one its pointer names, round to that one: the pointer names
the line served, its older frame is gone and every other buffer stands; with nothing waiting, or outside RUN, no frame is taken (03
R47, R48), and that the event then answers the same state is the model's choice (log 2). -/
def Obligations.ArbiterRotates : Prop :=
  ∀ s : State, s.pins.rstnLow = false →
    (∀ d : Nat, 1 ≤ d → d ≤ 4 → s.cmd.mode = .run →
      (s.line (s.rotation + Fin.ofNat 4 d)).buffers ≠ [] →
      (∀ e : Nat, 1 ≤ e → e < d → (s.line (s.rotation + Fin.ofNat 4 e)).buffers = []) →
      ∃ t, exec .admissionEvent s = .next t ∧ t.rotation = s.rotation + Fin.ofNat 4 d ∧
        ∀ l, (t.line l).buffers =
          if l = s.rotation + Fin.ofNat 4 d then (s.line l).buffers.tail else (s.line l).buffers) ∧
    (s.cmd.mode ≠ .run ∨ (∀ l, (s.line l).buffers = []) → exec .admissionEvent s = .next s)

/-- A served frame that fails check 1, 2 or 3 is dropped with its one event, and nothing else changes (03 R50, R51, R52).
The header passes check 3 exactly when all five tests pass (R52), and the segment of a frame that passes has its fields where 11 11.1
puts them: source, message number, LAST, URG, index, length, with LAST the check word, low byte first, and the payload behind them. -/
def Obligations.AdmissionDropsUnfitFrames : Prop :=
  (∀ (s : State) (l : LineNo) (content : List Byte), Serves s l content →
    let b (k : Nat) : Nat := (byteAt content k).toNat
    let dropped (e : EventRec) : Prop := exec .admissionEvent s = .next ((s.afterServing l).post e)
    let msgno : MsgNo := BitVec.ofNat 12 (256 * (b 3 % 16) + b 4)
    let bad (detail : Word) : EventRec := ⟨.malformed, some l, none, some (byteAt content 2), some msgno, detail⟩
    (b 0 ≠ 0xA1 → dropped ⟨.unexpectedKind, some l, none, none, none, BitVec.ofNat 16 (b 0)⟩) ∧
    (b 0 = 0xA1 → byteAt content 1 ≠ s.cmd.station → dropped ⟨.foreign, some l, none, none, none, BitVec.ofNat 16 (b 1)⟩) ∧
    (b 0 = 0xA1 → byteAt content 1 = s.cmd.station →
      ((b 2 = 0 ∨ b 2 = 255) → dropped ⟨.malformed, some l, none, none, some msgno, 1⟩) ∧
      (1 ≤ b 2 → b 2 ≤ 254 → 64 ≤ b 3 → dropped (bad 2)) ∧
      (1 ≤ b 2 → b 2 ≤ 254 → b 3 < 64 → 64 ≤ b 5 → dropped (bad 3)) ∧
      (1 ≤ b 2 → b 2 ≤ 254 → b 3 < 64 → b 5 < 64 → (b 6 = 0 ∨ 128 < b 6) → dropped (bad 4)) ∧
      (1 ≤ b 2 → b 2 ≤ 254 → b 3 < 64 → b 5 < 64 → 1 ≤ b 6 → b 6 ≤ 128 →
        content.length ≠ 7 + (if b 3 / 16 % 2 = 1 then 4 else 0) + b 6 + 2 → dropped (bad 5)))) ∧
    ∀ (l : LineNo) (content : List Byte),
      let b (k : Nat) : Nat := (byteAt content k).toNat
      let last := b 3 / 16 % 2 = 1
      (headerFault content = none ↔
        1 ≤ b 2 ∧ b 2 ≤ 254 ∧ b 3 < 64 ∧ b 5 < 64 ∧ 1 ≤ b 6 ∧ b 6 ≤ 128 ∧
          content.length = 7 + (if last then 4 else 0) + b 6 + 2) ∧
      (headerFault content = none →
        let seg := parseSegment l content
        seg.line = l ∧ seg.source = byteAt content 2 ∧ seg.msgno.toNat = 256 * (b 3 % 16) + b 4 ∧ (seg.last = true ↔ last) ∧
          (seg.urg = true ↔ b 3 / 32 % 2 = 1) ∧ seg.index.val = b 5 ∧ seg.length = b 6 ∧
          (last → seg.checkWord.toNat = b 7 + 256 * b 8 + 65536 * b 9 + 16777216 * b 10) ∧ seg.payload.length = b 6 ∧
          ∀ j < b 6, seg.payload[j]? = content[(if last then 11 else 7) + j]?)

/-- A segment whose source is unknown (learn mode off, or no slot UNUSED) is dropped with UNKNOWN_SOURCE; one whose source is
REMOVING is dropped silently; one whose source is SUSPENDED, or whose index is at or above its source's maximum segments, is refused
with a frame and REFUSED (03 R49, R53, R54). Nothing else changes.
With learn mode on, a segment from an unknown address is admitted as from an ENABLED entry with the learned limits in the
lowest UNUSED slot, SOURCE_LEARNED standing before every other output (03 R53, R65).
With no entry ENABLED and learn mode off, no admission event opens a record or changes a record, a cell or an entry (12 R186). A
SUSPENDED or a REMOVING entry is answered as above there too, where R186 names UNKNOWN_SOURCE: to follow R53 is the model's choice
(log 20). -/
def Obligations.SourceCheckedAtAdmission : Prop :=
  (∀ (s : State) (l : LineNo) (content : List Byte) (seg : Segment), Serves s l content → Passes s content l seg →
     let unknown (detail : Word) : Prop :=
       exec .admissionEvent s = .next
         ((s.afterServing l).post ⟨.unknownSource, some l, none, some seg.source, some seg.msgno, detail⟩)
     let refused (reason : Reason) (detail : Word) : Prop :=
       exec .admissionEvent s = .next
         (((s.afterServing l).handOver (seg.refusal reason) l 0).post
           ⟨.refused, some l, none, some seg.source, some seg.msgno, detail⟩)
     (s.findSource seg.source = none → s.cmd.learn = false → unknown 1) ∧
     (s.findSource seg.source = none → s.cmd.learn = true → (∀ k, (s.source k).state ≠ .unused) → unknown 2) ∧
     ∀ k, s.findSource seg.source = some k →
       ((s.source k).state = .removing → exec .admissionEvent s = .next (s.afterServing l)) ∧
       ((s.source k).state = .suspended → refused .suspended 5) ∧
       ((s.source k).state = .enabled → (s.source k).maxSegs ≤ seg.index.val → refused .tooLong 6)) ∧
    (∀ s : State, (∀ k, (s.source k).state ≠ .enabled) → s.cmd.learn = false → ∃ t, exec .admissionEvent s = .next t ∧
      t.ctxs = s.ctxs ∧ t.ageList = s.ageList ∧ t.pool = s.pool ∧ t.sources = s.sources) ∧
    ∀ (s : State) (l : LineNo) (content : List Byte) (seg : Segment) (k : SlotNo), Serves s l content →
      Passes s content l seg → s.findSource seg.source = none → s.cmd.learn = true → (s.source k).state = .unused →
      (∀ j, j < k → (s.source j).state ≠ .unused) →
      exec .admissionEvent s =
        exec .admissionEvent
          ((s.setSource k ⟨.enabled, seg.source, 64, 2, false, 0, []⟩).post
            ⟨.sourceLearned, some l, none, some seg.source, some seg.msgno, BitVec.ofNat 16 k.val⟩)

/-- A segment with no record and no history opens the lowest FREE record under its effective class and is stored in it; a whole
message of one segment goes on to the Check Queue (01 R9 to R14, R19, R20, 02 R35 to R37, R39, 03 R55, R56). -/
def Obligations.OpenStoresTheFirstSegment : Prop :=
  ∀ (s : State) (l : LineNo) (content : List Byte) (seg : Segment) (k : SlotNo) (n : CtxNo), Serves s l content →
    Passes s content l seg → Admitted s k seg → s.lookupKey seg.source seg.msgno = none →
    (s.source k).findHistory seg.msgno = none → (s.source k).openCount < (s.source k).openLimit →
    s.lowestFree = some n → n ∉ s.ageList →
    let cls : MsgClass := if seg.urg = true ∧ (s.source k).urgentOk = true then .urgent else .ordinary
    let need := (seg.length + 31) / 32
    let whole := seg.last = true ∧ seg.index = 0
    need ≤ s.pool.freeList.length → (cls = .ordinary → need + s.pool.reserve ≤ s.pool.freeList.length) →
    exec .admissionEvent s = .next
      { s.afterServing l with
        ctxs := s.ctxs.set n
          { Ctx.cleared with
            state := if whole then .verifying else .collecting
            source := seg.source
            msgno := seg.msgno
            cls := cls
            lastIndex := if seg.last then some seg.index else none
            checkWord := if seg.last then some seg.checkWord else none
            slots := (Vector.replicate 64 none).set seg.index (some ⟨seg.length, s.pool.freeList.headD 0, need, l⟩)
            chain := s.pool.freeList.take need
            presentCount := 1
            byteCount := seg.length
            replyLine := l
            lineMask := maskWith 0 l }
        ageList := if whole then s.ageList else s.ageList ++ [n]
        pool :=
          { s.pool with
            mem := s.pool.mem.writeCells (s.pool.freeList.take need) seg.payload
            freeList := s.pool.freeList.drop need }
        sources := s.sources.set k { s.source k with openCount := (s.source k).openCount + 1 }
        checker := if whole then { s.checker with queue := s.checker.queue ++ [n] } else s.checker
        ev := s.ev.post
          ⟨.ctxOpened, some l, some n, some seg.source, some seg.msgno, if cls = .urgent then 1 else 0⟩ }

/-- An open that fails a test drops the segment with REFUSAL(BUSY) on its arrival line and REFUSED BUSY (open limit, no record) or
POOL_SHORT NEW (no cells); no record, cell or source count changes (01 R9 to R13, 02 R37, R39, R40, R43).
A segment the pool cannot serve under its record's class is dropped: the starved flag is set, POOL_SHORT STARVED is posted, no
frame is sent, and pool and Age List stand as they were (01 R15, R18, 02 R37, R39, R43). -/
def Obligations.RequestsThatFail : Prop :=
  (∀ (s : State) (l : LineNo) (content : List Byte) (seg : Segment) (k : SlotNo), Serves s l content →
     Passes s content l seg → Admitted s k seg → s.lookupKey seg.source seg.msgno = none →
     (s.source k).findHistory seg.msgno = none →
     let urgent := seg.urg = true ∧ (s.source k).urgentOk = true
     let need := (seg.length + 31) / 32
     let free := s.pool.freeList.length
     let evictable (records : List CtxNo) : Nat :=
       ((records.filter fun n => (s.ctx n).cls == .ordinary).map fun n => (s.ctx n).chain.length).sum
     let refused (e : EventRec) : Prop :=
       exec .admissionEvent s = .next (((s.afterServing l).handOver (seg.refusal .busy) l 0).post e)
     let busy := refused ⟨.refused, some l, none, some seg.source, some seg.msgno, 1⟩
     let short := refused ⟨.poolShort, some l, none, some seg.source, some seg.msgno, 2⟩
     ((s.source k).openLimit ≤ (s.source k).openCount → busy) ∧
     ((s.source k).openCount < (s.source k).openLimit →
       ((∀ n, (s.ctx n).state ≠ .free) → (¬urgent ∨ ∀ n ∈ s.ageList, (s.ctx n).cls = .urgent) → busy) ∧
       ((∃ n, (s.ctx n).state = .free) → ¬urgent → free < need + s.pool.reserve → short) ∧
       ((∃ n, (s.ctx n).state = .free) → urgent → free + evictable s.ageList < need → short) ∧
       ∀ v before behind, (∀ n, (s.ctx n).state ≠ .free) → urgent → s.ageList = before ++ v :: behind →
         (∀ n ∈ before, (s.ctx n).cls = .urgent) → (s.ctx v).cls = .ordinary → v ∉ before →
         free + (s.ctx v).chain.length + evictable (before ++ behind) < need → short)) ∧
    ∀ (s : State) (l : LineNo) (content : List Byte) (seg : Segment) (k : SlotNo) (n : CtxNo), Serves s l content →
      Passes s content l seg → Admitted s k seg → s.lookupKey seg.source seg.msgno = some n →
      (s.ctx n).state = .collecting → (s.ctx n).lastTestsPass seg → (s.ctx n).slots[seg.index] = none →
      let need := (seg.length + 31) / 32
      let evictable :=
        ((s.ageList.filter fun n => (s.ctx n).cls == .ordinary).map fun n => (s.ctx n).chain.length).sum
      let starved :=
        exec .admissionEvent s = .next
          (((s.afterServing l).setCtx n { s.ctx n with starved := true }).post
            ⟨.poolShort, some l, some n, some seg.source, some seg.msgno, 1⟩)
      ((s.ctx n).cls = .ordinary → s.pool.freeList.length < need + s.pool.reserve → starved) ∧
      ((s.ctx n).cls = .urgent → s.pool.freeList.length + evictable < need → starved)

/-- A segment stored into its COLLECTING record, where no eviction is needed: the fields of 01 R19, cells from the head of the free
list under the record's class, and the Check Queue when the message is whole (01 R15, R19, R20, 02 R35 to R37, R39). -/
def Obligations.SegmentStored : Prop :=
  ∀ (s : State) (l : LineNo) (content : List Byte) (seg : Segment) (k : SlotNo) (n : CtxNo), Serves s l content →
    Passes s content l seg → Admitted s k seg → s.lookupKey seg.source seg.msgno = some n →
    (s.ctx n).state = .collecting → (s.ctx n).lastTestsPass seg → (s.ctx n).slots[seg.index] = none →
    let need := (seg.length + 31) / 32
    need ≤ s.pool.freeList.length → ((s.ctx n).cls = .ordinary → need + s.pool.reserve ≤ s.pool.freeList.length) →
    ∃ t, exec .admissionEvent s = .next t ∧ StoresInto (s.afterServing l) n seg t

/-- A segment for a COLLECTING record that contradicts the recorded end, or differs in length from the stored copy, is dropped with
CONFLICT and changes nothing; a copy of the stored length raises the duplicate count (up to 255) with DUP_DROPPED STORED, and records
an absent last index when it carries LAST, which may make the message whole (01 R16, R17, R20). -/
def Obligations.ConflictsAndDuplicates : Prop :=
  ∀ (s : State) (l : LineNo) (content : List Byte) (seg : Segment) (k : SlotNo) (n : CtxNo), Serves s l content →
    Passes s content l seg → Admitted s k seg → s.lookupKey seg.source seg.msgno = some n →
    (s.ctx n).state = .collecting →
    let r := s.ctx n
    let conflict (detail : Word) : Prop :=
      exec .admissionEvent s = .next
        ((s.afterServing l).post ⟨.conflict, some l, some n, some seg.source, some seg.msgno, detail⟩)
    let stored : EventRec := ⟨.dupDropped, some l, some n, some seg.source, some seg.msgno, 1⟩
    (∀ last, r.lastIndex = some last → seg.last = true → seg.index ≠ last → conflict 2) ∧
    (∀ last, r.lastIndex = some last → seg.last = false → last ≤ seg.index → conflict 3) ∧
    (∀ i : SegIndex, r.lastIndex = none → seg.last = true → seg.index < i → (r.slots[i]).isSome → conflict 3) ∧
    ∀ sl, r.lastTestsPass seg → r.slots[seg.index] = some sl →
      (sl.length ≠ seg.length → conflict 1) ∧
      (sl.length = seg.length → seg.last = false ∨ r.lastIndex.isSome →
        exec .admissionEvent s = .next
          (((s.afterServing l).setCtx n { r with dupCount := min 255 (r.dupCount + 1) }).post stored)) ∧
      (sl.length = seg.length → seg.last = true → r.lastIndex = none →
        let d :=
          { r with
            dupCount := min 255 (r.dupCount + 1), lastIndex := some seg.index, checkWord := some seg.checkWord }
        (r.presentCount ≠ seg.index.val + 1 →
          exec .admissionEvent s = .next (((s.afterServing l).setCtx n d).post stored)) ∧
        (r.presentCount = seg.index.val + 1 →
          exec .admissionEvent s = .next
            (State.post
              { (s.afterServing l).setCtx n { d with state := .verifying } with
                ageList := s.ageList.erase n
                checker := { s.checker with queue := s.checker.queue ++ [n] } }
              stored)))

/-- An urgent store that finds too few free cells, with enough to be had by eviction: the fewest ordinary records in Age List order
are evicted, each with REFUSAL(EVICTED), then CTX_EVICTED CELLS, then its freeing; their chains join the free list in that order, and
the segment is stored behind them with its record's fields, its cells and its bytes; urgent records and the ordinary ones behind the
last victim keep everything, and each victim's source has one open record less (02 R39, R41, R42, R44, 01 R19, R22, R27). -/
def Obligations.UrgentStoreEvictsForCells : Prop :=
  ∀ (s : State) (l : LineNo) (content : List Byte) (seg : Segment) (k : SlotNo) (n : CtxNo), CollectionsInv s →
    Serves s l content → Passes s content l seg → Admitted s k seg → s.lookupKey seg.source seg.msgno = some n →
    (s.ctx n).state = .collecting → (s.ctx n).cls = .urgent → (s.ctx n).lastTestsPass seg →
    (s.ctx n).slots[seg.index] = none →
    let need := (seg.length + 31) / 32
    let free := s.pool.freeList.length
    free < need → need ≤ free + s.cellsOf (s.ordinaryOf s.ageList) →
    ∃ t victims, exec .admissionEvent s = .next t ∧ FewestVictims s need victims ∧
      StoresInto ((s.afterServing l).evicting l 2 victims) n seg t ∧
      (∀ m ∈ victims, t.ctx m = Ctx.cleared) ∧ (∀ m, m ∉ victims → m ≠ n → t.ctx m = s.ctx m) ∧
      (t.ctx n).chain =
        (s.ctx n).chain ++ (s.pool.freeList ++ victims.flatMap fun m => (s.ctx m).chain).take need ∧
      t.pool.freeList = (s.pool.freeList ++ victims.flatMap fun m => (s.ctx m).chain).drop need ∧
      (t.ctx n).presentCount = (s.ctx n).presentCount + 1 ∧
      t.ageList.filter (· ≠ n) = s.ageList.filter (fun m => m ≠ n ∧ m ∉ victims) ∧
      (SourcesInv s → ∀ j, (s.source j).state ≠ .unused →
        (t.source j).openCount + (victims.filter fun m => (s.ctx m).source == (s.source j).address).length =
          (s.source j).openCount)

/-- An urgent segment that opens the lowest FREE record, and one that finds no FREE record and evicts the first ordinary record on
the Age List, opening that one: first the candidate's REFUSAL(EVICTED), CTX_EVICTED SLOT and freeing, then the open with CTX_OPENED,
then the eviction for cells of the fewest further ordinary records that bring the free count to what the segment needs (none where it
is that already), each with REFUSAL(EVICTED), CTX_EVICTED CELLS and its freeing, then the store. Urgent records and the ordinary ones
behind the last victim keep everything; each victim's source has one open record less, and the segment's source one more (01 R11 to
R14, R19, R27, 02 R39 to R42, R44). -/
def Obligations.UrgentOpenEvicts : Prop :=
  ∀ (s : State) (l : LineNo) (content : List Byte) (seg : Segment) (k : SlotNo), CollectionsInv s → Serves s l content →
    Passes s content l seg → Admitted s k seg → s.lookupKey seg.source seg.msgno = none →
    (s.source k).findHistory seg.msgno = none → (s.source k).openCount < (s.source k).openLimit → seg.urg = true →
    (s.source k).urgentOk = true →
    let need := (seg.length + 31) / 32
    let opensAt (base : State) (n : CtxNo) (evicted : List CtxNo) (t : State) : Prop :=
      ∃ victims, FewestVictims base need victims ∧ StoresInto ((base.openedUrgent n k seg).evicting l 2 victims) n seg t ∧
        (∀ m ∈ victims, t.ctx m = Ctx.cleared) ∧ (∀ m, m ∉ victims → m ≠ n → t.ctx m = s.ctx m) ∧
        (t.ctx n).chain = (base.pool.freeList ++ victims.flatMap fun m => (s.ctx m).chain).take need ∧
        t.pool.freeList = (base.pool.freeList ++ victims.flatMap fun m => (s.ctx m).chain).drop need ∧
        (t.ctx n).source = seg.source ∧ (t.ctx n).msgno = seg.msgno ∧ (t.ctx n).cls = .urgent ∧
        (t.ctx n).presentCount = 1 ∧
        t.ageList.filter (· ≠ n) = s.ageList.filter (fun m => m ≠ n ∧ m ∉ victims) ∧
        (SourcesInv s → ∀ j, (s.source j).state ≠ .unused →
          (t.source j).openCount +
              ((evicted ++ victims).filter fun m => (s.ctx m).source == (s.source j).address).length =
            (s.source j).openCount + if j = k then 1 else 0)
    (∀ n, s.lowestFree = some n → need ≤ s.pool.freeList.length + s.cellsOf (s.ordinaryOf s.ageList) →
      ∃ t, exec .admissionEvent s = .next t ∧ opensAt (s.afterServing l) n [] t) ∧
    ∀ v before behind, (∀ n, (s.ctx n).state ≠ .free) → s.ageList = before ++ v :: behind →
      (∀ n ∈ before, (s.ctx n).cls = .urgent) → (s.ctx v).cls = .ordinary →
      need ≤ s.pool.freeList.length + (s.ctx v).chain.length + s.cellsOf (s.ordinaryOf (before ++ behind)) →
      ∃ t, exec .admissionEvent s = .next t ∧ opensAt ((s.afterServing l).evicting l 1 [v]) v [v] t

/-- A segment whose number stands in its source's history is answered with a RECEIPT of length 0 while credit remains, each answer
costing one credit, and then dropped silently; one whose record has left COLLECTING and whose number is not in the history is dropped
as LATE. No record changes (03 R56, R57, R58). -/
def Obligations.HistoryAnswersAndLateCopies : Prop :=
  ∀ (s : State) (l : LineNo) (content : List Byte) (seg : Segment) (k : SlotNo), Serves s l content →
    Passes s content l seg → Admitted s k seg →
    (∀ n, s.lookupKey seg.source seg.msgno = some n → (s.ctx n).state ≠ .collecting) →
    let event (n : Option CtxNo) (detail : Word) : EventRec :=
      ⟨.dupDropped, some l, n, some seg.source, some seg.msgno, detail⟩
    (∀ h, (s.source k).findHistory seg.msgno = some h → ∃ named,
      (∀ n, named = some n ↔
        s.lookupKey seg.source seg.msgno = some n ∧ ((s.ctx n).state = .ready ∨ (s.ctx n).state = .delivering)) ∧
      (0 < h.credit →
        exec .admissionEvent s = .next
          (State.post
            (((s.afterServing l).handOver ⟨seg.source, seg.msgno, .receipt 0 0⟩ l 0).setSource k
              { s.source k with
                history := (s.source k).history.map fun g =>
                  if g.msgno = seg.msgno then { g with credit := g.credit - 1 } else g })
            (event named 2))) ∧
      (h.credit = 0 → exec .admissionEvent s = .next ((s.afterServing l).post (event named 3)))) ∧
    ∀ n, (s.source k).findHistory seg.msgno = none → s.lookupKey seg.source seg.msgno = some n →
      exec .admissionEvent s = .next ((s.afterServing l).post (event (some n) 4))

/-! ## Freeing a record, payload bytes -/

/-- Freeing: the chain joins the tail of the free list in chain order, the record leaves its collection, its source's open count
falls by one, its fields are cleared, and nothing else changes (01 R26, 02 R44). What is done for a record whose source has no entry,
which no run reaches, is the model's choice (log 18). -/
def Obligations.FreeingReturnsTheRecord : Prop :=
  ∀ (s : State) (n : CtxNo),
    let r := s.ctx n
    let freed :=
      { s with
        ctxs := s.ctxs.set n Ctx.cleared
        ageList := s.ageList.erase n
        pool := { s.pool with freeList := s.pool.freeList ++ r.chain }
        checker := { s.checker with queue := s.checker.queue.erase n }
        delivery := s.delivery.erase n }
    (∀ k, s.findSource r.source = some k →
      s.freeCtx n = freed.setSource k { s.source k with openCount := (s.source k).openCount - 1 }) ∧
    (s.findSource r.source = none → s.freeCtx n = freed)

/-- What a segment stored reads back as: whatever slot an admission event makes present, its bytes are the served segment's payload,
and no byte of the pool changes beyond those bytes; a slot that stays present keeps its bytes (01 R3, 02 R36). The payload memory is
taken in its canonical form there, which every step keeps (log 4).
While a record holds a cell, no command changes the cell's bytes; only ADMISSION_EVENT writes payload bytes at all, HARDWARE_RESET
included (02 R36, R34), and only where it makes a slot present. -/
def Obligations.StoredPayloadReadsBackAndStands : Prop :=
  (∀ (s t : State) (l : LineNo) (content : List Byte), Memory.wf s.pool.mem = true → RecordsInv s → Serves s l content →
     exec .admissionEvent s = .next t →
     (∀ (n : CtxNo) (i : SegIndex) (sl : Slot), NewSlot s t n i → (t.ctx n).slots[i] = some sl →
       (t.ctx n).slotBytes t.pool.mem sl = (parseSegment l content).payload ∧
         ∀ c o : Nat, o < 32 →
           (∀ j : Nat, ((t.ctx n).slotCells sl)[j]? = some c → (parseSegment l content).payload.length ≤ 32 * j + o) →
           t.pool.mem.read (32 * c + o) = s.pool.mem.read (32 * c + o)) ∧
     ((∀ n i, ¬NewSlot s t n i) → ∀ a, t.pool.mem.read a = s.pool.mem.read a)) ∧
    (∀ (c : Instr) (s t : State), RecordsInv s → exec c s = .next t → ∀ (n : CtxNo) (i : SegIndex) (sl : Slot),
      (s.ctx n).slots[i] = some sl → (t.ctx n).slots[i] = some sl → (t.ctx n).source = (s.ctx n).source →
      (t.ctx n).msgno = (s.ctx n).msgno → (t.ctx n).slotBytes t.pool.mem sl = (s.ctx n).slotBytes s.pool.mem sl) ∧
    ∀ (c : Instr) (s t : State), exec c s = .next t →
      (c ≠ .admissionEvent → ∀ a, t.pool.mem.read a = s.pool.mem.read a) ∧
      (PoolInv s → ∀ (n : CtxNo) (cell o : Nat), cell ∈ (s.ctx n).chain → cell ∈ (t.ctx n).chain →
        (t.ctx n).source = (s.ctx n).source → (t.ctx n).msgno = (s.ctx n).msgno → o < 32 →
        t.pool.mem.read (32 * cell + o) = s.pool.mem.read (32 * cell + o))

/-! ## The check engine -/

/-- TAKE_HEAD begins a check exactly when the engine is IDLE in RUN with a record waiting; a cell's completion inside the message
folds its bytes in and moves the walk on, and changes nothing else (05 R88, R89). That TAKE_HEAD otherwise answers the same state is
the model's choice (log 2). -/
def Obligations.CheckBeginsAndWalks : Prop :=
  ∀ s : State, s.pins.rstnLow = false →
    (s.checker.engine = .idle → s.cmd.mode = .run → s.checker.queue ≠ [] →
      exec .takeHead s = .next { s with checker := { s.checker with engine := .checking 0xFFFFFFFF ⟨0, 1, 0⟩ } }) ∧
    (s.checker.engine ≠ .idle ∨ s.cmd.mode ≠ .run ∨ s.checker.queue = [] → exec .takeHead s = .next s) ∧
    ∀ n rest crc w next, s.checker.queue = n :: rest → s.checker.engine = .checking crc w →
      (s.ctx n).walkNext w = some next →
      exec .cellCompletion s = .next
        { s with
          checker := { s.checker with engine := .checking (crc32Fold crc ((s.ctx n).walkBytes s.pool.mem w)) next } }

/-- The check's walk reads exactly the payload in index order, in one cell read for each cell, whatever the order of arrival (05
R89, 01 R3).
The readout walk of a message delivers exactly its payload in index order, byte by byte: what the check's walk read (08 R142,
01 R3). -/
def Obligations.WalksReadThePayload : Prop :=
  (∀ (r : Ctx) (m : Memory), r.walkable →
     r.checkRun m r.walkCells Walk.start = r.payload m ∧
       (fun o : Option Walk => o.bind r.walkNext)^[r.walkCells] (some Walk.start) = none ∧
       ∀ j < r.walkCells, (fun o : Option Walk => o.bind r.walkNext)^[j] (some Walk.start) ≠ none) ∧
    ∀ (r : Ctx) (m : Memory), r.walkable → r.readoutRun m (r.payload m).length Walk.start = r.payload m

/-- The completion of the final cell, in every mode. A match: READY in the delivery queue (an urgent record behind the last
urgent one, an ordinary one at the tail), RECEIPT with the true length and count, history push with credit 3, MSG_READY, engine IDLE.
A mismatch: REFUSAL(CHECK), CHECK_FAILED, record freed, engine IDLE (05 R91, R93, R99, 03 R66).
In STOPPING the check does the same work, and completes STOP behind it if nothing is left in flight (05 R98, 09 R159). -/
def Obligations.CheckEnds : Prop :=
  ∀ (s : State) (n : CtxNo) (rest : List CtxNo) (crc : Word32) (w : Walk), s.pins.rstnLow = false →
    s.checker.queue = n :: rest → s.checker.engine = .checking crc w →
    (s.ctx n).walkNext w = none →
    let r := s.ctx n
    let result := crc32Fold crc (r.walkBytes s.pool.mem w) ^^^ 0xFFFFFFFF
    let cls : Word := if r.cls = .urgent then 1 else 0
    (∀ k urgents ordinaries, r.checkWord = some result → s.findSource r.source = some k →
      s.delivery = urgents ++ ordinaries → (∀ m ∈ urgents, (s.ctx m).cls = .urgent) →
      (∀ m ∈ ordinaries, (s.ctx m).cls = .ordinary) →
      exec .cellCompletion s = .next
        (State.afterEnd (State.post
          { s.handOver ⟨r.source, r.msgno, .receipt r.byteCount r.presentCount⟩ r.replyLine r.lineMask with
            ctxs := s.ctxs.set n { r with state := .ready }
            checker := ⟨rest, .idle⟩
            delivery := if r.cls = .urgent then urgents ++ n :: ordinaries else urgents ++ ordinaries ++ [n]
            sources := s.sources.set k
              { s.source k with
                history :=
                  (if (s.source k).history.length < 4 then (s.source k).history else (s.source k).history.tail) ++
                    [⟨r.msgno, 3⟩] } }
          ⟨.msgReady, some r.replyLine, some n, some r.source, some r.msgno, cls⟩))) ∧
    (r.checkWord ≠ some result →
      exec .cellCompletion s = .next
        (State.afterEnd
          { ((s.handOver (r.refusal .check) r.replyLine r.lineMask).post
              ⟨.checkFailed, some r.replyLine, some n, some r.source, some r.msgno, cls⟩).freeCtx n with
            checker := ⟨rest, .idle⟩ }))

/-- The engine's stop: no comparison; CTX_ABORT's outputs if that is the command, the record freed, the engine IDLE, then the
command completes with its result words (05 R95, 09 R164 to R167). -/
def Obligations.EngineStopCompletesTheCommand : Prop :=
  ∀ (s : State) (n : CtxNo) (rest : List CtxNo) (crc : Word32) (w : Walk), s.pins.rstnLow = false →
    s.checker.queue = n :: rest → s.checker.engine = .stopPending crc w →
    let r := s.ctx n
    (∀ m notify, s.cmd.state = .busy (.ctxAbort m notify) →
      let u := if notify then s.handOver (r.refusal .aborted) r.replyLine r.lineMask else s
      exec .cellCompletion s = .next
        { (u.post ⟨.ctxAborted, none, some n, some r.source, some r.msgno,
              BitVec.ofNat 16 (r.state.code + if notify then 16 else 0)⟩).freeCtx n with
          checker := ⟨rest, .idle⟩
          cmd := s.cmd.ended 0x18
            #v[r.source.setWidth 16, r.msgno.setWidth 16, BitVec.ofNat 16 r.state.code, 0, 0, 0] }) ∧
    (∀ a freed k, s.cmd.state = .busy (.srcRemove a freed) → s.findSource a = some k →
      exec .cellCompletion s = .next
        { s.freeCtx n with
          checker := ⟨rest, .idle⟩
          sources := (s.freeCtx n).sources.set k ⟨.unused, 0, 1, 1, false, 0, []⟩
          cmd := s.cmd.ended 0x11 #v[BitVec.ofNat 16 (freed + 1), 0, 0, 0, 0, 0] }) ∧
    (∀ freed, s.cmd.state = .busy (.flush freed) →
      exec .cellCompletion s = .next
        { s.freeCtx n with
          checker := ⟨rest, .idle⟩
          cmd := s.cmd.ended 0x1A #v[BitVec.ofNat 16 (freed + 1), 0, 0, 0, 0, 0] })

/-! ## Host reads and plain register writes -/

/-- A read of MSG_HEAD0, by the readout state: it claims the head of the delivery queue in NONE, and only names the held or the lost
message otherwise (08 R139). -/
def Obligations.ReadOfMsgHead0 : Prop :=
  ∀ s : State, s.pins.rstnLow = false →
    let word (valid lost : Nat) (cls : MsgClass) (n : CtxNo) : Word :=
      BitVec.ofNat 16 (valid + 2 * lost + 4 * (if cls = .urgent then 1 else 0) + 256 * n.val)
    let unclaimed (w : Word) : Prop := exec .msgHead0 s = .next { s with pins := { s.pins with dataOut := some w } }
    (∀ n rest, s.readout.port = .none → s.delivery = n :: rest →
      let r := s.ctx n
      let t :=
        { s with
          delivery := rest
          ctxs := s.ctxs.set n { r with state := .delivering }
          readout := ⟨.held n ⟨0, 1, 0⟩, ⟨n, r.cls, r.source, r.msgno, r.byteCount⟩, r.byteCount⟩
          pins := { s.pins with dataOut := some (word 1 0 r.cls n) } }
      exec .msgHead0 s = .next t ∧ (rest = [] → t.dlvHolds = false) ∧
        (DeliveryOrder s → (∃ m ∈ s.delivery, (s.ctx m).cls = .urgent) → r.cls = .urgent)) ∧
    (s.readout.port = .none → s.delivery = [] → unclaimed 0) ∧
    (∀ n w, s.readout.port = .held n w → unclaimed (word 1 0 s.readout.head.cls s.readout.head.ctx)) ∧
    (s.readout.port = .lost → unclaimed (word 0 1 s.readout.head.cls s.readout.head.ctx))

/-- A read of DATA in HELD delivers the next two payload bytes, the first in bits 7..0, and moves the walk on by them; the last
odd byte comes with bits 15..8 zero; nothing else changes (08 R142).
A read of DATA returns 0 and changes nothing at the end of the message, in NONE and in LOST (08 R143). -/
def Obligations.ReadOfData : Prop :=
  (∀ (s : State) (n : CtxNo) (w : Walk), s.pins.rstnLow = false → s.readout.port = .held n w →
      let r := s.ctx n
      let first := r.readoutByte s.pool.mem w
      let second := r.readoutByte s.pool.mem (r.readoutNext w)
      (2 ≤ s.readout.remaining →
        exec .data s = .next
          { s with
            readout :=
              { s.readout with
                port := .held n (r.readoutNext (r.readoutNext w)), remaining := s.readout.remaining - 2 }
            pins := { s.pins with dataOut := some (BitVec.ofNat 16 (first.toNat + 256 * second.toNat)) } }) ∧
      (s.readout.remaining = 1 →
        exec .data s = .next
          { s with
            readout := { s.readout with port := .held n (r.readoutNext w), remaining := 0 }
            pins := { s.pins with dataOut := some (BitVec.ofNat 16 first.toNat) } })) ∧
    ∀ s : State, s.pins.rstnLow = false →
      ((∃ n w, s.readout.port = .held n w) ∧ s.readout.remaining = 0) ∨ s.readout.port = .none ∨ s.readout.port = .lost →
      exec .data s = .next { s with pins := { s.pins with dataOut := some 0 } }

/-- A read of EVT_POP takes the head record out and latches its fields, or clears the latches on an empty queue; the latch registers
show them until the next pop (10 R176). -/
def Obligations.ReadOfEvtPop : Prop :=
  (∀ s : State, s.pins.rstnLow = false →
    let overflow := if s.ev.overflow then 2 else 0
    (∀ e rest, s.ev.queue = e :: rest → ∃ t, exec .evtPop s = .next t ∧
      t =
        { s with
          ev := { s.ev with queue := rest, latches := ⟨e.ctx, e.source, e.msgno, e.detail⟩ }
          pins :=
            { s.pins with
              dataOut := some (BitVec.ofNat 16
                (1 + overflow + (match e.line with | some l => 4 + 8 * l.val | none => 0) + 256 * e.kind.code)) } } ∧
      t.readWord 0x21 =
        BitVec.ofNat 16
          ((match e.source with | some a => a.toNat | none => 0) + (match e.ctx with | some n => 32768 + 256 * n.val | none => 0)) ∧
      t.readWord 0x22 = BitVec.ofNat 16 (match e.msgno with | some m => 32768 + m.toNat | none => 0) ∧
      t.readWord 0x23 = e.detail) ∧
    (s.ev.queue = [] → ∃ t, exec .evtPop s = .next t ∧
      t =
        { s with
          ev := { s.ev with latches := ⟨none, none, none, 0⟩ }
          pins := { s.pins with dataOut := some (BitVec.ofNat 16 overflow) } } ∧
      t.readWord 0x21 = 0 ∧ t.readWord 0x22 = 0 ∧ t.readWord 0x23 = 0)) ∧
    (∀ (c : Instr) (s t : State), exec c s = .next t → c ≠ .evtPop → c ≠ .hardwareReset → t.ev.latches = s.ev.latches) ∧
    State.reset.readWord 0x21 = 0 ∧ State.reset.readWord 0x22 = 0 ∧ State.reset.readWord 0x23 = 0

/-- A read of CMD_RESULT returns the last result and code and clears the command-done flag alone; a write to an argument register
stores the whole word in any mode and command state; a write to a read-only or unassigned register changes nothing (09 R151, R154, 11
R183, R185).
What the registers without a read side effect show: the fields of 11 11.4, and 0 at every unassigned address (08 R135, 11
R185).
Which row a host access is, by its address (11 11.3); and the numbers of the layout's code points: classes, context and source
states, results, event kinds, refusal reasons, line reasons, kind bytes (11 11.2, 11.4 to 11.7). -/
def Obligations.RegistersReadAndWritten : Prop :=
  (∀ s : State,
      (s.pins.rstnLow = false →
        exec .cmdResult s = .next
          { s with
            cmd := { s.cmd with done := false }
            pins :=
              { s.pins with
                dataOut := some (BitVec.ofNat 16 (s.cmd.lastResult.code + 256 * s.cmd.lastCompleted.toNat)) } }) ∧
      (s.pins.rstnLow = false → ∀ (i : ArgNo) (w : Word), ∃ t, exec (.cmdArg i w) s = .next t ∧
        t = { s with cmd := { s.cmd with args := s.cmd.args.set i w } } ∧ t.readWord (BitVec.ofNat 7 (2 + i.val)) = w) ∧
      ∀ (a : RegAddr) (w : Word), a ∉ [0x00, 0x02, 0x03, 0x04, 0x05, 0x06, 0x07, 0x25, 0x26, 0x28] →
        exec (.ignoredWrite a w) s = .next s) ∧
    (∀ s : State,
      let flag (b : Bool) : Nat := if b then 1 else 0
      let num (n : Nat) : Word := BitVec.ofNat 16 n
      let busy := match s.cmd.state with | .idle => 0 | .busy _ => 1
      let mode := match s.cmd.mode with | .config => 0 | .run => 1 | .stopping => 2
      s.readWord 0x00 =
        num (busy + 2 * mode + 8 * flag s.cmd.refused + 16 * flag s.cmd.done + 256 * s.cmd.lastAccepted.toNat) ∧
      (∀ i : ArgNo, s.readWord (BitVec.ofNat 7 (2 + i.val)) = s.arg i ∧
        s.readWord (BitVec.ofNat 7 (8 + i.val)) = s.cmd.results[i]) ∧
      s.readWord 0x11 = num s.readout.head.source.toNat ∧ s.readWord 0x12 = num s.readout.head.msgno.toNat ∧
      s.readWord 0x13 = num s.readout.head.length ∧ s.readWord 0x15 = num s.readout.remaining ∧
      (s.ev.queue.length ≤ 64 → s.ev.loss ≤ 255 →
        s.readWord 0x24 = num (s.ev.queue.length + 128 * flag s.ev.overflow + 256 * s.ev.loss)) ∧
      s.readWord 0x29 =
        num (flag (!s.ev.queue.isEmpty) + 2 * flag (!s.delivery.isEmpty) + 4 * flag s.cmd.done + 8 * flag s.irqAsserted) ∧
      (∀ l : LineNo, (s.line l).badCount ≤ 15 → (s.line l).buffers.length ≤ 2 →
        let state := match (s.line l).state with | .off => 0 | .on => 1 | .closing => 2 | .faulted => 3
        let tx := match (s.line l).tx with | .idle => 0 | .sending => 1 | .aborting => 2
        s.readWord (BitVec.ofNat 7 (0x30 + l.val)) =
          num (state + 4 * tx + 16 * (s.line l).badCount + 256 * (s.line l).buffers.length)) ∧
      ∀ a : RegAddr,
        a = 0x0E ∨ a = 0x0F ∨ (0x16 ≤ a ∧ a ≤ 0x1F) ∨ a = 0x27 ∨ (0x2A ≤ a ∧ a ≤ 0x2F) ∨ 0x34 ≤ a → s.readWord a = 0) ∧
    (∀ w : Word,
      (∀ i : ArgNo, rowOfWrite (BitVec.ofNat 7 (2 + i.val)) w = .cmdArg i w) ∧ rowOfWrite 0x25 w = .evtMaskWrite 0 w ∧
      rowOfWrite 0x26 w = .evtMaskWrite 1 w ∧ rowOfWrite 0x28 w = .irqEn w ∧
      (∀ a : RegAddr, a ∉ [0x00, 0x02, 0x03, 0x04, 0x05, 0x06, 0x07, 0x25, 0x26, 0x28] → rowOfWrite a w = .ignoredWrite a w) ∧
      (∀ a : RegAddr, (rowOfWrite a w).wf = true)) ∧
    (rowOfRead 0x01 = some .cmdResult ∧ rowOfRead 0x10 = some .msgHead0 ∧ rowOfRead 0x14 = some .data ∧
      rowOfRead 0x20 = some .evtPop ∧ ∀ a : RegAddr, a ∉ [0x01, 0x10, 0x14, 0x20] → rowOfRead a = none) ∧
    [MsgClass.ordinary, .urgent].map MsgClass.code = [0, 1] ∧
    [CtxState.free, .collecting, .verifying, .ready, .delivering].map CtxState.code = [0, 1, 2, 3, 4] ∧
    [SourceState.unused, .enabled, .suspended, .removing].map SourceState.code = [0, 1, 2, 3] ∧
    [Result.ok, .badCommand, .badArgument, .wrongMode, .noSuchSource, .sourceExists, .tableFull, .noSuchContext, .notHeld,
      .lineState].map Result.code = [0, 1, 2, 3, 4, 5, 6, 7, 8, 9] ∧
    [EventKind.msgReady, .ctxOpened, .ctxExpired, .ctxEvicted, .ctxAborted, .checkFailed, .refused, .conflict, .dupDropped,
      .poolShort, .gapSent, .txDropped, .lineError, .lineFault, .rxOverrun, .malformed, .unknownSource, .sourceLearned, .foreign,
      .unexpectedKind, .readoutLost].map EventKind.code = List.range' 1 21 ∧
    [Reason.busy, .evicted, .timeout, .check, .suspended, .tooLong, .aborted].map Reason.code = [1, 2, 3, 4, 5, 6, 7] ∧
    [LineReason.symbol, .escape, .overlength, .runt, .check, .aborted].map LineReason.code = [1, 2, 3, 4, 5, 6] ∧
    ∀ (tail : Bool) (reference : SegIndex) (missing : List SegIndex) (length count : Nat) (reason : Reason) (index : Byte),
      (CtrlBody.gap tail reference missing).kindByte = 0xB2 ∧ (CtrlBody.receipt length count).kindByte = 0xB3 ∧
        (CtrlBody.refusal reason index).kindByte = 0xB4

/-- Writes to EVT_MASK0, EVT_MASK1 and IRQ_EN: the mask bits and enables are replaced, bits in must-be-zero positions are discarded
and read back 0, and nothing else changes, in every mode and command state (11 R184). -/
def Obligations.MaskAndEnableWrites : Prop :=
  ∀ (s : State) (w : Word), s.pins.rstnLow = false →
    (∃ t, exec (.evtMaskWrite 0 w) s = .next t ∧ t = { s with ev := { s.ev with mask0 := w } } ∧ t.readWord 0x25 = w) ∧
    (∃ t, exec (.evtMaskWrite 1 w) s = .next t ∧ t = { s with ev := { s.ev with mask1 := w.setWidth 5 } } ∧
      t.readWord 0x26 = w &&& 0x001F) ∧
    (∃ t, exec (.irqEn w) s = .next t ∧ t = { s with ev := { s.ev with irqEn := w.setWidth 3 } } ∧
      t.readWord 0x28 = w &&& 0x0007)

/-! ## The command unit -/

/-- A write to CMD while BUSY sets the refused flag and changes nothing else; the flag stays set until a write is accepted, which a
write taken while IDLE is (09 R153). -/
def Obligations.BusyUnitRefusesWrites : Prop :=
  (∀ (c : Instr) (s : State) (code : Byte) (w : Waiting), c.wf = true → c.cmdCode = some code → s.pins.rstnLow = false →
    s.cmd.state = .busy w → exec c s = .next { s with cmd := { s.cmd with refused := true } }) ∧
    (∀ (c : Instr) (s t : State) (code : Byte), c.cmdCode = some code → s.accepts → exec c s = .next t →
      t.cmd.refused = false ∧ t.cmd.lastAccepted = code) ∧
    ∀ (c : Instr) (s t : State), exec c s = .next t → s.cmd.refused = true → t.cmd.refused = false →
      c = .hardwareReset ∨ ((∃ code, c.cmdCode = some code) ∧ s.accepts)

/-- A word written to CMD: bits 15..8 zero and bits 7..0 a code of 11.5 name that command, and any other word none. While IDLE the
write is accepted whatever its word, the refused flag cleared and bits 7..0 recorded as the last accepted code; a word that names no
command completes with BAD_COMMAND, bits 7..0 in both code fields, the done flag set and six zero result words. While BUSY it is
refused whatever its word (11 R182). -/
def Obligations.WordsThatNameNoCommand : Prop :=
  (∀ w : Word, namesCommand w = true ↔
    w ∈ ([0x01, 0x02, 0x03, 0x04, 0x05, 0x08, 0x09, 0x10, 0x11, 0x12, 0x13, 0x18, 0x19, 0x1A, 0x20, 0x21, 0x28, 0x29, 0x2A,
      0x30] : List Word)) ∧
    (∀ p ∈ ([(0x01, .setStation), (0x02, .setLearn), (0x03, .setTiming), (0x04, .setReserve), (0x05, .setLine), (0x08, .lineOn),
        (0x09, .lineOff), (0x10, .srcAdd), (0x11, .srcRemove), (0x12, .srcSuspend), (0x13, .srcResume), (0x18, .ctxAbort),
        (0x19, .release), (0x1A, .flush), (0x20, .start), (0x21, .stop), (0x28, .queryCtx), (0x29, .querySrc), (0x2A, .queryPool),
        (0x30, .clearLoss)] : List (Word × Instr)), rowOfWrite 0x00 p.1 = p.2) ∧
    (∀ w : Word, namesCommand w = false → rowOfWrite 0x00 w = .badCommand w) ∧
    (∀ (s : State) (w : Word), s.pins.rstnLow = false →
      (s.cmd.state = .idle → ∃ t, exec (rowOfWrite 0x00 w) s = .next t ∧ t.cmd.lastAccepted = w.setWidth 8 ∧
        t.cmd.refused = false) ∧
      ∀ v, s.cmd.state = .busy v → exec (rowOfWrite 0x00 w) s = .next { s with cmd := { s.cmd with refused := true } }) ∧
    ∀ (s : State) (w : Word), namesCommand w = false → s.pins.rstnLow = false →
      (s.cmd.state = .idle →
        exec (.badCommand w) s = .next
          { s with cmd := s.cmd.completed (w.setWidth 8) .badCommand (Vector.replicate 6 0) }) ∧
      ∀ v, s.cmd.state = .busy v → exec (.badCommand w) s = .next { s with cmd := { s.cmd with refused := true } }

/-- A command that an accepted write ends with any result but OK has changed nothing beyond the command unit's own registers and
flags, with six zero result words (09 R154, R155).
The checks of an accepted command: an argument out of range gives BAD_ARGUMENT, the whole word tested as one number; then the
mode; then the object (09 R155, R157, R158, R160 to R165, R168 to R170, 11 R183). -/
def Obligations.FailedChecksChangeOnlyTheUnit : Prop :=
  (∀ (c : Instr) (s t : State) (code : Byte), c.cmdCode = some code → s.accepts → exec c s = .next t →
     t.cmd.state = .idle → t.cmd.lastResult ≠ .ok →
     t = { s with cmd := s.cmd.completed code t.cmd.lastResult (Vector.replicate 6 0) }) ∧
    ∀ s : State, s.accepts →
      let a (i : ArgNo) : Nat := (s.arg i).toNat
      let ends (c : Instr) (code : Byte) (r : Result) : Prop :=
        exec c s = .next { s with cmd := s.cmd.completed code r (Vector.replicate 6 0) }
      let badAddress := a 0 = 0 ∨ 254 < a 0
      let unknown := s.findSource ((s.arg 0).setWidth 8) = none
      (badAddress → ends .setStation 0x01 .badArgument ∧ ends .srcAdd 0x10 .badArgument ∧ ends .srcRemove 0x11 .badArgument ∧
        ends .srcSuspend 0x12 .badArgument ∧ ends .srcResume 0x13 .badArgument ∧ ends .querySrc 0x29 .badArgument) ∧
      (1 < a 0 → ends .setLearn 0x02 .badArgument) ∧
      (1 < a 0 ∨ a 1 = 0 ∨ 1023 < a 1 ∨ 7 < a 2 ∨ a 3 = 0 ∨ 255 < a 3 → ends .setTiming 0x03 .badArgument) ∧
      (512 < a 0 → ends .setReserve 0x04 .badArgument) ∧
      (3 < a 0 ∨ a 1 < 8 ∨ 15 < a 2 → ends .setLine 0x05 .badArgument) ∧
      (3 < a 0 → ends .lineOn 0x08 .badArgument ∧ ends .lineOff 0x09 .badArgument) ∧
      (a 1 = 0 ∨ 64 < a 1 ∨ a 2 = 0 ∨ 8 < a 2 ∨ 1 < a 3 → ends .srcAdd 0x10 .badArgument) ∧
      (31 < a 0 ∨ 1 < a 1 → ends .ctxAbort 0x18 .badArgument) ∧
      (31 < a 0 ∨ 4 < a 1 ∨ (a 1 = 4 ∧ 63 < a 2) → ends .queryCtx 0x28 .badArgument) ∧
      (¬badAddress → s.cmd.mode ≠ .config → ends .setStation 0x01 .wrongMode) ∧
      (s.cmd.mode ≠ .config → ends .start 0x20 .wrongMode) ∧
      (s.cmd.mode ≠ .run → ends .stop 0x21 .wrongMode) ∧
      (¬badAddress → unknown → ends .srcRemove 0x11 .noSuchSource ∧ ends .srcSuspend 0x12 .noSuchSource ∧
        ends .srcResume 0x13 .noSuchSource ∧ ends .querySrc 0x29 .noSuchSource) ∧
      (¬badAddress → 1 ≤ a 1 → a 1 ≤ 64 → 1 ≤ a 2 → a 2 ≤ 8 → a 3 ≤ 1 →
        (¬unknown → ends .srcAdd 0x10 .sourceExists) ∧
        (unknown → (∀ k, (s.source k).state ≠ .unused) → ends .srcAdd 0x10 .tableFull)) ∧
      (∀ n : CtxNo, a 0 = n.val → a 1 ≤ 1 → (s.ctx n).state = .free → ends .ctxAbort 0x18 .noSuchContext) ∧
      (s.readout.port = .none → ends .release 0x19 .notHeld) ∧
      ∀ l : LineNo, a 0 = l.val →
        (8 ≤ a 1 → a 2 ≤ 15 → (s.line l).state ≠ .off → ends .setLine 0x05 .lineState) ∧
        ((s.line l).state = .on ∨ (s.line l).state = .closing → ends .lineOn 0x08 .lineState)

/-- The commands that replace a setting, with arguments in range: SET_STATION in CONFIG, SET_LEARN, SET_TIMING, SET_RESERVE, SET_LINE
on an OFF line, CLEAR_LOSS. Each completes with OK and changes that setting alone (09 R160, R161, R162, R168, 04 R71, 02 R38, 07 R118,
10 R178). -/
def Obligations.SettingsReplaced : Prop :=
  ∀ s : State, s.accepts →
    let a (i : ArgNo) : Nat := (s.arg i).toNat
    let done (code : Byte) : CommandUnit := s.cmd.completed code .ok (Vector.replicate 6 0)
    let timing : Timing := ⟨a 1, a 2, a 3⟩
    (s.cmd.mode = .config → 1 ≤ a 0 → a 0 ≤ 254 →
      exec .setStation s = .next { s with cmd := { done 0x01 with station := BitVec.ofNat 8 (a 0) } }) ∧
    (a 0 ≤ 1 → exec .setLearn s = .next { s with cmd := { done 0x02 with learn := decide (a 0 = 1) } }) ∧
    (1 ≤ a 1 → a 1 ≤ 1023 → a 2 ≤ 7 → 1 ≤ a 3 → a 3 ≤ 255 →
      (a 0 = 0 → exec .setTiming s = .next { s with timer := { s.timer with ordinary := timing }, cmd := done 0x03 }) ∧
      (a 0 = 1 → exec .setTiming s = .next { s with timer := { s.timer with urgent := timing }, cmd := done 0x03 })) ∧
    (a 0 ≤ 512 → exec .setReserve s = .next { s with pool := { s.pool with reserve := a 0 }, cmd := done 0x04 }) ∧
    (∀ l : LineNo, a 0 = l.val → 8 ≤ a 1 → a 2 ≤ 15 → (s.line l).state = .off →
      exec .setLine s = .next
        { s with lines := s.lines.set l { s.line l with divisor := a 1, threshold := a 2 }, cmd := done 0x05 }) ∧
    exec .clearLoss s = .next { s with ev := { s.ev with loss := 0, overflow := false }, cmd := done 0x30 }

/-- START: WRONG_MODE in RUN, BAD_ARGUMENT in CONFIG with no station address, and not accepted in STOPPING; in CONFIG with one, the
mode becomes RUN and nothing else changes, every buffer is empty, and from then on ticks reach COLLECTING records, the check engine
takes a waiting head and transmitters start waiting entries (09 R157). The last four clauses rest on the invariant ModeInv. -/
def Obligations.StartEntersRun : Prop :=
  ∀ s : State, s.pins.rstnLow = false →
    (s.cmd.state = .idle → s.cmd.mode = .run →
      exec .start s = .next { s with cmd := s.cmd.completed 0x20 .wrongMode (Vector.replicate 6 0) }) ∧
    (s.cmd.state = .idle → s.cmd.mode = .config → s.cmd.station = 0 →
      exec .start s = .next { s with cmd := s.cmd.completed 0x20 .badArgument (Vector.replicate 6 0) }) ∧
    (ModeInv s → s.cmd.mode = .stopping → s.cmd.state = .busy .stop) ∧
    (s.cmd.state = .idle → s.cmd.mode = .config → s.cmd.station ≠ 0 → ∃ t, exec .start s = .next t ∧
      t = { s with cmd := { s.cmd.completed 0x20 .ok (Vector.replicate 6 0) with mode := .run } } ∧
      (ModeInv s →
        (∀ l, (t.line l).buffers = []) ∧
        (∃ u, exec .tick t = .next u ∧ ∀ n, (s.ctx n).state = .collecting →
          (u.ctx n).idle = (s.ctx n).idle + 1 ∧ (u.ctx n).lifetime = (s.ctx n).lifetime + 1) ∧
        (∀ n rest, s.checker.queue = n :: rest → ∃ u, exec .takeHead t = .next u ∧ u.underCheck = some n) ∧
        ∀ l, (s.line l).state = .on → (s.line l).queue ≠ [] →
          ∃ u, exec (.frameStart l) t = .next u ∧ (u.line l).tx = .sending))

/-- STOP in RUN discards every waiting frame, freezes the timers, keeps every decision still to be taken for the first tick of the
next RUN (04 R75; the flags that hold it are the model's, log 7) and, with nothing in flight, completes at once with the part in
CONFIG; else the unit is BUSY with the part in STOPPING, and STOP completes with OK in the event that leaves the engine and every
transmitter IDLE together. That it also completes as STOP_COMPLETION where those conditions stand is the model's form of that row (09
R158, R159; logs 7 and 8). -/
def Obligations.StopWindsDown : Prop :=
  (∀ s : State, s.accepts → s.cmd.mode = .run →
    let t : State :=
      { s with
        lines := s.lines.map fun u => { u with buffers := [] }
        timer :=
          { s.timer with
            owed := Vector.replicate 32 false
            deferred := Vector.ofFn fun n => s.timer.owed[n] || s.timer.deferred[n] } }
    let quiet := s.checker.engine = .idle ∧ ∀ l, (s.line l).tx = .idle
    (quiet → exec .stop s = .next
      { t with cmd := { s.cmd.completed 0x21 .ok (Vector.replicate 6 0) with mode := .config } }) ∧
    (¬quiet → exec .stop s = .next { t with cmd := { s.cmd.waiting 0x21 .stop with mode := .stopping } })) ∧
    (∀ (s t : State) (c : Instr), ModeInv s → s.pins.rstnLow = false → s.cmd.mode = .stopping →
      (c = .cellCompletion ∨ ∃ l, c = .frameEnd l ∨ c = .abortEnd l) → exec c s = .next t → t ≠ s →
      let quiet := t.checker.engine = .idle ∧ ∀ l, (t.line l).tx = .idle
      (quiet → t.cmd = { s.cmd.ended 0x21 (Vector.replicate 6 0) with mode := .config }) ∧
        (¬quiet → t.cmd = s.cmd)) ∧
    ∀ s : State, s.pins.rstnLow = false → s.cmd.mode = .stopping → s.cmd.state = .busy .stop →
      s.checker.engine = .idle → (∀ l, (s.line l).tx = .idle) →
      exec .stopCompletion s = .next
        { s with cmd := { s.cmd.ended 0x21 (Vector.replicate 6 0) with mode := .config } }

/-- LINE_ON and LINE_OFF of a line in each state. LINE_ON: ON for an OFF or FAULTED line, LINE_STATE for an ON or CLOSING one.
LINE_OFF: OFF at once with an IDLE transmitter, else CLOSING with
the command waiting; an ON line's receiver stops and its queue is flushed, a frame being sent cut by the abort sequence (07 R116, R117,
06 R113). Which byte the cut finds on the wire is a free value (log 9); that a stopped receiver waits for no mark is the model's choice
(log 10), as is the wait of a LINE_OFF for a line that is CLOSING already, which no run reaches (log 18). -/
def Obligations.LinesTurnedOnAndOff : Prop :=
  ∀ (s : State) (l : LineNo), s.accepts → (s.arg 0).toNat = l.val →
    let u := s.line l
    let done (code : Byte) : CommandUnit := s.cmd.completed code .ok (Vector.replicate 6 0)
    let waits : CommandUnit := s.cmd.waiting 0x09 (.lineOff l)
    let quiet := { u with rx := .hunt, assembly := [], awaitMark := false, queue := [] }
    (u.state = .off ∨ u.state = .faulted →
      exec .lineOn s = .next
        { s with
          lines := s.lines.set l { u with state := .on, rx := .hunt, assembly := [], awaitMark := true, badCount := 0 }
          cmd := done 0x08 }) ∧
    (u.state = .on ∨ u.state = .closing →
      exec .lineOn s = .next { s with cmd := s.cmd.completed 0x08 .lineState (Vector.replicate 6 0) }) ∧
    (u.state = .off → exec .lineOff s = .next { s with cmd := done 0x09 }) ∧
    (u.state = .closing → exec .lineOff s = .next { s with cmd := waits }) ∧
    (u.state = .on → u.tx = .idle →
      exec .lineOff s = .next
        { s with lines := s.lines.set l { quiet with state := .off }, cutSeq := s.cutSeq + 1, cmd := done 0x09 }) ∧
    (u.state = .on → u.tx = .sending →
      exec .lineOff s = .next
        { s with
          lines := s.lines.set l
            { quiet with state := .closing, tx := .aborting, wire := abortOnLine u.wire s.cutSeq }
          cutSeq := s.cutSeq + 1
          cmd := waits }) ∧
    (u.state = .on → u.tx = .aborting →
      exec .lineOff s = .next
        { s with lines := s.lines.set l { quiet with state := .closing }, cutSeq := s.cutSeq + 1, cmd := waits }) ∧
    (u.state = .faulted → u.tx = .idle →
      exec .lineOff s = .next { s with lines := s.lines.set l { u with state := .off }, cmd := done 0x09 }) ∧
    (u.state = .faulted → u.tx = .aborting →
      exec .lineOff s = .next { s with lines := s.lines.set l { u with state := .closing }, cmd := waits })

/-- SRC_ADD of an unknown address makes an ENABLED entry in the lowest UNUSED slot and reports the slot; SRC_RESUME makes a SUSPENDED
entry ENABLED and leaves an ENABLED one (03 R61, R62, 09 R163).
SRC_SUSPEND of an ENABLED entry frees the source's COLLECTING records in ascending number, each with REFUSAL(SUSPENDED), and
reports how many; of a SUSPENDED entry it changes nothing (03 R62, 01 R27, 09 R163). -/
def Obligations.SourcesAddedSuspendedResumed : Prop :=
  (∀ s : State, s.accepts →
     let a (i : ArgNo) : Nat := (s.arg i).toNat
     let address : Byte := BitVec.ofNat 8 (a 0)
     1 ≤ a 0 → a 0 ≤ 254 →
     (∀ k, 1 ≤ a 1 → a 1 ≤ 64 → 1 ≤ a 2 → a 2 ≤ 8 → a 3 ≤ 1 → s.findSource address = none →
       (s.source k).state = .unused → (∀ j, j < k → (s.source j).state ≠ .unused) →
       exec .srcAdd s = .next
         { s with
           sources := s.sources.set k ⟨.enabled, address, a 1, a 2, decide (a 3 = 1), 0, []⟩
           cmd := s.cmd.completed 0x10 .ok #v[BitVec.ofNat 16 k.val, 0, 0, 0, 0, 0] }) ∧
     ∀ k, s.findSource address = some k →
       ((s.source k).state = .suspended →
         exec .srcResume s = .next
           { s with
             sources := s.sources.set k { s.source k with state := .enabled }
             cmd := s.cmd.completed 0x13 .ok (Vector.replicate 6 0) }) ∧
       ((s.source k).state = .enabled →
         exec .srcResume s = .next { s with cmd := s.cmd.completed 0x13 .ok (Vector.replicate 6 0) })) ∧
    ∀ (s : State) (k : SlotNo), CollectionsInv s → s.accepts → 1 ≤ (s.arg 0).toNat → (s.arg 0).toNat ≤ 254 →
      let address : Byte := BitVec.ofNat 8 (s.arg 0).toNat
      s.findSource address = some k →
      let freed := (List.finRange 32).filter fun n => (s.ctx n).state == .collecting && (s.ctx n).source == address
      let refusals := freed.foldl
        (fun u n => u.handOver ((s.ctx n).refusal .suspended) (s.ctx n).replyLine (s.ctx n).lineMask) s
      ((s.source k).state = .enabled → ∃ t, exec .srcSuspend s = .next t ∧
        (∀ n, t.ctx n = if n ∈ freed then Ctx.cleared else s.ctx n) ∧
        t =
          { s with
            ctxs := t.ctxs
            ageList := s.ageList.filter fun n => n ∉ freed
            pool := { s.pool with freeList := s.pool.freeList ++ freed.flatMap fun n => (s.ctx n).chain }
            sources := s.sources.set k
              { s.source k with state := .suspended, openCount := (s.source k).openCount - freed.length }
            lines := refusals.lines
            ev := refusals.ev
            cmd := s.cmd.completed 0x12 .ok #v[BitVec.ofNat 16 freed.length, 0, 0, 0, 0, 0] }) ∧
      ((s.source k).state = .suspended →
        exec .srcSuspend s = .next { s with cmd := s.cmd.completed 0x12 .ok (Vector.replicate 6 0) })

/-- SRC_REMOVE frees every record of the source that is not under check, in ascending number, without refusals; a DELIVERING one
makes the port LOST with READOUT_LOST REMOVE. With none under check the entry is UNUSED and cleared at once; else it is REMOVING, the
record under check has abort pending, the engine is STOP-PENDING and the command waits (03 R63, 08 R146, 09 R164). -/
def Obligations.SourceRemoved : Prop :=
  ∀ (s : State) (k : SlotNo), CollectionsInv s → s.accepts → 1 ≤ (s.arg 0).toNat → (s.arg 0).toNat ≤ 254 →
    let address : Byte := BitVec.ofNat 8 (s.arg 0).toNat
    s.findSource address = some k →
    let freed := (List.finRange 32).filter fun n =>
      (s.ctx n).state != .free && (s.ctx n).source == address && s.underCheck != some n
    let gone (t : State) : Prop :=
      t.ageList = s.ageList.filter (fun n => n ∉ freed) ∧ t.delivery = s.delivery.filter (fun n => n ∉ freed) ∧
        t.checker.queue = s.checker.queue.filter (fun n => n ∉ freed) ∧
        t.pool = { s.pool with freeList := s.pool.freeList ++ freed.flatMap fun n => (s.ctx n).chain } ∧
        t.lines = s.lines ∧
        (∀ n w, s.readout.port = .held n w → n ∈ freed →
          t.readout = { s.readout with port := .lost, remaining := 0 } ∧
            t.ev = s.ev.post ⟨.readoutLost, none, some n, some address, some (s.ctx n).msgno, 2⟩) ∧
        ((∀ n w, s.readout.port = .held n w → n ∉ freed) → t.readout = s.readout ∧ t.ev = s.ev)
    ((∀ n, s.underCheck = some n → (s.ctx n).source ≠ address) → ∃ t, exec .srcRemove s = .next t ∧ gone t ∧
      (∀ n, t.ctx n = if n ∈ freed then Ctx.cleared else s.ctx n) ∧
      t.sources = s.sources.set k ⟨.unused, 0, 1, 1, false, 0, []⟩ ∧ t.checker.engine = s.checker.engine ∧
      t.cmd = s.cmd.completed 0x11 .ok #v[BitVec.ofNat 16 freed.length, 0, 0, 0, 0, 0]) ∧
    ∀ n crc w, s.underCheck = some n → (s.ctx n).source = address → s.checker.engine = .checking crc w →
      ∃ t, exec .srcRemove s = .next t ∧ gone t ∧
        (∀ m, t.ctx m =
          if m = n then { s.ctx n with abortPending := true } else if m ∈ freed then Ctx.cleared else s.ctx m) ∧
        t.sources = s.sources.set k
          { s.source k with state := .removing, openCount := (s.source k).openCount - freed.length } ∧
        t.checker.engine = .stopPending crc w ∧ t.cmd = s.cmd.waiting 0x11 (.srcRemove address freed.length)

/-- CTX_ABORT of a record in use: not under check, it is freed at once with its outputs in order (REFUSAL(ABORTED) on notify,
CTX_ABORTED, READOUT_LOST ABORT for the held record) and reported; under check, it gets abort pending, the engine is STOP-PENDING and
the command waits (09 R165, R166, 05 R94, 08 R146).
RELEASE: in HELD the held record is freed and the port is NONE with the head record cleared; in LOST the port is NONE and no
record is touched; in NONE it ends with NOT_HELD (08 R145). -/
def Obligations.ContextAbortedOrReleased : Prop :=
  (∀ (s : State) (n : CtxNo), s.accepts → (s.arg 0).toNat = n.val → (s.arg 1).toNat ≤ 1 → (s.ctx n).state ≠ .free →
     let r := s.ctx n
     let notify := decide ((s.arg 1).toNat = 1)
     let u := if notify then s.handOver (r.refusal .aborted) r.replyLine r.lineMask else s
     let told := u.post ⟨.ctxAborted, none, some n, some r.source, some r.msgno,
       BitVec.ofNat 16 (r.state.code + if notify then 16 else 0)⟩
     let done := s.cmd.completed 0x18 .ok
       #v[r.source.setWidth 16, r.msgno.setWidth 16, BitVec.ofNat 16 r.state.code, 0, 0, 0]
     (s.underCheck ≠ some n → r.state ≠ .delivering →
       exec .ctxAbort s = .next { told.freeCtx n with cmd := done }) ∧
     (s.underCheck ≠ some n → r.state = .delivering →
       exec .ctxAbort s = .next
         { (State.post { told with readout := { s.readout with port := .lost, remaining := 0 } }
             ⟨.readoutLost, none, some n, some r.source, some r.msgno, 1⟩).freeCtx n with
           cmd := done }) ∧
     ∀ crc w, s.underCheck = some n → s.checker.engine = .checking crc w →
       exec .ctxAbort s = .next
         { s with
           ctxs := s.ctxs.set n { r with abortPending := true }
           checker := { s.checker with engine := .stopPending crc w }
           cmd := s.cmd.waiting 0x18 (.ctxAbort n notify) }) ∧
    ∀ s : State, s.accepts →
      let done := s.cmd.completed 0x19 .ok (Vector.replicate 6 0)
      let none : Readout := ⟨.none, ⟨0, .ordinary, 0, 0, 0⟩, 0⟩
      (∀ n w, s.readout.port = .held n w →
        exec .release s = .next { s.freeCtx n with readout := none, cmd := done }) ∧
      (s.readout.port = .lost → exec .release s = .next { s with readout := none, cmd := done }) ∧
      (s.readout.port = .none →
        exec .release s = .next { s with cmd := s.cmd.completed 0x19 .notHeld (Vector.replicate 6 0) })

/-- FLUSH frees every record in use that is not under check, in ascending number, without refusals; a DELIVERING one makes the port
LOST with READOUT_LOST FLUSH. With none under check it completes at once; else that record gets abort pending, the engine is
STOP-PENDING and the command waits. Every open count is then 0, but for the source of the record under check, whose is 1. Histories,
entries' states and limits, lines and settings stand (01 R29, 09 R167). -/
def Obligations.TableFlushed : Prop :=
  ∀ s : State, CollectionsInv s → s.accepts →
    let freed := (List.finRange 32).filter fun n => (s.ctx n).state != .free && s.underCheck != some n
    let gone (t : State) : Prop :=
      t.ageList = [] ∧ t.delivery = [] ∧ t.checker.queue = s.checker.queue.filter (fun n => s.underCheck = some n) ∧
        t.pool = { s.pool with freeList := s.pool.freeList ++ freed.flatMap fun n => (s.ctx n).chain } ∧
        t.lines = s.lines ∧ t.timer = s.timer ∧
        (∀ k, t.source k = { s.source k with openCount := (t.source k).openCount }) ∧
        (∀ n w, s.readout.port = .held n w →
          t.readout = { s.readout with port := .lost, remaining := 0 } ∧
            t.ev = s.ev.post ⟨.readoutLost, none, some n, some (s.ctx n).source, some (s.ctx n).msgno, 3⟩) ∧
        ((∀ n w, s.readout.port ≠ .held n w) → t.readout = s.readout ∧ t.ev = s.ev)
    (s.underCheck = none → ∃ t, exec .flush s = .next t ∧ gone t ∧ (∀ n, t.ctx n = Ctx.cleared) ∧
      (SourcesInv s → ∀ k, (t.source k).openCount = 0) ∧
      t.checker.engine = s.checker.engine ∧
      t.cmd = s.cmd.completed 0x1A .ok #v[BitVec.ofNat 16 freed.length, 0, 0, 0, 0, 0]) ∧
    ∀ n crc w, s.underCheck = some n → s.checker.engine = .checking crc w →
      ∃ t, exec .flush s = .next t ∧ gone t ∧
        (∀ m, t.ctx m = if m = n then { s.ctx n with abortPending := true } else Ctx.cleared) ∧
        (SourcesInv s → ∀ k, (t.source k).openCount =
          if (s.source k).state ≠ .unused ∧ (s.source k).address = (s.ctx n).source then 1 else 0) ∧
        t.checker.engine = .stopPending crc w ∧ t.cmd = s.cmd.waiting 0x1A (.flush freed.length)

/-- The queries copy the words of 09 R169 to R171 as 11 11.4 packs them, and change nothing beyond the command unit. Counts that
pass a word's 16 bits are reported by their low 16 (the model's choice, log 16). -/
def Obligations.QueriesReport : Prop :=
  ∀ s : State, s.accepts →
    let a (i : ArgNo) : Nat := (s.arg i).toNat
    let num (n : Nat) : Word := BitVec.ofNat 16 n
    let flag (b : Bool) : Nat := if b then 1 else 0
    let reports (c : Instr) (code : Byte) (words : Vector Word 6) : Prop :=
      exec c s = .next { s with cmd := s.cmd.completed code .ok words }
    (∀ n : CtxNo, a 0 = n.val →
      let r := s.ctx n
      (a 1 = 0 → reports .queryCtx 0x28
        #v[num (r.state.code + 16 * r.cls.code), r.source.setWidth 16, r.msgno.setWidth 16,
          num (match r.lastIndex with | some i => 32768 + i.val | none => 0), num r.presentCount, num r.byteCount]) ∧
      (a 1 = 1 → reports .queryCtx 0x28
        #v[(r.checkWord.getD 0).setWidth 16, (r.checkWord.getD 0 >>> 16).setWidth 16, num (r.chain.headD 0),
          num (r.chain.getLastD 0), num r.chain.length, num (r.replyLine.val + 16 * r.lineMask.toNat)]) ∧
      (a 1 = 2 → reports .queryCtx 0x28
        #v[num r.idle, num r.lifetime, num r.retries, num r.dupCount, num (flag r.starved + 2 * flag r.abortPending), 0]) ∧
      (a 1 = 3 → ∃ m0 m1 m2 m3 : Word, reports .queryCtx 0x28 #v[m0, m1, m2, m3, 0, 0] ∧
        ∀ i : SegIndex, ([m0, m1, m2, m3].getD (i.val / 16) 0).getLsbD (i.val % 16) = (r.slots[i]).isSome) ∧
      ∀ i : SegIndex, a 1 = 4 → a 2 = i.val → reports .queryCtx 0x28
        (match r.slots[i] with
          | some sl => #v[1, num sl.length, num sl.first, num sl.cells, num sl.line.val, 0]
          | none => Vector.replicate 6 0)) ∧
    (∀ k, 1 ≤ a 0 → a 0 ≤ 254 → s.findSource (BitVec.ofNat 8 (a 0)) = some k → (s.source k).maxSegs ≤ 64 →
      (s.source k).openLimit ≤ 8 → (s.source k).openCount ≤ 8 → (s.source k).history.length ≤ 4 →
      let e := s.source k
      let past (j : Nat) : Word :=
        match e.history[j]? with | some h => num (h.msgno.toNat + 4096 * h.credit) | none => 0
      reports .querySrc 0x29
        #v[num (e.state.code + 16 * flag e.urgentOk + 256 * e.history.length),
          num (e.maxSegs + 256 * e.openLimit + 4096 * e.openCount), past 0, past 1, past 2, past 3]) ∧
    reports .queryPool 0x2A
      #v[num s.pool.freeList.length, num ((List.finRange 32).filter fun n => (s.ctx n).state == .free).length,
        num s.checker.queue.length, num s.delivery.length, num s.ageList.length, 0]

/-! ## What only its own command changes -/

/-- Each of the following is changed by its own commands alone (and by HARDWARE_RESET), the frame of all the others over it: the
masks and enables (10 R175, R181), the argument registers (09 R151), the station, learn, reserve, timing and line settings (09 R160,
R161, 04 R70, 07 R118), the rotation pointer (03 R48), the head record (08 R139, R145), RSTN (11 11.9), the mode (09 9.3) and the line
states (07 7.1); of the loss count its falling, where it stands within its 255 (10 R178).
The two timer flags, for a decision to be taken and for one deferred over STOP, are the model's own (log 7): they change by TICK and
STOP, and the first by its record's decision (04 R74, R75). -/
def Obligations.OnlyItsCommandChangesIt : Prop :=
  ∀ (c : Instr) (s t : State), exec c s = .next t → c ≠ .hardwareReset →
    (t.ev.irqEn ≠ s.ev.irqEn → ∃ w, c = .irqEn w) ∧
    (t.ev.mask0 ≠ s.ev.mask0 → ∃ w, c = .evtMaskWrite 0 w) ∧
    (t.ev.mask1 ≠ s.ev.mask1 → ∃ w, c = .evtMaskWrite 1 w) ∧
    (CapacityInv s → t.ev.loss < s.ev.loss → c = .clearLoss) ∧
    (t.cmd.args ≠ s.cmd.args → ∃ i w, c = .cmdArg i w) ∧
    (t.cmd.station ≠ s.cmd.station → c = .setStation) ∧
    (t.cmd.learn ≠ s.cmd.learn → c = .setLearn) ∧
    (t.timer.ordinary ≠ s.timer.ordinary ∨ t.timer.urgent ≠ s.timer.urgent → c = .setTiming) ∧
    (∀ n : CtxNo, (t.timer.owed[n] ≠ s.timer.owed[n] → c = .tick ∨ c = .stop ∨ c = .expiryDecision n) ∧
      (t.timer.deferred[n] ≠ s.timer.deferred[n] → c = .tick ∨ c = .stop)) ∧
    (t.pool.reserve ≠ s.pool.reserve → c = .setReserve) ∧
    (∀ l, (t.line l).divisor ≠ (s.line l).divisor ∨ (t.line l).threshold ≠ (s.line l).threshold → c = .setLine) ∧
    (t.rotation ≠ s.rotation → c = .admissionEvent) ∧
    (t.readout.head ≠ s.readout.head → c = .msgHead0 ∨ c = .release) ∧
    (t.pins.rstnLow ≠ s.pins.rstnLow → c = .leaveReset) ∧
    (t.cmd.mode ≠ s.cmd.mode →
      c = .start ∨ c = .stop ∨ c = .stopCompletion ∨ c = .cellCompletion ∨ ∃ l, c = .frameEnd l ∨ c = .abortEnd l) ∧
    (∀ l, (t.line l).state ≠ (s.line l).state →
      c = .lineOn ∨ c = .lineOff ∨ c = .abortEnd l ∨ ∃ b good, c = .byteReception l b good)

/-! ## Invariants that every step keeps -/

/-- The payload bytes keep their canonical form (the model's representation, log 4).
Every cell stays on the free list or on the chain of exactly one record in use, once (02 R31, R33). -/
def Obligations.CellsNeverLostOrShared : Prop :=
  (∀ s t : State, Memory.wf s.pool.mem = true → step s = .next t → Memory.wf t.pool.mem = true) ∧
    ∀ s t : State, PoolInv s → step s = .next t → PoolInv t

/-- The Age List, Check Queue, delivery queue and readout port go on holding the records of their state, each once (01 R21, 05 R85,
R99, 08 R138); and abort pending stays set exactly for the head of the Check Queue while the engine is STOP-PENDING (01 R23, 05
R94). -/
def Obligations.CollectionsFollowTheStates : Prop :=
  ∀ s t : State, CollectionsInv s → step s = .next t →
    CollectionsInv t ∧ (AbortPendingInv s → AbortPendingInv t)

/-- No two records in use come to hold one key (01 R7), and every urgent entry of the delivery queue stays before every ordinary one
(05 R99). -/
def Obligations.KeysAndDeliveryOrderKept : Prop :=
  ∀ s t : State, CollectionsInv s → step s = .next t →
    (KeysUnique s → KeysUnique t) ∧ (DeliveryOrder s → DeliveryOrder t)

/-- The three counts of every record go on following from its segment map (01 R2); with them, a record past COLLECTING has every slot
up to its known last index, none lies above a known one, and a COLLECTING record lacks one (01 R20, 04 R78). -/
def Obligations.CountsAndWholenessKept : Prop :=
  ∀ s t : State, CollectionsInv s → (∀ n, CountsFollow (s.ctx n)) → step s = .next t →
    (∀ n, CountsFollow (t.ctx n)) ∧ ((∀ n, WholeFollows (s.ctx n)) → ∀ n, WholeFollows (t.ctx n))

/-- The records, their cells and their collections go on agreeing: among the rest, a record's chain stays the cells of its present
slots, each slot's side by side (01 R2, R3, 02 R31). So every record past COLLECTING has walks that are defined (01 R20, 05 R89). -/
def Obligations.ChainsKeepRecordsWalkable : Prop :=
  (∀ s t : State, RecordsInv s → step s = .next t → RecordsInv t) ∧
    ∀ s : State, RecordsInv s → ∀ n, (s.ctx n).past → (s.ctx n).walkable

/-- Out of IDLE the engine's running CRC stays that of the bytes its walk has read, and those with the bytes still to be read stay the
payload in index order (05 R87, R89, R90).
So the completion of the final cell is a match, the record READY, exactly when the message check word of the whole payload equals the
record's check word, and frees the record otherwise (05 R90, R91, R93). -/
def Obligations.CheckFollowsThePayload : Prop :=
  (∀ s t : State, RecordsInv s → CheckFollows s → step s = .next t → CheckFollows t) ∧
    ∀ (s : State) (n : CtxNo) (rest : List CtxNo) (crc : Word32) (w : Walk), s.pins.rstnLow = false → CheckFollows s →
      s.checker.queue = n :: rest → s.checker.engine = .checking crc w → (s.ctx n).walkNext w = none →
      ∃ t, exec .cellCompletion s = .next t ∧
        ((t.ctx n).state = .ready ↔ (s.ctx n).checkWord = some (messageCheck ((s.ctx n).payload s.pool.mem))) ∧
        ((t.ctx n).state ≠ .ready → t.ctx n = Ctx.cleared)

/-- The readout port's bytes remaining and walk stay those of the held message: the payload is what has been delivered and what the
walk still delivers, the walk standing at the first byte not delivered; outside HELD nothing remains (08 R139, R142, R144).
So a read of DATA in HELD delivers the payload's next two bytes, or its last one, counted from its length and the bytes
remaining (08 R142). -/
def Obligations.ReadoutFollowsThePayload : Prop :=
  (∀ s t : State, RecordsInv s → ReadoutFollows s → step s = .next t → ReadoutFollows t) ∧
    ∀ (s : State) (n : CtxNo) (w : Walk), s.pins.rstnLow = false → ReadoutFollows s → s.readout.port = .held n w →
      let payload := (s.ctx n).payload s.pool.mem
      let at' := (s.ctx n).byteCount - s.readout.remaining
      (2 ≤ s.readout.remaining → ∃ t, exec .data s = .next t ∧ t.readout.remaining = s.readout.remaining - 2 ∧
        t.pins.dataOut =
          some (BitVec.ofNat 16 ((payload.getD at' 0).toNat + 256 * (payload.getD (at' + 1) 0).toNat))) ∧
      (s.readout.remaining = 1 → ∃ t, exec .data s = .next t ∧ t.readout.remaining = 0 ∧
        t.pins.dataOut = some (BitVec.ofNat 16 (payload.getD at' 0).toNat))

/-- The states of every line, receiver and transmitter go on agreeing, and no queue comes to hold two waiting GAPs for one key or two
identical waiting RECEIPTs (06 6.5, R106, 07 7.1).
No queue, buffer, counter or history passes its capacity (06 R106, 07 R123, R126, 7.6, 10 R173, R174, 03 R66, 01 R17). -/
def Obligations.LinesAgreeWithinCapacities : Prop :=
  (∀ s t : State, step s = .next t →
     ((∀ l, LineAgrees (s.line l)) → ∀ l, LineAgrees (t.line l)) ∧
       ((∀ l, WaitingDistinct (s.line l)) → ∀ l, WaitingDistinct (t.line l))) ∧
    ∀ s t : State, CapacityInv s → step s = .next t → CapacityInv t

/-- The mode, the command in flight, the engine, the transmitters, the frame buffers and the decisions to be taken go on agreeing (09
9.3, 05 R94, R98, 03 R47, 04 R75). -/
def Obligations.ModeInvariantKept : Prop := ∀ s t : State, ModeInv s → step s = .next t → ModeInv t

/-- The source table goes on agreeing with the records: one entry an address, open counts that count and stay within their limits,
REMOVING only while its command waits (03 R60, R63, R64); and histories never hold a number twice, or that of a COLLECTING or VERIFYING
record (R66). -/
def Obligations.SourceTableAgrees : Prop :=
  ∀ s t : State, CollectionsInv s → ModeInv s → KeysUnique s → SourcesInv s → step s = .next t →
    SourcesInv t ∧ (HistoryInv s → HistoryInv t)

/-- Every invariant above holds of the machine right after reset. -/
def Obligations.InvariantsHoldAtReset : Prop :=
  Memory.wf State.reset.pool.mem = true ∧ PoolInv State.reset ∧ CollectionsInv State.reset ∧ KeysUnique State.reset ∧
    DeliveryOrder State.reset ∧ (∀ n, CountsFollow (State.reset.ctx n) ∧ WholeFollows (State.reset.ctx n)) ∧
    CapacityInv State.reset ∧ (∀ l, LineAgrees (State.reset.line l) ∧ WaitingDistinct (State.reset.line l)) ∧
    ModeInv State.reset ∧ SourcesInv State.reset ∧ HistoryInv State.reset ∧ RecordsInv State.reset ∧
    AbortPendingInv State.reset ∧ CheckFollows State.reset ∧ ReadoutFollows State.reset
end

