-- ==== Sys2Proof/Laws/Memory.lean ====
section
/-! SUPPORT. The payload memory: every operation keeps the canonical form; what a byte reads as after a write. -/

namespace Sys2Proof.Machine

/-- Every listed address is above a bound. -/
def Memory.above (m : Memory) (a : Nat) : Prop := ∀ c ∈ m, a < c.1

/-- The canonical form of a list with a head: the head is no unwritten byte, the rest lies above it and is canonical. -/
theorem Memory.wf_cons (c : Host.Cell) (m : Memory) :
    Memory.wf (c :: m) = true ↔ c.2 ≠ Config.unwrittenByte ∧ Memory.above m c.1 ∧ Memory.wf m = true := by
  induction m generalizing c with
  | nil => simp [Memory.wf, Memory.above]
  | cons d rest ih =>
    have hd := ih d
    simp only [Memory.wf, Bool.and_eq_true, bne_iff_ne, ne_eq, decide_eq_true_eq] at *
    constructor
    · rintro ⟨⟨h1, h2⟩, h3⟩
      refine ⟨h1, ?_, h3⟩
      intro e he
      rcases List.mem_cons.1 he with rfl | he
      · exact h2
      · exact Nat.lt_trans h2 ((hd.1 h3).2.1 e he)
    · rintro ⟨h1, h2, h3⟩
      exact ⟨⟨h1, h2 d (List.mem_cons_self)⟩, h3⟩

theorem Memory.above_write {m : Memory} {a b : Nat} (hm : Memory.above m b) (hab : b < a) (x : Byte) :
    Memory.above (m.write a x) b := by
  induction m with
  | nil =>
    intro c hc
    simp only [Memory.write] at hc
    split at hc
    · cases hc
    · rcases List.mem_singleton.1 hc with rfl
      exact hab
  | cons d rest ih =>
    have hd : b < d.1 := hm d List.mem_cons_self
    have hrest : Memory.above rest b := fun c hc => hm c (List.mem_cons_of_mem _ hc)
    intro c hc
    simp only [Memory.write] at hc
    split at hc
    · split at hc
      · exact hm c hc
      · rcases List.mem_cons.1 hc with rfl | hc
        · exact hab
        · exact hm c hc
    · split at hc
      · split at hc
        · exact hrest c hc
        · rcases List.mem_cons.1 hc with rfl | hc
          · exact hab
          · exact hrest c hc
      · rcases List.mem_cons.1 hc with rfl | hc
        · exact hd
        · exact ih hrest c hc

/-- A write keeps the canonical form. -/
theorem Memory.wf_write {m : Memory} (hm : Memory.wf m = true) (a : Nat) (x : Byte) : Memory.wf (m.write a x) = true := by
  induction m with
  | nil =>
    simp only [Memory.write]
    split
    · rfl
    · simpa [Memory.wf] using ‹_›
  | cons d rest ih =>
    obtain ⟨h1, h2, h3⟩ := (Memory.wf_cons d rest).1 hm
    simp only [Memory.write]
    split
    · rename_i hlt
      split
      · exact hm
      · refine (Memory.wf_cons _ _).2 ⟨‹_›, ?_, hm⟩
        intro c hc
        rcases List.mem_cons.1 hc with rfl | hc
        · exact hlt
        · exact Nat.lt_trans hlt (h2 c hc)
    · split
      · rename_i heq
        split
        · exact h3
        · refine (Memory.wf_cons _ _).2 ⟨‹_›, ?_, h3⟩
          intro c hc
          exact heq ▸ h2 c hc
      · refine (Memory.wf_cons _ _).2 ⟨h1, Memory.above_write h2 (by omega) x, ih h3⟩

theorem Memory.wf_writeBytes {m : Memory} (hm : Memory.wf m = true) (a : Nat) (bytes : List Byte) :
    Memory.wf (m.writeBytes a bytes) = true := by
  induction bytes generalizing m a with
  | nil => exact hm
  | cons b rest ih => exact ih (Memory.wf_write hm a b) (a + 1)

theorem Memory.wf_writeCells {m : Memory} (hm : Memory.wf m = true) (cells : List Nat) (bytes : List Byte) :
    Memory.wf (m.writeCells cells bytes) = true := by
  induction cells generalizing m bytes with
  | nil => exact hm
  | cons c rest ih => exact ih (Memory.wf_writeBytes hm _ _) _

/-- An address below every listed one reads as unwritten. -/
theorem Memory.read_above {m : Memory} {a : Nat} (hm : ∀ c ∈ m, a ≠ c.1) : m.read a = Config.unwrittenByte := by
  induction m with
  | nil => rfl
  | cons d rest ih =>
    have hd : d.1 ≠ a := fun h => hm d List.mem_cons_self h.symm
    simp only [Memory.read, hd, if_false]
    exact ih fun c hc => hm c (List.mem_cons_of_mem _ hc)

/-- What an address reads as after a write, in a canonical memory. -/
theorem Memory.read_write {m : Memory} (hm : Memory.wf m = true) (a b : Nat) (x : Byte) :
    (m.write a x).read b = if b = a then x else m.read b := by
  induction m with
  | nil =>
    by_cases hb : b = a
    · subst hb
      by_cases hx : x = Config.unwrittenByte
      · simp [Memory.write, hx, Memory.read]
      · simp [Memory.write, hx, Memory.read]
    · have h' : ¬a = b := fun h => hb h.symm
      by_cases hx : x = Config.unwrittenByte
      · simp [Memory.write, hx, hb]
      · simp [Memory.write, hx, Memory.read, hb, h']
  | cons d rest ih =>
    obtain ⟨-, h2, h3⟩ := (Memory.wf_cons d rest).1 hm
    have unread : ∀ {y}, (∀ c ∈ rest, y ≠ c.1) → Memory.read rest y = Config.unwrittenByte := Memory.read_above
    simp only [Memory.write]
    split
    · rename_i hlt
      have hnone : Memory.read (d :: rest) a = Config.unwrittenByte := by
        apply Memory.read_above
        intro c hc
        rcases List.mem_cons.1 hc with rfl | hc
        · omega
        · exact Nat.ne_of_lt (Nat.lt_trans hlt (h2 c hc))
      split
      · split
        · subst_vars; exact hnone
        · rfl
      · by_cases hb : b = a
        · subst hb; simp [Memory.read]
        · have : ¬a = b := fun h => hb h.symm
          simp [Memory.read, hb, this]
    · split
      · rename_i heq
        have hnone : Memory.read rest a = Config.unwrittenByte := by
          apply unread
          intro c hc
          have := h2 c hc
          omega
        split
        · by_cases hb : b = a
          · subst hb; subst_vars; simp [hnone]
          · have : ¬d.1 = b := fun h => hb (h.symm.trans heq.symm)
            simp [Memory.read, hb, this]
        · by_cases hb : b = a
          · subst hb; simp [Memory.read]
          · have h' : ¬a = b := fun h => hb h.symm
            have h'' : ¬d.1 = b := fun h => hb (h.symm.trans heq.symm)
            simp [Memory.read, hb, h', h'']
      · have hne : ¬a = d.1 := ‹_›
        by_cases hd : d.1 = b
        · have : ¬b = a := fun h => hne (h.symm.trans hd.symm)
          simp [Memory.read, hd, this]
        · simp only [Memory.read, hd, if_false]
          exact ih h3

/-- A write elsewhere leaves a byte, in any memory. -/
theorem Memory.read_write_other (m : Memory) {a b : Nat} (h : b ≠ a) (x : Byte) : (m.write a x).read b = m.read b := by
  have h' : ¬a = b := fun e => h e.symm
  induction m with
  | nil =>
    simp only [Memory.write]
    split
    · rfl
    · simp [Memory.read, h']
  | cons d rest ih =>
    simp only [Memory.write]
    split
    · split
      · rfl
      · simp [Memory.read, h']
    · split
      · rename_i heq
        have h'' : ¬d.1 = b := fun e => h' (heq.trans e)
        split
        · simp [Memory.read, h'']
        · simp [Memory.read, h', h'']
      · simp only [Memory.read, ih]

/-- A byte outside a run of written bytes is left; one inside reads as written. -/
theorem Memory.read_writeBytes {m : Memory} (hm : Memory.wf m = true) (a b : Nat) (bytes : List Byte) :
    (m.writeBytes a bytes).read b = if a ≤ b ∧ b < a + bytes.length then bytes.getD (b - a) 0 else m.read b := by
  induction bytes generalizing m a with
  | nil => simp [Memory.writeBytes]
  | cons x rest ih =>
    simp only [Memory.writeBytes, ih (Memory.wf_write hm a x), Memory.read_write hm, List.length_cons]
    by_cases hb : b = a
    · subst hb
      simp
    · by_cases hin : a + 1 ≤ b ∧ b < a + 1 + rest.length
      · have hin' : a ≤ b ∧ b < a + (rest.length + 1) := by omega
        obtain ⟨j, hj⟩ : ∃ j, b - a = j + 1 := ⟨b - a - 1, by omega⟩
        have hj' : b - (a + 1) = j := by omega
        simp [hin, hin', hj, hj']
      · have hin' : ¬(a ≤ b ∧ b < a + (rest.length + 1)) := by omega
        rw [if_neg hin, if_neg hb, if_neg hin']

/-- A byte outside a run of written bytes is left, in any memory. -/
theorem Memory.read_writeBytes_outside (m : Memory) {a b : Nat} (bytes : List Byte) (h : ¬(a ≤ b ∧ b < a + bytes.length)) :
    (m.writeBytes a bytes).read b = m.read b := by
  induction bytes generalizing m a with
  | nil => rfl
  | cons x rest ih =>
    simp only [List.length_cons] at h
    rw [Memory.writeBytes, ih _ (by omega), Memory.read_write_other m (by omega)]

/-- A write into cells leaves every byte of the other cells. -/
theorem Memory.read_writeCells_other (m : Memory) (cells : List Nat) (bytes : List Byte) {cell o : Nat}
    (hc : cell ∉ cells) (ho : o < Config.cellBytes) :
    (m.writeCells cells bytes).read (cellAddr cell o) = m.read (cellAddr cell o) := by
  induction cells generalizing m bytes with
  | nil => rfl
  | cons c rest ih =>
    have hne : cell ≠ c := fun h => hc (h ▸ List.mem_cons_self)
    simp only [Memory.writeCells]
    rw [ih _ _ (fun h => hc (List.mem_cons_of_mem _ h))]
    apply Memory.read_writeBytes_outside
    have hlen : (bytes.take Config.cellBytes).length ≤ 32 := by
      simp [Config.cellBytes]
    simp only [cellAddr, Config.cellBytes] at *
    omega

end Sys2Proof.Machine
end

