-- ==== Sys2Proof/Laws/State.lean ====
section
/-! SUPPORT. What each named update of the state leaves as it was, field by field, and what it writes. -/

namespace Sys2Proof.Machine

variable (s : State)

/-! ### setCtx -/

@[simp] theorem State.setCtx_ageList (n : CtxNo) (r : Ctx) : (s.setCtx n r).ageList = s.ageList := rfl
@[simp] theorem State.setCtx_pool (n : CtxNo) (r : Ctx) : (s.setCtx n r).pool = s.pool := rfl
@[simp] theorem State.setCtx_rotation (n : CtxNo) (r : Ctx) : (s.setCtx n r).rotation = s.rotation := rfl
@[simp] theorem State.setCtx_sources (n : CtxNo) (r : Ctx) : (s.setCtx n r).sources = s.sources := rfl
@[simp] theorem State.setCtx_timer (n : CtxNo) (r : Ctx) : (s.setCtx n r).timer = s.timer := rfl
@[simp] theorem State.setCtx_checker (n : CtxNo) (r : Ctx) : (s.setCtx n r).checker = s.checker := rfl
@[simp] theorem State.setCtx_delivery (n : CtxNo) (r : Ctx) : (s.setCtx n r).delivery = s.delivery := rfl
@[simp] theorem State.setCtx_lines (n : CtxNo) (r : Ctx) : (s.setCtx n r).lines = s.lines := rfl
@[simp] theorem State.setCtx_readout (n : CtxNo) (r : Ctx) : (s.setCtx n r).readout = s.readout := rfl
@[simp] theorem State.setCtx_cmd (n : CtxNo) (r : Ctx) : (s.setCtx n r).cmd = s.cmd := rfl
@[simp] theorem State.setCtx_ev (n : CtxNo) (r : Ctx) : (s.setCtx n r).ev = s.ev := rfl
@[simp] theorem State.setCtx_pins (n : CtxNo) (r : Ctx) : (s.setCtx n r).pins = s.pins := rfl
@[simp] theorem State.setCtx_cutSeq (n : CtxNo) (r : Ctx) : (s.setCtx n r).cutSeq = s.cutSeq := rfl
@[simp] theorem State.setCtx_pending (n : CtxNo) (r : Ctx) : (s.setCtx n r).pending = s.pending := rfl

/-! ### setSource -/

@[simp] theorem State.setSource_ctxs (k : SlotNo) (e : SourceEntry) : (s.setSource k e).ctxs = s.ctxs := rfl
@[simp] theorem State.setSource_ageList (k : SlotNo) (e : SourceEntry) : (s.setSource k e).ageList = s.ageList := rfl
@[simp] theorem State.setSource_pool (k : SlotNo) (e : SourceEntry) : (s.setSource k e).pool = s.pool := rfl
@[simp] theorem State.setSource_rotation (k : SlotNo) (e : SourceEntry) : (s.setSource k e).rotation = s.rotation := rfl
@[simp] theorem State.setSource_timer (k : SlotNo) (e : SourceEntry) : (s.setSource k e).timer = s.timer := rfl
@[simp] theorem State.setSource_checker (k : SlotNo) (e : SourceEntry) : (s.setSource k e).checker = s.checker := rfl
@[simp] theorem State.setSource_delivery (k : SlotNo) (e : SourceEntry) : (s.setSource k e).delivery = s.delivery := rfl
@[simp] theorem State.setSource_lines (k : SlotNo) (e : SourceEntry) : (s.setSource k e).lines = s.lines := rfl
@[simp] theorem State.setSource_readout (k : SlotNo) (e : SourceEntry) : (s.setSource k e).readout = s.readout := rfl
@[simp] theorem State.setSource_cmd (k : SlotNo) (e : SourceEntry) : (s.setSource k e).cmd = s.cmd := rfl
@[simp] theorem State.setSource_ev (k : SlotNo) (e : SourceEntry) : (s.setSource k e).ev = s.ev := rfl
@[simp] theorem State.setSource_pins (k : SlotNo) (e : SourceEntry) : (s.setSource k e).pins = s.pins := rfl
@[simp] theorem State.setSource_cutSeq (k : SlotNo) (e : SourceEntry) : (s.setSource k e).cutSeq = s.cutSeq := rfl
@[simp] theorem State.setSource_pending (k : SlotNo) (e : SourceEntry) : (s.setSource k e).pending = s.pending := rfl

/-! ### setLine -/

@[simp] theorem State.setLine_ctxs (l : LineNo) (u : LineUnit) : (s.setLine l u).ctxs = s.ctxs := rfl
@[simp] theorem State.setLine_ageList (l : LineNo) (u : LineUnit) : (s.setLine l u).ageList = s.ageList := rfl
@[simp] theorem State.setLine_pool (l : LineNo) (u : LineUnit) : (s.setLine l u).pool = s.pool := rfl
@[simp] theorem State.setLine_rotation (l : LineNo) (u : LineUnit) : (s.setLine l u).rotation = s.rotation := rfl
@[simp] theorem State.setLine_sources (l : LineNo) (u : LineUnit) : (s.setLine l u).sources = s.sources := rfl
@[simp] theorem State.setLine_timer (l : LineNo) (u : LineUnit) : (s.setLine l u).timer = s.timer := rfl
@[simp] theorem State.setLine_checker (l : LineNo) (u : LineUnit) : (s.setLine l u).checker = s.checker := rfl
@[simp] theorem State.setLine_delivery (l : LineNo) (u : LineUnit) : (s.setLine l u).delivery = s.delivery := rfl
@[simp] theorem State.setLine_readout (l : LineNo) (u : LineUnit) : (s.setLine l u).readout = s.readout := rfl
@[simp] theorem State.setLine_cmd (l : LineNo) (u : LineUnit) : (s.setLine l u).cmd = s.cmd := rfl
@[simp] theorem State.setLine_ev (l : LineNo) (u : LineUnit) : (s.setLine l u).ev = s.ev := rfl
@[simp] theorem State.setLine_pins (l : LineNo) (u : LineUnit) : (s.setLine l u).pins = s.pins := rfl
@[simp] theorem State.setLine_cutSeq (l : LineNo) (u : LineUnit) : (s.setLine l u).cutSeq = s.cutSeq := rfl
@[simp] theorem State.setLine_pending (l : LineNo) (u : LineUnit) : (s.setLine l u).pending = s.pending := rfl

/-! ### post -/

@[simp] theorem State.post_ctxs (e : EventRec) : (s.post e).ctxs = s.ctxs := rfl
@[simp] theorem State.post_ageList (e : EventRec) : (s.post e).ageList = s.ageList := rfl
@[simp] theorem State.post_pool (e : EventRec) : (s.post e).pool = s.pool := rfl
@[simp] theorem State.post_rotation (e : EventRec) : (s.post e).rotation = s.rotation := rfl
@[simp] theorem State.post_sources (e : EventRec) : (s.post e).sources = s.sources := rfl
@[simp] theorem State.post_timer (e : EventRec) : (s.post e).timer = s.timer := rfl
@[simp] theorem State.post_checker (e : EventRec) : (s.post e).checker = s.checker := rfl
@[simp] theorem State.post_delivery (e : EventRec) : (s.post e).delivery = s.delivery := rfl
@[simp] theorem State.post_lines (e : EventRec) : (s.post e).lines = s.lines := rfl
@[simp] theorem State.post_readout (e : EventRec) : (s.post e).readout = s.readout := rfl
@[simp] theorem State.post_cmd (e : EventRec) : (s.post e).cmd = s.cmd := rfl
@[simp] theorem State.post_pins (e : EventRec) : (s.post e).pins = s.pins := rfl
@[simp] theorem State.post_cutSeq (e : EventRec) : (s.post e).cutSeq = s.cutSeq := rfl
@[simp] theorem State.post_pending (e : EventRec) : (s.post e).pending = s.pending := rfl

/-! ### accept -/

@[simp] theorem State.accept_ctxs (c : Byte) : (s.accept c).ctxs = s.ctxs := rfl
@[simp] theorem State.accept_ageList (c : Byte) : (s.accept c).ageList = s.ageList := rfl
@[simp] theorem State.accept_pool (c : Byte) : (s.accept c).pool = s.pool := rfl
@[simp] theorem State.accept_rotation (c : Byte) : (s.accept c).rotation = s.rotation := rfl
@[simp] theorem State.accept_sources (c : Byte) : (s.accept c).sources = s.sources := rfl
@[simp] theorem State.accept_timer (c : Byte) : (s.accept c).timer = s.timer := rfl
@[simp] theorem State.accept_checker (c : Byte) : (s.accept c).checker = s.checker := rfl
@[simp] theorem State.accept_delivery (c : Byte) : (s.accept c).delivery = s.delivery := rfl
@[simp] theorem State.accept_lines (c : Byte) : (s.accept c).lines = s.lines := rfl
@[simp] theorem State.accept_readout (c : Byte) : (s.accept c).readout = s.readout := rfl
@[simp] theorem State.accept_ev (c : Byte) : (s.accept c).ev = s.ev := rfl
@[simp] theorem State.accept_pins (c : Byte) : (s.accept c).pins = s.pins := rfl
@[simp] theorem State.accept_cutSeq (c : Byte) : (s.accept c).cutSeq = s.cutSeq := rfl
@[simp] theorem State.accept_pending (c : Byte) : (s.accept c).pending = s.pending := rfl

/-! ### complete -/

@[simp] theorem State.complete_ctxs (c : Byte) (r : Result) (w : Vector Word 6) : (s.complete c r w).ctxs = s.ctxs := rfl
@[simp] theorem State.complete_ageList (c : Byte) (r : Result) (w : Vector Word 6) : (s.complete c r w).ageList = s.ageList := rfl
@[simp] theorem State.complete_pool (c : Byte) (r : Result) (w : Vector Word 6) : (s.complete c r w).pool = s.pool := rfl
@[simp] theorem State.complete_rotation (c : Byte) (r : Result) (w : Vector Word 6) : (s.complete c r w).rotation = s.rotation := rfl
@[simp] theorem State.complete_sources (c : Byte) (r : Result) (w : Vector Word 6) : (s.complete c r w).sources = s.sources := rfl
@[simp] theorem State.complete_timer (c : Byte) (r : Result) (w : Vector Word 6) : (s.complete c r w).timer = s.timer := rfl
@[simp] theorem State.complete_checker (c : Byte) (r : Result) (w : Vector Word 6) : (s.complete c r w).checker = s.checker := rfl
@[simp] theorem State.complete_delivery (c : Byte) (r : Result) (w : Vector Word 6) : (s.complete c r w).delivery = s.delivery := rfl
@[simp] theorem State.complete_lines (c : Byte) (r : Result) (w : Vector Word 6) : (s.complete c r w).lines = s.lines := rfl
@[simp] theorem State.complete_readout (c : Byte) (r : Result) (w : Vector Word 6) : (s.complete c r w).readout = s.readout := rfl
@[simp] theorem State.complete_ev (c : Byte) (r : Result) (w : Vector Word 6) : (s.complete c r w).ev = s.ev := rfl
@[simp] theorem State.complete_pins (c : Byte) (r : Result) (w : Vector Word 6) : (s.complete c r w).pins = s.pins := rfl
@[simp] theorem State.complete_cutSeq (c : Byte) (r : Result) (w : Vector Word 6) : (s.complete c r w).cutSeq = s.cutSeq := rfl
@[simp] theorem State.complete_pending (c : Byte) (r : Result) (w : Vector Word 6) : (s.complete c r w).pending = s.pending := rfl

/-! ### finish -/

@[simp] theorem State.finish_ctxs (c : HostCommand) (w : Vector Word 6) : (s.finish c w).ctxs = s.ctxs := rfl
@[simp] theorem State.finish_ageList (c : HostCommand) (w : Vector Word 6) : (s.finish c w).ageList = s.ageList := rfl
@[simp] theorem State.finish_pool (c : HostCommand) (w : Vector Word 6) : (s.finish c w).pool = s.pool := rfl
@[simp] theorem State.finish_rotation (c : HostCommand) (w : Vector Word 6) : (s.finish c w).rotation = s.rotation := rfl
@[simp] theorem State.finish_sources (c : HostCommand) (w : Vector Word 6) : (s.finish c w).sources = s.sources := rfl
@[simp] theorem State.finish_timer (c : HostCommand) (w : Vector Word 6) : (s.finish c w).timer = s.timer := rfl
@[simp] theorem State.finish_checker (c : HostCommand) (w : Vector Word 6) : (s.finish c w).checker = s.checker := rfl
@[simp] theorem State.finish_delivery (c : HostCommand) (w : Vector Word 6) : (s.finish c w).delivery = s.delivery := rfl
@[simp] theorem State.finish_lines (c : HostCommand) (w : Vector Word 6) : (s.finish c w).lines = s.lines := rfl
@[simp] theorem State.finish_readout (c : HostCommand) (w : Vector Word 6) : (s.finish c w).readout = s.readout := rfl
@[simp] theorem State.finish_ev (c : HostCommand) (w : Vector Word 6) : (s.finish c w).ev = s.ev := rfl
@[simp] theorem State.finish_pins (c : HostCommand) (w : Vector Word 6) : (s.finish c w).pins = s.pins := rfl
@[simp] theorem State.finish_cutSeq (c : HostCommand) (w : Vector Word 6) : (s.finish c w).cutSeq = s.cutSeq := rfl
@[simp] theorem State.finish_pending (c : HostCommand) (w : Vector Word 6) : (s.finish c w).pending = s.pending := rfl

/-! ### fail -/

@[simp] theorem State.fail_ctxs (c : HostCommand) (r : Result) : (s.fail c r).ctxs = s.ctxs := rfl
@[simp] theorem State.fail_ageList (c : HostCommand) (r : Result) : (s.fail c r).ageList = s.ageList := rfl
@[simp] theorem State.fail_pool (c : HostCommand) (r : Result) : (s.fail c r).pool = s.pool := rfl
@[simp] theorem State.fail_rotation (c : HostCommand) (r : Result) : (s.fail c r).rotation = s.rotation := rfl
@[simp] theorem State.fail_sources (c : HostCommand) (r : Result) : (s.fail c r).sources = s.sources := rfl
@[simp] theorem State.fail_timer (c : HostCommand) (r : Result) : (s.fail c r).timer = s.timer := rfl
@[simp] theorem State.fail_checker (c : HostCommand) (r : Result) : (s.fail c r).checker = s.checker := rfl
@[simp] theorem State.fail_delivery (c : HostCommand) (r : Result) : (s.fail c r).delivery = s.delivery := rfl
@[simp] theorem State.fail_lines (c : HostCommand) (r : Result) : (s.fail c r).lines = s.lines := rfl
@[simp] theorem State.fail_readout (c : HostCommand) (r : Result) : (s.fail c r).readout = s.readout := rfl
@[simp] theorem State.fail_ev (c : HostCommand) (r : Result) : (s.fail c r).ev = s.ev := rfl
@[simp] theorem State.fail_pins (c : HostCommand) (r : Result) : (s.fail c r).pins = s.pins := rfl
@[simp] theorem State.fail_cutSeq (c : HostCommand) (r : Result) : (s.fail c r).cutSeq = s.cutSeq := rfl
@[simp] theorem State.fail_pending (c : HostCommand) (r : Result) : (s.fail c r).pending = s.pending := rfl

/-! ### wait -/

@[simp] theorem State.wait_ctxs (w : Waiting) : (s.wait w).ctxs = s.ctxs := rfl
@[simp] theorem State.wait_ageList (w : Waiting) : (s.wait w).ageList = s.ageList := rfl
@[simp] theorem State.wait_pool (w : Waiting) : (s.wait w).pool = s.pool := rfl
@[simp] theorem State.wait_rotation (w : Waiting) : (s.wait w).rotation = s.rotation := rfl
@[simp] theorem State.wait_sources (w : Waiting) : (s.wait w).sources = s.sources := rfl
@[simp] theorem State.wait_timer (w : Waiting) : (s.wait w).timer = s.timer := rfl
@[simp] theorem State.wait_checker (w : Waiting) : (s.wait w).checker = s.checker := rfl
@[simp] theorem State.wait_delivery (w : Waiting) : (s.wait w).delivery = s.delivery := rfl
@[simp] theorem State.wait_lines (w : Waiting) : (s.wait w).lines = s.lines := rfl
@[simp] theorem State.wait_readout (w : Waiting) : (s.wait w).readout = s.readout := rfl
@[simp] theorem State.wait_ev (w : Waiting) : (s.wait w).ev = s.ev := rfl
@[simp] theorem State.wait_pins (w : Waiting) : (s.wait w).pins = s.pins := rfl
@[simp] theorem State.wait_cutSeq (w : Waiting) : (s.wait w).cutSeq = s.cutSeq := rfl
@[simp] theorem State.wait_pending (w : Waiting) : (s.wait w).pending = s.pending := rfl

/-! ### engineIdle -/

@[simp] theorem State.engineIdle_ctxs : (s.engineIdle).ctxs = s.ctxs := rfl
@[simp] theorem State.engineIdle_ageList : (s.engineIdle).ageList = s.ageList := rfl
@[simp] theorem State.engineIdle_pool : (s.engineIdle).pool = s.pool := rfl
@[simp] theorem State.engineIdle_rotation : (s.engineIdle).rotation = s.rotation := rfl
@[simp] theorem State.engineIdle_sources : (s.engineIdle).sources = s.sources := rfl
@[simp] theorem State.engineIdle_timer : (s.engineIdle).timer = s.timer := rfl
@[simp] theorem State.engineIdle_delivery : (s.engineIdle).delivery = s.delivery := rfl
@[simp] theorem State.engineIdle_lines : (s.engineIdle).lines = s.lines := rfl
@[simp] theorem State.engineIdle_readout : (s.engineIdle).readout = s.readout := rfl
@[simp] theorem State.engineIdle_cmd : (s.engineIdle).cmd = s.cmd := rfl
@[simp] theorem State.engineIdle_ev : (s.engineIdle).ev = s.ev := rfl
@[simp] theorem State.engineIdle_pins : (s.engineIdle).pins = s.pins := rfl
@[simp] theorem State.engineIdle_cutSeq : (s.engineIdle).cutSeq = s.cutSeq := rfl
@[simp] theorem State.engineIdle_pending : (s.engineIdle).pending = s.pending := rfl

/-! ### settleDecision -/

@[simp] theorem State.settleDecision_ctxs (n : CtxNo) : (s.settleDecision n).ctxs = s.ctxs := rfl
@[simp] theorem State.settleDecision_ageList (n : CtxNo) : (s.settleDecision n).ageList = s.ageList := rfl
@[simp] theorem State.settleDecision_pool (n : CtxNo) : (s.settleDecision n).pool = s.pool := rfl
@[simp] theorem State.settleDecision_rotation (n : CtxNo) : (s.settleDecision n).rotation = s.rotation := rfl
@[simp] theorem State.settleDecision_sources (n : CtxNo) : (s.settleDecision n).sources = s.sources := rfl
@[simp] theorem State.settleDecision_checker (n : CtxNo) : (s.settleDecision n).checker = s.checker := rfl
@[simp] theorem State.settleDecision_delivery (n : CtxNo) : (s.settleDecision n).delivery = s.delivery := rfl
@[simp] theorem State.settleDecision_lines (n : CtxNo) : (s.settleDecision n).lines = s.lines := rfl
@[simp] theorem State.settleDecision_readout (n : CtxNo) : (s.settleDecision n).readout = s.readout := rfl
@[simp] theorem State.settleDecision_cmd (n : CtxNo) : (s.settleDecision n).cmd = s.cmd := rfl
@[simp] theorem State.settleDecision_ev (n : CtxNo) : (s.settleDecision n).ev = s.ev := rfl
@[simp] theorem State.settleDecision_pins (n : CtxNo) : (s.settleDecision n).pins = s.pins := rfl
@[simp] theorem State.settleDecision_cutSeq (n : CtxNo) : (s.settleDecision n).cutSeq = s.cutSeq := rfl
@[simp] theorem State.settleDecision_pending (n : CtxNo) : (s.settleDecision n).pending = s.pending := rfl

/-! ### withMode -/

@[simp] theorem State.withMode_ctxs (m : Mode) : (s.withMode m).ctxs = s.ctxs := rfl
@[simp] theorem State.withMode_ageList (m : Mode) : (s.withMode m).ageList = s.ageList := rfl
@[simp] theorem State.withMode_pool (m : Mode) : (s.withMode m).pool = s.pool := rfl
@[simp] theorem State.withMode_rotation (m : Mode) : (s.withMode m).rotation = s.rotation := rfl
@[simp] theorem State.withMode_sources (m : Mode) : (s.withMode m).sources = s.sources := rfl
@[simp] theorem State.withMode_timer (m : Mode) : (s.withMode m).timer = s.timer := rfl
@[simp] theorem State.withMode_checker (m : Mode) : (s.withMode m).checker = s.checker := rfl
@[simp] theorem State.withMode_delivery (m : Mode) : (s.withMode m).delivery = s.delivery := rfl
@[simp] theorem State.withMode_lines (m : Mode) : (s.withMode m).lines = s.lines := rfl
@[simp] theorem State.withMode_readout (m : Mode) : (s.withMode m).readout = s.readout := rfl
@[simp] theorem State.withMode_ev (m : Mode) : (s.withMode m).ev = s.ev := rfl
@[simp] theorem State.withMode_pins (m : Mode) : (s.withMode m).pins = s.pins := rfl
@[simp] theorem State.withMode_cutSeq (m : Mode) : (s.withMode m).cutSeq = s.cutSeq := rfl
@[simp] theorem State.withMode_pending (m : Mode) : (s.withMode m).pending = s.pending := rfl

/-! ### discardBuffers -/

@[simp] theorem State.discardBuffers_ctxs : (s.discardBuffers).ctxs = s.ctxs := rfl
@[simp] theorem State.discardBuffers_ageList : (s.discardBuffers).ageList = s.ageList := rfl
@[simp] theorem State.discardBuffers_pool : (s.discardBuffers).pool = s.pool := rfl
@[simp] theorem State.discardBuffers_rotation : (s.discardBuffers).rotation = s.rotation := rfl
@[simp] theorem State.discardBuffers_sources : (s.discardBuffers).sources = s.sources := rfl
@[simp] theorem State.discardBuffers_timer : (s.discardBuffers).timer = s.timer := rfl
@[simp] theorem State.discardBuffers_checker : (s.discardBuffers).checker = s.checker := rfl
@[simp] theorem State.discardBuffers_delivery : (s.discardBuffers).delivery = s.delivery := rfl
@[simp] theorem State.discardBuffers_readout : (s.discardBuffers).readout = s.readout := rfl
@[simp] theorem State.discardBuffers_cmd : (s.discardBuffers).cmd = s.cmd := rfl
@[simp] theorem State.discardBuffers_ev : (s.discardBuffers).ev = s.ev := rfl
@[simp] theorem State.discardBuffers_pins : (s.discardBuffers).pins = s.pins := rfl
@[simp] theorem State.discardBuffers_cutSeq : (s.discardBuffers).cutSeq = s.cutSeq := rfl
@[simp] theorem State.discardBuffers_pending : (s.discardBuffers).pending = s.pending := rfl

/-! ### freezeTimers -/

@[simp] theorem State.freezeTimers_ctxs : (s.freezeTimers).ctxs = s.ctxs := rfl
@[simp] theorem State.freezeTimers_ageList : (s.freezeTimers).ageList = s.ageList := rfl
@[simp] theorem State.freezeTimers_pool : (s.freezeTimers).pool = s.pool := rfl
@[simp] theorem State.freezeTimers_rotation : (s.freezeTimers).rotation = s.rotation := rfl
@[simp] theorem State.freezeTimers_sources : (s.freezeTimers).sources = s.sources := rfl
@[simp] theorem State.freezeTimers_checker : (s.freezeTimers).checker = s.checker := rfl
@[simp] theorem State.freezeTimers_delivery : (s.freezeTimers).delivery = s.delivery := rfl
@[simp] theorem State.freezeTimers_lines : (s.freezeTimers).lines = s.lines := rfl
@[simp] theorem State.freezeTimers_readout : (s.freezeTimers).readout = s.readout := rfl
@[simp] theorem State.freezeTimers_cmd : (s.freezeTimers).cmd = s.cmd := rfl
@[simp] theorem State.freezeTimers_ev : (s.freezeTimers).ev = s.ev := rfl
@[simp] theorem State.freezeTimers_pins : (s.freezeTimers).pins = s.pins := rfl
@[simp] theorem State.freezeTimers_cutSeq : (s.freezeTimers).cutSeq = s.cutSeq := rfl
@[simp] theorem State.freezeTimers_pending : (s.freezeTimers).pending = s.pending := rfl

theorem State.freezeTimers_timer : (s.freezeTimers).timer =
    { s.timer with
      owed := Vector.replicate 32 false
      deferred := Vector.ofFn fun n => s.timer.owed[n] || s.timer.deferred[n] } := rfl

@[simp] theorem State.freezeTimers_settings (cls : MsgClass) :
    (s.freezeTimers).timer.settings cls = s.timer.settings cls := by cases cls <;> rfl

@[simp] theorem State.freezeTimers_owed (n : CtxNo) : (s.freezeTimers).timer.owed[n] = false := by
  simp [State.freezeTimers]

@[simp] theorem State.freezeTimers_deferred (n : CtxNo) :
    (s.freezeTimers).timer.deferred[n] = (s.timer.owed[n] || s.timer.deferred[n]) := by
  simp [State.freezeTimers]

/-! ### emptyOldest -/

@[simp] theorem State.emptyOldest_ctxs (l : LineNo) : (s.emptyOldest l).ctxs = s.ctxs := rfl
@[simp] theorem State.emptyOldest_ageList (l : LineNo) : (s.emptyOldest l).ageList = s.ageList := rfl
@[simp] theorem State.emptyOldest_pool (l : LineNo) : (s.emptyOldest l).pool = s.pool := rfl
@[simp] theorem State.emptyOldest_rotation (l : LineNo) : (s.emptyOldest l).rotation = s.rotation := rfl
@[simp] theorem State.emptyOldest_sources (l : LineNo) : (s.emptyOldest l).sources = s.sources := rfl
@[simp] theorem State.emptyOldest_timer (l : LineNo) : (s.emptyOldest l).timer = s.timer := rfl
@[simp] theorem State.emptyOldest_checker (l : LineNo) : (s.emptyOldest l).checker = s.checker := rfl
@[simp] theorem State.emptyOldest_delivery (l : LineNo) : (s.emptyOldest l).delivery = s.delivery := rfl
@[simp] theorem State.emptyOldest_readout (l : LineNo) : (s.emptyOldest l).readout = s.readout := rfl
@[simp] theorem State.emptyOldest_cmd (l : LineNo) : (s.emptyOldest l).cmd = s.cmd := rfl
@[simp] theorem State.emptyOldest_ev (l : LineNo) : (s.emptyOldest l).ev = s.ev := rfl
@[simp] theorem State.emptyOldest_pins (l : LineNo) : (s.emptyOldest l).pins = s.pins := rfl
@[simp] theorem State.emptyOldest_cutSeq (l : LineNo) : (s.emptyOldest l).cutSeq = s.cutSeq := rfl
@[simp] theorem State.emptyOldest_pending (l : LineNo) : (s.emptyOldest l).pending = s.pending := rfl

/-! ### flushLine -/

@[simp] theorem State.flushLine_ctxs (l : LineNo) : (s.flushLine l).ctxs = s.ctxs := rfl
@[simp] theorem State.flushLine_ageList (l : LineNo) : (s.flushLine l).ageList = s.ageList := rfl
@[simp] theorem State.flushLine_pool (l : LineNo) : (s.flushLine l).pool = s.pool := rfl
@[simp] theorem State.flushLine_rotation (l : LineNo) : (s.flushLine l).rotation = s.rotation := rfl
@[simp] theorem State.flushLine_sources (l : LineNo) : (s.flushLine l).sources = s.sources := rfl
@[simp] theorem State.flushLine_timer (l : LineNo) : (s.flushLine l).timer = s.timer := rfl
@[simp] theorem State.flushLine_checker (l : LineNo) : (s.flushLine l).checker = s.checker := rfl
@[simp] theorem State.flushLine_delivery (l : LineNo) : (s.flushLine l).delivery = s.delivery := rfl
@[simp] theorem State.flushLine_readout (l : LineNo) : (s.flushLine l).readout = s.readout := rfl
@[simp] theorem State.flushLine_cmd (l : LineNo) : (s.flushLine l).cmd = s.cmd := rfl
@[simp] theorem State.flushLine_ev (l : LineNo) : (s.flushLine l).ev = s.ev := rfl
@[simp] theorem State.flushLine_pins (l : LineNo) : (s.flushLine l).pins = s.pins := rfl
@[simp] theorem State.flushLine_pending (l : LineNo) : (s.flushLine l).pending = s.pending := rfl

/-! ### afterServing -/

@[simp] theorem State.afterServing_ctxs (l : LineNo) : (s.afterServing l).ctxs = s.ctxs := rfl
@[simp] theorem State.afterServing_ageList (l : LineNo) : (s.afterServing l).ageList = s.ageList := rfl
@[simp] theorem State.afterServing_pool (l : LineNo) : (s.afterServing l).pool = s.pool := rfl
@[simp] theorem State.afterServing_sources (l : LineNo) : (s.afterServing l).sources = s.sources := rfl
@[simp] theorem State.afterServing_timer (l : LineNo) : (s.afterServing l).timer = s.timer := rfl
@[simp] theorem State.afterServing_checker (l : LineNo) : (s.afterServing l).checker = s.checker := rfl
@[simp] theorem State.afterServing_delivery (l : LineNo) : (s.afterServing l).delivery = s.delivery := rfl
@[simp] theorem State.afterServing_readout (l : LineNo) : (s.afterServing l).readout = s.readout := rfl
@[simp] theorem State.afterServing_cmd (l : LineNo) : (s.afterServing l).cmd = s.cmd := rfl
@[simp] theorem State.afterServing_ev (l : LineNo) : (s.afterServing l).ev = s.ev := rfl
@[simp] theorem State.afterServing_pins (l : LineNo) : (s.afterServing l).pins = s.pins := rfl
@[simp] theorem State.afterServing_cutSeq (l : LineNo) : (s.afterServing l).cutSeq = s.cutSeq := rfl
@[simp] theorem State.afterServing_pending (l : LineNo) : (s.afterServing l).pending = s.pending := rfl

/-! ### What they write -/

@[simp] theorem State.setCtx_ctxs (n : CtxNo) (r : Ctx) : (s.setCtx n r).ctxs = s.ctxs.set n r := rfl
@[simp] theorem State.setSource_sources (k : SlotNo) (e : SourceEntry) : (s.setSource k e).sources = s.sources.set k e := rfl
@[simp] theorem State.setLine_lines (l : LineNo) (u : LineUnit) : (s.setLine l u).lines = s.lines.set l u := rfl
@[simp] theorem State.post_ev (e : EventRec) : (s.post e).ev = s.ev.post e := rfl
@[simp] theorem State.engineIdle_queue : s.engineIdle.checker.queue = s.checker.queue := rfl
@[simp] theorem State.engineIdle_engine : s.engineIdle.checker.engine = .idle := rfl
@[simp] theorem State.withMode_mode (m : Mode) : (s.withMode m).cmd.mode = m := rfl
@[simp] theorem State.wait_state (w : Waiting) : (s.wait w).cmd.state = .busy w := rfl
@[simp] theorem State.complete_state (c : Byte) (r : Result) (w : Vector Word 6) : (s.complete c r w).cmd.state = .idle := rfl
@[simp] theorem State.complete_mode (c : Byte) (r : Result) (w : Vector Word 6) :
    (s.complete c r w).cmd.mode = s.cmd.mode := rfl
@[simp] theorem State.accept_state (c : Byte) : (s.accept c).cmd.state = s.cmd.state := rfl
@[simp] theorem State.accept_mode (c : Byte) : (s.accept c).cmd.mode = s.cmd.mode := rfl

/-! ### Records, entries and lines read back -/

@[simp] theorem State.ctx_setCtx_same (n : CtxNo) (r : Ctx) : (s.setCtx n r).ctx n = r := by
  simp [State.ctx, State.setCtx]

theorem State.ctx_setCtx_other {n m : CtxNo} (h : m ≠ n) (r : Ctx) : (s.setCtx n r).ctx m = s.ctx m := by
  simp only [State.ctx, State.setCtx, Fin.getElem_fin]
  exact Vector.getElem_set_ne _ _ (fun e => h (Fin.ext e.symm))

theorem State.ctx_setCtx (n m : CtxNo) (r : Ctx) : (s.setCtx n r).ctx m = if m = n then r else s.ctx m := by
  split
  · rename_i h; subst h; simp
  · exact State.ctx_setCtx_other s ‹_› r

@[simp] theorem State.source_setSource_same (k : SlotNo) (e : SourceEntry) : (s.setSource k e).source k = e := by
  simp [State.source, State.setSource]

theorem State.source_setSource_other {k j : SlotNo} (h : j ≠ k) (e : SourceEntry) :
    (s.setSource k e).source j = s.source j := by
  simp only [State.source, State.setSource, Fin.getElem_fin]
  exact Vector.getElem_set_ne _ _ (fun i => h (Fin.ext i.symm))

theorem State.source_setSource (k j : SlotNo) (e : SourceEntry) :
    (s.setSource k e).source j = if j = k then e else s.source j := by
  split
  · rename_i h; subst h; simp
  · exact State.source_setSource_other s ‹_› e

@[simp] theorem State.line_setLine_same (l : LineNo) (u : LineUnit) : (s.setLine l u).line l = u := by
  simp [State.line, State.setLine]

theorem State.line_setLine_other {l m : LineNo} (h : m ≠ l) (u : LineUnit) : (s.setLine l u).line m = s.line m := by
  simp only [State.line, State.setLine, Fin.getElem_fin]
  exact Vector.getElem_set_ne _ _ (fun i => h (Fin.ext i.symm))

theorem State.line_setLine (l m : LineNo) (u : LineUnit) : (s.setLine l u).line m = if m = l then u else s.line m := by
  split
  · rename_i h; subst h; simp
  · exact State.line_setLine_other s ‹_› u

/-- A second write of one record, entry or line replaces the first; writing back what stands there changes nothing. -/
theorem State.setCtx_setCtx (n : CtxNo) (r q : Ctx) : (s.setCtx n r).setCtx n q = s.setCtx n q := by
  simp [State.setCtx, Vector.set_set]

theorem State.setSource_setSource (k : SlotNo) (e f : SourceEntry) : (s.setSource k e).setSource k f = s.setSource k f := by
  simp [State.setSource, Vector.set_set]

theorem State.setLine_setLine (l : LineNo) (u v : LineUnit) : (s.setLine l u).setLine l v = s.setLine l v := by
  simp [State.setLine, Vector.set_set]

@[simp] theorem State.setCtx_self (n : CtxNo) : s.setCtx n (s.ctx n) = s := by
  simp [State.setCtx, State.ctx]

@[simp] theorem State.setSource_self (k : SlotNo) : s.setSource k (s.source k) = s := by
  simp [State.setSource, State.source]

@[simp] theorem State.setLine_self (l : LineNo) : s.setLine l (s.line l) = s := by
  simp [State.setLine, State.line]

/-- The views read only their own field. -/
theorem State.ctx_congr {s t : State} (h : t.ctxs = s.ctxs) (n : CtxNo) : t.ctx n = s.ctx n := by simp [State.ctx, h]
theorem State.source_congr {s t : State} (h : t.sources = s.sources) (k : SlotNo) : t.source k = s.source k := by
  simp [State.source, h]
theorem State.line_congr {s t : State} (h : t.lines = s.lines) (l : LineNo) : t.line l = s.line l := by simp [State.line, h]

/-- Every line, read after the buffers were discarded. -/
theorem State.line_discardBuffers (l : LineNo) : s.discardBuffers.line l = { s.line l with buffers := [] } := by
  simp [State.line, State.discardBuffers]

end Sys2Proof.Machine
end

