-- ==== Sys2Proof/Laws/Ops.lean ====
section
/-! SUPPORT. One lemma or a few for each shared operation: everything it can do. -/

namespace Sys2Proof.Machine

/-! ## Awake, command writes, reads -/

theorem awake_eq (s : State) (f : State → State) (h : s.pins.rstnLow = false) : awake s f = .next (f s) := by
  simp [awake, h]

theorem awake_asleep (s : State) (f : State → State) (h : s.pins.rstnLow = true) : awake s f = .next s := by
  simp [awake, h]

/-- An event of the part answers a next state: itself while RSTN is low, else what the event makes of it. -/
theorem awake_next {s t : State} {f : State → State} (h : awake s f = .next t) :
    (s.pins.rstnLow = true ∧ t = s) ∨ (s.pins.rstnLow = false ∧ t = f s) := by
  unfold awake at h
  injection h with h
  split at h
  · exact Or.inl ⟨‹_›, h.symm⟩
  · refine Or.inr ⟨?_, h.symm⟩
    cases hr : s.pins.rstnLow
    · rfl
    · contradiction

theorem cmdWrite_idle (c : Byte) (f : State → State) (s : State) (h : s.cmd.state = .idle) :
    cmdWrite c f s = f (s.accept c) := by simp [cmdWrite, h]

theorem cmdWrite_busy (c : Byte) (f : State → State) (s : State) {w : Waiting} (h : s.cmd.state = .busy w) :
    cmdWrite c f s = { s with cmd := { s.cmd with refused := true } } := by simp [cmdWrite, h]

/-- A CMD write answers a next state: nothing in reset, the refused flag while BUSY, else acceptance and the command. -/
theorem hostCommand_next {c : HostCommand} {f : State → State} {s t : State} (h : hostCommand c f s = .next t) :
    (s.pins.rstnLow = true ∧ t = s) ∨
      (s.pins.rstnLow = false ∧ (∃ w, s.cmd.state = .busy w) ∧ t = { s with cmd := { s.cmd with refused := true } }) ∨
      (s.accepts ∧ t = f (s.accept c.code)) := by
  rcases awake_next h with h | ⟨hr, rfl⟩
  · exact Or.inl h
  · cases hs : s.cmd.state with
    | idle => exact Or.inr (Or.inr ⟨⟨hr, hs⟩, cmdWrite_idle _ _ _ hs⟩)
    | busy w => exact Or.inr (Or.inl ⟨hr, ⟨w, rfl⟩, cmdWrite_busy _ _ _ hs⟩)

theorem hostCommand_accepts (c : HostCommand) (f : State → State) {s : State} (h : s.accepts) :
    hostCommand c f s = .next (f (s.accept c.code)) := by
  rw [hostCommand, awake_eq _ _ h.1, cmdWrite_idle _ _ _ h.2]

/-- A read with a side effect, out of reset. -/
theorem hostRead_eq (a : RegAddr) (f : State → State) (s : State) (h : s.pins.rstnLow = false) :
    hostRead a f s = .next { f s with pins := { (f s).pins with dataOut := some (s.readWord a) } } := by
  simp [hostRead, h]

/-! ## Lookups -/

theorem State.findSource_some {s : State} {a : Byte} {k : SlotNo} (h : s.findSource a = some k) :
    (s.source k).state ≠ .unused ∧ (s.source k).address = a := by
  have := List.find?_some h
  simpa using this

theorem State.findSource_none {s : State} {a : Byte} :
    s.findSource a = none ↔ ∀ k, (s.source k).state ≠ .unused → (s.source k).address ≠ a := by
  simp [State.findSource, List.find?_eq_none]

theorem State.lookupKey_some {s : State} {a : Byte} {m : MsgNo} {n : CtxNo} (h : s.lookupKey a m = some n) :
    (s.ctx n).state ≠ .free ∧ (s.ctx n).source = a ∧ (s.ctx n).msgno = m := by
  have := List.find?_some h
  simpa [and_assoc] using this

theorem State.lookupKey_none {s : State} {a : Byte} {m : MsgNo} :
    s.lookupKey a m = none ↔ ∀ n, (s.ctx n).state ≠ .free → (s.ctx n).source = a → (s.ctx n).msgno ≠ m := by
  simp [State.lookupKey, List.find?_eq_none]

theorem State.lowestFree_some {s : State} {n : CtxNo} (h : s.lowestFree = some n) : (s.ctx n).state = .free := by
  have := List.find?_some h
  simpa using this

theorem State.lowestFree_none {s : State} : s.lowestFree = none ↔ ∀ n, (s.ctx n).state ≠ .free := by
  simp [State.lowestFree, List.find?_eq_none]

theorem State.lowestUnused_some {s : State} {k : SlotNo} (h : s.lowestUnused = some k) : (s.source k).state = .unused := by
  have := List.find?_some h
  simpa using this

theorem State.lowestUnused_none {s : State} : s.lowestUnused = none ↔ ∀ k, (s.source k).state ≠ .unused := by
  simp [State.lowestUnused, List.find?_eq_none]

/-- The record under check is the head of the Check Queue, and only while the engine is out of IDLE. -/
theorem State.underCheck_some {s : State} {n : CtxNo} :
    s.underCheck = some n ↔ s.checker.engine ≠ .idle ∧ s.checker.queue.head? = some n := by
  unfold State.underCheck
  split <;> simp_all

/-! ## Posting and handing over -/

theorem EventBlock.post_frame (ev : EventBlock) (e : EventRec) :
    ev.post e = { ev with queue := (ev.post e).queue, overflow := (ev.post e).overflow, loss := (ev.post e).loss } := by
  unfold EventBlock.post
  split
  · rfl
  · split <;> rfl

theorem EventBlock.post_length (ev : EventBlock) (e : EventRec) (h : ev.queue.length ≤ Config.eventQueueCap) :
    (ev.post e).queue.length ≤ Config.eventQueueCap := by
  unfold EventBlock.post
  split
  · exact h
  · split
    · simp; omega
    · exact h

/-- The chosen line is ON. -/
theorem State.txLine_on {s : State} {l requested : LineNo} {mask : LineMask} (h : s.txLine requested mask = some l) :
    (s.line l).state = .on := by
  unfold State.txLine at h
  split at h
  · rename_i hr
    injection h with h
    subst h
    simpa [State.lineOn] using hr
  · rcases Option.or_eq_some_iff.1 h with h | ⟨-, h⟩
    · have := List.find?_some h
      simp [State.lineOn] at this
      exact this.2
    · have := List.find?_some h
      simpa [State.lineOn] using this

/-- The placing keeps a queue within its capacity and leaves the entry in flight. -/
theorem replaceGap_length {f : CtrlFrame} {queue out : List CtrlFrame} (h : replaceGap f queue = some out) :
    out.length = queue.length := by
  induction queue generalizing out with
  | nil => simp [replaceGap] at h
  | cons g rest ih =>
    simp only [replaceGap] at h
    split at h
    · injection h with h
      subst h
      rfl
    · obtain ⟨o, ho, rfl⟩ := Option.map_eq_some_iff.1 h
      simp [ih ho]

theorem appendFrame_eq {f : CtrlFrame} {queue out : List CtrlFrame} (h : appendFrame f queue = some out) :
    queue.length < Config.txQueueCap ∧ out = queue ++ [f] := by
  unfold appendFrame at h
  split at h
  · injection h with h
    exact ⟨‹_›, h.symm⟩
  · cases h

theorem placeFrame_length {f : CtrlFrame} {k : Nat} {queue out : List CtrlFrame} (hq : queue.length ≤ Config.txQueueCap)
    (h : placeFrame f k queue = some out) : out.length ≤ Config.txQueueCap := by
  unfold placeFrame at h
  split at h
  · split at h
    · rename_i hr
      injection h with h
      subst h
      have := replaceGap_length hr
      simp only [List.length_append, List.length_take, this, List.length_drop]
      omega
    · obtain ⟨hl, rfl⟩ := appendFrame_eq h
      simp; omega
  · split at h
    · injection h with h
      subst h
      exact hq
    · obtain ⟨hl, rfl⟩ := appendFrame_eq h
      simp; omega
  · obtain ⟨hl, rfl⟩ := appendFrame_eq h
    simp; omega

/-- Handing over: TX_DROPPED for want of a line or of room, or the chosen ON line's queue with the frame placed. -/
theorem State.handOver_cases (s : State) (f : CtrlFrame) (requested : LineNo) (mask : LineMask) :
    (s.txLine requested mask = none ∧ s.handOver f requested mask = s.post (txDropped none false f)) ∨
      ∃ l, s.txLine requested mask = some l ∧ (s.line l).state = .on ∧
        ((placeFrame f (s.line l).inFlight (s.line l).queue = none ∧
            s.handOver f requested mask = s.post (txDropped (some l) true f)) ∨
          ∃ queue, placeFrame f (s.line l).inFlight (s.line l).queue = some queue ∧
            s.handOver f requested mask = s.setLine l { s.line l with queue := queue }) := by
  cases hl : s.txLine requested mask with
  | none => exact Or.inl ⟨rfl, by simp [State.handOver, hl]⟩
  | some l =>
    refine Or.inr ⟨l, rfl, State.txLine_on hl, ?_⟩
    cases hp : placeFrame f (s.line l).inFlight (s.line l).queue with
    | none => exact Or.inl ⟨rfl, by simp [State.handOver, hl, hp]⟩
    | some queue => exact Or.inr ⟨queue, rfl, by simp [State.handOver, hl, hp]⟩

/-- Handing over writes lines and the event block only. -/
theorem State.handOver_frame (s : State) (f : CtrlFrame) (requested : LineNo) (mask : LineMask) :
    s.handOver f requested mask =
      { s with lines := (s.handOver f requested mask).lines, ev := (s.handOver f requested mask).ev } := by
  rcases s.handOver_cases f requested mask with ⟨-, h⟩ | ⟨l, -, -, ⟨-, h⟩ | ⟨q, -, h⟩⟩ <;> rw [h] <;> rfl

/-- Handing over changes nothing of a line but its queue. -/
theorem State.line_handOver (s : State) (f : CtrlFrame) (requested : LineNo) (mask : LineMask) (l : LineNo) :
    (s.handOver f requested mask).line l =
      { s.line l with queue := ((s.handOver f requested mask).line l).queue } := by
  rcases s.handOver_cases f requested mask with ⟨-, h⟩ | ⟨m, -, -, ⟨-, h⟩ | ⟨q, -, h⟩⟩ <;> rw [h]
  · rfl
  · rfl
  · rw [State.line_setLine]
    split
    · rename_i e
      subst e
      rfl
    · rfl

theorem State.refuseCtx_frame (s : State) (r : Ctx) (reason : Reason) :
    s.refuseCtx r reason = { s with lines := (s.refuseCtx r reason).lines, ev := (s.refuseCtx r reason).ev } :=
  State.handOver_frame _ _ _ _

/-! ## Lines -/

theorem State.flushLine_eq (s : State) (l : LineNo) :
    s.flushLine l =
      { s with
        lines := s.lines.set l
          { s.line l with
            queue := []
            tx := if (s.line l).tx = .sending then .aborting else (s.line l).tx
            wire := if (s.line l).tx = .sending then abortOnLine (s.line l).wire s.cutSeq else (s.line l).wire }
        cutSeq := s.cutSeq + 1 } := by
  unfold State.flushLine LineUnit.flushed State.setLine
  split <;> simp_all

/-! ## Freeing -/

theorem State.lowerOpen_frame (s : State) (a : Byte) : s.lowerOpen a = { s with sources := (s.lowerOpen a).sources } := by
  unfold State.lowerOpen
  split <;> rfl

/-- Lowering an open count changes only that field, of the one entry found. -/
theorem State.source_lowerOpen (s : State) (a : Byte) (k : SlotNo) :
    (s.lowerOpen a).source k =
      { s.source k with
        openCount := if s.findSource a = some k then (s.source k).openCount - 1 else (s.source k).openCount } := by
  unfold State.lowerOpen
  cases h : s.findSource a with
  | none => simp
  | some j =>
    simp only [State.source_setSource]
    by_cases e : k = j
    · subst e; simp
    · have : ¬j = k := fun x => e x.symm
      simp [e, this]

theorem State.ctx_freeCtx (s : State) (n m : CtxNo) : (s.freeCtx n).ctx m = if m = n then Ctx.cleared else s.ctx m := by
  unfold State.freeCtx
  rw [State.ctx_setCtx, State.lowerOpen_frame]
  rfl

theorem State.source_freeCtx (s : State) (n : CtxNo) (k : SlotNo) :
    (s.freeCtx n).source k =
      { s.source k with
        openCount :=
          if s.findSource (s.ctx n).source = some k then (s.source k).openCount - 1 else (s.source k).openCount } := by
  unfold State.freeCtx
  rw [State.source_congr (State.setCtx_sources _ _ _), State.source_lowerOpen]
  rfl

/-- Every field freeing writes, and no other. -/
theorem State.freeCtx_frame (s : State) (n : CtxNo) :
    s.freeCtx n =
      { s with
        ctxs := s.ctxs.set n .cleared
        ageList := s.ageList.erase n
        pool := { s.pool with freeList := s.pool.freeList ++ (s.ctx n).chain }
        checker := { s.checker with queue := s.checker.queue.erase n }
        delivery := s.delivery.erase n
        sources := (s.freeCtx n).sources } := by
  unfold State.freeCtx
  simp only [State.setCtx_sources]
  rw [State.lowerOpen_frame]
  rfl

theorem State.loseHeld_cases (s : State) (n : CtxNo) (cause : LossCause) :
    ((s.ctx n).state ≠ .delivering ∧ s.loseHeld n cause = s) ∨
      ((s.ctx n).state = .delivering ∧
        s.loseHeld n cause =
          State.post { s with readout := { s.readout with port := .lost, remaining := 0 } }
            (readoutLostEvent n (s.ctx n) cause)) := by
  unfold State.loseHeld
  split
  · exact Or.inr ⟨‹_›, rfl⟩
  · exact Or.inl ⟨‹_›, rfl⟩

/-- Asking the engine to stop: abort pending on the record, and CHECKING becomes STOP-PENDING. -/
theorem State.requestStop_frame (s : State) (n : CtxNo) :
    s.requestStop n =
      { s with
        ctxs := s.ctxs.set n { s.ctx n with abortPending := true }
        checker := { s.checker with engine := (s.requestStop n).checker.engine } } := by
  unfold State.requestStop
  split <;> rfl

/-! ## What repeats -/

/-- What holds of a state and is kept by every eviction of an evictable record holds after eviction for cells. -/
theorem evictForCells_induct (P : State → Prop) (k : Nat) (l : LineNo)
    (keep : ∀ s n, P s → s.evictable n = true → P (evict .cells l n s)) (records : List CtxNo) (s : State) (h : P s) :
    P (evictForCells k l records s) := by
  induction records generalizing s with
  | nil => exact h
  | cons n rest ih =>
    simp only [evictForCells]
    split
    · exact h
    · split
      · exact ih _ (keep s n h ‹_›)
      · exact ih _ h

/-- What every freeing of a listed record keeps holds after all of them are freed. -/
theorem freeAll_induct (P : State → Prop) (records : List CtxNo) (cause : LossCause)
    (keep : ∀ s, ∀ n ∈ records, P s → P (s.freeByCommand n cause)) (s : State) (h : P s) :
    P (freeAll records cause s) := by
  unfold freeAll
  induction records generalizing s with
  | nil => exact h
  | cons n rest ih =>
    simp only [List.foldl_cons]
    exact ih (fun t m hm => keep t m (List.mem_cons_of_mem _ hm)) _ (keep s n List.mem_cons_self h)

/-! ## Expiry decisions -/

theorem State.settleDecision_owed (s : State) (n m : CtxNo) :
    (s.settleDecision n).timer.owed[m] = if m = n then false else s.timer.owed[m] := by
  simp [State.settleDecision, Vector.getElem_set, eq_comm, Fin.ext_iff]

/-- A decision that is not owed is not taken. -/
theorem takeDecision_settled {s : State} {n : CtxNo} (h : s.timer.owed[n] = false) : takeDecision n s = s := by
  simp [takeDecision, h]

theorem takeDecision_owed {s : State} {n : CtxNo} (h : s.timer.owed[n] = true) :
    takeDecision n s = decideExpiry n (s.settleDecision n) := by
  simp [takeDecision, h]

/-- A decision: nothing, a gap request, or expiry, as the record stands (spec 04 R76). -/
theorem decideExpiry_cases (n : CtxNo) (s : State) :
    decideExpiry n s = s ∨ ((s.ctx n).state = .collecting ∧ decideExpiry n s = sendGap n s) ∨
      ((s.ctx n).state = .collecting ∧ ∃ cause, decideExpiry n s = expire n cause s) := by
  unfold decideExpiry
  dsimp only
  split
  · exact Or.inl rfl
  · have hc : (s.ctx n).state = .collecting := by simp_all
    split
    · exact Or.inr (Or.inr ⟨hc, _, rfl⟩)
    · split
      · split
        · exact Or.inr (Or.inl ⟨hc, rfl⟩)
        · exact Or.inr (Or.inr ⟨hc, _, rfl⟩)
      · exact Or.inl rfl

/-- A decision reads and writes the timer nowhere but in its settings, which it keeps. -/
theorem decideExpiry_timer (n : CtxNo) (s : State) : (decideExpiry n s).timer = s.timer := by
  rcases decideExpiry_cases n s with h | ⟨-, h⟩ | ⟨-, cause, h⟩
  · rw [h]
  · rw [h, sendGap, State.handOver_frame]
    rfl
  · rw [h, expire, State.freeCtx_frame, State.refuseCtx_frame]
    rfl

/-- Taking a record's decision settles it and leaves every other as it was. -/
theorem takeDecision_timer (n : CtxNo) (s : State) :
    (takeDecision n s).timer = { s.timer with owed := s.timer.owed.set n false } := by
  unfold takeDecision
  split
  · rw [decideExpiry_timer]
    rfl
  · rename_i h
    have : s.timer.owed.set n false = s.timer.owed := by
      have h' : s.timer.owed[n.val] = false := by simpa using h
      rw [← h']
      simp
    rw [this]

/-- What every decision keeps holds after all of them. -/
theorem takeOwed_induct (P : State → Prop) (keep : ∀ n t, P t → P (takeDecision n t)) (s : State) (h : P s) :
    P (takeOwed s) := by
  unfold takeOwed
  induction List.finRange 32 generalizing s with
  | nil => exact h
  | cons n rest ih => exact ih _ (keep n s h)

/-- With no decision owed, none is taken. -/
theorem takeOwed_settled {s : State} (h : ∀ n : CtxNo, s.timer.owed[n] = false) : takeOwed s = s := by
  unfold takeOwed
  induction List.finRange 32 with
  | nil => rfl
  | cons n rest ih => rw [List.foldl_cons, takeDecision_settled (h n), ih]

/-- A tick in RUN owes a decision to the records it leaves due and to those whose deferred decision it releases. -/
theorem tickInRun_owed (s : State) (n : CtxNo) :
    (tickInRun s).timer.owed[n] =
      ((s.ctx n).ticked.due (s.timer.settings (s.ctx n).ticked.cls) ||
        (s.timer.deferred[n] && (s.ctx n).awaitsDeferred)) := by
  simp [tickInRun, State.ctx]

theorem tickInRun_deferred (s : State) (n : CtxNo) : (tickInRun s).timer.deferred[n] = false := by
  simp [tickInRun]

theorem tickInRun_ctx (s : State) (n : CtxNo) : (tickInRun s).ctx n = (s.ctx n).ticked := by
  simp [tickInRun, State.ctx]

/-- A tick in RUN writes records and timer alone. -/
theorem tickInRun_frame (s : State) :
    tickInRun s = { s with ctxs := (tickInRun s).ctxs, timer := (tickInRun s).timer } := rfl

/-! ## The rows of host writes -/

/-- A word names a command exactly when it is some command's code with bits 15..8 zero. -/
theorem namesCommand_eq (w : Word) : namesCommand w = (commandOfWord w).isSome := by
  rw [Bool.eq_iff_iff, commandOfWord, List.find?_isSome, namesCommand, List.any_eq_true]

theorem commandOfWord_code (c : HostCommand) : commandOfWord (c.code.setWidth 16) = some c := by
  cases c <;> decide

/-- A word that names no command is the row BAD_COMMAND. -/
theorem rowOfCmdWord_none {w : Word} (h : namesCommand w = false) : rowOfCmdWord w = .badCommand w := by
  rw [namesCommand_eq, Option.isSome_eq_false_iff, Option.isNone_iff_eq_none] at h
  rw [rowOfCmdWord, h]

theorem rowOfCmdWord_wf (w : Word) : (rowOfCmdWord w).wf = true := by
  cases h : commandOfWord w with
  | none =>
    rw [rowOfCmdWord, h]
    simp [Instr.wf, namesCommand_eq, h]
  | some c =>
    rw [rowOfCmdWord, h]
    cases c <;> rfl

/-! ## Completion of STOP -/

theorem State.stopIfDone_cases (s : State) :
    (s.cmd.mode = .stopping ∧ s.cmd.state = .busy .stop ∧ s.checker.engine = .idle ∧ (∀ l, (s.line l).tx = .idle) ∧
        s.stopIfDone = { s with cmd := { s.cmd.ended 0x21 noWords with mode := .config } }) ∨
      (¬(s.cmd.mode = .stopping ∧ s.cmd.state = .busy .stop ∧ s.checker.engine = .idle ∧ ∀ l, (s.line l).tx = .idle) ∧
        s.stopIfDone = s) := by
  have htx : s.txAllIdle = true ↔ ∀ l, (s.line l).tx = .idle := by simp [State.txAllIdle]
  unfold State.stopIfDone
  split
  · rename_i h
    exact Or.inl ⟨h.1, h.2.1, h.2.2.1, htx.1 h.2.2.2, rfl⟩
  · rename_i h
    exact Or.inr ⟨fun g => h ⟨g.1, g.2.1, g.2.2.1, htx.2 g.2.2.2⟩, rfl⟩

end Sys2Proof.Machine
end

