-- ==== Sys2Proof/Tests/Slice0.lean ====
section
/-! SUPPORT. Tests: ill-formed terms refused, the spec's worked examples, and for every statement with hypotheses a state that
meets them (for several clauses, each clause). -/

namespace Sys2Proof.Tests

open Sys2Proof.Machine

set_option Elab.async false

/-! ## States to test on -/

/-- The state a command leaves. -/
def after (c : Instr) (s : State) : State :=
  match exec c s with
  | .next t => t
  | .fault _ => s
  | .refused _ => s

/-- In RUN with station address 0x20: L0 ON and listening, source 0x22 ENABLED in slot 0. -/
def running : State :=
  { State.reset with
    cmd := { CommandUnit.reset with mode := .run, station := 0x20 }
    lines := State.reset.lines.set 0 { LineUnit.reset with state := .on }
    sources := State.reset.sources.set 0 ⟨.enabled, 0x22, 64, 8, true, 0, []⟩ }

def inMode (m : Mode) (s : State) : State := { s with cmd := { s.cmd with mode := m } }

/-- The state with the first four argument registers loaded. -/
def withArgs (a b c d : Word) (s : State) : State := { s with cmd := { s.cmd with args := #v[a, b, c, d, 0, 0] } }

/-- The state with a command in flight. -/
def inFlight (w : Waiting) (s : State) : State := { s with cmd := { s.cmd with state := .busy w } }

/-- L0 changed. -/
def withLine (f : LineUnit → LineUnit) (s : State) : State := s.setLine 0 (f (s.line 0))

/-- A record of message 0x155 of source 0x22, put into its collection, its cells off the free list. -/
def place (n : CtxNo) (r : Ctx) (s : State) : State :=
  { s with
    ctxs := s.ctxs.set n r
    ageList := if r.state = .collecting then s.ageList ++ [n] else s.ageList
    checker := if r.state = .verifying then { s.checker with queue := s.checker.queue ++ [n] } else s.checker
    delivery := if r.state = .ready then s.delivery ++ [n] else s.delivery
    readout :=
      if r.state = .delivering then ⟨.held n Walk.start, ⟨n, r.cls, r.source, r.msgno, r.byteCount⟩, r.byteCount⟩
      else s.readout
    pool := { s.pool with freeList := s.pool.freeList.filter fun c => c ∉ r.chain }
    sources := s.sources.set 0 { s.source 0 with openCount := (s.source 0).openCount + 1 } }

/-- COLLECTING, index 1 present (40 bytes in cells 0 and 1), index 0 absent, the end unknown. -/
def partRec : Ctx :=
  { Ctx.cleared with
    state := .collecting, source := 0x22, msgno := 0x155, slots := (Vector.replicate 64 none).set 1 (some ⟨40, 0, 2, 0⟩)
    chain := [0, 1], presentCount := 1, byteCount := 40, lineMask := 1 }

/-- The nine bytes 0x31 to 0x39 of the spec's examples. -/
def nine : List Byte := [0x31, 0x32, 0x33, 0x34, 0x35, 0x36, 0x37, 0x38, 0x39]

/-- The two-segment message of 05 5.8: index 1 in cell 40, index 0 in cell 41. -/
def nineRec (st : CtxState) : Ctx :=
  { Ctx.cleared with
    state := st, source := 0x22, msgno := 0x155, lastIndex := some 1, checkWord := some 0xCBF43926
    slots := ((Vector.replicate 64 none).set 0 (some ⟨5, 41, 1, 0⟩)).set 1 (some ⟨4, 40, 1, 2⟩)
    chain := [40, 41], presentCount := 2, byteCount := 9, replyLine := 0, lineMask := 5 }

/-- The nine bytes in their cells. -/
def withNine (s : State) : State :=
  { s with pool := { s.pool with mem := (Memory.writeCells [] [40] (nine.drop 5)).writeCells [41] (nine.take 5) } }

def collecting : State := place 0 partRec running
def verifying : State := withNine (place 0 (nineRec .verifying) running)
def ready : State := withNine (place 0 (nineRec .ready) running)
def held : State := withNine (place 0 (nineRec .delivering) running)

/-- The engine reading the record's first cell. -/
def checking : State := { verifying with checker := { verifying.checker with engine := .checking crc32Ones Walk.start } }

/-- The engine reading the record's last cell. -/
def lastCell : State :=
  { verifying with
    checker := { verifying.checker with engine := .checking (crc32Fold crc32Ones (nine.take 5)) ⟨1, 1, 0⟩ } }

/-- The engine stopping for a command in flight. -/
def stopping (w : Waiting) : State :=
  inFlight w { verifying with checker := { verifying.checker with engine := .stopPending crc32Ones Walk.start } }

/-- L0's transmitter sending a RECEIPT. -/
def receipt : CtrlFrame := ⟨0x22, 0x155, .receipt 9 2⟩
def gap : CtrlFrame := ⟨0x22, 0x155, .gap false 4 [1, 3]⟩
def sending : State := withLine (fun u => { u with tx := .sending, queue := [receipt], wire := [0xD5, 0xB3] }) running
def aborting : State := withLine (fun u => { u with tx := .aborting, wire := [0xD6, 0xD5] }) running

/-- A frame for the station, from source 0x22, message 0x155. -/
def frameOf (dest src flagsHi index length : Byte) (check payload : List Byte) : List Byte :=
  withFrameCheck ([0xA1, dest, src, flagsHi, 0x55, index, length] ++ check ++ payload)

/-- An ordinary segment of 0x155 with no LAST: its index, and its length in bytes. -/
def seg (index : Byte) (length : Nat) : List Byte :=
  frameOf 0x20 0x22 0x01 index (BitVec.ofNat 8 length) [] (List.replicate length 0xD5)

/-- A segment with flags: 0x10 LAST, 0x20 URG. -/
def flagged (flags index : Byte) (length : Nat) : List Byte :=
  frameOf 0x20 0x22 (flags ||| 0x01) index (BitVec.ofNat 8 length)
    (if flags &&& 0x10 = 0 then [] else [0x26, 0x39, 0xF4, 0xCB]) (List.replicate length 0xD5)

/-- The frame waiting on L0. -/
def arrived (content : List Byte) (s : State) : State := withLine (fun u => { u with buffers := [content] }) s

/-! ## Conditions as checks -/

theorem serves {s : State} {l : LineNo} {content : List Byte}
    (h : s.pins.rstnLow = false ∧ s.cmd.mode = .run ∧ s.servedLine = some l) (hf : (s.line l).buffers.head? = some content) :
    Serves s l content := ⟨h.1, h.2.1, h.2.2, hf⟩

theorem passes {s : State} {l : LineNo} {content : List Byte}
    (h : byteAt content 0 = 0xA1 ∧ byteAt content 1 = s.cmd.station ∧ headerFault content = none) :
    Passes s content l (parseSegment l content) := ⟨h.1, h.2.1, h.2.2, rfl⟩

/-- A frame that reaches key resolution in slot k. -/
abbrev Reaches (s : State) (l : LineNo) (content : List Byte) (k : SlotNo) : Prop :=
  (s.pins.rstnLow = false ∧ s.cmd.mode = .run ∧ s.servedLine = some l) ∧
    (byteAt content 0 = 0xA1 ∧ byteAt content 1 = s.cmd.station ∧ headerFault content = none) ∧
    s.findSource (parseSegment l content).source = some k ∧ (s.source k).state = .enabled ∧
    (parseSegment l content).index.val < (s.source k).maxSegs

theorem admits {s : State} {l : LineNo} {content : List Byte} {k : SlotNo} (h : Reaches s l content k)
    (hf : (s.line l).buffers.head? = some content) :
    Serves s l content ∧ Passes s content l (parseSegment l content) ∧ Admitted s k (parseSegment l content) :=
  ⟨serves h.1 hf, passes h.2.1, ⟨h.2.2.1, h.2.2.2.1, h.2.2.2.2⟩⟩

/-- Whether the port is HELD on a record. -/
def portIs (p : Port) (n : CtxNo) : Bool :=
  match p with
  | .none => false
  | .held m _ => m == n
  | .lost => false

theorem portIs_iff (p : Port) (n : CtxNo) : portIs p n = true ↔ ∃ w, p = .held n w := by
  cases p <;> simp [portIs]

/-- The collections agree with the records, as a check. -/
abbrev CollectionsOk (s : State) : Prop :=
  s.ageList.Nodup ∧ (∀ n, n ∈ s.ageList ↔ (s.ctx n).state = .collecting) ∧ s.checker.queue.Nodup ∧
    (∀ n, n ∈ s.checker.queue ↔ (s.ctx n).state = .verifying) ∧ s.delivery.Nodup ∧
    (∀ n, n ∈ s.delivery ↔ (s.ctx n).state = .ready) ∧
    (∀ n, portIs s.readout.port n = true ↔ (s.ctx n).state = .delivering) ∧
    (s.checker.engine ≠ .idle → s.checker.queue ≠ []) ∧ ∀ n, (s.ctx n).state = .free → s.ctx n = Ctx.cleared

theorem collectionsInv {s : State} (h : CollectionsOk s) : CollectionsInv s :=
  ⟨h.1, h.2.1, h.2.2.1, h.2.2.2.1, h.2.2.2.2.1, h.2.2.2.2.2.1,
    fun n => (portIs_iff _ n).symm.trans (h.2.2.2.2.2.2.1 n), h.2.2.2.2.2.2.2.1, h.2.2.2.2.2.2.2.2⟩

/-- Which commands in flight stop the engine. -/
def stopsEngine (c : CmdState) : Bool :=
  match c with
  | .busy (.ctxAbort _ _) => true
  | .busy (.srcRemove _ _) => true
  | .busy (.flush _) => true
  | .busy .stop => false
  | .busy (.lineOff _) => false
  | .idle => false

def engineStops (e : EngineState) : Bool :=
  match e with
  | .stopPending _ _ => true
  | .checking _ _ => false
  | .idle => false

theorem stopsEngine_iff (c : CmdState) : stopsEngine c = true ↔
    (∃ n notify, c = .busy (.ctxAbort n notify)) ∨ (∃ a f, c = .busy (.srcRemove a f)) ∨ ∃ f, c = .busy (.flush f) := by
  rcases c with _ | w
  · simp [stopsEngine]
  · cases w <;> simp [stopsEngine]

theorem engineStops_iff (e : EngineState) : engineStops e = true ↔ ∃ crc w, e = .stopPending crc w := by
  cases e <;> simp [engineStops]

/-- The mode agrees with the command in flight, the engine, the transmitters, the buffers and the decisions owed, as a check. -/
abbrev ModeOk (s : State) : Prop :=
  (s.cmd.mode ≠ .run → ∀ l, (s.line l).buffers = []) ∧
    (s.cmd.mode ≠ .run → ∀ n : CtxNo, s.timer.owed[n] = false) ∧ (s.cmd.mode = .stopping ↔ s.cmd.state = .busy .stop) ∧
    (s.cmd.mode = .config → s.checker.engine = .idle) ∧ (s.cmd.mode = .config → ∀ l, (s.line l).tx = .idle) ∧
    engineStops s.checker.engine = stopsEngine s.cmd.state

theorem modeInv {s : State} (h : ModeOk s) : ModeInv s :=
  ⟨h.1, h.2.1, h.2.2.1, h.2.2.2.1, h.2.2.2.2.1, by rw [← engineStops_iff, ← stopsEngine_iff, h.2.2.2.2.2]⟩

/-- The cells of all chains between two runs of free cells. -/
theorem poolInv {s : State} (lower chains upper : List Nat) (hc : s.allChains = chains) (hf : s.pool.freeList = lower ++ upper)
    (hr : lower ++ chains ++ upper = List.range Config.poolCells) (hz : ∀ n, (s.ctx n).state = .free → (s.ctx n).chain = []) :
    PoolInv s :=
  ⟨by
    rw [hc, hf, ← hr, List.append_assoc, List.append_assoc]
    exact List.perm_append_comm.append_left lower, hz⟩

/-! ## Well-formedness -/

theorem test_command_word_is_no_bad_command : (Instr.badCommand 0x0020).wf = false := by decide +kernel

theorem test_word_with_high_bits_is_a_bad_command : (Instr.badCommand 0x0120).wf = true := by decide +kernel

theorem test_writable_register_is_no_ignored_write : (Instr.ignoredWrite 0x00 5).wf = false := by decide +kernel

theorem test_unassigned_register_is_an_ignored_write : (Instr.ignoredWrite 0x27 5).wf = true := by decide +kernel

/-- No row of the table has bits. -/
theorem test_no_word_spells_a_command (nbits w : Nat) (s : State) :
    decodeTableWord nbits w = none ∧ s.withFetchWord nbits w = s := ⟨rfl, rfl⟩

/-! ## The spec's examples -/

/-- 07 R121, 05 R90. -/
theorem test_check_values : frameCheck nine = 0x29B1 ∧ messageCheck nine = 0xCBF43926 := by decide +kernel

/-- 11 11.1: the segment given as an example. -/
theorem test_segment_of_the_layout_chapter :
    let content := withFrameCheck
      [0xA1, 0x20, 0x22, 0x11, 0x55, 0x01, 0x04, 0x26, 0x39, 0xF4, 0xCB, 0x36, 0x37, 0x38, 0x39]
    content.length = 17 ∧ headerFault content = none ∧
      parseSegment 2 content = ⟨2, 0x22, 0x155, true, false, 1, 4, 0xCBF43926, nine.drop 5⟩ := by decide +kernel

/-- 07 7.8: the smallest segment, with payload 0xD5, takes 13 line bytes. -/
theorem test_smallest_frame_on_the_line :
    (frameOnLine (seg 0 1)).length = 13 ∧ rxRun .hunt [] (frameOnLine (seg 0 1)) = .good (seg 0 1) := by decide +kernel

/-- 05 5.8: the walk reads cell 41 before cell 40, and the second completion is a match. -/
theorem test_check_against_chain_order :
    (after .cellCompletion checking).checker.engine = lastCell.checker.engine ∧
      ((after .cellCompletion lastCell).ctx 0).state = .ready ∧
      ((after .cellCompletion lastCell).line 0).queue = [receipt] ∧
      ((after .cellCompletion lastCell).source 0).history = [⟨0x155, 3⟩] := by decide +kernel

/-- 09 9.5: QUERY_CTX of that record, views 0, 1 and 3, and index 1 of view 4. -/
theorem test_query_words :
    (nineRec .verifying).viewWords 0 0 = #v[0x0002, 0x0022, 0x0155, 0x8001, 2, 9] ∧
      (nineRec .verifying).viewWords 1 0 = #v[0x3926, 0xCBF4, 40, 41, 2, 0x0050] ∧
      (nineRec .verifying).viewWords 3 0 = #v[3, 0, 0, 0, 0, 0] ∧
      (nineRec .verifying).viewWords 4 1 = #v[1, 4, 40, 1, 2, 0] := by decide +kernel

/-- 08 R142: the nine bytes come as five words, the last with one byte. -/
theorem test_data_reads :
    held.dataWord = 0x3231 ∧ (after .data held).dataWord = 0x3433 ∧ (after .data held).readout.remaining = 7 := by
  decide +kernel

/-- 03 3.7: a segment of index 0 is stored into the COLLECTING record under its own class. -/
theorem test_segment_is_stored :
    ((after .admissionEvent (arrived (seg 0 32) collecting)).ctx 0).chain = [0, 1, 2] ∧
      ((after .admissionEvent (arrived (seg 0 32) collecting)).line 0).buffers = [] := by decide +kernel

/-- 09 R158, R159: a frame's end lets STOP complete. -/
theorem test_stop_completes_at_frame_end :
    (after .stop sending).cmd.mode = .stopping ∧ (after (.frameEnd 0) (after .stop sending)).cmd.mode = .config := by
  decide +kernel

/-! ## States that meet the statements' hypotheses: queue, reset, ticks -/

theorem witness_StepRunsTheFrontCommand :
    ({ running with pending := [.tick, .data] }).pending = .tick :: [.data] ∧ running.pending = [] := by decide +kernel

/-- A well-formed and an ill-formed command; then the condition of each event not holding. -/
theorem witness_CommandsCompleteWithoutTheQueue :
    ((Instr.tick.wf = true ∧ exec .tick running = .next (after .tick running)) ∧ (Instr.ignoredWrite 0x28 0).wf = false) ∧
      ((∀ l, (running.line l).buffers = []) ∧ running.checker.queue = [] ∧ running.checker.engine = .idle ∧
        running.cmd.mode ≠ .stopping ∧ running.timer.owed[(31 : CtxNo)] = false ∧ (running.line 0).queue = [] ∧
        (running.line 0).tx ≠ .sending ∧ (running.line 0).tx ≠ .aborting ∧ (running.line 3).state ≠ .on) :=
  ⟨⟨⟨rfl, rfl⟩, by decide +kernel⟩, by decide +kernel⟩

theorem witness_ResetValuesAndHold :
    let s := after .hardwareReset running
    s.pins.rstnLow = true ∧ exec .msgHead0 s = .next (after .msgHead0 s) := ⟨rfl, rfl⟩

/-- A decision owed to record 0, with the given elapsed counts and retries used. -/
def owed (idle lifetime retries : Nat) : State :=
  { place 0 { partRec with idle := idle, lifetime := lifetime, retries := retries } running with
    timer := { running.timer with owed := running.timer.owed.set 0 true } }

/-- STOP taken between the tick that left record 0 due and its decision, then START. -/
def deferred (idle lifetime retries : Nat) : State := after .start (after .stop (owed idle lifetime retries))

/-- Nothing to be decided; record 0 to be decided; record 0 deferred; outside RUN. -/
theorem witness_TickAdvancesCollectingRecords :
    (collecting.pins.rstnLow = false ∧ collecting.cmd.mode = .run ∧ (collecting.ctx 0).state = .collecting ∧
        ∀ n : CtxNo, collecting.timer.owed[n] = false) ∧
      ((owed 200 200 3).cmd.mode = .run ∧ (owed 200 200 3).timer.owed[(0 : CtxNo)] = true ∧
        ∀ m : CtxNo, m < 0 → (owed 200 200 3).timer.owed[m] = false) ∧
      ((deferred 200 200 3).cmd.mode = .run ∧ (∀ n : CtxNo, (deferred 200 200 3).timer.owed[n] = false) ∧
        (deferred 200 200 3).timer.deferred[(0 : CtxNo)] = true ∧ ((deferred 200 200 3).ctx 0).lifetime ≠ 0) ∧
      State.reset.pins.rstnLow = false ∧ State.reset.cmd.mode ≠ .run := by decide +kernel

/-- 04 R74: a decision not yet taken comes before the next tick. -/
theorem test_decision_comes_before_next_tick :
    ((after .tick (owed 200 200 3)).ctx 0).state = .free ∧ ((after .tick (owed 200 200 0)).ctx 0).idle = 1 ∧
      ((after .tick (owed 200 200 0)).ctx 0).retries = 1 := by decide +kernel

/-- 04 R75, 09 R158: the decision deferred over STOP is taken after the first tick of the next RUN, even where SET_TIMING has made
its record not due at that tick and due again behind it; before that tick it is not taken. -/
theorem test_deferred_decision_follows_first_tick :
    let timed (gap : Word) (s : State) : State := after .setTiming (withArgs 0 gap 3 50 s)
    let s := timed 500 (deferred 200 200 3)
    let t := timed 200 (after .tick s)
    (after (.expiryDecision 0) s).ctx 0 = s.ctx 0 ∧ (t.ctx 0).idle = 201 ∧ ((after (.expiryDecision 0) t).ctx 0).state = .free := by
  decide +kernel

/-- 04 R76: a record opened since the STOP is no deferred record. -/
theorem test_reopened_record_is_not_deferred :
    let s := (deferred 200 200 3).setCtx 0 partRec
    (after .tick s).timer.owed[(0 : CtxNo)] = false := by decide +kernel

/-- 11 R182: 0x0020 is START, 0x0120 names no command. -/
theorem test_cmd_words : rowOfWrite 0x00 0x0020 = .start ∧ rowOfWrite 0x00 0x0120 = .badCommand 0x0120 ∧
    rowOfWrite 0x07 0x0120 = .cmdArg 5 0x0120 ∧ rowOfWrite 0x27 1 = .ignoredWrite 0x27 1 := by decide +kernel

/-- 02 R34: the payload bytes stay over a reset. -/
theorem test_reset_keeps_payload_bytes :
    (after .hardwareReset verifying).pool.mem = verifying.pool.mem ∧ (after .hardwareReset verifying).pool.freeList.length = 1024 := by
  decide +kernel

/-- The record gone; lifetime reached; gap with a retry left; no retry left; not due any more. -/
theorem witness_ExpiryDecisionDecides :
    let met (s : State) : Prop := s.pins.rstnLow = false ∧ s.cmd.mode = .run ∧ s.timer.owed[0] = true
    let gone : State := { owed 0 0 0 with ctxs := running.ctxs }
    (met gone ∧ (gone.ctx 0).state ≠ .collecting) ∧
      (met (owed 0 5000 0) ∧ ((owed 0 5000 0).timer.settings .ordinary).lifetime * 100 ≤ ((owed 0 5000 0).ctx 0).lifetime) ∧
      (met (owed 200 4999 2) ∧ ((owed 200 4999 2).timer.settings .ordinary).gap ≤ ((owed 200 4999 2).ctx 0).idle ∧
        ((owed 200 4999 2).ctx 0).lifetime < ((owed 200 4999 2).timer.settings .ordinary).lifetime * 100 ∧
        ((owed 200 4999 2).ctx 0).retries < ((owed 200 4999 2).timer.settings .ordinary).retryLimit) ∧
      (met (owed 200 4999 3) ∧
        ((owed 200 4999 3).timer.settings .ordinary).retryLimit ≤ ((owed 200 4999 3).ctx 0).retries) ∧
      met (owed 199 4999 0) ∧ ((owed 199 4999 0).ctx 0).idle < ((owed 199 4999 0).timer.settings .ordinary).gap := by
  decide +kernel

theorem witness_ControlFramesBuilt :
    (nineRec .collecting).lastIndex = some 1 ∧ partRec.lastIndex = none ∧ (partRec.slots[(1 : SegIndex)]).isSome ∧
      ∀ i : SegIndex, 1 < i → partRec.slots[i] = none := by decide +kernel

/-! ## Receivers and transmitters -/

/-- Content counts at the table's edges: 0, 1, 9, 10, 140, 141. -/
theorem witness_ReceiverTable :
    ([] : List Byte).length = 0 ∧ (1 ≤ (List.replicate 1 (0 : Byte)).length ∧ (List.replicate 9 (0 : Byte)).length ≤ 9) ∧
      10 ≤ (List.replicate 10 (0 : Byte)).length ∧ (List.replicate 140 (0 : Byte)).length < 141 ∧
      141 ≤ (List.replicate 141 (0 : Byte)).length ∧ (0x54 : Byte) ≠ 0xD5 ∧ (0x54 : Byte) ≠ 0xD6 ∧ (0x54 : Byte) ≠ 0x55 ∧
      (0x54 : Byte) ≠ 0x56 := by decide +kernel

theorem witness_BytesMoveOnlyTheirReceiver :
    (running.pins.rstnLow = false ∧ (running.line 0).state = .on ∧ (running.line 0).awaitMark = false ∧
        rxByte (running.line 0).rx (running.line 0).assembly 0xD5 true = .stay .frame []) ∧
      (running.line 1).state ≠ .on ∧ (withLine (fun u => { u with awaitMark := true }) running |>.line 0).awaitMark = true := by
  decide +kernel

/-- L0 in FRAME with an assembly and a bad count. -/
def receiving (assembly : List Byte) (bad : Nat) : State :=
  withLine (fun u => { u with rx := .frame, assembly := assembly, badCount := bad }) running

/-- An aborted frame; a bad one at the top of the counter; a bad one that reaches the threshold. -/
theorem witness_BadFrameCountedAndFaults :
    let met (s : State) (b : Byte) (r : LineReason) : Prop :=
      s.pins.rstnLow = false ∧ (s.line 0).state = .on ∧ (s.line 0).awaitMark = false ∧
        rxByte (s.line 0).rx (s.line 0).assembly b true = .drop r
    met (withLine (fun u => { u with rx := .escape }) running) 0xD5 .aborted ∧
      (met (receiving [1] 15) 0xD5 .runt ∧ min 15 (15 + 1) ≠ ((receiving [1] 15).line 0).threshold) ∧
      met (receiving (List.replicate 141 0) 7) 0x00 .overlength ∧ ((receiving [] 7).line 0).threshold = min 15 (7 + 1) := by
  decide +kernel

/-- A good frame in RUN with a buffer empty, with none empty, and outside RUN. -/
theorem witness_GoodFramePlacedOrLost :
    let s := receiving (seg 0 1) 0
    let full := withLine (fun u => { u with buffers := [[], []] }) s
    (s.pins.rstnLow = false ∧ (s.line 0).state = .on ∧ (s.line 0).awaitMark = false ∧
        rxByte (s.line 0).rx (s.line 0).assembly 0xD5 true = .good (seg 0 1)) ∧
      (s.cmd.mode = .run ∧ (s.line 0).buffers.length < 2) ∧
      (full.cmd.mode = .run ∧ rxByte (full.line 0).rx (full.line 0).assembly 0xD5 true = .good (seg 0 1) ∧
        2 ≤ (full.line 0).buffers.length) ∧
      (inMode .config s).cmd.mode ≠ .run := by decide +kernel

theorem witness_CheckWordsComputed : 2 ≤ (withFrameCheck []).length ∧ passesFrameCheck (withFrameCheck []) = true := by
  decide +kernel

theorem witness_ReceiverReadsWhatFramingSends :
    8 ≤ (List.replicate 8 (0xD5 : Byte)).length ∧ (List.replicate 139 (0xD6 : Byte)).length ≤ 139 := by decide +kernel

theorem witness_TransmittersSendAndAbort :
    let waiting := withLine (fun u => { u with queue := [receipt] }) running
    let closing := inFlight (.lineOff 0) (withLine (fun u => { u with state := .closing }) aborting)
    (waiting.pins.rstnLow = false ∧ (waiting.line 0).queue = receipt :: [] ∧ (waiting.line 0).tx = .idle ∧
        (waiting.line 0).state = .on ∧ waiting.cmd.mode = .run) ∧
      ((running.line 0).queue = [] ∧ (sending.line 0).tx ≠ .idle ∧ (running.line 1).state ≠ .on ∧
        (inMode .config waiting).cmd.mode ≠ .run) ∧
      ((sending.line 0).tx = .sending ∧ (sending.line 0).wire ≠ [] ∧
        (inFlight .stop (inMode .stopping sending)).cmd.mode = .stopping) ∧
      ((closing.line 0).tx = .aborting ∧ (closing.line 0).state = .closing ∧ closing.cmd.state = .busy (.lineOff 0)) ∧
      ((aborting.line 0).tx = .aborting ∧ (aborting.line 0).state = .on) ∧
      ((withLine (fun u => { u with state := .faulted }) aborting).line 0).state = .faulted := by decide +kernel

/-- 06 R112, R115: the end of an abort sequence in STOPPING completes STOP. -/
theorem test_abort_end_in_stopping :
    (after (.abortEnd 0) (inFlight .stop (inMode .stopping aborting))).cmd.mode = .config := by decide +kernel

/-- The four ways a line is chosen, then the four ways a frame is placed. -/
theorem witness_HandOverPlacesTheFrame :
    let queued (q : List CtrlFrame) : State := withLine (fun u => { u with queue := q }) running
    let two := running.setLine 1 { LineUnit.reset with state := .on }
    ((running.line 0).state = .on ∧
      ((two.line 2).state ≠ .on ∧ (0b0010 : LineMask).getLsbD 1 = true ∧ (two.line 1).state = .on ∧
        (∀ m : LineNo, m < 1 → (0b0010 : LineMask).getLsbD m.val = true → (two.line m).state ≠ .on)) ∧
      ((∀ m : LineNo, (0b1000 : LineMask).getLsbD m.val = true → (two.line m).state ≠ .on) ∧ (two.line 0).state = .on) ∧
      ∀ l, (State.reset.line l).state ≠ .on) ∧
      State.reset.txLine 0 0 = none ∧ (queued [receipt, gap]).txLine 0 0 = some 0 ∧
      (([receipt, gap] : List CtrlFrame)[1]? = some gap ∧ gap.isGapFor 0x22 0x155 = true ∧ receipt.isGapFor 0x22 0x155 = false) ∧
      receipt ∈ ((queued [receipt]).line 0).queue.drop 0 ∧ receipt ∉ (sending.line 0).queue.drop 1 ∧
      ((queued (List.replicate 7 gap)).line 0).queue.length < 8 ∧ 8 ≤ ((queued (List.replicate 8 gap)).line 0).queue.length := by
  decide +kernel

/-! ## Events -/

def overrun : EventRec := ⟨.rxOverrun, some 0, none, none, none, 0⟩

/-- The event queue with n records. -/
def withEvents (n : Nat) (s : State) : State := { s with ev := { s.ev with queue := List.replicate n overrun } }

/-- A masked kind; one that is not, on a queue of 63 and of 64. -/
theorem witness_EventsPostedAndIrqn :
    running.ev.mask0.getLsbD (EventKind.ctxOpened.code - 1) = true ∧ running.ev.mask0.getLsbD (EventKind.rxOverrun.code - 1) = false ∧
      (withEvents 63 running).ev.queue.length < 64 ∧ 64 ≤ (withEvents 64 running).ev.queue.length := by decide +kernel

/-! ## Admission -/

/-- The next line after the pointer; the pointer's own; none; outside RUN. -/
theorem witness_ArbiterRotates :
    let s := arrived (seg 0 1) running
    let own : State := { s with rotation := 0 }
    (s.pins.rstnLow = false ∧ s.cmd.mode = .run ∧ (s.line (s.rotation + Fin.ofNat 4 1)).buffers ≠ []) ∧
      ((own.line (own.rotation + Fin.ofNat 4 4)).buffers ≠ [] ∧
        ∀ e : Fin 4, 1 ≤ e.val → e.val < 4 → (own.line (own.rotation + Fin.ofNat 4 e.val)).buffers = []) ∧
      (∀ l, (running.line l).buffers = []) ∧ (inMode .config s).cmd.mode ≠ .run := by decide +kernel

theorem witness_AdmissionDropsUnfitFrames :
    Serves (arrived (frameOf 0x21 1 0 0 1 [] [1]) running) 0 (frameOf 0x21 1 0 0 1 [] [1]) ∧
    let content (src hi index length : Byte) : List Byte := frameOf 0x20 src hi index length [] [1]
    let b (c : List Byte) (k : Nat) : Nat := (byteAt c k).toNat
    b (0xB3 :: (content 1 0 0 1).tail) 0 ≠ 0xA1 ∧ byteAt (frameOf 0x21 1 0 0 1 [] [1]) 1 ≠ running.cmd.station ∧
      (b (content 0 0 0 1) 2 = 0 ∧ b (content 255 0 0 1) 2 = 255) ∧ (b (content 1 0x40 0 1) 2 = 1 ∧ 64 ≤ b (content 1 0x40 0 1) 3) ∧
      (b (content 254 0x3F 0x40 1) 3 < 64 ∧ 64 ≤ b (content 254 0x3F 0x40 1) 5) ∧
      (b (content 254 0 0x3F 0) 5 < 64 ∧ b (content 254 0 0x3F 0) 6 = 0 ∧ 128 < b (content 254 0 0x3F 129) 6) ∧
      (1 ≤ b (content 1 0 0 128) 6 ∧ (content 1 0 0 128).length ≠ 7 + b (content 1 0 0 128) 6 + 2) ∧
      (headerFault (content 254 0x2F 0x3F 1) = none ∧
        let whole := frameOf 0x20 1 0x3F 0x3F 128 [0x26, 0x39, 0xF4, 0xCB] (List.replicate 128 0xD5)
        headerFault whole = none ∧ b whole 3 / 16 % 2 = 1 ∧ (parseSegment 0 whole).checkWord = 0xCBF43926) :=
  ⟨serves (by decide +kernel) rfl, by decide +kernel⟩

theorem witness_SourceCheckedAtAdmission :
    let s := arrived (seg 63 1) running
    let p := parseSegment 0 (seg 63 1)
    let entry (e : SourceEntry) : State := s.setSource 0 e
    let none' : State := { s with sources := State.reset.sources }
    let learns (t : State) : State := { t with cmd := { t.cmd with learn := true } }
    let full : State := learns { s with sources := Vector.replicate 64 ⟨.enabled, 0x23, 1, 1, false, 0, []⟩ }
    (Serves s 0 (seg 63 1) ∧ Passes s (seg 63 1) 0 p) ∧ (none'.findSource p.source = none ∧ none'.cmd.learn = false) ∧
      (full.findSource p.source = none ∧ full.cmd.learn = true ∧ ∀ k, (full.source k).state ≠ .unused) ∧
      ((entry ⟨.removing, 0x22, 64, 8, true, 1, []⟩).findSource p.source = some 0 ∧
        (entry ⟨.suspended, 0x22, 64, 8, true, 1, []⟩).findSource p.source = some 0) ∧
      ((∀ k, ((entry ⟨.suspended, 0x22, 64, 8, true, 1, []⟩).source k).state ≠ .enabled) ∧
        (entry ⟨.suspended, 0x22, 64, 8, true, 1, []⟩).cmd.learn = false) ∧
      ((entry ⟨.enabled, 0x22, 63, 8, true, 1, []⟩).findSource p.source = some 0 ∧ 63 ≤ p.index.val) ∧
      ((learns none').findSource p.source = none ∧ ((learns none').source 0).state = .unused) :=
  ⟨⟨serves (by decide +kernel) rfl, passes (by decide +kernel)⟩, by decide +kernel⟩

/-- A frame on L0 that reaches key resolution. -/
abbrev Arrives (s : State) (content : List Byte) (k : SlotNo) : Prop :=
  Serves s 0 content ∧ Passes s content 0 (parseSegment 0 content) ∧ Admitted s k (parseSegment 0 content)

/-- An open of one segment, and of a whole message. -/
theorem witness_OpenStoresTheFirstSegment :
    Arrives (arrived (seg 0 128) running) (seg 0 128) 0 ∧ Arrives (arrived (flagged 0x10 0 1) running) (flagged 0x10 0 1) 0 ∧
      running.lookupKey 0x22 0x155 = none ∧ (running.source 0).findHistory 0x155 = none ∧
      (running.source 0).openCount < (running.source 0).openLimit ∧ running.lowestFree = some 0 ∧ 0 ∉ running.ageList ∧
      (128 + 31) / 32 + running.pool.reserve ≤ running.pool.freeList.length :=
  ⟨admits (by decide +kernel) rfl, admits (by decide +kernel) rfl, by decide +kernel⟩

/-- Record n of message n, one cell; urgent below n0. -/
def fullRec (n0 n : Nat) : Ctx :=
  { partRec with
    msgno := BitVec.ofNat 12 n, cls := if n < n0 then .urgent else .ordinary, chain := [n], byteCount := 1
    slots := (Vector.replicate 64 none).set 1 (some ⟨1, n, 1, 0⟩) }

/-- Every record COLLECTING for another key, the first n0 of them urgent. -/
def fullTable (n0 : Nat) (free : List Nat) : State :=
  { running with
    ctxs := ⟨⟨(List.range 32).map (fullRec n0)⟩, by simp⟩
    ageList := List.finRange 32
    pool := { running.pool with freeList := free } }

/-- Open limit; no record; no cells for either class; a candidate with too few cells; a starved store of either class. -/
theorem witness_RequestsThatFail :
    let limit := arrived (seg 0 1) (running.setSource 0 ⟨.enabled, 0x22, 64, 1, true, 1, []⟩)
    let short (s : State) : State := { s with pool := { s.pool with freeList := [] } }
    let urgentRec : State := place 0 { partRec with cls := .urgent } running
    (Arrives limit (seg 0 1) 0 ∧ (limit.source 0).openLimit ≤ (limit.source 0).openCount) ∧
      (Arrives (arrived (flagged 0x20 0 33) (fullTable 32 [])) (flagged 0x20 0 33) 0 ∧ (∀ n, ((fullTable 32 []).ctx n).state ≠ .free) ∧
        (fullTable 32 []).lookupKey 0x22 0x155 = none ∧ ∀ n ∈ (fullTable 32 []).ageList, ((fullTable 32 []).ctx n).cls = .urgent) ∧
      ((short running).lowestFree = some 0 ∧ (short running).pool.freeList.length < 1) ∧
      ((fullTable 31 []).ageList = List.finRange 32 ∧ ((fullTable 31 []).ctx 31).cls = .ordinary ∧
        0 + ((fullTable 31 []).ctx 31).chain.length < (33 + 31) / 32) ∧
      (Arrives (arrived (seg 0 1) (short collecting)) (seg 0 1) 0 ∧ (short collecting).lookupKey 0x22 0x155 = some 0 ∧
        ((short collecting).ctx 0).state = .collecting ∧ ((short collecting).ctx 0).slots[(0 : SegIndex)] = none) ∧
      ((short urgentRec).lookupKey 0x22 0x155 = some 0 ∧ ((short urgentRec).ctx 0).cls = .urgent) :=
  ⟨⟨admits (by decide +kernel) rfl, by decide +kernel⟩, ⟨admits (by decide +kernel) rfl, by decide +kernel⟩, by decide +kernel,
    by decide +kernel, ⟨admits (by decide +kernel) rfl, by decide +kernel⟩, by decide +kernel⟩

/-- A record with no known last index, nothing above the segment. -/
theorem lastTests (r : Ctx) (p : Segment) (hl : r.lastIndex = none) (hp : p.last = false) : r.lastTestsPass p :=
  ⟨fun last h => absurd (hl.symm.trans h) (by simp), fun _ h => absurd (hp.symm.trans h) (by simp)⟩

/-- A store that leaves the message short, and one that makes it whole. -/
theorem witness_SegmentStored :
    let known : Ctx := { partRec with lastIndex := some 1, checkWord := some 0 }
    (Arrives (arrived (seg 0 128) collecting) (seg 0 128) 0 ∧ collecting.lookupKey 0x22 0x155 = some 0 ∧
        (collecting.ctx 0).lastTestsPass (parseSegment 0 (seg 0 128)) ∧ (collecting.ctx 0).slots[(0 : SegIndex)] = none ∧
        (128 + 31) / 32 + collecting.pool.reserve ≤ collecting.pool.freeList.length) ∧
      (known.lastTestsPass (parseSegment 0 (seg 0 128)) ∧ known.lastIndex = some 1 ∧ known.presentCount = 1) := by
  refine ⟨⟨admits (by decide +kernel) rfl, by decide +kernel, lastTests _ _ (by decide +kernel) (by decide +kernel), by decide +kernel⟩,
    ⟨fun last h => ?_, fun h => nomatch h⟩, rfl, rfl⟩
  cases h
  decide +kernel

/-- LAST where another end is known; beyond the end; LAST below a stored index; a stored index of another and of the same length. -/
theorem witness_ConflictsAndDuplicates :
    let known : Ctx := { partRec with lastIndex := some 1, checkWord := some 0 }
    let p (flags index : Byte) (length : Nat) : Segment := parseSegment 0 (flagged flags index length)
    (Arrives (arrived (flagged 0x10 0 40) collecting) (flagged 0x10 0 40) 0 ∧ collecting.lookupKey 0x22 0x155 = some 0 ∧
        (collecting.ctx 0).state = .collecting) ∧
      ((p 0x10 2 40).last = true ∧ (p 0x10 2 40).index ≠ 1) ∧ (known.lastIndex = some 1 ∧ (1 : SegIndex) ≤ (p 0 1 40).index) ∧
      (partRec.lastIndex = none ∧ (p 0x10 0 40).index < 1 ∧ (partRec.slots[(1 : SegIndex)]).isSome) ∧
      (partRec.lastTestsPass (p 0 1 39) ∧ partRec.slots[(p 0 1 39).index] = some ⟨40, 0, 2, 0⟩ ∧ 40 ≠ (p 0 1 39).length) ∧
      (40 = (p 0x10 1 40).length ∧ partRec.presentCount ≠ (p 0x10 1 40).index.val + 1 ∧
        (nineRec .collecting).presentCount = (p 0x10 1 4).index.val + 1) :=
  ⟨⟨admits (by decide +kernel) rfl, by decide +kernel⟩, by decide +kernel, by decide +kernel, by decide +kernel,
    ⟨lastTests _ _ (by decide +kernel) (by decide +kernel), by decide +kernel⟩, by decide +kernel⟩

/-- An urgent record with no cells free and one ordinary record of two cells. -/
theorem witness_UrgentStoreEvictsForCells :
    let urgentRec : Ctx := { partRec with cls := .urgent }
    let short (s : State) : State := { s with pool := { s.pool with freeList := [] } }
    let s := arrived (seg 0 64) (short (place 1 { partRec with msgno := 7, chain := [2, 3] } (place 0 urgentRec running)))
    CollectionsInv s ∧ Arrives s (seg 0 64) 0 ∧ s.lookupKey 0x22 0x155 = some 0 ∧ (s.ctx 0).state = .collecting ∧
      (s.ctx 0).cls = .urgent ∧ (s.ctx 0).lastTestsPass (parseSegment 0 (seg 0 64)) ∧
      s.pool.freeList.length < (64 + 31) / 32 ∧
      (64 + 31) / 32 = s.pool.freeList.length + s.cellsOf (s.ordinaryOf s.ageList) ∧
      (after .admissionEvent s).ctx 1 = Ctx.cleared :=
  ⟨collectionsInv (by decide +kernel), admits (by decide +kernel) rfl, by decide +kernel, by decide +kernel, by decide +kernel,
    lastTests _ _ (by decide +kernel) (by decide +kernel), by decide +kernel⟩

/-- An open that finds a FREE record and must evict for cells; one with every record in use and a candidate that has the cells; and
one whose candidate has not (12 12.7). -/
theorem witness_UrgentOpenEvicts :
    let short : State := { collecting with pool := { collecting.pool with freeList := [] } }
    let s := arrived (flagged 0x20 0 33) (short.setCtx 0 { short.ctx 0 with msgno := 7 })
    let one := arrived (flagged 0x20 0 32) (fullTable 31 [])
    let two := arrived (flagged 0x20 0 33) (fullTable 30 [])
    let v (s : State) (before behind : List CtxNo) (c : CtxNo) : Prop :=
      (∀ n, (s.ctx n).state ≠ .free) ∧ s.ageList = before ++ c :: behind ∧ (∀ n ∈ before, (s.ctx n).cls = .urgent) ∧
        (s.ctx c).cls = .ordinary
    (CollectionsInv s ∧ Arrives s (flagged 0x20 0 33) 0 ∧ s.lookupKey 0x22 0x155 = none ∧ s.lowestFree = some 1 ∧
        (33 + 31) / 32 = s.pool.freeList.length + s.cellsOf (s.ordinaryOf s.ageList)) ∧
      (CollectionsInv one ∧ Arrives one (flagged 0x20 0 32) 0 ∧ one.lookupKey 0x22 0x155 = none ∧
        (one.source 0).openCount < (one.source 0).openLimit ∧ v one ((List.finRange 32).take 31) [] 31 ∧
        (32 + 31) / 32 = one.pool.freeList.length + (one.ctx 31).chain.length) ∧
      (CollectionsInv two ∧ Arrives two (flagged 0x20 0 33) 0 ∧ v two ((List.finRange 32).take 30) [31] 30 ∧
        (33 + 31) / 32 = two.pool.freeList.length + (two.ctx 30).chain.length + two.cellsOf (two.ordinaryOf [31]) ∧
        (after .admissionEvent two).ctx 31 = Ctx.cleared) :=
  ⟨⟨collectionsInv (by decide +kernel), admits (by decide +kernel) rfl, by decide +kernel⟩,
    ⟨collectionsInv (by decide +kernel), admits (by decide +kernel) rfl, by decide +kernel⟩,
    ⟨collectionsInv (by decide +kernel), admits (by decide +kernel) rfl, by decide +kernel⟩⟩

/-- A number in history with credit 3 and with credit 0; a record past COLLECTING. -/
theorem witness_HistoryAnswersAndLateCopies :
    let s (c : Nat) := arrived (seg 0 1) (running.setSource 0 ⟨.enabled, 0x22, 64, 8, true, 0, [⟨0x155, c⟩]⟩)
    let late := arrived (seg 0 1) verifying
    (Arrives (s 3) (seg 0 1) 0 ∧ (s 3).lookupKey 0x22 0x155 = none ∧ ((s 3).source 0).findHistory 0x155 = some ⟨0x155, 3⟩) ∧
      ((s 0).source 0).findHistory 0x155 = some ⟨0x155, 0⟩ ∧
      (Arrives late (seg 0 1) 0 ∧ late.lookupKey 0x22 0x155 = some 0 ∧ (late.ctx 0).state ≠ .collecting ∧
        (late.source 0).findHistory 0x155 = none) :=
  ⟨⟨admits (by decide +kernel) rfl, by decide +kernel⟩, by decide +kernel, admits (by decide +kernel) rfl, by decide +kernel⟩

/-! ## Freeing and payload -/

theorem collecting_pool : PoolInv collecting :=
  poolInv [] [0, 1] (List.range' 2 1022) (by decide +kernel) (by decide +kernel) (by decide +kernel) (by decide +kernel)

theorem witness_FreeingReturnsTheRecord :
    collecting.findSource (collecting.ctx 0).source = some 0 ∧
      ({ collecting with sources := State.reset.sources }).findSource (collecting.ctx 0).source = none := by decide +kernel

theorem partRec_counts : CountsFollow partRec := ⟨by decide +kernel, by decide +kernel, by decide +kernel, by decide +kernel⟩

theorem nineRec_counts (st : CtxState) : CountsFollow (nineRec st) := ⟨rfl, rfl, rfl, by
  change ∀ sl ∈ (nineRec .free).presentSlots, _
  decide +kernel⟩

theorem cleared_counts : CountsFollow Ctx.cleared :=
  ⟨by decide +kernel, by decide +kernel, by decide +kernel, by decide +kernel⟩

theorem partRec_whole : WholeFollows partRec :=
  ⟨(fun _ h => nomatch h), by decide +kernel, by decide +kernel, by decide +kernel⟩

theorem nineRec_whole {st : CtxState} (h : st ≠ .collecting) : WholeFollows (nineRec st) :=
  ⟨by change ∀ last, (nineRec .free).lastIndex = some last → ∀ i : SegIndex, ((nineRec .free).slots[i]).isSome → i ≤ last
      decide +kernel,
    fun hs => absurd hs h,
    fun _ => ⟨1, rfl, by change ∀ i : SegIndex, i ≤ 1 → ((nineRec .free).slots[i]).isSome; decide +kernel⟩, rfl⟩

theorem cleared_whole : WholeFollows Ctx.cleared :=
  ⟨(fun _ h => nomatch h), by decide +kernel, by decide +kernel, by decide +kernel⟩

theorem partRec_chain : partRec.ChainFollows :=
  ⟨[(1, [0, 1])], by decide +kernel, by decide +kernel, by simpa using ⟨⟨40, 0, 2, 0⟩, by decide +kernel⟩, rfl⟩

theorem nineRec_chain (st : CtxState) : (nineRec st).ChainFollows :=
  ⟨[(1, [40]), (0, [41])], by decide +kernel,
    by change ∀ i, i ∈ ([1, 0] : List SegIndex) ↔ ((nineRec .free).slots[i]).isSome; decide +kernel,
    by simpa using ⟨⟨⟨4, 40, 1, 2⟩, by rfl, by decide +kernel⟩, ⟨5, 41, 1, 0⟩, by rfl, by decide +kernel⟩, rfl⟩

theorem cleared_chain : Ctx.cleared.ChainFollows :=
  ⟨[], by decide +kernel, by decide +kernel, by simp, rfl⟩

/-- A state whose only record in use is record 0. -/
theorem recordsInv {s : State} {r : Ctx} (hp : PoolInv s) (hc : CollectionsOk s)
    (hr : ∀ n, s.ctx n = if n = 0 then r else Ctx.cleared) (h : CountsFollow r ∧ WholeFollows r ∧ r.ChainFollows) : RecordsInv s := by
  refine ⟨hp, collectionsInv hc, fun n => ?_, fun n => ?_, fun n => ?_⟩ <;> rw [hr] <;> split
  · exact h.1
  · exact cleared_counts
  · exact h.2.1
  · exact cleared_whole
  · exact h.2.2
  · exact cleared_chain

/-- A segment admitted into a record that holds another: the state, the served frame, the new slot, and the old one. -/
theorem witness_StoredPayloadReadsBackAndStands :
    let s := arrived (seg 0 32) collecting
    let t := after .admissionEvent s
    Memory.wf s.pool.mem = true ∧ RecordsInv s ∧ Serves s 0 (seg 0 32) ∧ exec .admissionEvent s = .next t ∧ NewSlot s t 0 0 ∧
      (t.ctx 0).slots[(0 : SegIndex)] = some ⟨32, 2, 1, 0⟩ ∧ (t.ctx 0).slots[(1 : SegIndex)] = some ⟨40, 0, 2, 0⟩ ∧
      (s.ctx 0).slots[(1 : SegIndex)] = some ⟨40, 0, 2, 0⟩ ∧ 1 ∈ (s.ctx 0).chain ∧ 1 ∈ (t.ctx 0).chain ∧
      (t.ctx 0).msgno = (s.ctx 0).msgno :=
  ⟨by decide +kernel,
    recordsInv ⟨collecting_pool.cells, collecting_pool.freeHasNone⟩ (by decide +kernel) (r := partRec) (by decide +kernel)
      ⟨partRec_counts, partRec_whole, partRec_chain⟩,
    serves (by decide +kernel) rfl, rfl, by unfold NewSlot; decide +kernel, by decide +kernel⟩

/-! ## The check engine -/

theorem witness_CheckBeginsAndWalks :
    (verifying.pins.rstnLow = false ∧ verifying.checker.engine = .idle ∧ verifying.cmd.mode = .run ∧ verifying.checker.queue ≠ []) ∧
      (checking.checker.engine ≠ .idle ∧ (inMode .config verifying).cmd.mode ≠ .run ∧ running.checker.queue = []) ∧
      (checking.checker.queue = 0 :: [] ∧ checking.checker.engine = .checking 0xFFFFFFFF ⟨0, 1, 0⟩ ∧
        (checking.ctx 0).walkNext ⟨0, 1, 0⟩ = some ⟨1, 1, 0⟩) := by decide +kernel

theorem witness_WalksReadThePayload : (nineRec .verifying).walkable ∧ (nineRec .verifying).payload verifying.pool.mem = nine := by
  refine ⟨fun i hi => ?_, by decide +kernel⟩
  have hi : i = 0 ∨ i = 1 := by
    have : i.val ≤ 1 := hi
    rcases Nat.le_one_iff_eq_zero_or_eq_one.1 this with h | h
    · exact Or.inl (Fin.ext h)
    · exact Or.inr (Fin.ext h)
  rcases hi with rfl | rfl
  · exact ⟨⟨5, 41, 1, 0⟩, by decide +kernel⟩
  · exact ⟨⟨4, 40, 1, 2⟩, by decide +kernel⟩

/-- A match with a delivery queue of one urgent and one ordinary record; a mismatch. -/
theorem witness_CheckEnds :
    let met (s : State) : Prop := s.pins.rstnLow = false ∧ s.checker.queue = 0 :: []
    let result (s : State) : Word32 :=
      crc32Fold (crc32Fold crc32Ones (nine.take 5)) ((s.ctx 0).walkBytes s.pool.mem ⟨1, 1, 0⟩) ^^^ 0xFFFFFFFF
    let s := place 2 { partRec with state := .ready, msgno := 2 } (place 1 { partRec with state := .ready, cls := .urgent, msgno := 1 } lastCell)
    let bad := s.setCtx 0 { s.ctx 0 with checkWord := some 0 }
    (met s ∧ s.checker.engine = .checking (crc32Fold crc32Ones (nine.take 5)) ⟨1, 1, 0⟩ ∧ (s.ctx 0).walkNext ⟨1, 1, 0⟩ = none) ∧
      ((s.ctx 0).checkWord = some (result s) ∧ s.findSource (s.ctx 0).source = some 0 ∧ s.delivery = [1] ++ [2] ∧
        (s.ctx 1).cls = .urgent ∧ (s.ctx 2).cls = .ordinary) ∧
      (met bad ∧ (bad.ctx 0).checkWord ≠ some (result bad)) := by decide +kernel

/-- 05 R98, 09 R159: a match in STOPPING, the record READY and STOP complete. -/
theorem test_check_ends_in_stopping :
    let t := after .cellCompletion (inFlight .stop (inMode .stopping lastCell))
    (t.ctx 0).state = .ready ∧ (t.line 0).queue = [receipt] ∧ t.cmd.mode = .config ∧ t.cmd.state = .idle := by decide +kernel

theorem witness_EngineStopCompletesTheCommand :
    let met (s : State) : Prop := s.pins.rstnLow = false ∧ s.checker.queue = 0 :: [] ∧ s.checker.engine = .stopPending crc32Ones ⟨0, 1, 0⟩
    met (stopping (.ctxAbort 0 true)) ∧ met (stopping (.flush 31)) ∧ met (stopping (.srcRemove 0x22 0)) ∧
      (stopping (.srcRemove 0x22 0)).findSource 0x22 = some 0 := by decide +kernel

/-! ## Host reads and writes -/

/-- NONE with a record to claim and with none, HELD, LOST. -/
def lost : State := { held with readout := { held.readout with port := .lost, remaining := 0 } }

theorem witness_ReadOfMsgHead0 :
    (ready.pins.rstnLow = false ∧ ready.readout.port = .none ∧ ready.delivery = 0 :: []) ∧
      (running.readout.port = .none ∧ running.delivery = []) ∧ held.readout.port = .held 0 Walk.start ∧ lost.readout.port = .lost := by
  decide +kernel

theorem witness_ReadOfData :
    let last : State := { held with readout := { held.readout with port := .held 0 ⟨1, 1, 3⟩, remaining := 1 } }
    let ended : State := { held with readout := { held.readout with remaining := 0 } }
    (held.pins.rstnLow = false ∧ held.readout.port = .held 0 Walk.start ∧ 2 ≤ held.readout.remaining) ∧
      (last.readout.port = .held 0 ⟨1, 1, 3⟩ ∧ last.readout.remaining = 1) ∧
      (ended.readout.port = .held 0 Walk.start ∧ ended.readout.remaining = 0) ∧ running.readout.port = .none ∧
      lost.readout.port = .lost := by decide +kernel

theorem witness_ReadOfEvtPop :
    (running.pins.rstnLow = false ∧ (withEvents 1 running).ev.queue = overrun :: [] ∧ running.ev.queue = []) ∧
      exec .data (withEvents 1 running) = .next (after .data (withEvents 1 running)) := ⟨by decide +kernel, rfl⟩

theorem witness_RegistersReadAndWritten :
    (running.pins.rstnLow = false ∧
        (0x27 : RegAddr) ∉ ([0x00, 0x02, 0x03, 0x04, 0x05, 0x06, 0x07, 0x25, 0x26, 0x28] : List RegAddr)) ∧
      (withEvents 64 running).ev.queue.length ≤ 64 ∧ running.ev.loss ≤ 255 ∧ ((receiving [] 15).line 0).badCount ≤ 15 ∧
      (withLine (fun u => { u with buffers := [[], []] }) running |>.line 0).buffers.length ≤ 2 := by decide +kernel

theorem witness_MaskAndEnableWrites : running.pins.rstnLow = false := rfl

/-! ## The command unit -/

/-- A CMD write while BUSY; one accepted; the flag cleared by an acceptance. -/
theorem witness_BusyUnitRefusesWrites :
    let busy := inFlight .stop running
    let flagged : State := { running with cmd := { running.cmd with refused := true } }
    (Instr.queryPool.wf = true ∧ Instr.queryPool.cmdCode = some 0x2A ∧ busy.pins.rstnLow = false ∧ busy.cmd.state = .busy .stop) ∧
      (running.accepts ∧ exec .queryPool flagged = .next (after .queryPool flagged)) ∧ flagged.cmd.refused = true ∧
      (after .queryPool flagged).cmd.refused = false :=
  ⟨by decide +kernel, ⟨⟨rfl, rfl⟩, rfl⟩, rfl, by decide +kernel⟩

theorem witness_WordsThatNameNoCommand :
    namesCommand 0x0006 = false ∧ running.pins.rstnLow = false ∧ running.cmd.state = .idle ∧
      (inFlight (.flush 0) running).cmd.state = .busy (.flush 0) := by decide +kernel

/-- Argument words at the edges of each range. -/
theorem witness_FailedChecksChangeOnlyTheUnit :
    let a (s : State) (i : ArgNo) : Nat := (s.arg i).toNat
    let config := State.reset
    running.accepts ∧ exec .release running = .next (after .release running) ∧ (after .release running).cmd.lastResult ≠ .ok ∧
      (a (withArgs 0 1 1 0 running) 0 = 0 ∧ 254 < a (withArgs 255 1 1 0 running) 0 ∧ 254 < a (withArgs 0x0101 1 1 0 running) 0) ∧
      (1 < a (withArgs 2 0 0 0 running) 0 ∧ 1023 < a (withArgs 0 1024 0 1 running) 1 ∧ 7 < a (withArgs 0 1 8 1 running) 2 ∧
        255 < a (withArgs 0 1 0 256 running) 3 ∧ 512 < a (withArgs 513 0 0 0 running) 0 ∧ 3 < a (withArgs 4 8 0 0 running) 0 ∧
        a (withArgs 0 7 0 0 running) 1 < 8 ∧ 15 < a (withArgs 0 8 16 0 running) 2 ∧ 64 < a (withArgs 1 65 1 0 running) 1 ∧
        8 < a (withArgs 1 1 9 0 running) 2 ∧ 31 < a (withArgs 32 0 0 0 running) 0 ∧ 4 < a (withArgs 0 5 0 0 running) 1 ∧
        63 < a (withArgs 0 4 64 0 running) 2) ∧
      (running.cmd.mode ≠ .config ∧ config.cmd.mode ≠ .run) ∧ running.findSource ((0x21 : Word).setWidth 8) = none ∧
      running.findSource ((0x22 : Word).setWidth 8) = some 0 ∧
      (∀ k, (({ running with sources := Vector.replicate 64 ⟨.enabled, 0x23, 1, 1, false, 0, []⟩ } : State).source k).state ≠ .unused) ∧
      (running.ctx 31).state = .free ∧ running.readout.port = .none ∧ (running.line 0).state = .on :=
  ⟨⟨rfl, rfl⟩, rfl, by decide +kernel⟩

/-- Every setting's arguments at the edges of their ranges. -/
theorem witness_SettingsReplaced :
    let a (s : State) (i : ArgNo) : Nat := (s.arg i).toNat
    let s (x y z w : Word) : State := withArgs x y z w State.reset
    State.reset.accepts ∧ (State.reset.cmd.mode = .config ∧ 1 ≤ a (s 1 0 0 0) 0 ∧ a (s 254 0 0 0) 0 ≤ 254) ∧
      (a (s 1 1023 7 255) 1 ≤ 1023 ∧ a (s 1 1023 7 255) 2 ≤ 7 ∧ a (s 1 1023 7 255) 3 ≤ 255 ∧ 1 ≤ a (s 0 1 0 1) 1) ∧
      a (s 512 0 0 0) 0 ≤ 512 ∧
      (a (s 3 8 15 0) 0 = 3 ∧ 8 ≤ a (s 3 8 15 0) 1 ∧ a (s 3 8 15 0) 2 ≤ 15 ∧ ((s 3 8 15 0).line 3).state = .off) :=
  ⟨⟨rfl, rfl⟩, by decide +kernel⟩

/-- RUN; CONFIG with no address; STOPPING; CONFIG with an address, a COLLECTING record, a waiting check and a waiting entry. -/
theorem witness_StartEntersRun :
    let stop := inFlight .stop (inMode .stopping sending)
    let s := inMode .config (place 1 partRec (withLine (fun u => { u with queue := [receipt] }) verifying))
    (running.pins.rstnLow = false ∧ running.cmd.state = .idle ∧ running.cmd.mode = .run) ∧
      (State.reset.cmd.mode = .config ∧ State.reset.cmd.station = 0) ∧ (ModeInv stop ∧ stop.cmd.mode = .stopping) ∧
      (s.cmd.state = .idle ∧ s.cmd.mode = .config ∧ s.cmd.station ≠ 0) ∧ ModeInv s ∧ (s.ctx 1).state = .collecting ∧
      s.checker.queue = 0 :: [] ∧ (s.line 0).state = .on ∧ (s.line 0).queue ≠ [] :=
  ⟨by decide +kernel, by decide +kernel, ⟨modeInv (by decide +kernel), rfl⟩, by decide +kernel, modeInv (by decide +kernel),
    by decide +kernel⟩

/-- STOP with nothing and with a frame in flight; the end of the last and of one of two frames; the row on its own. -/
theorem witness_StopWindsDown :
    let one := inFlight .stop (inMode .stopping sending)
    let two := one.setLine 1 (one.line 0)
    (running.accepts ∧ running.cmd.mode = .run ∧ running.checker.engine = .idle ∧ ∀ l, (running.line l).tx = .idle) ∧
      (sending.line 0).tx ≠ .idle ∧
      (ModeInv one ∧ exec (.frameEnd 0) one = .next (after (.frameEnd 0) one) ∧ after (.frameEnd 0) one ≠ one ∧
        ∀ l, ((after (.frameEnd 0) one).line l).tx = .idle) ∧
      (ModeInv two ∧ after (.frameEnd 0) two ≠ two ∧ ((after (.frameEnd 0) two).line 1).tx ≠ .idle) ∧
      ((inFlight .stop (inMode .stopping running)).cmd.mode = .stopping ∧
        (inFlight .stop (inMode .stopping running)).cmd.state = .busy .stop) :=
  ⟨⟨⟨rfl, rfl⟩, by decide +kernel⟩, by decide +kernel, ⟨modeInv (by decide +kernel), rfl, by decide +kernel⟩,
    ⟨modeInv (by decide +kernel), by decide +kernel⟩, by decide +kernel⟩

/-- A line in every state that each clause names. -/
theorem witness_LinesTurnedOnAndOff :
    let l (f : LineUnit → LineUnit) : LineUnit := (withLine f (withArgs 0 0 0 0 running)).line 0
    (running.accepts ∧ ((withArgs 3 0 0 0 running).arg 0).toNat = 3) ∧ ((withArgs 3 0 0 0 running).line 3).state = .off ∧
      ((l id).state = .on ∧ (l id).tx = .idle) ∧ ((sending.line 0).state = .on ∧ (sending.line 0).tx = .sending) ∧
      ((aborting.line 0).state = .on ∧ (aborting.line 0).tx = .aborting) ∧
      ((l fun u => { u with state := .faulted }).state = .faulted ∧ (l fun u => { u with state := .faulted }).tx = .idle) ∧
      (l fun u => { u with state := .faulted, tx := .aborting }).tx = .aborting ∧
      (l fun u => { u with state := .closing, tx := .aborting }).state = .closing :=
  ⟨⟨⟨rfl, rfl⟩, by decide +kernel⟩, by decide +kernel⟩

/-! ## Sources, contexts, FLUSH, queries -/

/-- A command about source 0x22, with a COLLECTING record and one under check. -/
def about (s : State) : State := withArgs 0x22 64 8 1 s

theorem witness_SourcesAddedSuspendedResumed :
    let new := withArgs 254 64 8 1 collecting
    let s := about collecting
    let suspended := about (collecting.setSource 0 { collecting.source 0 with state := .suspended })
    (new.accepts ∧ 1 ≤ (new.arg 0).toNat ∧ (new.arg 0).toNat ≤ 254 ∧ (new.arg 1).toNat ≤ 64 ∧ (new.arg 2).toNat ≤ 8 ∧
        (new.arg 3).toNat ≤ 1 ∧ new.findSource (BitVec.ofNat 8 (new.arg 0).toNat) = none ∧ (new.source 1).state = .unused ∧
        ∀ j, j < 1 → (new.source j).state ≠ .unused) ∧
      (CollectionsInv s ∧ s.findSource (BitVec.ofNat 8 (s.arg 0).toNat) = some 0 ∧ (s.source 0).state = .enabled) ∧
      (CollectionsInv suspended ∧ suspended.findSource (BitVec.ofNat 8 (suspended.arg 0).toNat) = some 0 ∧
        (suspended.source 0).state = .suspended) :=
  ⟨⟨⟨rfl, rfl⟩, by decide +kernel⟩, ⟨collectionsInv (by decide +kernel), by decide +kernel⟩,
    ⟨collectionsInv (by decide +kernel), by decide +kernel⟩⟩

/-- With a DELIVERING record and none under check; with one under check. -/
theorem witness_SourceRemoved :
    let s := about held
    let c := about (place 1 { partRec with msgno := 1 } checking)
    (CollectionsInv s ∧ s.accepts ∧ 1 ≤ (s.arg 0).toNat ∧ (s.arg 0).toNat ≤ 254 ∧
        s.findSource (BitVec.ofNat 8 (s.arg 0).toNat) = some 0 ∧ s.underCheck = none ∧ s.readout.port = .held 0 Walk.start) ∧
      (CollectionsInv c ∧ c.accepts ∧ c.findSource (BitVec.ofNat 8 (c.arg 0).toNat) = some 0 ∧ c.underCheck = some 0 ∧
        (c.ctx 0).source = 0x22 ∧ c.checker.engine = .checking crc32Ones Walk.start) :=
  ⟨⟨collectionsInv (by decide +kernel), ⟨rfl, rfl⟩, by decide +kernel⟩,
    ⟨collectionsInv (by decide +kernel), ⟨rfl, rfl⟩, by decide +kernel⟩⟩

theorem witness_ContextAbortedOrReleased :
    let s (t : State) : State := withArgs 0 1 0 0 t
    (running.accepts ∧ ((s collecting).arg 0).toNat = (0 : CtxNo).val ∧ ((s collecting).arg 1).toNat ≤ 1) ∧
      ((s collecting).underCheck ≠ some 0 ∧ ((s collecting).ctx 0).state = .collecting) ∧
      ((s held).underCheck ≠ some 0 ∧ ((s held).ctx 0).state = .delivering) ∧
      ((s checking).underCheck = some 0 ∧ (s checking).checker.engine = .checking crc32Ones Walk.start) ∧
      (held.accepts ∧ held.readout.port = .held 0 Walk.start) ∧ lost.readout.port = .lost ∧ running.readout.port = .none :=
  ⟨⟨⟨rfl, rfl⟩, by decide +kernel⟩, by decide +kernel, by decide +kernel, by decide +kernel, ⟨⟨rfl, rfl⟩, by decide +kernel⟩,
    by decide +kernel⟩

/-- The source table of a state in which no source is REMOVING. -/
theorem sourcesInv {s : State}
    (h : (∀ j k, (s.source j).state ≠ .unused → (s.source k).state ≠ .unused → (s.source j).address = (s.source k).address → j = k) ∧
      (∀ n, (s.ctx n).state ≠ .free → ∃ k, (s.source k).state ≠ .unused ∧ (s.source k).address = (s.ctx n).source) ∧
      (∀ k, (s.source k).state ≠ .unused → (s.source k).openCount = (s.heldBy (s.source k).address).length) ∧
      (∀ k, (s.source k).openCount ≤ (s.source k).openLimit) ∧
      (∀ k, (s.source k).state = .unused → s.source k = .cleared) ∧ (∀ k, (s.source k).state ≠ .removing) ∧ s.cmd.state = .idle) :
    SourcesInv s :=
  ⟨h.1, h.2.1, h.2.2.1, h.2.2.2.1, h.2.2.2.2.1, fun k hk => absurd hk (h.2.2.2.2.2.1 k),
    fun _ _ hb => by rw [h.2.2.2.2.2.2] at hb; cases hb⟩

theorem witness_TableFlushed :
    let c := place 1 { partRec with msgno := 1 } checking
    (CollectionsInv held ∧ SourcesInv held ∧ held.accepts ∧ held.underCheck = none ∧ held.readout.port = .held 0 Walk.start) ∧
      (CollectionsInv c ∧ SourcesInv c ∧ c.accepts ∧ c.underCheck = some 0 ∧
        c.checker.engine = .checking crc32Ones Walk.start) :=
  ⟨⟨collectionsInv (by decide +kernel), sourcesInv (by decide +kernel), ⟨rfl, rfl⟩, by decide +kernel⟩,
    ⟨collectionsInv (by decide +kernel), sourcesInv (by decide +kernel), ⟨rfl, rfl⟩, by decide +kernel⟩⟩

/-- Every view at the edges of context and index; a source with four history records. -/
theorem witness_QueriesReport :
    let q (view : Word) : State := withArgs 31 view 63 0 ready
    let s := about (running.setSource 0 ⟨.enabled, 0x22, 64, 8, true, 8, List.replicate 4 ⟨0xFFF, 3⟩⟩)
    (ready.accepts ∧ ((q 0).arg 0).toNat = (31 : CtxNo).val ∧ ((q 4).arg 1).toNat = 4 ∧ ((q 4).arg 2).toNat = (63 : SegIndex).val) ∧
      (s.findSource (BitVec.ofNat 8 (s.arg 0).toNat) = some 0 ∧ (s.source 0).maxSegs ≤ 64 ∧ (s.source 0).openLimit ≤ 8 ∧
        (s.source 0).openCount ≤ 8 ∧ (s.source 0).history.length ≤ 4) :=
  ⟨⟨⟨rfl, rfl⟩, by decide +kernel⟩, by decide +kernel⟩

theorem capacityInv {s : State}
    (h : s.ev.queue.length ≤ 64 ∧ s.ev.loss ≤ 255 ∧
      (∀ l, (s.line l).queue.length ≤ 8 ∧ (s.line l).buffers.length ≤ 2 ∧ (s.line l).assembly.length ≤ 141 ∧ (s.line l).badCount ≤ 15) ∧
      (∀ k, (s.source k).history.length ≤ 4) ∧ ∀ n, (s.ctx n).dupCount ≤ 255) : CapacityInv s :=
  ⟨h.1, h.2.1, fun l => (h.2.2.1 l).1, fun l => (h.2.2.1 l).2.1, fun l => (h.2.2.1 l).2.2.1, fun l => (h.2.2.1 l).2.2.2,
    h.2.2.2.1, h.2.2.2.2⟩

theorem witness_OnlyItsCommandChangesIt :
    let lossy : State := { running with ev := { running.ev with loss := 255, overflow := true } }
    (exec (.irqEn 7) running = .next (after (.irqEn 7) running) ∧ (after (.irqEn 7) running).ev.irqEn ≠ running.ev.irqEn) ∧
      CapacityInv lossy ∧ exec .clearLoss lossy = .next (after .clearLoss lossy) ∧
      (after .clearLoss lossy).ev.loss < lossy.ev.loss :=
  ⟨⟨rfl, by decide +kernel⟩, capacityInv (by decide +kernel), rfl, by decide +kernel⟩

/-! ## Invariants hold in states with records in use -/

/-- A tick waits in the queue. -/
def ticking (s : State) : State := { s with pending := [.tick] }

theorem witness_CellsNeverLostOrShared :
    Memory.wf verifying.pool.mem = true ∧ PoolInv (ticking collecting) ∧
      step (ticking collecting) = .next (after .tick collecting) :=
  ⟨by decide +kernel, ⟨collecting_pool.cells, collecting_pool.freeHasNone⟩, rfl⟩

/-- The engine STOP-PENDING on the head, its abort pending. -/
def abortPendingOn (w : Waiting) : State := (stopping w).setCtx 0 { (stopping w).ctx 0 with abortPending := true }

theorem witness_CollectionsFollowTheStates :
    (CollectionsInv (ticking collecting) ∧ step (ticking collecting) = .next (after .tick collecting)) ∧
      CollectionsInv (abortPendingOn (.flush 0)) ∧ AbortPendingInv (abortPendingOn (.flush 0)) := by
  refine ⟨⟨collectionsInv (by decide +kernel), rfl⟩, collectionsInv (by decide +kernel), fun n => ?_⟩
  rw [← engineStops_iff]
  revert n
  decide +kernel

theorem witness_KeysAndDeliveryOrderKept :
    let s := ticking (place 1 { partRec with state := .ready, msgno := 1 } ready)
    CollectionsInv s ∧ KeysUnique s ∧ DeliveryOrder s :=
  ⟨collectionsInv (by decide +kernel), by unfold KeysUnique; decide +kernel, by unfold DeliveryOrder; decide +kernel⟩

theorem verifying_ctx (n : CtxNo) : verifying.ctx n = if n = 0 then nineRec .verifying else Ctx.cleared := by
  revert n
  decide +kernel

theorem verifying_records : RecordsInv verifying :=
  recordsInv
    (poolInv (List.range 40) [40, 41] (List.range' 42 982) (by decide +kernel) (by decide +kernel) (by decide +kernel)
      (by decide +kernel))
    (by decide +kernel) verifying_ctx ⟨nineRec_counts _, nineRec_whole (by decide), nineRec_chain _⟩

theorem witness_CountsAndWholenessKept :
    CollectionsInv verifying ∧ (∀ n, CountsFollow (verifying.ctx n)) ∧ ∀ n, WholeFollows (verifying.ctx n) :=
  ⟨verifying_records.collections, verifying_records.counts, verifying_records.whole⟩

theorem witness_ChainsKeepRecordsWalkable :
    RecordsInv verifying ∧ step { verifying with pending := [.takeHead] } = .next (after .takeHead verifying) ∧
      (verifying.ctx 0).past := ⟨verifying_records, rfl, Or.inl rfl⟩

/-- The walk and the running CRC after one of the two cell reads. -/
theorem lastCell_follows : CheckFollows lastCell := by
  intro n rest crc w hq he
  obtain ⟨rfl, rfl⟩ : n = 0 ∧ rest = [] := by
    have : lastCell.checker.queue = [0] := by decide +kernel
    rw [this] at hq
    simp at hq
    exact ⟨hq.1.symm, by simp [hq.2]⟩
  have engine : lastCell.checker.engine = .checking (crc32Fold crc32Ones (nine.take 5)) ⟨1, 1, 0⟩ := by decide +kernel
  rw [engine] at he
  obtain ⟨hc, hw⟩ : crc32Fold crc32Ones (nine.take 5) = crc ∧ (⟨1, 1, 0⟩ : Walk) = w := by simpa using he
  subst hc
  subst hw
  refine ⟨by decide +kernel, ⟨⟨4, 40, 1, 2⟩, by decide +kernel⟩, nine.take 5, 1, ?_, by decide +kernel⟩
  unfold Ctx.readsLeft
  decide +kernel

theorem witness_CheckFollowsThePayload :
    RecordsInv lastCell ∧ CheckFollows lastCell ∧ lastCell.pins.rstnLow = false ∧ lastCell.checker.queue = 0 :: [] ∧
      lastCell.checker.engine = .checking (crc32Fold crc32Ones (nine.take 5)) ⟨1, 1, 0⟩ ∧
      (lastCell.ctx 0).walkNext ⟨1, 1, 0⟩ = none ∧ (lastCell.ctx 0).checkWord = some (messageCheck nine) :=
  ⟨recordsInv ⟨verifying_records.pool.cells, verifying_records.pool.freeHasNone⟩ (by decide +kernel) verifying_ctx
      ⟨nineRec_counts _, nineRec_whole (by decide), nineRec_chain _⟩,
    lastCell_follows, by decide +kernel⟩

/-- Two bytes read of the nine; then one remaining. -/
def midway (w : Walk) (remaining : Nat) : State :=
  { held with readout := { held.readout with port := .held 0 w, remaining := remaining } }

theorem midway_follows {w : Walk} {remaining : Nat} (delivered : List Byte) (sl : Slot)
    (h : delivered ++ ((midway w remaining).ctx 0).readoutRun (midway w remaining).pool.mem remaining w = nine ∧
      delivered.length + remaining = 9 ∧ w.slot ≤ 1 ∧ (nineRec .delivering).bytesBefore w + remaining = 9 ∧
      w.cell = w.taken / 32 + 1 ∧ (nineRec .delivering).slots[w.slot] = some sl ∧ w.taken < sl.length) :
    ReadoutFollows (midway w remaining) := by
  refine ⟨(fun hp => nomatch hp), (fun hp => nomatch hp), fun n v hp => ?_⟩
  change Port.held 0 w = Port.held n v at hp
  injection hp with h1 h2
  subst h1
  subst h2
  have hc : (midway w remaining).ctx 0 = nineRec .delivering := by
    change held.ctx 0 = _
    decide +kernel
  have hpay : (nineRec .delivering).payload held.pool.mem = nine := by decide +kernel
  rw [hc] at h ⊢
  exact ⟨rfl, ⟨delivered, h.1.trans hpay.symm, h.2.1⟩, fun _ => ⟨h.2.2.1, h.2.2.2.1, h.2.2.2.2.1, sl, h.2.2.2.2.2⟩⟩

theorem held_records : RecordsInv held :=
  recordsInv (r := nineRec .delivering)
    (poolInv (List.range 40) [40, 41] (List.range' 42 982) (by decide +kernel) (by decide +kernel) (by decide +kernel)
      (by decide +kernel))
    (by decide +kernel) (by decide +kernel) ⟨nineRec_counts _, nineRec_whole (by decide), nineRec_chain _⟩

theorem witness_ReadoutFollowsThePayload :
    (RecordsInv held ∧ ReadoutFollows (midway Walk.start 9) ∧ (midway Walk.start 9).readout = held.readout) ∧
      (ReadoutFollows (midway ⟨0, 1, 4⟩ 5) ∧ 2 ≤ (midway ⟨0, 1, 4⟩ 5).readout.remaining) ∧
      (ReadoutFollows (midway ⟨1, 1, 3⟩ 1) ∧ (midway ⟨1, 1, 3⟩ 1).readout.remaining = 1) :=
  ⟨⟨held_records, midway_follows [] ⟨5, 41, 1, 0⟩ (by decide +kernel), by decide +kernel⟩,
    ⟨midway_follows (nine.take 4) ⟨5, 41, 1, 0⟩ (by decide +kernel), by decide +kernel⟩,
    ⟨midway_follows (nine.take 8) ⟨4, 40, 1, 2⟩ (by decide +kernel), by decide +kernel⟩⟩

theorem witness_LinesAgreeWithinCapacities :
    (∀ l, LineAgrees (sending.line l)) ∧ (∀ l, WaitingDistinct (sending.line l)) ∧ CapacityInv sending :=
  ⟨fun l => ⟨by revert l; decide +kernel, by revert l; decide +kernel, by revert l; decide +kernel, by revert l; decide +kernel,
      by revert l; decide +kernel, by revert l; decide +kernel, by revert l; decide +kernel⟩,
    by unfold WaitingDistinct; decide +kernel, capacityInv (by decide +kernel)⟩

theorem witness_ModeInvariantKept : ModeInv (stopping (.flush 0)) := modeInv (by decide +kernel)

/-- A source with a COLLECTING record of its own and another number in its history. -/
theorem witness_SourceTableAgrees :
    let s := collecting.setSource 0 { collecting.source 0 with history := [⟨0x001, 3⟩] }
    CollectionsInv s ∧ ModeInv s ∧ KeysUnique s ∧ SourcesInv s ∧ HistoryInv s := by
  exact ⟨collectionsInv (by decide +kernel), modeInv (by decide +kernel), by unfold KeysUnique; decide +kernel,
    sourcesInv (by decide +kernel), ⟨by decide +kernel, by decide +kernel, by decide +kernel⟩⟩

end Sys2Proof.Tests
end

