-- ==== Sys2Proof/Proofs/CheckWords.lean ====
section
/-! SUPPORT. The frame check's register as a linear map without kernel, the residue that follows, and the two check words'
algorithms as the spec words them. -/

namespace Sys2Proof.Machine

/-! ## The frame check's register -/

/-- The bit shifted out is bit 15. -/
theorem crc16Shift_eq (r : Word) : crc16Shift r = if r.getLsbD 15 then (r <<< 1) ^^^ 0x1021 else r <<< 1 := rfl

@[simp] theorem crc16Shift_zero : crc16Shift 0 = 0 := rfl

theorem crc16Shift_of_msb_false {r : Word} (h : r.msb = false) : crc16Shift r = r <<< 1 := by simp [crc16Shift, h]

/-- A shift is linear over XOR: the polynomials of two registers with their high bits set cancel. -/
theorem crc16Shift_xor (a b : Word) : crc16Shift (a ^^^ b) = crc16Shift a ^^^ crc16Shift b := by
  unfold crc16Shift
  rw [BitVec.msb_xor, BitVec.shiftLeft_xor_distrib]
  cases ha : a.msb <;> cases hb : b.msb
  · rfl
  · exact BitVec.xor_assoc ..
  · change (a <<< 1 ^^^ b <<< 1) ^^^ 0x1021 = ((a <<< 1) ^^^ 0x1021) ^^^ (b <<< 1)
    rw [BitVec.xor_assoc, BitVec.xor_assoc, BitVec.xor_comm (b <<< 1)]
  · simp [BitVec.xor_assoc]

/-- No register but zero is shifted to zero: the polynomial sets bit 0, which a shift without it leaves clear. -/
theorem crc16Shift_eq_zero_iff (r : Word) : crc16Shift r = 0 ↔ r = 0 := by
  refine ⟨fun h => ?_, fun h => h ▸ crc16Shift_zero⟩
  cases hm : r.msb with
  | false =>
    rw [crc16Shift_of_msb_false hm] at h
    rw [BitVec.msb_eq_false_iff_two_mul_lt] at hm
    bv_omega
  | true =>
    have bit0 : (crc16Shift r).getLsbD 0 = true := by simp [crc16Shift, hm]
    simp [h] at bit0

theorem crc16Shift_iterate_xor (n : Nat) (a b : Word) :
    crc16Shift^[n] (a ^^^ b) = crc16Shift^[n] a ^^^ crc16Shift^[n] b := by
  induction n with
  | zero => rfl
  | succ n ih => simp only [Function.iterate_succ_apply', ih, crc16Shift_xor]

theorem crc16Shift_iterate_eq_zero_iff (n : Nat) (r : Word) : crc16Shift^[n] r = 0 ↔ r = 0 := by
  induction n with
  | zero => rfl
  | succ n ih => rw [Function.iterate_succ_apply', crc16Shift_eq_zero_iff, ih]

/-- Up to eight shifts move a byte from the low end upwards without meeting the polynomial. -/
theorem crc16Shift_iterate_low (b : Byte) {n : Nat} (hn : n ≤ 8) :
    crc16Shift^[n] (b.setWidth 16) = b.setWidth 16 <<< n := by
  induction n with
  | zero => simp
  | succ n ih =>
    have clear : (b.setWidth 16 <<< n : Word).msb = false := by
      have high : b.getLsbD (15 - n) = false := BitVec.getLsbD_of_ge _ _ (by omega)
      simp [BitVec.msb_eq_getLsbD_last, high]
    rw [Function.iterate_succ_apply', ih (by omega), crc16Shift_of_msb_false clear, ← BitVec.shiftLeft_add]

/-- Two bytes in a word do not overlap, so XOR joins them. -/
theorem byte_append_eq_xor (hi lo : Byte) : (hi ++ lo : BitVec 16) = (hi.setWidth 16 <<< 8) ^^^ lo.setWidth 16 := by
  apply BitVec.eq_of_getLsbD_eq
  intro i hi16
  rw [BitVec.getLsbD_append, BitVec.getLsbD_xor, BitVec.getLsbD_shiftLeft]
  by_cases h : i < 8
  · have inWord : i < 16 := by omega
    simp [h, inWord]
  · have inHigh : i - 8 < 16 := by omega
    have pastLow : lo.getLsbD i = false := BitVec.getLsbD_of_ge _ _ (by omega)
    simp [h, hi16, inHigh, pastLow]

/-- Two bytes put into the register are sixteen shifts of it XORed with the word they hold. -/
theorem crc16Byte_crc16Byte (r : Word) (hi lo : Byte) :
    crc16Byte (crc16Byte r hi) lo = crc16Shift^[16] (r ^^^ (hi ++ lo : BitVec 16)) := by
  calc crc16Byte (crc16Byte r hi) lo
      = crc16Shift^[8] (crc16Shift^[8] (r ^^^ (hi.setWidth 16 <<< 8)) ^^^ (lo.setWidth 16 <<< 8)) := rfl
    _ = crc16Shift^[8] (crc16Shift^[8] ((r ^^^ (hi.setWidth 16 <<< 8)) ^^^ lo.setWidth 16)) := by
      rw [← crc16Shift_iterate_low lo le_rfl, crc16Shift_iterate_xor 8 (_ ^^^ _)]
    _ = crc16Shift^[16] (r ^^^ (hi ++ lo : BitVec 16)) := by
      rw [← Function.iterate_add_apply, byte_append_eq_xor, BitVec.xor_assoc]

/-! ## The frame check of a run of content bytes -/

@[simp] theorem hiByte_append_loByte (w : Word) : (hiByte w ++ loByte w : BitVec 16) = w := by
  apply BitVec.eq_of_getLsbD_eq
  intro i hi16
  rw [BitVec.getLsbD_append]
  by_cases h : i < 8
  · simp [loByte, h]
  · have inHigh : i - 8 < 8 := by omega
    have position : 8 + (i - 8) = i := by omega
    simp [hiByte, h, inHigh, position]

/-- The register is zero behind two more bytes exactly when they hold the check of those before (07 R121). -/
theorem frameCheck_append_eq_zero_iff (covered : List Byte) (hi lo : Byte) :
    frameCheck (covered ++ [hi, lo]) = 0 ↔ frameCheck covered = (hi ++ lo : BitVec 16) := by
  have folded : frameCheck (covered ++ [hi, lo]) = crc16Byte (crc16Byte (frameCheck covered) hi) lo := by
    simp [frameCheck]
  rw [folded, crc16Byte_crc16Byte, crc16Shift_iterate_eq_zero_iff]
  exact BitVec.xor_eq_zero_iff

theorem passesFrameCheck_append (covered : List Byte) (hi lo : Byte) :
    passesFrameCheck (covered ++ [hi, lo]) = decide (frameCheck covered = (hi ++ lo : BitVec 16)) := by
  simp [passesFrameCheck, byteAt, beq_eq_decide]

@[simp] theorem passesFrameCheck_withFrameCheck (body : List Byte) : passesFrameCheck (withFrameCheck body) = true := by
  simp [withFrameCheck, passesFrameCheck_append]

theorem exists_append_pair {content : List Byte} (h : 2 ≤ content.length) :
    ∃ covered hi lo, content = covered ++ [hi, lo] := by
  obtain ⟨hi, lo, last⟩ : ∃ hi lo, content.drop (content.length - 2) = [hi, lo] :=
    List.length_eq_two.1 (by simp; omega)
  exact ⟨content.take (content.length - 2), hi, lo, by rw [← last, List.take_append_drop]⟩

theorem frameCheck_eq_zero_iff {content : List Byte} (h : 2 ≤ content.length) :
    frameCheck content = 0 ↔ passesFrameCheck content = true := by
  obtain ⟨covered, hi, lo, rfl⟩ := exists_append_pair h
  rw [frameCheck_append_eq_zero_iff, passesFrameCheck_append, decide_eq_true_iff]

/-! ## The algorithms, shift by shift -/

theorem frameCheck_eq_foldl (content : List Byte) :
    frameCheck content =
      content.foldl
        (fun (r : Word) b =>
          (List.range 8).foldl (fun (r : Word) _ => if r.getLsbD 15 then (r <<< 1) ^^^ 0x1021 else r <<< 1)
            (r ^^^ ((b.setWidth 16 : Word) <<< 8)))
        0xFFFF := by
  simp only [← crc16Shift_eq, List.foldl_const, List.length_range]
  rfl

theorem crc32Shift_eq (r : Word32) : crc32Shift r = if r.getLsbD 0 then (r >>> 1) ^^^ 0xEDB88320 else r >>> 1 := rfl

theorem messageCheck_eq_foldl (payload : List Byte) :
    messageCheck payload =
      payload.foldl
        (fun (r : Word32) b =>
          (List.range 8).foldl (fun (r : Word32) _ => if r.getLsbD 0 then (r >>> 1) ^^^ 0xEDB88320 else r >>> 1)
            (r ^^^ b.setWidth 32))
        0xFFFFFFFF ^^^ 0xFFFFFFFF := by
  simp only [← crc32Shift_eq, List.foldl_const, List.length_range]
  rfl

@[simp] theorem crc32Fold_append (r : Word32) (a b : List Byte) : crc32Fold r (a ++ b) = crc32Fold (crc32Fold r a) b :=
  List.foldl_append

theorem messageCheck_append (a b : List Byte) :
    messageCheck (a ++ b) = crc32Fold (crc32Fold 0xFFFFFFFF a) b ^^^ 0xFFFFFFFF := by
  rw [messageCheck, crc32Fold_append, crc32Ones]

/-- The worked example of 07 R121, the nine digits' bytes. -/
theorem frameCheck_example : frameCheck [0x31, 0x32, 0x33, 0x34, 0x35, 0x36, 0x37, 0x38, 0x39] = 0x29B1 := by
  decide +kernel

/-- The worked example of 05 R90, the same bytes. -/
theorem messageCheck_example :
    messageCheck [0x31, 0x32, 0x33, 0x34, 0x35, 0x36, 0x37, 0x38, 0x39] = 0xCBF43926 := by
  decide +kernel

/-- Settles O10: the residue rests on the linearity of the register's shifts and their trivial kernel. -/
theorem checkWordsComputed : Obligations.CheckWordsComputed := by
  unfold Obligations.CheckWordsComputed
  exact
    ⟨⟨frameCheck_eq_foldl, frameCheck_example, passesFrameCheck_append,
        fun f station => passesFrameCheck_withFrameCheck (f.headed station), fun _ => frameCheck_eq_zero_iff⟩,
      messageCheck_eq_foldl, messageCheck_example, messageCheck_append⟩

end Sys2Proof.Machine
end

