-- ==== Sys2Proof/Proofs/DataPort.lean ====
section
/-! SUPPORT. What a read of the DATA register delivers and moves, for each standing of the readout port (spec 08 R142, R143). -/

namespace Sys2Proof.Machine

/-! ## The bytes of the delivered word -/

/-- The first byte delivered stands in bits 7..0, the second in bits 15..8. -/
theorem byte_append_eq_ofNat (second first : Byte) :
    (second ++ first : BitVec 16) = BitVec.ofNat 16 (first.toNat + 256 * second.toNat) := by
  apply BitVec.eq_of_toNat_eq
  have hfirst : first.toNat < 2 ^ 8 := first.isLt
  have hsecond : second.toNat < 2 ^ 8 := second.isLt
  rw [BitVec.toNat_append, ← Nat.shiftLeft_add_eq_or_of_lt hfirst, Nat.shiftLeft_eq, BitVec.toNat_ofNat]
  omega

/-! ## A read of DATA out of reset -/

/-- A read of DATA takes its word from the state before the walk moves. -/
theorem exec_data_eq {s : State} (hrstn : s.pins.rstnLow = false) :
    exec .data s = .next { dataEffect s with pins := { (dataEffect s).pins with dataOut := some s.dataWord } } :=
  hostRead_eq 0x14 dataEffect s hrstn

/-- Where DATA has nothing to deliver: at the end of the message, in NONE and in LOST (spec 08 R143). -/
def State.nothingToRead (s : State) : Prop :=
  ((∃ n w, s.readout.port = .held n w) ∧ s.readout.remaining = 0) ∨ s.readout.port = .none ∨ s.readout.port = .lost

section Held

variable {s : State} {n : CtxNo} {w : Walk}

theorem dataWord_two (held : s.readout.port = .held n w) (two : 2 ≤ s.readout.remaining) :
    s.dataWord = (s.ctx n).readoutByte s.pool.mem ((s.ctx n).readoutNext w) ++ (s.ctx n).readoutByte s.pool.mem w := by
  have notEnd : s.readout.remaining ≠ 0 := by omega
  have notLast : s.readout.remaining ≠ 1 := by omega
  simp [State.dataWord, held, notEnd, notLast]

theorem dataEffect_two (held : s.readout.port = .held n w) (two : 2 ≤ s.readout.remaining) :
    dataEffect s =
      { s with
        readout :=
          { s.readout with
            port := .held n ((s.ctx n).readoutNext ((s.ctx n).readoutNext w)), remaining := s.readout.remaining - 2 } } := by
  have notEnd : s.readout.remaining ≠ 0 := by omega
  have notLast : s.readout.remaining ≠ 1 := by omega
  simp [dataEffect, held, notEnd, notLast]

theorem dataWord_last (held : s.readout.port = .held n w) (last : s.readout.remaining = 1) :
    s.dataWord = ((s.ctx n).readoutByte s.pool.mem w).setWidth 16 := by
  simp [State.dataWord, held, last]

theorem dataEffect_last (held : s.readout.port = .held n w) (last : s.readout.remaining = 1) :
    dataEffect s = { s with readout := { s.readout with port := .held n ((s.ctx n).readoutNext w), remaining := 0 } } := by
  simp [dataEffect, held, last]

/-- Two bytes or more remain: the next two come, first byte low, and the walk moves on by both (08 R142). -/
theorem exec_data_two (hrstn : s.pins.rstnLow = false) (held : s.readout.port = .held n w) (two : 2 ≤ s.readout.remaining) :
    exec .data s = .next
      { s with
        readout :=
          { s.readout with
            port := .held n ((s.ctx n).readoutNext ((s.ctx n).readoutNext w)), remaining := s.readout.remaining - 2 }
        pins :=
          { s.pins with
            dataOut := some (BitVec.ofNat 16
              (((s.ctx n).readoutByte s.pool.mem w).toNat +
                256 * ((s.ctx n).readoutByte s.pool.mem ((s.ctx n).readoutNext w)).toNat)) } } := by
  rw [exec_data_eq hrstn, dataEffect_two held two, dataWord_two held two, byte_append_eq_ofNat]

/-- One byte remains: it comes alone and the walk stands past it (08 R142). -/
theorem exec_data_last (hrstn : s.pins.rstnLow = false) (held : s.readout.port = .held n w) (last : s.readout.remaining = 1) :
    exec .data s = .next
      { s with
        readout := { s.readout with port := .held n ((s.ctx n).readoutNext w), remaining := 0 }
        pins := { s.pins with dataOut := some (BitVec.ofNat 16 ((s.ctx n).readoutByte s.pool.mem w).toNat) } } := by
  rw [exec_data_eq hrstn, dataEffect_last held last, dataWord_last held last, BitVec.ofNat_toNat]

end Held

/-! ## Nothing to deliver -/

theorem dataWord_nothing {s : State} (h : s.nothingToRead) : s.dataWord = 0 := by
  obtain ⟨⟨n, w, held⟩, ended⟩ | unclaimed | lost := h
  · simp [State.dataWord, held, ended]
  · simp [State.dataWord, unclaimed]
  · simp [State.dataWord, lost]

theorem dataEffect_nothing {s : State} (h : s.nothingToRead) : dataEffect s = s := by
  obtain ⟨⟨n, w, held⟩, ended⟩ | unclaimed | lost := h
  · simp [dataEffect, held, ended]
  · simp [dataEffect, unclaimed]
  · simp [dataEffect, lost]

/-- The read neither wraps to the message's start nor releases it: only the data pins move (08 R143). -/
theorem exec_data_nothing {s : State} (hrstn : s.pins.rstnLow = false) (h : s.nothingToRead) :
    exec .data s = .next { s with pins := { s.pins with dataOut := some 0 } } := by
  rw [exec_data_eq hrstn, dataEffect_nothing h, dataWord_nothing h]

/-- Settles O33: one case for two bytes or more, one for the last byte, one for every standing with nothing to deliver. -/
theorem readOfData : Obligations.ReadOfData := by
  unfold Obligations.ReadOfData
  exact ⟨fun _ _ _ hrstn held => ⟨exec_data_two hrstn held, exec_data_last hrstn held⟩, fun _ hrstn => exec_data_nothing hrstn⟩

end Sys2Proof.Machine
end

