-- ==== Sys2Proof/Proofs/CommandFrame.lean ====
section
/-! SUPPORT. The operations that leave the command unit as it stands: handing over, freeing, admission, decisions, receivers, the
check engine's outputs and the readout port. -/

namespace Sys2Proof.Machine

variable (s : State)

/-! ## Shared operations -/

@[simp] theorem State.handOver_cmd (f : CtrlFrame) (requested : LineNo) (mask : LineMask) :
    (s.handOver f requested mask).cmd = s.cmd := by
  rw [State.handOver_frame]

@[simp] theorem State.refuseCtx_cmd (r : Ctx) (reason : Reason) : (s.refuseCtx r reason).cmd = s.cmd := by
  rw [State.refuseCtx_frame]

@[simp] theorem State.freeCtx_cmd (n : CtxNo) : (s.freeCtx n).cmd = s.cmd := by
  rw [State.freeCtx_frame]

@[simp] theorem State.loseHeld_cmd (n : CtxNo) (cause : LossCause) : (s.loseHeld n cause).cmd = s.cmd := by
  rcases s.loseHeld_cases n cause with ⟨-, h⟩ | ⟨-, h⟩ <;> rw [h]
  rfl

@[simp] theorem State.freeByCommand_cmd (n : CtxNo) (cause : LossCause) : (s.freeByCommand n cause).cmd = s.cmd := by
  rw [State.freeByCommand, State.freeCtx_cmd, State.loseHeld_cmd]

@[simp] theorem freeAll_cmd (records : List CtxNo) (cause : LossCause) : (freeAll records cause s).cmd = s.cmd :=
  freeAll_induct (fun t => t.cmd = s.cmd) records cause (fun t n _ h => (t.freeByCommand_cmd n cause).trans h) s rfl

@[simp] theorem State.requestStop_cmd (n : CtxNo) : (s.requestStop n).cmd = s.cmd := by
  rw [State.requestStop_frame]

@[simp] theorem suspendCtx_cmd (n : CtxNo) : (suspendCtx n s).cmd = s.cmd := by
  rw [suspendCtx, State.freeCtx_cmd, State.refuseCtx_cmd]

/-- The records of a suspended source, freed in turn. -/
theorem suspendAll_cmd (records : List CtxNo) : (records.foldl (fun t n => suspendCtx n t) s).cmd = s.cmd := by
  induction records generalizing s with
  | nil => rfl
  | cons n rest ih => rw [List.foldl_cons, ih, suspendCtx_cmd]

/-! ## Admission -/

@[simp] theorem evict_cmd (cause : EvictCause) (l : LineNo) (n : CtxNo) : (evict cause l n s).cmd = s.cmd := by
  simp [evict]

@[simp] theorem evictForCells_cmd (k : Nat) (l : LineNo) (records : List CtxNo) :
    (evictForCells k l records s).cmd = s.cmd :=
  evictForCells_induct (fun t => t.cmd = s.cmd) k l (fun t n h _ => (evict_cmd t .cells l n).trans h) records s rfl

@[simp] theorem joinIfWhole_cmd (n : CtxNo) : (joinIfWhole n s).cmd = s.cmd := by
  unfold joinIfWhole
  split <;> rfl

@[simp] theorem allocateAndStore_cmd (n : CtxNo) (seg : Segment) : (allocateAndStore n seg s).cmd = s.cmd := rfl

@[simp] theorem storeSegment_cmd (n : CtxNo) (seg : Segment) : (storeSegment n seg s).cmd = s.cmd := by
  unfold storeSegment
  split <;> simp

@[simp] theorem storedDuplicate_cmd (n : CtxNo) (seg : Segment) : (storedDuplicate n seg s).cmd = s.cmd := by
  unfold storedDuplicate
  dsimp only
  split <;> simp

@[simp] theorem starve_cmd (n : CtxNo) (seg : Segment) : (starve n seg s).cmd = s.cmd := rfl

@[simp] theorem conflict_cmd (n : CtxNo) (seg : Segment) (kind : ConflictKind) : (conflict n seg kind s).cmd = s.cmd := rfl

@[simp] theorem storeInto_cmd (n : CtxNo) (seg : Segment) : (storeInto n seg s).cmd = s.cmd := by
  unfold storeInto
  dsimp only
  split
  · exact conflict_cmd _ _ _ _
  · split
    · split
      · exact storedDuplicate_cmd _ _ _
      · exact conflict_cmd _ _ _ _
    · split
      · exact storeSegment_cmd _ _ _
      · exact starve_cmd _ _ _

@[simp] theorem refuseAndPost_cmd (seg : Segment) (reason : Reason) : (refuseAndPost seg reason s).cmd = s.cmd := by
  simp [refuseAndPost, refuseSegment]

@[simp] theorem refuseForCells_cmd (seg : Segment) : (refuseForCells seg s).cmd = s.cmd := by
  simp [refuseForCells, refuseSegment]

@[simp] theorem openAt_cmd (n : CtxNo) (k : SlotNo) (cls : MsgClass) (seg : Segment) : (openAt n k cls seg s).cmd = s.cmd := by
  simp [openAt]

@[simp] theorem openContext_cmd (k : SlotNo) (cls : MsgClass) (seg : Segment) : (openContext k cls seg s).cmd = s.cmd := by
  unfold openContext
  dsimp only
  split
  · exact refuseAndPost_cmd _ _ _
  · split
    · split
      · exact openAt_cmd _ _ _ _ _
      · exact refuseForCells_cmd _ _
    · split
      · exact refuseAndPost_cmd _ _ _
      · split
        · exact refuseAndPost_cmd _ _ _
        · split
          · rw [openAt_cmd, evict_cmd]
          · exact refuseForCells_cmd _ _

@[simp] theorem answerFromHistory_cmd (k : SlotNo) (h : HistRec) (seg : Segment) (n : Option CtxNo) :
    (answerFromHistory k h seg n s).cmd = s.cmd := by
  unfold answerFromHistory
  split <;> simp

@[simp] theorem resolveElsewhere_cmd (k : SlotNo) (cls : MsgClass) (seg : Segment) (n : Option CtxNo) :
    (resolveElsewhere k cls seg n s).cmd = s.cmd := by
  unfold resolveElsewhere
  split
  · exact answerFromHistory_cmd _ _ _ _ _
  · split
    · exact State.post_cmd _ _
    · exact openContext_cmd _ _ _ _

@[simp] theorem resolveKey_cmd (k : SlotNo) (cls : MsgClass) (seg : Segment) : (resolveKey k cls seg s).cmd = s.cmd := by
  unfold resolveKey
  split
  · split
    · exact storeInto_cmd _ _ _
    · exact resolveElsewhere_cmd _ _ _ _ _
  · exact resolveElsewhere_cmd _ _ _ _ _

@[simp] theorem admitFrom_cmd (k : SlotNo) (seg : Segment) : (admitFrom k seg s).cmd = s.cmd := by
  unfold admitFrom
  split
  · exact refuseAndPost_cmd _ _ _
  · exact resolveKey_cmd _ _ _ _

@[simp] theorem checkSource_cmd (seg : Segment) : (checkSource seg s).cmd = s.cmd := by
  unfold checkSource
  split
  · split
    · rfl
    · exact refuseAndPost_cmd _ _ _
    · exact admitFrom_cmd _ _ _
    · rfl
  · split
    · split
      · rw [admitFrom_cmd, State.post_cmd, State.setSource_cmd]
      · exact State.post_cmd _ _
    · exact State.post_cmd _ _

@[simp] theorem admitFrame_cmd (l : LineNo) (content : List Byte) : (admitFrame l content s).cmd = s.cmd := by
  unfold admitFrame
  split
  · exact State.post_cmd _ _
  · split
    · exact State.post_cmd _ _
    · split
      · exact State.post_cmd _ _
      · exact checkSource_cmd _ _

@[simp] theorem serveLine_cmd (l : LineNo) : (serveLine l s).cmd = s.cmd := by
  rw [serveLine, State.emptyOldest_cmd, admitFrame_cmd]

/-! ## Decisions -/

@[simp] theorem decideExpiry_cmd (n : CtxNo) : (decideExpiry n s).cmd = s.cmd := by
  rcases decideExpiry_cases n s with h | ⟨-, h⟩ | ⟨-, cause, h⟩ <;> rw [h]
  · simp [sendGap]
  · simp [expire]

@[simp] theorem takeDecision_cmd (n : CtxNo) : (takeDecision n s).cmd = s.cmd := by
  unfold takeDecision
  split
  · rw [decideExpiry_cmd, State.settleDecision_cmd]
  · rfl

@[simp] theorem takeOwed_cmd : (takeOwed s).cmd = s.cmd :=
  takeOwed_induct (fun t => t.cmd = s.cmd) (fun n t h => (takeDecision_cmd t n).trans h) s rfl

@[simp] theorem tickInRun_cmd : (tickInRun s).cmd = s.cmd := rfl

/-! ## Receivers -/

@[simp] theorem faultLine_cmd (l : LineNo) (reason : LineReason) : (faultLine l reason s).cmd = s.cmd := rfl

@[simp] theorem dropFrame_cmd (l : LineNo) (reason : LineReason) : (dropFrame l reason s).cmd = s.cmd := by
  unfold dropFrame
  dsimp only
  split <;> simp

@[simp] theorem goodFrame_cmd (l : LineNo) (content : List Byte) : (goodFrame l content s).cmd = s.cmd := by
  unfold goodFrame
  dsimp only
  split
  · rfl
  · split <;> rfl

@[simp] theorem receiveByte_cmd (l : LineNo) (b : Byte) (stopGood : Bool) : (receiveByte l b stopGood s).cmd = s.cmd := by
  unfold receiveByte
  dsimp only
  split <;> simp

/-! ## The check engine -/

@[simp] theorem State.pushHistory_cmd (a : Byte) (msgno : MsgNo) : (s.pushHistory a msgno).cmd = s.cmd := by
  unfold State.pushHistory
  split <;> rfl

@[simp] theorem State.dropSource_cmd (a : Byte) : (s.dropSource a).cmd = s.cmd := by
  unfold State.dropSource
  split <;> rfl

@[simp] theorem endMatch_cmd (n : CtxNo) : (endMatch n s).cmd = s.cmd := by
  simp [endMatch]

@[simp] theorem endMismatch_cmd (n : CtxNo) : (endMismatch n s).cmd = s.cmd := by
  simp [endMismatch]

@[simp] theorem abortOutputs_cmd (n : CtxNo) (r : Ctx) (notify : Bool) : (abortOutputs n r notify s).cmd = s.cmd := by
  cases notify <;> simp [abortOutputs]

@[simp] theorem stopOutputs_cmd (n : CtxNo) : (stopOutputs n s).cmd = s.cmd := by
  unfold stopOutputs
  split
  · exact abortOutputs_cmd _ _ _ _
  all_goals rfl

/-! ## The readout port and the event queue -/

@[simp] theorem head0Effect_cmd : (head0Effect s).cmd = s.cmd := by
  unfold head0Effect
  split
  · split <;> rfl
  · rfl
  · rfl

@[simp] theorem dataEffect_cmd : (dataEffect s).cmd = s.cmd := by
  unfold dataEffect
  split
  · dsimp only
    split
    · rfl
    · split <;> rfl
  · rfl
  · rfl

@[simp] theorem popEffect_cmd : (popEffect s).cmd = s.cmd := by
  unfold popEffect
  split <;> rfl

end Sys2Proof.Machine
end

