-- ==== Sys2Proof/Proofs/CommandWrites.lean ====
section
/-! SUPPORT. Writes to CMD: which rows they are, and that the refused flag and the last accepted code move with an acceptance or a
refusal alone (spec 09 R152, R153). -/

namespace Sys2Proof.Machine

/-! ## What an acceptance records -/

/-- What a write to CMD leaves behind at its acceptance: the refused flag and the last accepted code (spec 09 R152). -/
def CommandUnit.acceptance (c : CommandUnit) : Bool × Byte := (c.refused, c.lastAccepted)

section Acceptance

variable (s : State)

@[simp] theorem State.accept_acceptance (c : Byte) : (s.accept c).cmd.acceptance = (false, c) := rfl

@[simp] theorem State.complete_acceptance (c : Byte) (r : Result) (words : Vector Word 6) :
    (s.complete c r words).cmd.acceptance = s.cmd.acceptance := rfl

@[simp] theorem State.finish_acceptance (c : HostCommand) (words : Vector Word 6) :
    (s.finish c words).cmd.acceptance = s.cmd.acceptance := rfl

@[simp] theorem State.fail_acceptance (c : HostCommand) (r : Result) : (s.fail c r).cmd.acceptance = s.cmd.acceptance := rfl

@[simp] theorem State.wait_acceptance (w : Waiting) : (s.wait w).cmd.acceptance = s.cmd.acceptance := rfl

@[simp] theorem State.withMode_acceptance (m : Mode) : (s.withMode m).cmd.acceptance = s.cmd.acceptance := rfl

@[simp] theorem State.stopIfDone_acceptance : s.stopIfDone.cmd.acceptance = s.cmd.acceptance := by
  rcases s.stopIfDone_cases with ⟨-, -, -, -, h⟩ | ⟨-, h⟩ <;> rw [h]
  rfl

/-! ## Carrying a command out -/

theorem doSetStation_acceptance : (doSetStation s).cmd.acceptance = s.cmd.acceptance := by
  unfold doSetStation
  split
  · rfl
  · split <;> rfl

theorem doSetLearn_acceptance : (doSetLearn s).cmd.acceptance = s.cmd.acceptance := by
  unfold doSetLearn
  split <;> rfl

theorem doSetTiming_acceptance : (doSetTiming s).cmd.acceptance = s.cmd.acceptance := by
  unfold doSetTiming
  split <;> rfl

theorem doSetReserve_acceptance : (doSetReserve s).cmd.acceptance = s.cmd.acceptance := by
  unfold doSetReserve
  split <;> rfl

theorem doClearLoss_acceptance : (doClearLoss s).cmd.acceptance = s.cmd.acceptance := rfl

theorem doSetLine_acceptance : (doSetLine s).cmd.acceptance = s.cmd.acceptance := by
  unfold doSetLine
  split
  · rfl
  · split <;> rfl

theorem doLineOn_acceptance : (doLineOn s).cmd.acceptance = s.cmd.acceptance := by
  unfold doLineOn
  split
  · rfl
  · split <;> rfl

@[simp] theorem closeLine_acceptance (l : LineNo) : (closeLine l s).cmd.acceptance = s.cmd.acceptance := by
  unfold closeLine
  split <;> rfl

theorem doLineOff_acceptance : (doLineOff s).cmd.acceptance = s.cmd.acceptance := by
  unfold doLineOff
  split
  · rfl
  · split <;> simp

theorem doSrcAdd_acceptance : (doSrcAdd s).cmd.acceptance = s.cmd.acceptance := by
  unfold doSrcAdd
  split
  · rfl
  · split
    · rfl
    · split <;> rfl

theorem suspendSource_acceptance (k : SlotNo) : (suspendSource k s).cmd.acceptance = s.cmd.acceptance := by
  simp [suspendSource, suspendAll_cmd]

theorem doSrcSuspend_acceptance : (doSrcSuspend s).cmd.acceptance = s.cmd.acceptance := by
  unfold doSrcSuspend
  split
  · rfl
  · split
    · rfl
    · split
      · exact suspendSource_acceptance _ _
      · rfl

theorem doSrcResume_acceptance : (doSrcResume s).cmd.acceptance = s.cmd.acceptance := by
  unfold doSrcResume
  split
  · rfl
  · split
    · rfl
    · split <;> rfl

theorem removeSource_acceptance (k : SlotNo) : (removeSource k s).cmd.acceptance = s.cmd.acceptance := by
  unfold removeSource
  dsimp only
  split <;> simp

theorem doSrcRemove_acceptance : (doSrcRemove s).cmd.acceptance = s.cmd.acceptance := by
  unfold doSrcRemove
  split
  · rfl
  · split
    · rfl
    · exact removeSource_acceptance _ _

theorem abortNow_acceptance (n : CtxNo) (notify : Bool) : (abortNow n notify s).cmd.acceptance = s.cmd.acceptance := by
  simp [abortNow]

theorem doCtxAbort_acceptance : (doCtxAbort s).cmd.acceptance = s.cmd.acceptance := by
  unfold doCtxAbort
  split
  · rfl
  · split
    · rfl
    · split
      · simp
      · exact abortNow_acceptance _ _ _

theorem doRelease_acceptance : (doRelease s).cmd.acceptance = s.cmd.acceptance := by
  unfold doRelease
  split
  · rw [State.finish_acceptance, State.freeCtx_cmd]
  · rfl
  · rfl

theorem doFlush_acceptance : (doFlush s).cmd.acceptance = s.cmd.acceptance := by
  unfold doFlush
  dsimp only
  split <;> simp

theorem doStart_acceptance : (doStart s).cmd.acceptance = s.cmd.acceptance := by
  unfold doStart
  split
  · rfl
  · split <;> rfl

theorem doStop_acceptance : (doStop s).cmd.acceptance = s.cmd.acceptance := by
  unfold doStop
  split <;> simp

theorem doQueryCtx_acceptance : (doQueryCtx s).cmd.acceptance = s.cmd.acceptance := by
  unfold doQueryCtx
  split <;> rfl

theorem doQuerySrc_acceptance : (doQuerySrc s).cmd.acceptance = s.cmd.acceptance := by
  unfold doQuerySrc
  split
  · rfl
  · split <;> rfl

theorem doQueryPool_acceptance : (doQueryPool s).cmd.acceptance = s.cmd.acceptance := rfl

end Acceptance

/-! ## The rows that write CMD -/

/-- The row is a write of this code to CMD: it is refused while BUSY, else accepted, and what it then carries out touches neither
the refused flag nor the last accepted code. -/
def WritesCode (c : Instr) (code : Byte) : Prop :=
  ∃ carryOut : State → State, (∀ s, (carryOut s).cmd.acceptance = s.cmd.acceptance) ∧
    ∀ s, exec c s = awake s (cmdWrite code carryOut)

theorem writesCode_badCommand {w : Word} (wf : (Instr.badCommand w).wf = true) : WritesCode (.badCommand w) (loByte w) := by
  have unnamed : namesCommand w = false := by simpa [Instr.wf] using wf
  exact ⟨fun s => s.complete (loByte w) .badCommand noWords, fun _ => rfl, fun s => by simp [exec, execBadCommand, unnamed]⟩

/-- Every well-formed row with a code byte is a write of that code to CMD. -/
theorem writesCode_of_cmdCode {c : Instr} {code : Byte} (wf : c.wf = true) (named : c.cmdCode = some code) :
    WritesCode c code := by
  cases c with
  | badCommand w => cases named; exact writesCode_badCommand wf
  | setStation => cases named; exact ⟨_, doSetStation_acceptance, fun _ => rfl⟩
  | setLearn => cases named; exact ⟨_, doSetLearn_acceptance, fun _ => rfl⟩
  | setTiming => cases named; exact ⟨_, doSetTiming_acceptance, fun _ => rfl⟩
  | setReserve => cases named; exact ⟨_, doSetReserve_acceptance, fun _ => rfl⟩
  | setLine => cases named; exact ⟨_, doSetLine_acceptance, fun _ => rfl⟩
  | lineOn => cases named; exact ⟨_, doLineOn_acceptance, fun _ => rfl⟩
  | lineOff => cases named; exact ⟨_, doLineOff_acceptance, fun _ => rfl⟩
  | srcAdd => cases named; exact ⟨_, doSrcAdd_acceptance, fun _ => rfl⟩
  | srcRemove => cases named; exact ⟨_, doSrcRemove_acceptance, fun _ => rfl⟩
  | srcSuspend => cases named; exact ⟨_, doSrcSuspend_acceptance, fun _ => rfl⟩
  | srcResume => cases named; exact ⟨_, doSrcResume_acceptance, fun _ => rfl⟩
  | ctxAbort => cases named; exact ⟨_, doCtxAbort_acceptance, fun _ => rfl⟩
  | release => cases named; exact ⟨_, doRelease_acceptance, fun _ => rfl⟩
  | flush => cases named; exact ⟨_, doFlush_acceptance, fun _ => rfl⟩
  | start => cases named; exact ⟨_, doStart_acceptance, fun _ => rfl⟩
  | stop => cases named; exact ⟨_, doStop_acceptance, fun _ => rfl⟩
  | queryCtx => cases named; exact ⟨_, doQueryCtx_acceptance, fun _ => rfl⟩
  | querySrc => cases named; exact ⟨_, doQuerySrc_acceptance, fun _ => rfl⟩
  | queryPool => cases named; exact ⟨_, doQueryPool_acceptance, fun _ => rfl⟩
  | clearLoss => cases named; exact ⟨_, doClearLoss_acceptance, fun _ => rfl⟩
  | _ => cases named

theorem wf_of_exec_next {c : Instr} {s t : State} (h : exec c s = .next t) : c.wf = true := by
  cases c with
  | badCommand w =>
    cases named : namesCommand w with
    | true => simp [exec, execBadCommand, named] at h
    | false => simp [Instr.wf, named]
  | ignoredWrite a w =>
    cases writable : writableAddr a with
    | true => simp [exec, execIgnoredWrite, writable] at h
    | false => simp [Instr.wf, writable]
  | _ => rfl

section Writes

variable {c : Instr} {code : Byte} {s t : State}

theorem WritesCode.exec_busy (write : WritesCode c code) {w : Waiting} (hrstn : s.pins.rstnLow = false)
    (busy : s.cmd.state = .busy w) : exec c s = .next { s with cmd := { s.cmd with refused := true } } := by
  obtain ⟨carryOut, -, hexec⟩ := write
  rw [hexec, awake_eq _ _ hrstn, cmdWrite_busy _ _ _ busy]

/-- An accepted write clears the refused flag and records its code. -/
theorem WritesCode.acceptance_of_accepts (write : WritesCode c code) (accepts : s.accepts) (h : exec c s = .next t) :
    t.cmd.acceptance = (false, code) := by
  obtain ⟨carryOut, kept, hexec⟩ := write
  obtain ⟨hrstn, idle⟩ := accepts
  rw [hexec, awake_eq _ _ hrstn, cmdWrite_idle _ _ _ idle] at h
  cases h
  rw [kept, State.accept_acceptance]

/-- A write that is not accepted leaves a refused flag that is set. -/
theorem WritesCode.accepts_of_clears (write : WritesCode c code) (h : exec c s = .next t) (refused : s.cmd.refused = true)
    (cleared : t.cmd.refused = false) : s.accepts := by
  cases hrstn : s.pins.rstnLow with
  | true =>
    obtain ⟨carryOut, -, hexec⟩ := write
    rw [hexec, awake_asleep _ _ hrstn] at h
    cases h
    simp [refused] at cleared
  | false =>
    cases hstate : s.cmd.state with
    | idle => exact ⟨hrstn, hstate⟩
    | busy w =>
      rw [write.exec_busy hrstn hstate] at h
      cases h
      simp at cleared

end Writes

/-! ## The other rows -/

theorem awake_acceptance {s t : State} {f : State → State} (h : awake s f = .next t)
    (kept : (f s).cmd.acceptance = s.cmd.acceptance) : t.cmd.acceptance = s.cmd.acceptance := by
  rcases awake_next h with ⟨-, rfl⟩ | ⟨-, rfl⟩
  · rfl
  · exact kept

theorem hostRead_acceptance {s t : State} {a : RegAddr} {f : State → State} (h : hostRead a f s = .next t)
    (kept : (f s).cmd.acceptance = s.cmd.acceptance) : t.cmd.acceptance = s.cmd.acceptance := by
  cases h
  dsimp only
  split
  · rfl
  · exact kept

@[simp] theorem checkCell_acceptance (n : CtxNo) (crc : Word32) (w : Walk) (s : State) :
    (checkCell n crc w s).cmd.acceptance = s.cmd.acceptance := by
  unfold checkCell
  dsimp only
  split
  · rfl
  · split <;> simp

@[simp] theorem completeStopped_acceptance (r : Ctx) (s : State) :
    (completeStopped r s).cmd.acceptance = s.cmd.acceptance := by
  unfold completeStopped
  split <;> simp

@[simp] theorem engineStop_acceptance (n : CtxNo) (s : State) : (engineStop n s).cmd.acceptance = s.cmd.acceptance := by
  simp [engineStop]

@[simp] theorem completeLineOff_acceptance (l : LineNo) (s : State) :
    (completeLineOff l s).cmd.acceptance = s.cmd.acceptance := by
  unfold completeLineOff
  split <;> rfl

section Rows

variable {s t : State}

theorem execAdmissionEvent_acceptance (h : execAdmissionEvent s = .next t) : t.cmd.acceptance = s.cmd.acceptance := by
  refine awake_acceptance h ?_
  split
  · split <;> simp
  · rfl

theorem execCellCompletion_acceptance (h : execCellCompletion s = .next t) : t.cmd.acceptance = s.cmd.acceptance := by
  unfold execCellCompletion at h
  refine awake_acceptance h ?_
  split
  · rfl
  · split <;> simp

theorem execFrameStart_acceptance {l : LineNo} (h : execFrameStart l s = .next t) :
    t.cmd.acceptance = s.cmd.acceptance := by
  unfold execFrameStart at h
  refine awake_acceptance h ?_
  split
  · rfl
  · split <;> rfl

theorem execAbortEnd_acceptance {l : LineNo} (h : execAbortEnd l s = .next t) : t.cmd.acceptance = s.cmd.acceptance := by
  refine awake_acceptance h ?_
  dsimp only
  split
  · split <;> simp
  · rfl

theorem execIgnoredWrite_acceptance {a : RegAddr} {w : Word} (h : execIgnoredWrite a w s = .next t) :
    t.cmd.acceptance = s.cmd.acceptance := by
  unfold execIgnoredWrite at h
  split at h
  · cases h
  · cases h; rfl

/-- No row but HARDWARE_RESET and the writes to CMD touches the refused flag or the last accepted code. -/
theorem exec_acceptance {c : Instr} (noWrite : c.cmdCode = none) (noReset : c ≠ .hardwareReset) (h : exec c s = .next t) :
    t.cmd.acceptance = s.cmd.acceptance := by
  cases c with
  | hardwareReset => exact absurd rfl noReset
  | tick => exact awake_acceptance h (by split <;> simp)
  | expiryDecision n => exact awake_acceptance h (by split <;> simp)
  | byteReception l b good => exact awake_acceptance h (by split <;> simp)
  | admissionEvent => exact execAdmissionEvent_acceptance h
  | takeHead => exact awake_acceptance h (by split <;> rfl)
  | cellCompletion => exact execCellCompletion_acceptance h
  | frameStart l => exact execFrameStart_acceptance h
  | frameEnd l => exact awake_acceptance h (by split <;> simp)
  | abortEnd l => exact execAbortEnd_acceptance h
  | stopCompletion => exact awake_acceptance h s.stopIfDone_acceptance
  | msgHead0 => exact hostRead_acceptance h (by rw [head0Effect_cmd])
  | data => exact hostRead_acceptance h (by rw [dataEffect_cmd])
  | evtPop => exact hostRead_acceptance h (by rw [popEffect_cmd])
  | cmdResult =>
    rw [exec, execCmdResult] at h
    exact hostRead_acceptance h rfl
  | evtMaskWrite r w =>
    rw [exec, execEvtMaskWrite] at h
    exact awake_acceptance h (by split <;> rfl)
  | irqEn w =>
    rw [exec, execIrqEn] at h
    exact awake_acceptance h rfl
  | cmdArg r w =>
    rw [exec, execCmdArg] at h
    exact awake_acceptance h rfl
  | ignoredWrite a w => exact execIgnoredWrite_acceptance (w := w) h
  | rxdReturnToMark l => exact awake_acceptance h (by split <;> rfl)
  | leaveReset => cases h; rfl
  | _ => cases noWrite

end Rows

/-- Only a hardware reset and an accepted write to CMD clear a refused flag that is set (09 R153). -/
theorem clears_refused {c : Instr} {s t : State} (h : exec c s = .next t) (refused : s.cmd.refused = true)
    (cleared : t.cmd.refused = false) : c = .hardwareReset ∨ ((∃ code, c.cmdCode = some code) ∧ s.accepts) := by
  cases named : c.cmdCode with
  | some code =>
    have write : WritesCode c code := writesCode_of_cmdCode (wf_of_exec_next h) named
    exact .inr ⟨⟨code, rfl⟩, write.accepts_of_clears h refused cleared⟩
  | none =>
    by_contra other
    have kept := exec_acceptance named (fun reset => other (.inl reset)) h
    have same : t.cmd.refused = s.cmd.refused := congrArg Prod.fst kept
    simp [same, refused] at cleared

/-- Settles O37: every row with a code is one write to CMD, and no row but HARDWARE_RESET moves the flag otherwise. -/
theorem busyUnitRefusesWrites : Obligations.BusyUnitRefusesWrites := by
  unfold Obligations.BusyUnitRefusesWrites
  refine ⟨fun c s code w wf named hrstn busy => (writesCode_of_cmdCode wf named).exec_busy hrstn busy, ?_,
    fun c s t h refused cleared => clears_refused h refused cleared⟩
  intro c s t code named accepts h
  have recorded := (writesCode_of_cmdCode (wf_of_exec_next h) named).acceptance_of_accepts accepts h
  exact ⟨congrArg Prod.fst recorded, congrArg Prod.snd recorded⟩

end Sys2Proof.Machine
end

