-- ==== Sys2Proof/Proofs/StartMode.lean ====
section
/-! SUPPORT. START, and what ticks, the check engine and the transmitters do in the RUN that it begins (spec 09 R157). -/

namespace Sys2Proof.Machine

variable {s : State}

/-! ## START -/

/-- Acceptance and completion in one event. -/
theorem complete_accept (s : State) (c : Byte) (r : Result) (words : Vector Word 6) :
    (s.accept c).complete c r words = { s with cmd := s.cmd.completed c r words } := rfl

@[simp] theorem State.accept_station (s : State) (c : Byte) : (s.accept c).cmd.station = s.cmd.station := rfl

theorem exec_start_accepts (accepts : s.accepts) : exec .start s = .next (doStart (s.accept 0x20)) :=
  hostCommand_accepts .start doStart accepts

theorem exec_start_outsideConfig (accepts : s.accepts) (mode : s.cmd.mode ≠ .config) :
    exec .start s = .next { s with cmd := s.cmd.completed 0x20 .wrongMode (Vector.replicate 6 0) } := by
  rw [exec_start_accepts accepts, doStart, State.accept_mode, if_pos mode]
  exact congrArg _ (complete_accept s 0x20 .wrongMode noWords)

theorem exec_start_noStation (accepts : s.accepts) (mode : s.cmd.mode = .config) (station : s.cmd.station = 0) :
    exec .start s = .next { s with cmd := s.cmd.completed 0x20 .badArgument (Vector.replicate 6 0) } := by
  rw [exec_start_accepts accepts, doStart, State.accept_mode, if_neg (not_not.2 mode), State.accept_station, if_pos station]
  exact congrArg _ (complete_accept s 0x20 .badArgument noWords)

/-- The part as START leaves it: in RUN, and otherwise as it was but for the command's completion. -/
def State.started (s : State) : State :=
  { s with cmd := { s.cmd.completed 0x20 .ok (Vector.replicate 6 0) with mode := .run } }

theorem exec_start_started (accepts : s.accepts) (mode : s.cmd.mode = .config) (station : s.cmd.station ≠ 0) :
    exec .start s = .next s.started := by
  rw [exec_start_accepts accepts, doStart, State.accept_mode, if_neg (not_not.2 mode), State.accept_station, if_neg station]
  rfl

/-! ## The events of a RUN -/

theorem exec_tick_settled (hrstn : s.pins.rstnLow = false) (run : s.cmd.mode = .run)
    (settled : ∀ n : CtxNo, s.timer.owed[n] = false) : exec .tick s = .next (tickInRun s) := by
  refine (awake_eq s _ hrstn).trans ?_
  rw [if_pos run, takeOwed_settled settled]

theorem ticked_collecting {r : Ctx} (collecting : r.state = .collecting) :
    r.ticked.idle = r.idle + 1 ∧ r.ticked.lifetime = r.lifetime + 1 := by
  simp [Ctx.ticked, collecting]

theorem exec_takeHead_begins (hrstn : s.pins.rstnLow = false) (run : s.cmd.mode = .run) (idle : s.checker.engine = .idle)
    (waiting : s.checker.queue ≠ []) :
    exec .takeHead s = .next { s with checker := { s.checker with engine := .checking crc32Ones Walk.start } } :=
  (awake_eq s _ hrstn).trans (congrArg _ (if_pos ⟨idle, run, waiting⟩))

theorem exec_frameStart_sends {l : LineNo} {f : CtrlFrame} {rest : List CtrlFrame} (hrstn : s.pins.rstnLow = false)
    (run : s.cmd.mode = .run) (on : (s.line l).state = .on) (idle : (s.line l).tx = .idle)
    (waiting : (s.line l).queue = f :: rest) :
    exec (.frameStart l) s =
      .next (s.setLine l { s.line l with tx := .sending, wire := frameOnLine (f.content s.cmd.station) }) := by
  rw [exec, execFrameStart, awake_eq _ _ hrstn]
  simp [waiting, idle, on, run]

/-! ## What START begins -/

theorem started_tick (hrstn : s.pins.rstnLow = false) (settled : ∀ n : CtxNo, s.timer.owed[n] = false) :
    ∃ u, exec .tick s.started = .next u ∧ ∀ n, (s.ctx n).state = .collecting →
      (u.ctx n).idle = (s.ctx n).idle + 1 ∧ (u.ctx n).lifetime = (s.ctx n).lifetime + 1 := by
  refine ⟨tickInRun s.started, exec_tick_settled hrstn rfl settled, fun n collecting => ?_⟩
  rw [tickInRun_ctx]
  exact ticked_collecting collecting

theorem started_takeHead (hrstn : s.pins.rstnLow = false) (idle : s.checker.engine = .idle) {n : CtxNo} {rest : List CtxNo}
    (waiting : s.checker.queue = n :: rest) : ∃ u, exec .takeHead s.started = .next u ∧ u.underCheck = some n := by
  have nonempty : s.checker.queue ≠ [] := by simp [waiting]
  refine ⟨_, exec_takeHead_begins (s := s.started) hrstn rfl idle nonempty, State.underCheck_some.2 ⟨nofun, ?_⟩⟩
  exact congrArg List.head? waiting

theorem started_frameStart (hrstn : s.pins.rstnLow = false) {l : LineNo} (idle : (s.line l).tx = .idle)
    (on : (s.line l).state = .on) (waiting : (s.line l).queue ≠ []) :
    ∃ u, exec (.frameStart l) s.started = .next u ∧ (u.line l).tx = .sending := by
  obtain ⟨f, rest, hqueue⟩ := List.exists_cons_of_ne_nil waiting
  refine ⟨_, exec_frameStart_sends (s := s.started) hrstn rfl on idle hqueue, ?_⟩
  rw [State.line_setLine_same]

/-- Settles O41: START's three outcomes, and the invariant's clauses for CONFIG carried into the RUN it begins. -/
theorem startEntersRun : Obligations.StartEntersRun := by
  unfold Obligations.StartEntersRun
  intro s hrstn
  refine ⟨fun idle run => exec_start_outsideConfig ⟨hrstn, idle⟩ (by simp [run]),
    fun idle config station => exec_start_noStation ⟨hrstn, idle⟩ config station,
    fun inv stopping => inv.stopping.1 stopping, fun idle config station => ?_⟩
  refine ⟨s.started, exec_start_started ⟨hrstn, idle⟩ config station, rfl, fun inv => ?_⟩
  have outsideRun : s.cmd.mode ≠ .run := by simp [config]
  exact ⟨inv.buffersInRun outsideRun, started_tick hrstn (inv.owedInRun outsideRun),
    fun n rest waiting => started_takeHead hrstn (inv.configEngine config) waiting,
    fun l on waiting => started_frameStart hrstn (inv.configTx config l) on waiting⟩

end Sys2Proof.Machine
end

