-- ==== Sys2Proof/Proofs/EventPosting.lean ====
section
/-! SUPPORT. What the rows do to the event block: every row but the five that access it directly does nothing there but post
events (spec 10 R173, R174). -/

namespace Sys2Proof.Machine

/-! ## Blocks that differ by postings -/

/-- A block comes from another by posting some events in turn. -/
def EventBlock.PostsTo (before after : EventBlock) : Prop :=
  ∃ events : List EventRec, after = events.foldl EventBlock.post before

namespace EventBlock.PostsTo

variable {a b c : EventBlock}

theorem refl (a : EventBlock) : a.PostsTo a := ⟨[], rfl⟩

theorem of_eq (h : b = a) : a.PostsTo b := h ▸ refl a

theorem trans (first : a.PostsTo b) (second : b.PostsTo c) : a.PostsTo c := by
  obtain ⟨early, rfl⟩ := first
  obtain ⟨late, rfl⟩ := second
  exact ⟨early ++ late, List.foldl_append.symm⟩

theorem post (h : a.PostsTo b) (e : EventRec) : a.PostsTo (b.post e) := h.trans ⟨[e], rfl⟩

/-- Postings write the queue, the overflow flag and the loss count alone. -/
theorem frame (h : a.PostsTo b) : b = { a with queue := b.queue, overflow := b.overflow, loss := b.loss } := by
  obtain ⟨events, rfl⟩ := h
  induction events generalizing a with
  | nil => rfl
  | cons e rest ih =>
    have first := a.post_frame e
    rw [List.foldl_cons, ih]
    rw [first]

theorem latches (h : a.PostsTo b) : b.latches = a.latches := by rw [h.frame]

end EventBlock.PostsTo

/-! ## Shared operations -/

section Operations

variable (s : State)

theorem State.post_posts (e : EventRec) : s.ev.PostsTo (s.post e).ev := (EventBlock.PostsTo.refl _).post e

theorem State.handOver_posts (f : CtrlFrame) (requested : LineNo) (mask : LineMask) :
    s.ev.PostsTo (s.handOver f requested mask).ev := by
  rcases s.handOver_cases f requested mask with ⟨-, h⟩ | ⟨l, -, -, ⟨-, h⟩ | ⟨queue, -, h⟩⟩ <;> rw [h]
  · exact s.post_posts _
  · exact s.post_posts _
  · exact .refl _

theorem State.refuseCtx_posts (r : Ctx) (reason : Reason) : s.ev.PostsTo (s.refuseCtx r reason).ev :=
  s.handOver_posts _ _ _

@[simp] theorem State.freeCtx_ev (n : CtxNo) : (s.freeCtx n).ev = s.ev := by rw [State.freeCtx_frame]

@[simp] theorem State.requestStop_ev (n : CtxNo) : (s.requestStop n).ev = s.ev := by rw [State.requestStop_frame]

@[simp] theorem State.stopIfDone_ev : s.stopIfDone.ev = s.ev := by
  rcases s.stopIfDone_cases with ⟨-, -, -, -, h⟩ | ⟨-, h⟩ <;> rw [h]

/-- A refusal about a record, an event about it, then its freeing: the shape of eviction, expiry and a failed check. -/
theorem State.refusePostFree_posts (r : Ctx) (reason : Reason) (e : EventRec) (n : CtxNo) :
    s.ev.PostsTo (((s.refuseCtx r reason).post e).freeCtx n).ev := by
  rw [State.freeCtx_ev]
  exact (s.refuseCtx_posts r reason).post e

theorem State.loseHeld_posts (n : CtxNo) (cause : LossCause) : s.ev.PostsTo (s.loseHeld n cause).ev := by
  rcases s.loseHeld_cases n cause with ⟨-, h⟩ | ⟨-, h⟩ <;> rw [h]
  · exact .refl _
  · exact State.post_posts { s with readout := _ } _

theorem State.freeByCommand_posts (n : CtxNo) (cause : LossCause) : s.ev.PostsTo (s.freeByCommand n cause).ev := by
  rw [State.freeByCommand, State.freeCtx_ev]
  exact s.loseHeld_posts n cause

theorem freeAll_posts (records : List CtxNo) (cause : LossCause) : s.ev.PostsTo (freeAll records cause s).ev :=
  freeAll_induct (fun t => s.ev.PostsTo t.ev) records cause (fun t n _ h => h.trans (t.freeByCommand_posts n cause)) s
    (.refl _)

theorem suspendAll_posts (records : List CtxNo) : s.ev.PostsTo (records.foldl (fun t n => suspendCtx n t) s).ev := by
  induction records generalizing s with
  | nil => exact .refl _
  | cons n rest ih =>
    refine EventBlock.PostsTo.trans ?_ (ih (suspendCtx n s))
    rw [suspendCtx, State.freeCtx_ev]
    exact s.refuseCtx_posts _ _

/-! ## Admission -/

theorem evict_posts (cause : EvictCause) (l : LineNo) (n : CtxNo) : s.ev.PostsTo (evict cause l n s).ev :=
  s.refusePostFree_posts _ _ _ n

theorem evictForCells_posts (k : Nat) (l : LineNo) (records : List CtxNo) :
    s.ev.PostsTo (evictForCells k l records s).ev :=
  evictForCells_induct (fun t => s.ev.PostsTo t.ev) k l (fun t n h _ => h.trans (evict_posts t .cells l n)) records s
    (.refl _)

@[simp] theorem joinIfWhole_ev (n : CtxNo) : (joinIfWhole n s).ev = s.ev := by
  unfold joinIfWhole
  split <;> rfl

@[simp] theorem allocateAndStore_ev (n : CtxNo) (seg : Segment) : (allocateAndStore n seg s).ev = s.ev := rfl

theorem storeSegment_posts (n : CtxNo) (seg : Segment) : s.ev.PostsTo (storeSegment n seg s).ev := by
  unfold storeSegment
  rw [joinIfWhole_ev, allocateAndStore_ev]
  split
  · exact evictForCells_posts _ _ _ _
  · exact .refl _

theorem storedDuplicate_posts (n : CtxNo) (seg : Segment) : s.ev.PostsTo (storedDuplicate n seg s).ev := by
  have posted : s.ev.PostsTo (s.ev.post (segmentEvent .dupDropped seg (some n) (numAt DupKind.stored.code 0))) :=
    s.post_posts _
  unfold storedDuplicate
  dsimp only
  split
  · rw [joinIfWhole_ev]
    exact posted
  · exact posted

theorem conflict_posts (n : CtxNo) (seg : Segment) (kind : ConflictKind) : s.ev.PostsTo (conflict n seg kind s).ev :=
  s.post_posts _

theorem starve_posts (n : CtxNo) (seg : Segment) : s.ev.PostsTo (starve n seg s).ev :=
  (s.setCtx n { s.ctx n with starved := true }).post_posts _

theorem storeInto_posts (n : CtxNo) (seg : Segment) : s.ev.PostsTo (storeInto n seg s).ev := by
  unfold storeInto
  dsimp only
  split
  · exact conflict_posts _ _ _ _
  · split
    · split
      · exact storedDuplicate_posts _ _ _
      · exact conflict_posts _ _ _ _
    · split
      · exact storeSegment_posts _ _ _
      · exact starve_posts _ _ _

theorem refuseAndPost_posts (seg : Segment) (reason : Reason) : s.ev.PostsTo (refuseAndPost seg reason s).ev :=
  (s.handOver_posts _ _ _).post _

theorem refuseForCells_posts (seg : Segment) : s.ev.PostsTo (refuseForCells seg s).ev :=
  (s.handOver_posts _ _ _).post _

theorem openAt_posts (n : CtxNo) (k : SlotNo) (cls : MsgClass) (seg : Segment) :
    s.ev.PostsTo (openAt n k cls seg s).ev :=
  (s.post_posts (segmentEvent .ctxOpened seg (some n) (numAt cls.code 0))).trans (storeSegment_posts _ n seg)

theorem openContext_posts (k : SlotNo) (cls : MsgClass) (seg : Segment) : s.ev.PostsTo (openContext k cls seg s).ev := by
  unfold openContext
  dsimp only
  split
  · exact refuseAndPost_posts _ _ _
  · split
    · split
      · exact openAt_posts _ _ _ _ _
      · exact refuseForCells_posts _ _
    · split
      · exact refuseAndPost_posts _ _ _
      · split
        · exact refuseAndPost_posts _ _ _
        · split
          · exact (evict_posts _ _ _ _).trans (openAt_posts _ _ _ _ _)
          · exact refuseForCells_posts _ _

theorem answerFromHistory_posts (k : SlotNo) (h : HistRec) (seg : Segment) (n : Option CtxNo) :
    s.ev.PostsTo (answerFromHistory k h seg n s).ev := by
  unfold answerFromHistory
  split
  · exact (s.handOver_posts (historyReceipt seg) seg.line 0).post _
  · exact s.post_posts _

theorem resolveElsewhere_posts (k : SlotNo) (cls : MsgClass) (seg : Segment) (n : Option CtxNo) :
    s.ev.PostsTo (resolveElsewhere k cls seg n s).ev := by
  unfold resolveElsewhere
  split
  · exact answerFromHistory_posts _ _ _ _ _
  · split
    · exact s.post_posts _
    · exact openContext_posts _ _ _ _

theorem resolveKey_posts (k : SlotNo) (cls : MsgClass) (seg : Segment) : s.ev.PostsTo (resolveKey k cls seg s).ev := by
  unfold resolveKey
  split
  · split
    · exact storeInto_posts _ _ _
    · exact resolveElsewhere_posts _ _ _ _ _
  · exact resolveElsewhere_posts _ _ _ _ _

theorem admitFrom_posts (k : SlotNo) (seg : Segment) : s.ev.PostsTo (admitFrom k seg s).ev := by
  unfold admitFrom
  split
  · exact refuseAndPost_posts _ _ _
  · exact resolveKey_posts _ _ _ _

theorem checkSource_posts (seg : Segment) : s.ev.PostsTo (checkSource seg s).ev := by
  unfold checkSource
  split
  · split
    · exact .refl _
    · exact refuseAndPost_posts _ _ _
    · exact admitFrom_posts _ _ _
    · exact .refl _
  · split
    · split
      · exact (s.post_posts _).trans (admitFrom_posts _ _ _)
      · exact s.post_posts _
    · exact s.post_posts _

theorem admitFrame_posts (l : LineNo) (content : List Byte) : s.ev.PostsTo (admitFrame l content s).ev := by
  unfold admitFrame
  split
  · exact s.post_posts _
  · split
    · exact s.post_posts _
    · split
      · exact s.post_posts _
      · exact checkSource_posts _ _

theorem serveLine_posts (l : LineNo) : s.ev.PostsTo (serveLine l s).ev :=
  admitFrame_posts { s with rotation := l } l _

/-! ## Decisions and receivers -/

theorem sendGap_posts (n : CtxNo) : s.ev.PostsTo (sendGap n s).ev := (s.handOver_posts _ _ _).post _

theorem expire_posts (n : CtxNo) (cause : ExpiryCause) : s.ev.PostsTo (expire n cause s).ev :=
  s.refusePostFree_posts _ _ _ n

theorem decideExpiry_posts (n : CtxNo) : s.ev.PostsTo (decideExpiry n s).ev := by
  rcases decideExpiry_cases n s with h | ⟨-, h⟩ | ⟨-, cause, h⟩ <;> rw [h]
  · exact .refl _
  · exact sendGap_posts s n
  · exact expire_posts s n cause

theorem takeDecision_posts (n : CtxNo) : s.ev.PostsTo (takeDecision n s).ev := by
  unfold takeDecision
  split
  · exact decideExpiry_posts (s.settleDecision n) n
  · exact .refl _

theorem takeOwed_posts : s.ev.PostsTo (takeOwed s).ev :=
  takeOwed_induct (fun t => s.ev.PostsTo t.ev) (fun n t h => h.trans (takeDecision_posts t n)) s (.refl _)

@[simp] theorem tickInRun_ev : (tickInRun s).ev = s.ev := rfl

theorem dropFrame_posts (l : LineNo) (reason : LineReason) : s.ev.PostsTo (dropFrame l reason s).ev := by
  unfold dropFrame
  dsimp only
  split
  · exact (s.post_posts _).post _
  · exact s.post_posts _

theorem goodFrame_posts (l : LineNo) (content : List Byte) : s.ev.PostsTo (goodFrame l content s).ev := by
  unfold goodFrame
  dsimp only
  split
  · exact .refl _
  · split
    · exact .refl _
    · exact s.post_posts _

theorem receiveByte_posts (l : LineNo) (b : Byte) (stopGood : Bool) : s.ev.PostsTo (receiveByte l b stopGood s).ev := by
  unfold receiveByte
  dsimp only
  split
  · exact .refl _
  · exact dropFrame_posts (s.setLine l _) _ _
  · exact goodFrame_posts (s.setLine l _) _ _

/-! ## The check engine and the readout port -/

@[simp] theorem State.pushHistory_ev (a : Byte) (msgno : MsgNo) : (s.pushHistory a msgno).ev = s.ev := by
  unfold State.pushHistory
  split <;> rfl

@[simp] theorem State.dropSource_ev (a : Byte) : (s.dropSource a).ev = s.ev := by
  unfold State.dropSource
  split <;> rfl

theorem endMatch_posts (n : CtxNo) : s.ev.PostsTo (endMatch n s).ev := by
  unfold endMatch
  rw [State.engineIdle_ev, State.post_ev, State.pushHistory_ev]
  refine EventBlock.PostsTo.post (EventBlock.PostsTo.trans ?_ (State.handOver_posts _ _ _ _)) _
  exact .refl _

theorem endMismatch_posts (n : CtxNo) : s.ev.PostsTo (endMismatch n s).ev := s.refusePostFree_posts _ _ _ n

theorem checkCell_posts (n : CtxNo) (crc : Word32) (w : Walk) : s.ev.PostsTo (checkCell n crc w s).ev := by
  unfold checkCell
  dsimp only
  split
  · exact .refl _
  · split <;> rw [State.stopIfDone_ev]
    · exact endMatch_posts s n
    · exact endMismatch_posts s n

theorem abortOutputs_posts (n : CtxNo) (r : Ctx) (notify : Bool) : s.ev.PostsTo (abortOutputs n r notify s).ev := by
  cases notify
  · exact s.post_posts _
  · exact (s.refuseCtx_posts r .aborted).post _

theorem stopOutputs_posts (n : CtxNo) : s.ev.PostsTo (stopOutputs n s).ev := by
  unfold stopOutputs
  split
  · exact abortOutputs_posts _ _ _ _
  all_goals exact .refl _

@[simp] theorem completeStopped_ev (r : Ctx) : (completeStopped r s).ev = s.ev := by
  unfold completeStopped
  split <;> simp

theorem engineStop_posts (n : CtxNo) : s.ev.PostsTo (engineStop n s).ev := by
  rw [engineStop, completeStopped_ev, State.engineIdle_ev, State.freeCtx_ev]
  exact stopOutputs_posts s n

@[simp] theorem head0Effect_ev : (head0Effect s).ev = s.ev := by
  unfold head0Effect
  split
  · split <;> rfl
  · rfl
  · rfl

@[simp] theorem dataEffect_ev : (dataEffect s).ev = s.ev := by
  unfold dataEffect
  split
  · dsimp only
    split
    · rfl
    · split <;> rfl
  · rfl
  · rfl

/-! ## Carrying a command out -/

theorem doSetStation_ev : (doSetStation s).ev = s.ev := by
  unfold doSetStation
  split
  · rfl
  · split <;> rfl

theorem doSetLearn_ev : (doSetLearn s).ev = s.ev := by
  unfold doSetLearn
  split <;> rfl

theorem doSetTiming_ev : (doSetTiming s).ev = s.ev := by
  unfold doSetTiming
  split <;> rfl

theorem doSetReserve_ev : (doSetReserve s).ev = s.ev := by
  unfold doSetReserve
  split <;> rfl

theorem doSetLine_ev : (doSetLine s).ev = s.ev := by
  unfold doSetLine
  split
  · rfl
  · split <;> rfl

theorem doLineOn_ev : (doLineOn s).ev = s.ev := by
  unfold doLineOn
  split
  · rfl
  · split <;> rfl

@[simp] theorem closeLine_ev (l : LineNo) : (closeLine l s).ev = s.ev := by
  unfold closeLine
  split <;> rfl

theorem doLineOff_ev : (doLineOff s).ev = s.ev := by
  unfold doLineOff
  split
  · rfl
  · split <;> simp

theorem doSrcAdd_ev : (doSrcAdd s).ev = s.ev := by
  unfold doSrcAdd
  split
  · rfl
  · split
    · rfl
    · split <;> rfl

theorem doSrcSuspend_posts : s.ev.PostsTo (doSrcSuspend s).ev := by
  unfold doSrcSuspend
  split
  · exact .refl _
  · split
    · exact .refl _
    · split
      · exact suspendAll_posts (s.setSource _ _) _
      · exact .refl _

theorem doSrcResume_ev : (doSrcResume s).ev = s.ev := by
  unfold doSrcResume
  split
  · rfl
  · split
    · rfl
    · split <;> rfl

theorem removeSource_posts (k : SlotNo) : s.ev.PostsTo (removeSource k s).ev := by
  unfold removeSource
  dsimp only
  split
  · exact freeAll_posts (s.setSource k _) _ _
  · rw [State.wait_ev, State.requestStop_ev]
    exact freeAll_posts (s.setSource k _) _ _

theorem doSrcRemove_posts : s.ev.PostsTo (doSrcRemove s).ev := by
  unfold doSrcRemove
  split
  · exact .refl _
  · split
    · exact .refl _
    · exact removeSource_posts s _

theorem abortNow_posts (n : CtxNo) (notify : Bool) : s.ev.PostsTo (abortNow n notify s).ev :=
  (abortOutputs_posts s n (s.ctx n) notify).trans (State.freeByCommand_posts _ n .abort)

theorem doCtxAbort_posts : s.ev.PostsTo (doCtxAbort s).ev := by
  unfold doCtxAbort
  split
  · exact .refl _
  · split
    · exact .refl _
    · split
      · rw [State.wait_ev, State.requestStop_ev]
        exact .refl _
      · exact abortNow_posts s _ _

theorem doRelease_ev : (doRelease s).ev = s.ev := by
  unfold doRelease
  split
  · rw [State.finish_ev, State.freeCtx_ev]
  · rfl
  · rfl

theorem doFlush_posts : s.ev.PostsTo (doFlush s).ev := by
  unfold doFlush
  dsimp only
  split
  · exact freeAll_posts s _ _
  · rw [State.wait_ev, State.requestStop_ev]
    exact freeAll_posts s _ _

theorem doStart_ev : (doStart s).ev = s.ev := by
  unfold doStart
  split
  · rfl
  · split <;> rfl

theorem doStop_ev : (doStop s).ev = s.ev := by
  unfold doStop
  split
  · rfl
  · rw [State.stopIfDone_ev]
    rfl

theorem doQueryCtx_ev : (doQueryCtx s).ev = s.ev := by
  unfold doQueryCtx
  split <;> rfl

theorem doQuerySrc_ev : (doQuerySrc s).ev = s.ev := by
  unfold doQuerySrc
  split
  · rfl
  · split <;> rfl

theorem doQueryPool_ev : (doQueryPool s).ev = s.ev := rfl

end Operations

/-! ## The rows -/

section Rows

variable {s t : State}

theorem awake_posts {f : State → State} (h : awake s f = .next t) (posts : s.ev.PostsTo (f s).ev) :
    s.ev.PostsTo t.ev := by
  rcases awake_next h with ⟨-, rfl⟩ | ⟨-, rfl⟩
  · exact .refl _
  · exact posts

theorem cmdWrite_posts {c : Byte} {f : State → State} (posts : ∀ u : State, u.ev.PostsTo (f u).ev) :
    s.ev.PostsTo (cmdWrite c f s).ev := by
  unfold cmdWrite
  split
  · exact .refl _
  · exact posts (s.accept c)

theorem hostCommand_posts {c : HostCommand} {f : State → State} (h : hostCommand c f s = .next t)
    (posts : ∀ u : State, u.ev.PostsTo (f u).ev) : s.ev.PostsTo t.ev :=
  awake_posts h (cmdWrite_posts posts)

theorem hostRead_ev {a : RegAddr} {f : State → State} (h : hostRead a f s = .next t) (kept : (f s).ev = s.ev) :
    t.ev = s.ev := by
  cases h
  dsimp only
  split
  · rfl
  · exact kept

theorem execAdmissionEvent_posts (h : execAdmissionEvent s = .next t) : s.ev.PostsTo t.ev := by
  refine awake_posts h ?_
  split
  · split
    · exact serveLine_posts s _
    · exact .refl _
  · exact .refl _

theorem execCellCompletion_posts (h : execCellCompletion s = .next t) : s.ev.PostsTo t.ev := by
  unfold execCellCompletion at h
  refine awake_posts h ?_
  split
  · exact .refl _
  · split
    · exact .refl _
    · exact checkCell_posts s _ _ _
    · exact engineStop_posts s _

theorem execFrameStart_posts {l : LineNo} (h : execFrameStart l s = .next t) : s.ev.PostsTo t.ev := by
  unfold execFrameStart at h
  refine awake_posts h ?_
  split
  · exact .refl _
  · split <;> exact .refl _

@[simp] theorem completeLineOff_ev (l : LineNo) (s : State) : (completeLineOff l s).ev = s.ev := by
  unfold completeLineOff
  split <;> rfl

theorem execAbortEnd_posts {l : LineNo} (h : execAbortEnd l s = .next t) : s.ev.PostsTo t.ev := by
  refine awake_posts h (.of_eq ?_)
  dsimp only
  split
  · split <;> simp
  · rfl

theorem execBadCommand_posts {w : Word} (h : execBadCommand w s = .next t) : s.ev.PostsTo t.ev := by
  unfold execBadCommand at h
  split at h
  · cases h
  · exact awake_posts h (cmdWrite_posts fun u => .refl u.ev)

theorem execIgnoredWrite_eq {a : RegAddr} {w : Word} (h : execIgnoredWrite a w s = .next t) : t = s := by
  unfold execIgnoredWrite at h
  split at h
  · cases h
  · cases h
    rfl

/-- The rows that access the event block itself: reset, EVT_POP, the masks, the enables and CLEAR_LOSS. -/
def accessesEvents : Instr → Bool
  | .hardwareReset | .evtPop | .evtMaskWrite _ _ | .irqEn _ | .clearLoss => true
  | _ => false

/-- Every other row only posts events. -/
theorem exec_posts {c : Instr} (other : accessesEvents c = false) (h : exec c s = .next t) : s.ev.PostsTo t.ev := by
  cases c with
  | hardwareReset => cases other
  | evtPop => cases other
  | evtMaskWrite r w => cases other
  | irqEn w => cases other
  | clearLoss => cases other
  | tick =>
    refine awake_posts h ?_
    split
    · rw [tickInRun_ev]
      exact takeOwed_posts s
    · exact .refl _
  | expiryDecision n =>
    refine awake_posts h ?_
    split
    · exact takeDecision_posts s n
    · exact .refl _
  | byteReception l b good =>
    refine awake_posts h ?_
    split
    · exact receiveByte_posts s l b good
    · exact .refl _
  | admissionEvent => exact execAdmissionEvent_posts h
  | takeHead => exact awake_posts h (by split <;> exact .refl _)
  | cellCompletion => exact execCellCompletion_posts h
  | frameStart l => exact execFrameStart_posts h
  | frameEnd l => exact awake_posts h (.of_eq (by split <;> simp))
  | abortEnd l => exact execAbortEnd_posts h
  | stopCompletion => exact awake_posts h (.of_eq s.stopIfDone_ev)
  | msgHead0 => exact .of_eq (hostRead_ev h (head0Effect_ev s))
  | data => exact .of_eq (hostRead_ev h (dataEffect_ev s))
  | cmdResult =>
    rw [exec, execCmdResult] at h
    exact .of_eq (hostRead_ev h rfl)
  | cmdArg r w =>
    rw [exec, execCmdArg] at h
    exact awake_posts h (.refl _)
  | ignoredWrite a w => exact .of_eq (congrArg State.ev (execIgnoredWrite_eq (w := w) h))
  | badCommand w => exact execBadCommand_posts h
  | rxdReturnToMark l => exact awake_posts h (by split <;> exact .refl _)
  | leaveReset => cases h; exact .refl _
  | setStation => exact hostCommand_posts h fun u => .of_eq (doSetStation_ev u)
  | setLearn => exact hostCommand_posts h fun u => .of_eq (doSetLearn_ev u)
  | setTiming => exact hostCommand_posts h fun u => .of_eq (doSetTiming_ev u)
  | setReserve => exact hostCommand_posts h fun u => .of_eq (doSetReserve_ev u)
  | setLine => exact hostCommand_posts h fun u => .of_eq (doSetLine_ev u)
  | lineOn => exact hostCommand_posts h fun u => .of_eq (doLineOn_ev u)
  | lineOff => exact hostCommand_posts h fun u => .of_eq (doLineOff_ev u)
  | srcAdd => exact hostCommand_posts h fun u => .of_eq (doSrcAdd_ev u)
  | srcSuspend => exact hostCommand_posts h doSrcSuspend_posts
  | srcResume => exact hostCommand_posts h fun u => .of_eq (doSrcResume_ev u)
  | srcRemove => exact hostCommand_posts h doSrcRemove_posts
  | ctxAbort => exact hostCommand_posts h doCtxAbort_posts
  | release => exact hostCommand_posts h fun u => .of_eq (doRelease_ev u)
  | flush => exact hostCommand_posts h doFlush_posts
  | start => exact hostCommand_posts h fun u => .of_eq (doStart_ev u)
  | stop => exact hostCommand_posts h fun u => .of_eq (doStop_ev u)
  | queryCtx => exact hostCommand_posts h fun u => .of_eq (doQueryCtx_ev u)
  | querySrc => exact hostCommand_posts h fun u => .of_eq (doQuerySrc_ev u)
  | queryPool => exact hostCommand_posts h fun u => .of_eq (doQueryPool_ev u)

end Rows

end Sys2Proof.Machine
end

