-- ==== Sys2Proof/Proofs/EventPop.lean ====
section
/-! SUPPORT. A read of EVT_POP: the word it returns, what it latches, and what the latch registers show until the next one (spec
10 R176). -/

namespace Sys2Proof.Machine

/-! ## Register words as sums of their fields -/

/-- A field above all the bits of a number adds to it. -/
theorem ofNat_or_numAt {low k : Nat} (fits : low < 2 ^ k) (n : Nat) :
    BitVec.ofNat 16 low ||| numAt n k = BitVec.ofNat 16 (low + 2 ^ k * n) := by
  have field : numAt n k = BitVec.ofNat 16 (n <<< k) := by
    apply BitVec.eq_of_toNat_eq
    simp [numAt, Nat.shiftLeft_eq, Nat.mod_mul_mod]
  have sum : low ||| n <<< k = low + 2 ^ k * n := by
    rw [Nat.or_comm, ← Nat.shiftLeft_add_eq_or_of_lt fits, Nat.shiftLeft_eq, Nat.mul_comm, Nat.add_comm]
  rw [field, ← BitVec.ofNat_or, sum]

/-- A flag is a field of one bit. -/
theorem flagAt_eq_numAt (b : Bool) (k : Nat) : flagAt b k = numAt b.toNat k := by
  cases b
  · simp [flagAt, numAt]
  · rfl

theorem ofNat_or_flagAt {low k : Nat} (fits : low < 2 ^ k) (b : Bool) :
    BitVec.ofNat 16 low ||| flagAt b k = BitVec.ofNat 16 (low + 2 ^ k * b.toNat) := by
  rw [flagAt_eq_numAt, ofNat_or_numAt fits]

/-! ## The word that EVT_POP returns -/

section PopWord

variable {ev : EventBlock}

theorem popWord_empty (empty : ev.queue = []) : ev.popWord = BitVec.ofNat 16 (if ev.overflow then 2 else 0) := by
  rw [EventBlock.popWord, empty]
  cases ev.overflow <;> rfl

theorem popWord_head {e : EventRec} {rest : List EventRec} (queue : ev.queue = e :: rest) :
    ev.popWord =
      BitVec.ofNat 16
        (1 + (if ev.overflow then 2 else 0) + (match e.line with | some l => 4 + 8 * l.val | none => 0) +
          256 * e.kind.code) := by
  have present : flagAt true 0 = BitVec.ofNat 16 1 := rfl
  have overflow : (if ev.overflow then 2 else 0) = 2 * ev.overflow.toNat := by cases ev.overflow <;> rfl
  have line :
      (match e.line with | some l => 4 + 8 * l.val | none => 0) =
        4 * e.line.isSome.toNat + 8 * (e.line.map Fin.val).getD 0 := by
    cases e.line <;> rfl
  have lineFits : (e.line.map Fin.val).getD 0 < 4 := by
    cases e.line with
    | none => decide
    | some l => exact l.isLt
  have overflowFits := ev.overflow.toNat_le
  have validFits := e.line.isSome.toNat_le
  rw [EventBlock.popWord, queue, overflow, line]
  dsimp only
  rw [present, ofNat_or_flagAt (by omega), ofNat_or_flagAt (by omega), ofNat_or_numAt (by omega), ofNat_or_numAt (by omega)]
  congr 1
  omega

end PopWord

/-! ## The words of the latch registers -/

theorem ctxSrcWord_eq (t : Latches) :
    t.ctxSrcWord =
      BitVec.ofNat 16
        ((match t.source with | some a => a.toNat | none => 0) +
          (match t.ctx with | some n => 32768 + 256 * n.val | none => 0)) := by
  have source : (match t.source with | some a => a.toNat | none => 0) = (t.source.getD 0).toNat := by
    cases t.source <;> rfl
  have ctx :
      (match t.ctx with | some n => 32768 + 256 * n.val | none => 0) =
        32768 * t.ctx.isSome.toNat + 256 * (t.ctx.map Fin.val).getD 0 := by
    cases t.ctx <;> rfl
  have sourceFits : (t.source.getD 0).toNat < 2 ^ 8 := (t.source.getD 0).isLt
  have ctxFits : (t.ctx.map Fin.val).getD 0 < 32 := by
    cases t.ctx with
    | none => decide
    | some n => exact n.isLt
  rw [source, ctx, Latches.ctxSrcWord, ← BitVec.ofNat_toNat, ofNat_or_numAt sourceFits, ofNat_or_flagAt (by omega)]
  congr 1
  omega

theorem msgnoWord_eq (t : Latches) :
    t.msgnoWord = BitVec.ofNat 16 (match t.msgno with | some m => 32768 + m.toNat | none => 0) := by
  rw [Latches.msgnoWord]
  cases t.msgno with
  | none => rfl
  | some m =>
    have fits : m.toNat < 2 ^ 15 := by omega
    rw [Option.getD_some, ← BitVec.ofNat_toNat, ofNat_or_flagAt fits]
    congr 1
    simp [Nat.add_comm]

section ReadBack

variable (s : State)

theorem readWord_ctxSrc : s.readWord 0x21 = s.ev.latches.ctxSrcWord := rfl

theorem readWord_msgno : s.readWord 0x22 = s.ev.latches.msgnoWord := rfl

theorem readWord_detail : s.readWord 0x23 = s.ev.latches.detail := rfl

/-- The three latch registers read 0 behind cleared latches. -/
theorem readWord_cleared (cleared : s.ev.latches = .cleared) :
    s.readWord 0x21 = 0 ∧ s.readWord 0x22 = 0 ∧ s.readWord 0x23 = 0 := by
  rw [readWord_ctxSrc, readWord_msgno, readWord_detail, cleared]
  exact ⟨rfl, rfl, rfl⟩

end ReadBack

/-! ## The read -/

section Pop

variable {s : State}

/-- A read of EVT_POP takes its word from the queue before the head leaves. -/
theorem exec_evtPop_eq (hrstn : s.pins.rstnLow = false) :
    exec .evtPop s = .next { popEffect s with pins := { (popEffect s).pins with dataOut := some s.ev.popWord } } :=
  hostRead_eq 0x20 popEffect s hrstn

theorem popEffect_head {e : EventRec} {rest : List EventRec} (queue : s.ev.queue = e :: rest) :
    popEffect s = { s with ev := { s.ev with queue := rest, latches := ⟨e.ctx, e.source, e.msgno, e.detail⟩ } } := by
  simp [popEffect, queue]

theorem popEffect_empty (empty : s.ev.queue = []) :
    popEffect s = { s with ev := { s.ev with latches := .cleared } } := by
  simp [popEffect, empty]

theorem exec_evtPop_head (hrstn : s.pins.rstnLow = false) {e : EventRec} {rest : List EventRec}
    (queue : s.ev.queue = e :: rest) :
    exec .evtPop s = .next
      { s with
        ev := { s.ev with queue := rest, latches := ⟨e.ctx, e.source, e.msgno, e.detail⟩ }
        pins :=
          { s.pins with
            dataOut := some (BitVec.ofNat 16
              (1 + (if s.ev.overflow then 2 else 0) + (match e.line with | some l => 4 + 8 * l.val | none => 0) +
                256 * e.kind.code)) } } := by
  rw [exec_evtPop_eq hrstn, popEffect_head queue, popWord_head queue]

theorem exec_evtPop_empty (hrstn : s.pins.rstnLow = false) (empty : s.ev.queue = []) :
    exec .evtPop s = .next
      { s with
        ev := { s.ev with latches := .cleared }
        pins := { s.pins with dataOut := some (BitVec.ofNat 16 (if s.ev.overflow then 2 else 0)) } } := by
  rw [exec_evtPop_eq hrstn, popEffect_empty empty, popWord_empty empty]

end Pop

/-! ## Until the next read -/

/-- The other rows that access the event block leave the latches too: they write masks, enables, loss count and overflow flag. -/
theorem exec_latches {c : Instr} {s t : State} (h : exec c s = .next t) (noPop : c ≠ .evtPop) (noReset : c ≠ .hardwareReset) :
    t.ev.latches = s.ev.latches := by
  cases access : accessesEvents c with
  | false => exact (exec_posts access h).latches
  | true =>
    cases c with
    | hardwareReset => exact absurd rfl noReset
    | evtPop => exact absurd rfl noPop
    | evtMaskWrite r w =>
      rw [exec, execEvtMaskWrite] at h
      rcases awake_next h with ⟨-, rfl⟩ | ⟨-, rfl⟩
      · rfl
      · split <;> rfl
    | irqEn w =>
      rw [exec, execIrqEn] at h
      rcases awake_next h with ⟨-, rfl⟩ | ⟨-, rfl⟩ <;> rfl
    | clearLoss =>
      rcases hostCommand_next h with ⟨-, rfl⟩ | ⟨-, -, rfl⟩ | ⟨-, rfl⟩ <;> rfl
    | _ => cases access

/-- Settles O34: the pop's two outcomes, and the latches through every row that is neither a pop nor a reset. -/
theorem readOfEvtPop : Obligations.ReadOfEvtPop := by
  unfold Obligations.ReadOfEvtPop
  refine ⟨fun s hrstn => ⟨fun e rest queue => ?_, fun empty => ?_⟩, fun _ _ _ => exec_latches, readWord_cleared _ rfl⟩
  · exact ⟨_, exec_evtPop_head hrstn queue, rfl, ctxSrcWord_eq _, msgnoWord_eq _, rfl⟩
  · exact ⟨_, exec_evtPop_empty hrstn empty, rfl, readWord_cleared _ rfl⟩

end Sys2Proof.Machine
end

