-- ==== Sys2Proof/Proofs/CommandWords.lean ====
section
/-! SUPPORT. The words written to CMD: which row each one is, and what that row does to the command unit (spec 11 R182). -/

namespace Sys2Proof.Machine

/-! ## The words that name a command -/

/-- The word that names a command: bits 15..8 zero, bits 7..0 its code (spec 11 R182). -/
def commandWord (c : HostCommand) : Word := c.code.setWidth 16

theorem namesCommand_iff (w : Word) : namesCommand w = true ↔ w ∈ HostCommand.all.map commandWord := by
  simp only [namesCommand, List.any_eq_true, List.mem_map, beq_iff_eq, commandWord, eq_comm (a := w)]

theorem rowOfCmdWord_commandWord (c : HostCommand) : rowOfCmdWord (commandWord c) = c.row := by
  rw [rowOfCmdWord, commandWord, commandOfWord_code]

/-- CMD is the register at address 0x00 (spec 11 11.3). -/
theorem rowOfWrite_cmd (w : Word) : rowOfWrite 0x00 w = rowOfCmdWord w := rfl

theorem rowOfWrite_commandWord (c : HostCommand) : rowOfWrite 0x00 (commandWord c) = c.row :=
  (rowOfWrite_cmd _).trans (rowOfCmdWord_commandWord c)

theorem rowOfWrite_unnamed {w : Word} (unnamed : namesCommand w = false) : rowOfWrite 0x00 w = .badCommand w :=
  (rowOfWrite_cmd w).trans (rowOfCmdWord_none unnamed)

/-! ## The code of a written word -/

theorem HostCommand.row_cmdCode (c : HostCommand) : c.row.cmdCode = some c.code := by
  cases c <;> rfl

theorem loByte_commandWord (c : HostCommand) : loByte (commandWord c) = c.code :=
  BitVec.setWidth_setWidth_of_le c.code (by decide)

/-- The code that a write to CMD carries is bits 7..0 of its word, whether or not the word names a command. -/
theorem rowOfWrite_cmdCode (w : Word) : (rowOfWrite 0x00 w).cmdCode = some (loByte w) := by
  cases named : namesCommand w with
  | true =>
    obtain ⟨c, -, rfl⟩ := List.mem_map.1 ((namesCommand_iff w).1 named)
    rw [rowOfWrite_commandWord, HostCommand.row_cmdCode, loByte_commandWord]
  | false =>
    rw [rowOfWrite_unnamed named]
    rfl

theorem writesCode_rowOfWrite (w : Word) : WritesCode (rowOfWrite 0x00 w) (loByte w) :=
  writesCode_of_cmdCode (rowOfCmdWord_wf w) (rowOfWrite_cmdCode w)

/-! ## What the write does -/

/-- A write taken while IDLE answers a next state, with the refused flag cleared and its code recorded. -/
theorem WritesCode.exec_accepts {c : Instr} {code : Byte} (write : WritesCode c code) {s : State} (accepts : s.accepts) :
    ∃ t, exec c s = .next t ∧ t.cmd.acceptance = (false, code) := by
  obtain ⟨carryOut, kept, hexec⟩ := write
  obtain ⟨hrstn, idle⟩ := accepts
  refine ⟨carryOut (s.accept code), ?_, ?_⟩
  · rw [hexec, awake_eq _ _ hrstn, cmdWrite_idle _ _ _ idle]
  · rw [kept, State.accept_acceptance]

section BadCommand

variable {w : Word} {s : State}

theorem exec_badCommand (unnamed : namesCommand w = false) :
    exec (.badCommand w) s = awake s (cmdWrite (loByte w) fun t => t.complete (loByte w) .badCommand noWords) := by
  simp [exec, execBadCommand, unnamed]

theorem exec_badCommand_accepts (unnamed : namesCommand w = false) (accepts : s.accepts) :
    exec (.badCommand w) s =
      .next { s with cmd := s.cmd.completed (loByte w) .badCommand (Vector.replicate 6 0) } := by
  obtain ⟨hrstn, idle⟩ := accepts
  rw [exec_badCommand unnamed, awake_eq _ _ hrstn, cmdWrite_idle _ _ _ idle]
  exact congrArg _ (complete_accept s (loByte w) .badCommand noWords)

end BadCommand

/-- Settles O38: a word's row carries the word's low byte as its code, so every write to CMD is accepted or refused alike, and a
word outside the code table is the row BAD_COMMAND. -/
theorem wordsThatNameNoCommand : Obligations.WordsThatNameNoCommand := by
  unfold Obligations.WordsThatNameNoCommand
  refine ⟨namesCommand_iff, ?_, fun _ => rowOfWrite_unnamed, fun s w hrstn => ⟨fun idle => ?_, fun v => ?_⟩,
    fun s w unnamed hrstn => ⟨fun idle => ?_, fun v => ?_⟩⟩
  · exact (List.forall_mem_map (f := fun c => (commandWord c, c.row)) (l := HostCommand.all)).2
      fun c _ => rowOfWrite_commandWord c
  · obtain ⟨t, answer, recorded⟩ := (writesCode_rowOfWrite w).exec_accepts ⟨hrstn, idle⟩
    exact ⟨t, answer, congrArg Prod.snd recorded, congrArg Prod.fst recorded⟩
  · exact (writesCode_rowOfWrite w).exec_busy hrstn
  · exact exec_badCommand_accepts unnamed ⟨hrstn, idle⟩
  · rw [← rowOfWrite_unnamed unnamed]
    exact (writesCode_rowOfWrite w).exec_busy hrstn

end Sys2Proof.Machine
end

