-- ==== Sys2Proof/Proofs/EnableWrites.lean ====
section
/-! SUPPORT. Writes to EVT_MASK0, EVT_MASK1 and IRQ_EN, and what the three registers read back (spec 11 R184). -/

namespace Sys2Proof.Machine

/-- A register that holds the n low bits of a written word reads back the word with its other bits 0. -/
theorem setWidth_setWidth_eq_and (w : Word) (n : Nat) :
    (w.setWidth n).setWidth 16 = w &&& BitVec.ofNat 16 (2 ^ n - 1) := by
  apply BitVec.eq_of_getLsbD_eq
  intro i hi
  simp only [BitVec.getLsbD_setWidth, BitVec.getLsbD_and, BitVec.getLsbD_ofNat, Nat.testBit_two_pow_sub_one, hi, decide_true,
    Bool.true_and, Bool.and_comm]

section ReadBack

variable (s : State)

theorem readWord_mask0 : s.readWord 0x25 = s.ev.mask0 := rfl

theorem readWord_mask1 : s.readWord 0x26 = s.ev.mask1.setWidth 16 := rfl

theorem readWord_irqEn : s.readWord 0x28 = s.ev.irqEn.setWidth 16 := rfl

end ReadBack

section Writes

variable {s : State} (hrstn : s.pins.rstnLow = false) (w : Word)
include hrstn

theorem exec_evtMaskWrite_mask0 :
    exec (.evtMaskWrite 0 w) s = .next { s with ev := { s.ev with mask0 := w } } := by
  rw [exec, execEvtMaskWrite, awake_eq _ _ hrstn]
  rfl

theorem exec_evtMaskWrite_mask1 :
    exec (.evtMaskWrite 1 w) s = .next { s with ev := { s.ev with mask1 := w.setWidth 5 } } := by
  rw [exec, execEvtMaskWrite, awake_eq _ _ hrstn]
  rfl

theorem exec_irqEn : exec (.irqEn w) s = .next { s with ev := { s.ev with irqEn := w.setWidth 3 } } := by
  rw [exec, execIrqEn, awake_eq _ _ hrstn]

end Writes

/-- Settles O36: EVT_MASK1 holds 5 bits and IRQ_EN 3, so those alone of the written word are kept and read back. -/
theorem maskAndEnableWrites : Obligations.MaskAndEnableWrites := by
  unfold Obligations.MaskAndEnableWrites
  intro s w hrstn
  refine ⟨⟨_, exec_evtMaskWrite_mask0 hrstn w, rfl, readWord_mask0 _⟩,
    ⟨_, exec_evtMaskWrite_mask1 hrstn w, rfl, ?_⟩, ⟨_, exec_irqEn hrstn w, rfl, ?_⟩⟩
  · exact (readWord_mask1 _).trans (setWidth_setWidth_eq_and w 5)
  · exact (readWord_irqEn _).trans (setWidth_setWidth_eq_and w 3)

end Sys2Proof.Machine
end

