-- ==== Sys2Proof/Proofs/Changes.lean ====
section
/-! SUPPORT. The elementary changes that the part's operations make to its records, cells, sources, queues and waiting frames, each
with the circumstances in which it is made. Every row is a chain of them (RowChanges), so that what each of them keeps, every row
keeps. -/

namespace Sys2Proof.Machine

/-! ## Adjustments of a record -/

/-- A record whose message stands: only its counts of time, retries and duplicates and its starved flag differ, and a FREE one
stays as it is. -/
structure Ctx.Adjusts (r q : Ctx) : Prop where
  same : q =
    { r with
      retries := q.retries, idle := q.idle, lifetime := q.lifetime, starved := q.starved, dupCount := q.dupCount }
  duplicates : r.dupCount ≤ 255 → q.dupCount ≤ 255
  free : r.state = .free → q = r

theorem Ctx.Adjusts.refl (r : Ctx) : r.Adjusts r := ⟨rfl, id, fun _ => rfl⟩

namespace Ctx.Adjusts

variable {r q : Ctx} (h : r.Adjusts q)
include h

theorem state : q.state = r.state := by rw [h.same]
theorem source : q.source = r.source := by rw [h.same]
theorem msgno : q.msgno = r.msgno := by rw [h.same]
theorem cls : q.cls = r.cls := by rw [h.same]
theorem lastIndex : q.lastIndex = r.lastIndex := by rw [h.same]
theorem checkWord : q.checkWord = r.checkWord := by rw [h.same]
theorem slots : q.slots = r.slots := by rw [h.same]
theorem chain : q.chain = r.chain := by rw [h.same]
theorem presentCount : q.presentCount = r.presentCount := by rw [h.same]
theorem byteCount : q.byteCount = r.byteCount := by rw [h.same]
theorem abortPending : q.abortPending = r.abortPending := by rw [h.same]

end Ctx.Adjusts

/-! ## The states that the compound changes leave -/

/-- Record n opened for a segment from source slot k, before its store (spec 01 R14). -/
def State.openedFor (s : State) (n : CtxNo) (k : SlotNo) (cls : MsgClass) (seg : Segment) : State :=
  (State.setCtx { s with ageList := s.ageList ++ [n] } n (Ctx.opened cls seg)).setSource k
    { s.source k with openCount := (s.source k).openCount + 1 }

/-- Record n after its check matched, its outputs left out (spec 05 R91). -/
def State.matched (s : State) (n : CtxNo) : State :=
  { s with
    ctxs := s.ctxs.set n { s.ctx n with state := .ready }
    checker := { queue := s.checker.queue.erase n, engine := .idle }
    delivery := deliveryInsert (fun m => (s.ctx m).cls) s.delivery n
    sources := (s.pushHistory (s.ctx n).source (s.ctx n).msgno).sources }

/-- A segment whose length is legal and which carries that many bytes (spec 03 R52). -/
structure Segment.Fits (seg : Segment) : Prop where
  positive : 1 ≤ seg.length
  bounded : seg.length ≤ 128
  payload : seg.payload.length = seg.length

/-! ## The changes -/

/-- What a chain of changes may rest on, and what its row may do: that the collections agree at its start; that the sources do; that
the row may end a check or remove a source; that it may take decisions; that it may move the engine; that it may claim or release a
message; that it may write the lines; that it may write the timer and the dials (`Dials` in RowChanges); that it may store a segment;
and the keys under which it may open a record. -/
structure Warrant where
  collections : Prop
  sources : Prop
  closing : Prop
  deciding : Prop
  moving : Prop
  claiming : Prop
  lining : Prop
  stirring : Prop
  storing : Prop
  opening : Byte → MsgNo → Prop

/-- One elementary change. -/
inductive Change (w : Warrant) : State → State → Prop
  | posts (s : State) (e : EventRec) : Change w s (s.post e)
  | hands (s : State) (l : LineNo) (f : CtrlFrame) (queue : List CtrlFrame) (on : (s.line l).state = .on)
      (placed : placeFrame f (s.line l).inFlight (s.line l).queue = some queue) :
      Change w s (s.setLine l { s.line l with queue := queue })
  | settles (s : State) (n : CtxNo) (deciding : w.deciding) : Change w s (s.settleDecision n)
  | adjusts (s : State) (ctxs : Vector Ctx 32) (same : ∀ n : CtxNo, (s.ctx n).Adjusts ctxs[n]) :
      Change w s { s with ctxs := ctxs }
  | names (s : State) (n : CtxNo) (seg : Segment) (collecting : (s.ctx n).state = .collecting) (last : seg.last = true)
      (unknown : (s.ctx n).lastIndex = none) (passes : (s.ctx n).lastConflict seg = none)
      (present : ((s.ctx n).slots[seg.index]).isSome) :
      Change w s (joinIfWhole n (s.setCtx n ((s.ctx n).duplicated seg)))
  | stores (s : State) (n : CtxNo) (seg : Segment) (fits : seg.Fits) (collecting : (s.ctx n).state = .collecting)
      (passes : (s.ctx n).lastConflict seg = none) (absent : (s.ctx n).slots[seg.index] = none)
      (room : w.collections → cellsFor seg.length ≤ s.freeCount) (storing : w.storing) :
      Change w s (joinIfWhole n (allocateAndStore n seg s))
  | opens (s : State) (n : CtxNo) (k : SlotNo) (cls : MsgClass) (seg : Segment) (free : (s.ctx n).state = .free)
      (unheld : s.lookupKey seg.source seg.msgno = none) (enabled : (s.source k).state = .enabled)
      (address : (s.source k).address = seg.source) (unseen : (s.source k).findHistory seg.msgno = none)
      (limit : (s.source k).openCount < (s.source k).openLimit) (opening : w.opening seg.source seg.msgno) :
      Change w s (s.openedFor n k cls seg)
  | frees (s : State) (n : CtxNo) (used : w.collections → (s.ctx n).state ≠ .free)
      (unclaimed : w.collections → (s.ctx n).state ≠ .delivering) (unchecked : w.collections → s.underCheck ≠ some n) :
      Change w s (s.freeCtx n)
  | loses (s : State) (n : CtxNo) (r : Readout) (held : w.collections → (s.ctx n).state = .delivering)
      (port : r = .cleared ∧ w.claiming ∨ r = { s.readout with port := .lost, remaining := 0 }) :
      Change w s { s.freeCtx n with readout := r }
  | ends (s : State) (n : CtxNo) (checked : s.underCheck = some n) (closing : w.closing) (moving : w.moving) :
      Change w s (s.freeCtx n).engineIdle
  | confirms (s : State) (n : CtxNo) (checked : s.underCheck = some n) (running : ∃ crc v, s.checker.engine = .checking crc v)
      (closing : w.closing) (moving : w.moving) : Change w s (s.matched n)
  | requests (s : State) (n : CtxNo) (checked : s.underCheck = some n) (moving : w.moving) : Change w s (s.requestStop n)
  | takes (s : State) (idle : s.checker.engine = .idle) (waiting : s.checker.queue ≠ []) (moving : w.moving) :
      Change w s { s with checker := { s.checker with engine := .checking crc32Ones Walk.start } }
  | walks (s : State) (n : CtxNo) (rest : List CtxNo) (crc : Word32) (v next : Walk) (queue : s.checker.queue = n :: rest)
      (engine : s.checker.engine = .checking crc v) (within : (s.ctx n).walkNext v = some next)
      (moving : w.moving) :
      Change w s
        { s with
          checker := { s.checker with engine := .checking (crc32Fold crc ((s.ctx n).walkBytes s.pool.mem v)) next } }
  | claims (s : State) (n : CtxNo) (rest : List CtxNo) (port : s.readout.port = .none) (queue : s.delivery = n :: rest)
      (claiming : w.claiming) : Change w s (claim n rest s)
  | reads (s : State) (n : CtxNo) (v : Walk) (held : s.readout.port = .held n v) (more : 0 < s.readout.remaining) :
      Change w s
        { s with
          readout :=
            { s.readout with port := .held n ((s.ctx n).readoutNext v), remaining := s.readout.remaining - 1 } }
  | releases (s : State) (lost : s.readout.port = .lost) (claiming : w.claiming) : Change w s { s with readout := .cleared }
  | adds (s : State) (k : SlotNo) (e : SourceEntry) (unused : (s.source k).state = .unused)
      (unknown : s.findSource e.address = none) (enabled : e.state = .enabled) (count : e.openCount = 0)
      (history : e.history = []) : Change w s (s.setSource k e)
  | marks (s : State) (k : SlotNo) (st : SourceState) (used : (s.source k).state ≠ .unused)
      (state : st = .enabled ∧ (s.source k).state = .suspended ∨ st = .suspended ∧ (s.source k).state = .enabled ∨
        st = .removing ∧ w.closing) :
      Change w s (s.setSource k { s.source k with state := st })
  | drops (s : State) (k : SlotNo) (closing : w.closing)
      (gone : w.sources → ∀ n, (s.ctx n).state ≠ .free → (s.ctx n).source ≠ (s.source k).address) :
      Change w s (s.setSource k .cleared)
  | spends (s : State) (k : SlotNo) (msgno : MsgNo) : Change w s (s.setSource k ((s.source k).spendCredit msgno))

/-- A chain of changes. -/
abbrev Changes (w : Warrant) : State → State → Prop := Relation.ReflTransGen (Change w)

/-- One record adjusted. -/
theorem Change.adjust {w : Warrant} (s : State) (n : CtxNo) {r : Ctx} (same : (s.ctx n).Adjusts r) :
    Change w s (s.setCtx n r) := by
  refine .adjusts s _ fun m => ?_
  change (s.ctx m).Adjusts ((s.setCtx n r).ctx m)
  rw [State.ctx_setCtx]
  split
  · rename_i e
    exact e ▸ same
  · exact .refl _

theorem Change.single {w : Warrant} {s t : State} (h : Change w s t) : Changes w s t := Relation.ReflTransGen.single h

theorem Changes.next {w : Warrant} {s t u : State} (h : Changes w s t) (last : Change w t u) : Changes w s u := h.tail last

theorem Changes.append {w : Warrant} {s t u : State} (h : Changes w s t) (rest : Changes w t u) : Changes w s u :=
  h.trans rest

/-- What every change keeps, a chain keeps. -/
theorem Changes.induct {w : Warrant} {s t : State} (P : State → Prop) (h : Changes w s t)
    (keep : ∀ a b, Change w a b → P a → P b) (start : P s) : P t := by
  induction h with
  | refl => exact start
  | tail _ last ih => exact keep _ _ last ih

/-- What a change keeps of the state: a part that no change writes. -/
theorem Changes.const {w : Warrant} {s t : State} {α : Type} (f : State → α) (h : Changes w s t)
    (keep : ∀ a b, Change w a b → f b = f a) : f t = f s :=
  h.induct (fun u => f u = f s) (fun a b step same => (keep a b step).trans same) rfl

end Sys2Proof.Machine
end

