-- ==== Sys2Proof/Proofs/ChangesCollections.lean ====
section
/-! SUPPORT. The elementary changes keep the collections in agreement with the records (spec 01 R21, 05 R85, R99, 08 R138). -/

namespace Sys2Proof.Machine

/-! ## What the compound operations write -/

section Fields

variable (s : State)

@[simp] theorem State.freeCtx_ageList (n : CtxNo) : (s.freeCtx n).ageList = s.ageList.erase n := by rw [State.freeCtx_frame]
@[simp] theorem State.freeCtx_mem (n : CtxNo) : (s.freeCtx n).pool.mem = s.pool.mem := by rw [State.freeCtx_frame]
@[simp] theorem State.freeCtx_reserve (n : CtxNo) : (s.freeCtx n).pool.reserve = s.pool.reserve := by rw [State.freeCtx_frame]
@[simp] theorem State.freeCtx_freeList (n : CtxNo) :
    (s.freeCtx n).pool.freeList = s.pool.freeList ++ (s.ctx n).chain := by rw [State.freeCtx_frame]
@[simp] theorem State.freeCtx_queue (n : CtxNo) : (s.freeCtx n).checker.queue = s.checker.queue.erase n := by
  rw [State.freeCtx_frame]
@[simp] theorem State.freeCtx_engine (n : CtxNo) : (s.freeCtx n).checker.engine = s.checker.engine := by
  rw [State.freeCtx_frame]
@[simp] theorem State.freeCtx_delivery (n : CtxNo) : (s.freeCtx n).delivery = s.delivery.erase n := by rw [State.freeCtx_frame]
@[simp] theorem State.freeCtx_readout (n : CtxNo) : (s.freeCtx n).readout = s.readout := by rw [State.freeCtx_frame]
@[simp] theorem State.freeCtx_lines (n : CtxNo) : (s.freeCtx n).lines = s.lines := by rw [State.freeCtx_frame]
@[simp] theorem State.freeCtx_timer (n : CtxNo) : (s.freeCtx n).timer = s.timer := by rw [State.freeCtx_frame]
@[simp] theorem State.freeCtx_rotation (n : CtxNo) : (s.freeCtx n).rotation = s.rotation := by rw [State.freeCtx_frame]
@[simp] theorem State.freeCtx_pins (n : CtxNo) : (s.freeCtx n).pins = s.pins := by rw [State.freeCtx_frame]
@[simp] theorem State.freeCtx_cutSeq (n : CtxNo) : (s.freeCtx n).cutSeq = s.cutSeq := by rw [State.freeCtx_frame]
@[simp] theorem State.freeCtx_pending (n : CtxNo) : (s.freeCtx n).pending = s.pending := by rw [State.freeCtx_frame]

theorem State.ctx_openedFor (n m : CtxNo) (k : SlotNo) (cls : MsgClass) (seg : Segment) :
    (s.openedFor n k cls seg).ctx m = if m = n then Ctx.opened cls seg else s.ctx m :=
  State.ctx_setCtx { s with ageList := s.ageList ++ [n] } n m _

theorem State.ctx_matched (n m : CtxNo) :
    (s.matched n).ctx m = if m = n then { s.ctx n with state := .ready } else s.ctx m :=
  State.ctx_setCtx s n m _

theorem State.ctx_requestStop (n m : CtxNo) :
    (s.requestStop n).ctx m = if m = n then { s.ctx n with abortPending := true } else s.ctx m := by
  rw [State.requestStop_frame]
  exact State.ctx_setCtx s n m _

theorem State.requestStop_engine_idle (n : CtxNo) :
    (s.requestStop n).checker.engine = .idle ↔ s.checker.engine = .idle := by
  unfold State.requestStop
  split <;> simp_all

theorem ctx_claim (n m : CtxNo) (rest : List CtxNo) :
    (claim n rest s).ctx m = if m = n then { s.ctx n with state := .delivering } else s.ctx m :=
  State.ctx_setCtx { s with delivery := rest, readout := _ } n m _

theorem ctx_allocateAndStore (n m : CtxNo) (seg : Segment) :
    (allocateAndStore n seg s).ctx m =
      if m = n then (s.ctx n).stored seg (s.pool.freeList.take (cellsFor seg.length)) else s.ctx m :=
  State.ctx_setCtx { s with pool := _ } n m _

/-- Record n and the collections once its message was found whole (spec 01 R20). -/
def State.joined (s : State) (n : CtxNo) : State :=
  { s with
    ctxs := s.ctxs.set n { s.ctx n with state := .verifying }
    ageList := s.ageList.erase n
    checker := { s.checker with queue := s.checker.queue ++ [n] } }

theorem State.ctx_joined (n m : CtxNo) :
    (s.joined n).ctx m = if m = n then { s.ctx n with state := .verifying } else s.ctx m :=
  State.ctx_setCtx s n m _

theorem joinIfWhole_cases (n : CtxNo) :
    ((s.ctx n).whole = true ∧ joinIfWhole n s = s.joined n) ∨ ((s.ctx n).whole = false ∧ joinIfWhole n s = s) := by
  cases h : (s.ctx n).whole with
  | true => exact .inl ⟨rfl, by simp only [joinIfWhole, h, if_true]; rfl⟩
  | false => exact .inr ⟨rfl, by simp [joinIfWhole, h]⟩

@[simp] theorem joinIfWhole_pool (n : CtxNo) : (joinIfWhole n s).pool = s.pool := by
  rcases joinIfWhole_cases s n with ⟨-, h⟩ | ⟨-, h⟩ <;> rw [h]
  rfl

@[simp] theorem joinIfWhole_sources (n : CtxNo) : (joinIfWhole n s).sources = s.sources := by
  rcases joinIfWhole_cases s n with ⟨-, h⟩ | ⟨-, h⟩ <;> rw [h]
  rfl

theorem Ctx.duplicated_state (r : Ctx) (seg : Segment) : (r.duplicated seg).state = r.state := by
  unfold Ctx.duplicated
  dsimp only
  split <;> rfl

end Fields

/-! ## The delivery queue with a READY record put in -/

theorem deliveryInsert_perm (cls : CtxNo → MsgClass) (queue : List CtxNo) (n : CtxNo) :
    (deliveryInsert cls queue n).Perm (n :: queue) := by
  unfold deliveryInsert
  split
  · refine List.perm_middle.trans (.cons n ?_)
    rw [List.takeWhile_append_dropWhile]
  · exact List.perm_append_singleton n queue

theorem nodup_snoc {α : Type} {list : List α} {a : α} (nodup : list.Nodup) (new : a ∉ list) : (list ++ [a]).Nodup :=
  (List.perm_append_singleton a list).nodup_iff.2 (List.nodup_cons.2 ⟨new, nodup⟩)

/-! ## The collections under each kind of change -/

namespace CollectionsInv

variable {s t : State} {n : CtxNo} (inv : CollectionsInv s)
include inv

/-- A record under check is VERIFYING. -/
theorem state_underCheck (h : s.underCheck = some n) : (s.ctx n).state = .verifying := by
  obtain ⟨-, head⟩ := State.underCheck_some.1 h
  exact (inv.checkHolds n).1 (List.mem_of_head? head)

theorem underCheck_ne (h : (s.ctx n).state ≠ .verifying) : s.underCheck ≠ some n := fun e => h (inv.state_underCheck e)

/-- The record held by the port is the one that is DELIVERING. -/
theorem held_unique {m : CtxNo} {v : Walk} (h : s.readout.port = .held n v) (d : (s.ctx m).state = .delivering) : m = n := by
  obtain ⟨v', h'⟩ := (inv.portHolds m).2 d
  rw [h] at h'
  cases h'
  rfl

/-- One record rewritten as a record in use: every FREE one stands cleared still. -/
theorem cleared_of_used {r : Ctx} {m : CtxNo} (ctxs : ∀ m, t.ctx m = if m = n then r else s.ctx m) (used : r.state ≠ .free)
    (free : (t.ctx m).state = .free) : t.ctx m = Ctx.cleared := by
  rw [ctxs] at free ⊢
  split at free
  · exact absurd free used
  · rw [if_neg ‹_›]
    exact inv.freeIsCleared m free

/-- Every record keeps its state, and the collections and the port keep their records. -/
theorem of_states (states : ∀ m, (t.ctx m).state = (s.ctx m).state)
    (free : ∀ m, (s.ctx m).state = .free → t.ctx m = s.ctx m) (age : t.ageList = s.ageList)
    (queue : t.checker.queue = s.checker.queue) (delivery : t.delivery = s.delivery)
    (port : ∀ m, (∃ v, t.readout.port = .held m v) ↔ ∃ v, s.readout.port = .held m v)
    (engine : t.checker.engine ≠ .idle → t.checker.queue ≠ []) : CollectionsInv t where
  ageNodup := age ▸ inv.ageNodup
  ageHolds m := by rw [age, states, inv.ageHolds]
  checkNodup := queue ▸ inv.checkNodup
  checkHolds m := by rw [queue, states, inv.checkHolds]
  deliveryNodup := delivery ▸ inv.deliveryNodup
  deliveryHolds m := by rw [delivery, states, inv.deliveryHolds]
  portHolds m := by rw [port, states, inv.portHolds]
  checkedExists := engine
  freeIsCleared m h := by
    rw [states] at h
    rw [free m h, inv.freeIsCleared m h]

/-- One record freed, out of its collection and off the port. -/
theorem of_freed (ctxs : ∀ m, t.ctx m = if m = n then Ctx.cleared else s.ctx m) (age : t.ageList = s.ageList.erase n)
    (queue : t.checker.queue = s.checker.queue.erase n) (delivery : t.delivery = s.delivery.erase n)
    (port : ∀ m, (∃ v, t.readout.port = .held m v) ↔ m ≠ n ∧ ∃ v, s.readout.port = .held m v)
    (engine : t.checker.engine ≠ .idle → t.checker.queue ≠ []) : CollectionsInv t := by
  have cleared : Ctx.cleared.state = .free := rfl
  have left (m : CtxNo) (list : List CtxNo) (nodup : list.Nodup) (st : CtxState) (used : st ≠ .free)
      (holds : m ∈ list ↔ (s.ctx m).state = st) : m ∈ list.erase n ↔ (t.ctx m).state = st := by
    rw [nodup.mem_erase_iff, ctxs, holds]
    by_cases e : m = n
    · simp [e, cleared, used.symm]
    · simp [e]
  exact
    { ageNodup := age ▸ inv.ageNodup.erase n
      ageHolds := fun m => age ▸ left m _ inv.ageNodup _ nofun (inv.ageHolds m)
      checkNodup := queue ▸ inv.checkNodup.erase n
      checkHolds := fun m => queue ▸ left m _ inv.checkNodup _ nofun (inv.checkHolds m)
      deliveryNodup := delivery ▸ inv.deliveryNodup.erase n
      deliveryHolds := fun m => delivery ▸ left m _ inv.deliveryNodup _ nofun (inv.deliveryHolds m)
      portHolds := fun m => by
        rw [port, inv.portHolds, ctxs]
        by_cases e : m = n
        · simp [e, cleared]
        · simp [e]
      checkedExists := engine
      freeIsCleared := fun m h => by
        by_cases e : m = n
        · rw [ctxs, if_pos e]
        · rw [ctxs, if_neg e] at h ⊢
          exact inv.freeIsCleared m h }

/-- Freeing a record that is not under check leaves the engine a record to check. -/
theorem queue_erase_ne_nil (unchecked : s.underCheck ≠ some n) (engine : s.checker.engine ≠ .idle) :
    s.checker.queue.erase n ≠ [] := by
  obtain ⟨h, rest, queue⟩ := List.exists_cons_of_ne_nil (inv.checkedExists engine)
  have other : h ≠ n := fun e => unchecked (State.underCheck_some.2 ⟨engine, by rw [queue, e]; rfl⟩)
  rw [queue, List.erase_cons_tail (by simpa using other)]
  exact List.cons_ne_nil _ _

theorem freed (unclaimed : (s.ctx n).state ≠ .delivering) (unchecked : s.underCheck ≠ some n) :
    CollectionsInv (s.freeCtx n) := by
  refine inv.of_freed (fun m => s.ctx_freeCtx n m) (by simp) (by simp) (by simp) (fun m => ?_) (fun engine => ?_)
  · rw [State.freeCtx_readout, inv.portHolds]
    constructor
    · intro h
      exact ⟨fun e => unclaimed (e ▸ h), h⟩
    · exact fun h => h.2
  · rw [State.freeCtx_engine] at engine
    rw [State.freeCtx_queue]
    exact inv.queue_erase_ne_nil unchecked engine

theorem lost {r : Readout} (held : (s.ctx n).state = .delivering)
    (port : r = .cleared ∨ r = { s.readout with port := .lost, remaining := 0 }) :
    CollectionsInv { s.freeCtx n with readout := r } := by
  have unheld (m : CtxNo) : ¬∃ v, r.port = .held m v := by
    rcases port with rfl | rfl <;> exact fun ⟨v, h⟩ => nomatch h
  refine inv.of_freed (fun m => s.ctx_freeCtx n m) (by simp) (by simp) (by simp) (fun m => ?_) (fun engine => ?_)
  · refine iff_of_false (unheld m) fun ⟨other, h⟩ => ?_
    obtain ⟨v, h⟩ := h
    exact other (inv.held_unique h held).symm
  · simp only [State.freeCtx_engine] at engine
    simp only [State.freeCtx_queue]
    exact inv.queue_erase_ne_nil (inv.underCheck_ne (by simp [held])) engine

theorem ended (checked : s.underCheck = some n) : CollectionsInv (s.freeCtx n).engineIdle := by
  refine inv.of_freed (fun m => s.ctx_freeCtx n m) (by simp) (by simp) (by simp) (fun m => ?_) (by simp)
  simp only [State.engineIdle_readout, State.freeCtx_readout]
  refine ⟨fun h => ⟨fun e => ?_, h⟩, fun h => h.2⟩
  have delivering := (inv.portHolds m).1 h
  rw [e, inv.state_underCheck checked] at delivering
  cases delivering

/-- A whole message moves from the Age List to the Check Queue. -/
theorem joined (collecting : (s.ctx n).state = .collecting) : CollectionsInv (s.joined n) := by
  have ctxs := s.ctx_joined n
  have waits : n ∉ s.checker.queue := fun h => by simp [(inv.checkHolds n).1 h] at collecting
  refine
    { ageNodup := inv.ageNodup.erase n
      ageHolds := fun m => ?_
      checkNodup := ?_
      checkHolds := fun m => ?_
      deliveryNodup := inv.deliveryNodup
      deliveryHolds := fun m => ?_
      portHolds := fun m => ?_
      checkedExists := fun _ => by simp [State.joined]
      freeIsCleared := fun m h => ?_ }
  · change m ∈ s.ageList.erase n ↔ _
    rw [inv.ageNodup.mem_erase_iff, inv.ageHolds, ctxs]
    split <;> simp_all
  · change (s.checker.queue ++ [n]).Nodup
    exact nodup_snoc inv.checkNodup waits
  · change m ∈ s.checker.queue ++ [n] ↔ _
    rw [List.mem_append, inv.checkHolds, ctxs]
    split <;> simp_all
  · rw [ctxs]
    refine (inv.deliveryHolds m).trans ?_
    split <;> simp_all
  · rw [ctxs]
    refine (inv.portHolds m).trans ?_
    split <;> simp_all
  · exact inv.cleared_of_used ctxs nofun h

theorem joinIfWhole (collecting : (s.ctx n).state = .collecting) : CollectionsInv (joinIfWhole n s) := by
  rcases joinIfWhole_cases s n with ⟨-, h⟩ | ⟨-, h⟩ <;> rw [h]
  · exact inv.joined collecting
  · exact inv

/-- A record in use rewritten in the same state. -/
theorem rewritten {r : Ctx} (used : (s.ctx n).state ≠ .free) (state : r.state = (s.ctx n).state)
    (ctxs : ∀ m, t.ctx m = if m = n then r else s.ctx m) (age : t.ageList = s.ageList) (checker : t.checker = s.checker)
    (delivery : t.delivery = s.delivery) (readout : t.readout = s.readout) : CollectionsInv t := by
  refine inv.of_states (fun m => ?_) (fun m free => ?_) age (by rw [checker]) delivery (by simp [readout]) ?_
  · rw [ctxs]
    split
    · rename_i e
      rw [state, e]
    · rfl
  · rw [ctxs, if_neg fun e : m = n => used (e ▸ free)]
  · rw [checker]
    exact inv.checkedExists

theorem opened {k : SlotNo} {cls : MsgClass} {seg : Segment} (free : (s.ctx n).state = .free) :
    CollectionsInv (s.openedFor n k cls seg) := by
  have ctxs (m : CtxNo) := s.ctx_openedFor n m k cls seg
  have unlisted : n ∉ s.ageList := fun h => by simp [(inv.ageHolds n).1 h] at free
  have opened : (Ctx.opened cls seg).state = .collecting := rfl
  refine
    { ageNodup := ?_
      ageHolds := fun m => ?_
      checkNodup := inv.checkNodup
      checkHolds := fun m => ?_
      deliveryNodup := inv.deliveryNodup
      deliveryHolds := fun m => ?_
      portHolds := fun m => ?_
      checkedExists := inv.checkedExists
      freeIsCleared := fun m h => ?_ }
  · change (s.ageList ++ [n]).Nodup
    exact nodup_snoc inv.ageNodup unlisted
  · change m ∈ s.ageList ++ [n] ↔ _
    rw [List.mem_append, inv.ageHolds, ctxs]
    split <;> simp_all
  · rw [ctxs]
    refine (inv.checkHolds m).trans ?_
    split <;> simp_all
  · rw [ctxs]
    refine (inv.deliveryHolds m).trans ?_
    split <;> simp_all
  · rw [ctxs]
    refine (inv.portHolds m).trans ?_
    split <;> simp_all
  · exact inv.cleared_of_used ctxs nofun h

theorem matched (checked : s.underCheck = some n) : CollectionsInv (s.matched n) := by
  have ctxs := s.ctx_matched n
  have verifying := inv.state_underCheck checked
  have unlisted : n ∉ s.delivery := fun h => by simp [(inv.deliveryHolds n).1 h] at verifying
  have perm := deliveryInsert_perm (fun m => (s.ctx m).cls) s.delivery n
  refine
    { ageNodup := inv.ageNodup
      ageHolds := fun m => ?_
      checkNodup := inv.checkNodup.erase n
      checkHolds := fun m => ?_
      deliveryNodup := perm.nodup_iff.2 (List.nodup_cons.2 ⟨unlisted, inv.deliveryNodup⟩)
      deliveryHolds := fun m => ?_
      portHolds := fun m => ?_
      checkedExists := fun h => absurd rfl h
      freeIsCleared := fun m h => ?_ }
  · rw [ctxs]
    refine (inv.ageHolds m).trans ?_
    split <;> simp_all
  · change m ∈ s.checker.queue.erase n ↔ _
    rw [inv.checkNodup.mem_erase_iff, inv.checkHolds, ctxs]
    split <;> simp_all
  · change m ∈ deliveryInsert (fun m => (s.ctx m).cls) s.delivery n ↔ _
    rw [perm.mem_iff, List.mem_cons, inv.deliveryHolds, ctxs]
    split <;> simp_all
  · rw [ctxs]
    refine (inv.portHolds m).trans ?_
    split <;> simp_all
  · exact inv.cleared_of_used ctxs nofun h

theorem claimed {rest : List CtxNo} (port : s.readout.port = .none) (queue : s.delivery = n :: rest) :
    CollectionsInv (claim n rest s) := by
  have ctxs (m : CtxNo) := ctx_claim s n m rest
  have ready : (s.ctx n).state = .ready := (inv.deliveryHolds n).1 (by simp [queue])
  obtain ⟨unlisted, nodup⟩ := List.nodup_cons.1 (queue ▸ inv.deliveryNodup)
  have undelivered (m : CtxNo) : (s.ctx m).state ≠ .delivering := fun h => by
    obtain ⟨v, h⟩ := (inv.portHolds m).2 h
    simp [port] at h
  refine
    { ageNodup := inv.ageNodup
      ageHolds := fun m => ?_
      checkNodup := inv.checkNodup
      checkHolds := fun m => ?_
      deliveryNodup := nodup
      deliveryHolds := fun m => ?_
      portHolds := fun m => ?_
      checkedExists := inv.checkedExists
      freeIsCleared := fun m h => ?_ }
  · rw [ctxs]
    refine (inv.ageHolds m).trans ?_
    split <;> simp_all
  · rw [ctxs]
    refine (inv.checkHolds m).trans ?_
    split <;> simp_all
  · change m ∈ rest ↔ _
    have holds := inv.deliveryHolds m
    rw [queue, List.mem_cons] at holds
    rw [ctxs]
    split <;> simp_all
  · change (∃ v, Port.held n Walk.start = .held m v) ↔ _
    rw [ctxs]
    by_cases e : m = n
    · simp [e]
    · simp [e, undelivered m, Ne.symm e]
  · exact inv.cleared_of_used ctxs nofun h

/-- Another engine state over the same queue. -/
theorem engine {e : EngineState} (waiting : s.checker.queue ≠ []) :
    CollectionsInv { s with checker := { s.checker with engine := e } } :=
  inv.of_states (fun _ => rfl) (fun _ _ => rfl) rfl rfl rfl (fun _ => .rfl) fun _ => waiting

end CollectionsInv

/-- Every change keeps the collections in agreement. -/
theorem Change.collections {w : Warrant} {s t : State} (h : Change w s t) (granted : w.collections)
    (inv : CollectionsInv s) : CollectionsInv t := by
  have same {u : State} (ctxs : u.ctxs = s.ctxs) (age : u.ageList = s.ageList) (checker : u.checker = s.checker)
      (delivery : u.delivery = s.delivery) (readout : u.readout = s.readout) : CollectionsInv u :=
    inv.of_states (fun m => by rw [State.ctx_congr ctxs]) (fun m _ => State.ctx_congr ctxs m) age (by rw [checker]) delivery
      (by simp [readout]) (checker ▸ inv.checkedExists)
  cases h with
  | posts e => exact same rfl rfl rfl rfl rfl
  | hands l f queue on placed => exact same rfl rfl rfl rfl rfl
  | settles n deciding => exact same rfl rfl rfl rfl rfl
  | adjusts ctxs adjust =>
    exact inv.of_states (fun m => (adjust m).state) (fun m => (adjust m).free) rfl rfl rfl (fun _ => .rfl) inv.checkedExists
  | names n seg collecting last unknown passes present =>
    have rewritten : CollectionsInv (s.setCtx n ((s.ctx n).duplicated seg)) :=
      inv.rewritten (by simp [collecting]) ((s.ctx n).duplicated_state seg) (fun m => s.ctx_setCtx n m _) rfl rfl rfl rfl
    exact rewritten.joinIfWhole (by rw [State.ctx_setCtx_same, Ctx.duplicated_state, collecting])
  | stores n seg fits collecting passes absent room =>
    have rewritten : CollectionsInv (allocateAndStore n seg s) :=
      inv.rewritten (r := (s.ctx n).stored seg _) (by simp [collecting]) rfl (fun m => ctx_allocateAndStore s n m seg) rfl rfl
        rfl rfl
    refine rewritten.joinIfWhole ?_
    rw [ctx_allocateAndStore, if_pos rfl]
    exact collecting
  | opens n k cls seg free unheld enabled address unseen limit => exact inv.opened free
  | frees n used unclaimed unchecked => exact inv.freed (unclaimed granted) (unchecked granted)
  | loses n r held port => exact inv.lost (held granted) (port.imp_left And.left)
  | ends n checked => exact inv.ended checked
  | confirms n checked => exact inv.matched checked
  | requests n checked =>
    have verifying := inv.state_underCheck checked
    have engine : (s.requestStop n).checker.engine ≠ .idle → (s.requestStop n).checker.queue ≠ [] := fun h => by
      rw [Ne, State.requestStop_engine_idle] at h
      rw [State.requestStop_frame]
      exact inv.checkedExists h
    refine inv.of_states (fun m => ?_) (fun m free => ?_) ?_ ?_ ?_ (fun m => ?_) engine
    · rw [State.ctx_requestStop]
      split <;> simp_all
    · rw [State.ctx_requestStop, if_neg]
      rintro rfl
      simp [verifying] at free
    all_goals rw [State.requestStop_frame]
  | takes idle waiting => exact inv.engine waiting
  | walks n rest crc v next queue engine within => exact inv.engine (by simp [queue])
  | claims n rest port queue => exact inv.claimed port queue
  | reads n v held more =>
    exact inv.of_states (fun _ => rfl) (fun _ _ => rfl) rfl rfl rfl (fun m => by simp [held]) inv.checkedExists
  | releases lost =>
    exact inv.of_states (fun _ => rfl) (fun _ _ => rfl) rfl rfl rfl (fun m => by simp [lost, Readout.cleared])
      inv.checkedExists
  | adds k e unused unknown enabled count history => exact same rfl rfl rfl rfl rfl
  | marks k st used state => exact same rfl rfl rfl rfl rfl
  | drops k closing gone => exact same rfl rfl rfl rfl rfl
  | spends k msgno => exact same rfl rfl rfl rfl rfl

theorem Changes.collections {w : Warrant} {s t : State} (h : Changes w s t) (granted : w.collections)
    (inv : CollectionsInv s) : CollectionsInv t :=
  h.induct CollectionsInv (fun _ _ step => step.collections granted) inv

end Sys2Proof.Machine
end

