-- ==== Sys2Proof/Proofs/OperationChanges.lean ====
section
/-! SUPPORT. The operations of admission, of the timer, of the check engine and of the commands as chains of elementary changes. -/

namespace Sys2Proof.Machine

/-! ## What handing over leaves -/

section HandOver

variable (s : State) (f : CtrlFrame) (requested : LineNo) (mask : LineMask)

@[simp] theorem State.handOver_ctxs : (s.handOver f requested mask).ctxs = s.ctxs := by rw [State.handOver_frame]
@[simp] theorem State.handOver_ageList : (s.handOver f requested mask).ageList = s.ageList := by rw [State.handOver_frame]
@[simp] theorem State.handOver_pool : (s.handOver f requested mask).pool = s.pool := by rw [State.handOver_frame]
@[simp] theorem State.handOver_rotation : (s.handOver f requested mask).rotation = s.rotation := by rw [State.handOver_frame]
@[simp] theorem State.handOver_sources : (s.handOver f requested mask).sources = s.sources := by rw [State.handOver_frame]
@[simp] theorem State.handOver_timer : (s.handOver f requested mask).timer = s.timer := by rw [State.handOver_frame]
@[simp] theorem State.handOver_checker : (s.handOver f requested mask).checker = s.checker := by rw [State.handOver_frame]
@[simp] theorem State.handOver_delivery : (s.handOver f requested mask).delivery = s.delivery := by rw [State.handOver_frame]
@[simp] theorem State.handOver_readout : (s.handOver f requested mask).readout = s.readout := by rw [State.handOver_frame]
@[simp] theorem State.handOver_pins : (s.handOver f requested mask).pins = s.pins := by rw [State.handOver_frame]
@[simp] theorem State.handOver_cutSeq : (s.handOver f requested mask).cutSeq = s.cutSeq := by rw [State.handOver_frame]
@[simp] theorem State.handOver_pending : (s.handOver f requested mask).pending = s.pending := by rw [State.handOver_frame]

@[simp] theorem State.ctx_handOver (n : CtxNo) : (s.handOver f requested mask).ctx n = s.ctx n :=
  State.ctx_congr (by simp) n

@[simp] theorem State.source_handOver (k : SlotNo) : (s.handOver f requested mask).source k = s.source k :=
  State.source_congr (by simp) k

end HandOver

section Views

variable (s : State)

@[simp] theorem State.ctx_post (e : EventRec) (n : CtxNo) : (s.post e).ctx n = s.ctx n := rfl
@[simp] theorem State.source_post (e : EventRec) (k : SlotNo) : (s.post e).source k = s.source k := rfl
@[simp] theorem State.line_post (e : EventRec) (l : LineNo) : (s.post e).line l = s.line l := rfl
@[simp] theorem State.ctx_setSource (k : SlotNo) (e : SourceEntry) (n : CtxNo) : (s.setSource k e).ctx n = s.ctx n := rfl
@[simp] theorem State.line_setSource (k : SlotNo) (e : SourceEntry) (l : LineNo) : (s.setSource k e).line l = s.line l := rfl
@[simp] theorem State.source_setCtx (n : CtxNo) (r : Ctx) (k : SlotNo) : (s.setCtx n r).source k = s.source k := rfl
@[simp] theorem State.line_setCtx (n : CtxNo) (r : Ctx) (l : LineNo) : (s.setCtx n r).line l = s.line l := rfl
@[simp] theorem State.ctx_setLine (l : LineNo) (u : LineUnit) (n : CtxNo) : (s.setLine l u).ctx n = s.ctx n := rfl
@[simp] theorem State.source_setLine (l : LineNo) (u : LineUnit) (k : SlotNo) : (s.setLine l u).source k = s.source k := rfl

theorem State.underCheck_congr {s t : State} (h : t.checker = s.checker) : t.underCheck = s.underCheck := by
  unfold State.underCheck
  rw [h]

theorem State.findSource_congr {s t : State} (h : ∀ k, (t.source k).state = (s.source k).state)
    (a : ∀ k, (t.source k).address = (s.source k).address) (b : Byte) : t.findSource b = s.findSource b := by
  simp only [State.findSource, h, a]

end Views

/-! ## Eviction -/

section Eviction

variable (s : State) (cause : EvictCause) (l : LineNo)

theorem ctx_evict (n m : CtxNo) : (evict cause l n s).ctx m = if m = n then Ctx.cleared else s.ctx m := by
  simp [evict, State.refuseCtx, State.ctx_freeCtx]

theorem evict_freeList (n : CtxNo) :
    (evict cause l n s).pool.freeList = s.pool.freeList ++ (s.ctx n).chain := by
  simp [evict, State.refuseCtx]

@[simp] theorem evict_mem (n : CtxNo) : (evict cause l n s).pool.mem = s.pool.mem := by simp [evict, State.refuseCtx]

@[simp] theorem evict_reserve (n : CtxNo) : (evict cause l n s).pool.reserve = s.pool.reserve := by
  simp [evict, State.refuseCtx]

theorem evict_ageList (n : CtxNo) : (evict cause l n s).ageList = s.ageList.erase n := by simp [evict, State.refuseCtx]

/-- Eviction lowers the open count of the victim's source and changes nothing else of any entry. -/
theorem source_evict (n : CtxNo) (k : SlotNo) :
    (evict cause l n s).source k =
      { s.source k with
        openCount :=
          if s.findSource (s.ctx n).source = some k then (s.source k).openCount - 1 else (s.source k).openCount } := by
  rw [evict, State.source_freeCtx]
  simp only [State.refuseCtx, State.source_post, State.source_handOver, State.ctx_post, State.ctx_handOver]
  rw [State.findSource_congr (s := s) (fun k => by simp) (fun k => by simp)]

theorem freeCount_evict (n : CtxNo) : (evict cause l n s).freeCount = s.freeCount + (s.ctx n).chain.length := by
  simp [State.freeCount, evict_freeList]

theorem State.evictableCells_cons (n : CtxNo) (rest : List CtxNo) :
    s.evictableCells (n :: rest) = (if s.evictable n then (s.ctx n).chain.length else 0) + s.evictableCells rest := by
  unfold State.evictableCells
  rw [List.filter_cons]
  split <;> simp

theorem State.evictableCells_congr {s t : State} {records : List CtxNo} (h : ∀ m ∈ records, t.ctx m = s.ctx m) :
    t.evictableCells records = s.evictableCells records := by
  induction records with
  | nil => rfl
  | cons n rest ih =>
    have head : t.evictable n = s.evictable n := by rw [State.evictable, h n List.mem_cons_self, State.evictable]
    rw [State.evictableCells_cons, State.evictableCells_cons, head, h n List.mem_cons_self,
      ih fun m hm => h m (List.mem_cons_of_mem _ hm)]

/-- Where the listed ordinary records hold enough cells, eviction brings the free count to what is asked (spec 02 R39, R41). -/
theorem evictForCells_room {k : Nat} {records : List CtxNo} (nodup : records.Nodup)
    (enough : k ≤ s.freeCount + s.evictableCells records) : k ≤ (evictForCells k l records s).freeCount := by
  induction records generalizing s with
  | nil => simpa [State.evictableCells, evictForCells] using enough
  | cons n rest ih =>
    obtain ⟨other, nodup⟩ := List.nodup_cons.1 nodup
    rw [State.evictableCells_cons] at enough
    simp only [evictForCells]
    split
    · assumption
    · split
      · have kept : (evict .cells l n s).evictableCells rest = s.evictableCells rest :=
          State.evictableCells_congr fun m hm => by rw [ctx_evict, if_neg fun e : m = n => other (e ▸ hm)]
        refine ih _ nodup ?_
        rw [kept, freeCount_evict]
        simp_all
        omega
      · exact ih _ nodup (by simp_all)

/-- Eviction for cells leaves a record that it may not evict. -/
theorem ctx_evictForCells_urgent {n : CtxNo} (urgent : (s.ctx n).cls = .urgent) (k : Nat) (records : List CtxNo) :
    (evictForCells k l records s).ctx n = s.ctx n := by
  refine evictForCells_induct (fun t => t.ctx n = s.ctx n) k l (fun t m kept evictable => ?_) records s rfl
  rw [ctx_evict, if_neg, kept]
  rintro rfl
  simp [State.evictable, kept, urgent] at evictable

end Eviction

section Chains

variable {w : Warrant} {s : State}

theorem State.handOver_changes (f : CtrlFrame) (requested : LineNo) (mask : LineMask) :
    Changes w s (s.handOver f requested mask) := by
  rcases s.handOver_cases f requested mask with ⟨-, h⟩ | ⟨l, -, on, ⟨-, h⟩ | ⟨queue, placed, h⟩⟩ <;> rw [h]
  · exact (Change.posts s _).single
  · exact (Change.posts s _).single
  · exact (Change.hands s l f queue on placed).single

theorem State.refuseCtx_changes (r : Ctx) (reason : Reason) : Changes w s (s.refuseCtx r reason) :=
  State.handOver_changes _ _ _

/-- A chain whose last change posts an event. -/
theorem Changes.post {t : State} (h : Changes w s t) (e : EventRec) : Changes w s (t.post e) := h.next (.posts t e)

/-- A COLLECTING record freed behind a refusal and an event: eviction and expiry. -/
theorem refusePostFree_changes {n : CtxNo} (granted : w.collections → CollectionsInv s)
    (collecting : w.collections → (s.ctx n).state = .collecting) (reason : Reason) (e : EventRec) :
    Changes w s (((s.refuseCtx (s.ctx n) reason).post e).freeCtx n) := by
  refine ((State.refuseCtx_changes _ reason).post e).next
    (.frees _ n (fun g => ?_) (fun g => ?_) fun g checked => ?_)
  · simp [State.refuseCtx, collecting g]
  · simp [State.refuseCtx, collecting g]
  · rw [State.underCheck_congr (s := s) (by simp [State.refuseCtx])] at checked
    simpa [collecting g] using (granted g).state_underCheck checked

theorem evict_changes {n : CtxNo} (granted : w.collections → CollectionsInv s)
    (collecting : w.collections → (s.ctx n).state = .collecting) (cause : EvictCause) (l : LineNo) :
    Changes w s (evict cause l n s) :=
  refusePostFree_changes granted collecting _ _

theorem evictForCells_changes {records : List CtxNo} (k : Nat) (l : LineNo) (granted : w.collections → CollectionsInv s)
    (nodup : w.collections → records.Nodup)
    (collecting : w.collections → ∀ m ∈ records, (s.ctx m).state = .collecting) :
    Changes w s (evictForCells k l records s) := by
  induction records generalizing s with
  | nil => exact .refl
  | cons n rest ih =>
    have nodup' (g : w.collections) := List.nodup_cons.1 (nodup g)
    simp only [evictForCells]
    split
    · exact .refl
    · split
      · have first : Changes w s (evict .cells l n s) :=
          evict_changes granted (fun g => collecting g n List.mem_cons_self) _ _
        refine first.append (ih (fun g => first.collections g (granted g)) (fun g => (nodup' g).2) fun g m hm => ?_)
        rw [ctx_evict, if_neg fun e : m = n => (nodup' g).1 (e ▸ hm)]
        exact collecting g m (List.mem_cons_of_mem _ hm)
      · exact ih granted (fun g => (nodup' g).2) fun g m hm => collecting g m (List.mem_cons_of_mem _ hm)

/-! ## Storing a segment -/

variable {n : CtxNo} {seg : Segment}

theorem storeSegment_urgent (urgent : (s.ctx n).cls = .urgent) :
    storeSegment n seg s =
      joinIfWhole n (allocateAndStore n seg (evictForCells (cellsFor seg.length) seg.line s.ageList s)) := by
  simp [storeSegment, urgent]

theorem storeSegment_ordinary (ordinary : (s.ctx n).cls = .ordinary) :
    storeSegment n seg s = joinIfWhole n (allocateAndStore n seg s) := by
  simp [storeSegment, ordinary]

/-- Record n, COLLECTING, takes the segment: its tests pass, and the free list has the cells (spec 01 R15 to R19). -/
structure StoresAt (w : Warrant) (seg : Segment) (n : CtxNo) (s : State) : Prop where
  fits : seg.Fits
  collecting : (s.ctx n).state = .collecting
  passes : (s.ctx n).lastConflict seg = none
  absent : (s.ctx n).slots[seg.index] = none
  room : w.collections → cellsFor seg.length ≤ s.freeCount

/-- Admission of a segment: a chain of changes, and then its store or nothing. -/
def AdmitsTo (w : Warrant) (seg : Segment) (s t : State) : Prop :=
  Changes w s t ∨ ∃ u n, Changes w s u ∧ StoresAt w seg n u ∧ t = joinIfWhole n (allocateAndStore n seg u)

theorem Changes.admits {t u : State} (h : Changes w s t) (rest : AdmitsTo w seg t u) : AdmitsTo w seg s u := by
  rcases rest with rest | ⟨v, n, rest, stores, rfl⟩
  · exact .inl (h.append rest)
  · exact .inr ⟨v, n, h.append rest, stores, rfl⟩

theorem AdmitsTo.changes {t : State} (h : AdmitsTo w seg s t) (storing : w.storing) : Changes w s t := by
  rcases h with h | ⟨u, n, h, stores, rfl⟩
  · exact h
  · exact h.next (.stores u n seg stores.fits stores.collecting stores.passes stores.absent stores.room storing)

theorem storeSegment_admits (granted : w.collections → CollectionsInv s) (fits : seg.Fits)
    (collecting : (s.ctx n).state = .collecting) (passes : (s.ctx n).lastConflict seg = none)
    (absent : (s.ctx n).slots[seg.index] = none)
    (room : w.collections → s.requestPasses (s.ctx n).cls (cellsFor seg.length) = true) :
    AdmitsTo w seg s (storeSegment n seg s) := by
  cases cls : (s.ctx n).cls with
  | ordinary =>
    rw [storeSegment_ordinary cls]
    refine .inr ⟨s, n, .refl, ⟨fits, collecting, passes, absent, fun g => ?_⟩, rfl⟩
    have := room g
    simp only [cls, State.requestPasses, decide_eq_true_eq] at this
    omega
  | urgent =>
    rw [storeSegment_urgent cls]
    have kept := ctx_evictForCells_urgent s seg.line cls (cellsFor seg.length) s.ageList
    have evicted : Changes w s (evictForCells (cellsFor seg.length) seg.line s.ageList s) :=
      evictForCells_changes _ _ granted (fun g => (granted g).ageNodup) fun g m => ((granted g).ageHolds m).1
    refine .inr ⟨_, n, evicted, ⟨fits, by rw [kept, collecting], by rw [kept, passes], by rw [kept, absent], fun g => ?_⟩, rfl⟩
    have := room g
    simp only [cls, State.requestPasses, decide_eq_true_eq] at this
    exact evictForCells_room s _ (granted g).ageNodup this

/-- The test of the whole message does not see the event posted before it. -/
theorem joinIfWhole_post (n : CtxNo) (s : State) (e : EventRec) : joinIfWhole n (s.post e) = (joinIfWhole n s).post e := by
  unfold joinIfWhole
  rw [State.ctx_post]
  split <;> rfl

theorem Ctx.duplicated_adjusts (r : Ctx) (seg : Segment) (used : r.state ≠ .free)
    (known : ¬(seg.last = true ∧ r.lastIndex = none)) : r.Adjusts (r.duplicated seg) := by
  rw [Ctx.duplicated, if_neg known]
  exact ⟨rfl, fun _ => Nat.min_le_left _ _, fun free => absurd free used⟩

theorem storedDuplicate_changes (collecting : (s.ctx n).state = .collecting)
    (passes : (s.ctx n).lastConflict seg = none) (present : ((s.ctx n).slots[seg.index]).isSome) :
    Changes w s (storedDuplicate n seg s) := by
  unfold storedDuplicate
  dsimp only
  split
  · rename_i naming
    obtain ⟨last, unknown⟩ := naming
    rw [joinIfWhole_post]
    exact (Change.names s n seg collecting last unknown passes present).single.post _
  · refine Changes.post (Change.single (.adjust s n ?_)) _
    exact Ctx.duplicated_adjusts _ _ (by simp [collecting]) ‹_›

theorem starve_changes (used : (s.ctx n).state ≠ .free) : Changes w s (starve n seg s) :=
  Changes.post (Change.single (.adjust s n (r := { s.ctx n with starved := true })
    ⟨rfl, id, fun free => absurd free used⟩)) _

theorem storeInto_admits (granted : w.collections → CollectionsInv s) (fits : seg.Fits)
    (collecting : (s.ctx n).state = .collecting) : AdmitsTo w seg s (storeInto n seg s) := by
  unfold storeInto
  dsimp only
  split
  · exact .inl (Change.posts s _).single
  · rename_i passes
    split
    · rename_i sl stored
      split
      · exact .inl (storedDuplicate_changes collecting passes (by rw [stored]; rfl))
      · exact .inl (Change.posts s _).single
    · rename_i absent
      split
      · exact storeSegment_admits granted fits collecting passes absent fun _ => ‹_›
      · exact .inl (starve_changes (by simp [collecting]))

/-! ## Opening a record -/

theorem refuseAndPost_changes (reason : Reason) : Changes w s (refuseAndPost seg reason s) :=
  (State.handOver_changes _ _ _).post _

theorem refuseForCells_changes : Changes w s (refuseForCells seg s) := (State.handOver_changes _ _ _).post _

/-- The source entry that a segment came through: ENABLED, and of the segment's address (spec 03 R53). -/
structure EntryOf (s : State) (k : SlotNo) (seg : Segment) : Prop where
  enabled : (s.source k).state = .enabled
  address : (s.source k).address = seg.source

/-- What the tests before an open have found (spec 03 R56, 01 R10). -/
structure MayOpen (s : State) (k : SlotNo) (seg : Segment) : Prop extends EntryOf s k seg where
  unheld : s.lookupKey seg.source seg.msgno = none
  unseen : (s.source k).findHistory seg.msgno = none
  limit : (s.source k).openCount < (s.source k).openLimit

theorem Ctx.opened_slots (cls : MsgClass) (seg : Segment) (i : SegIndex) : (Ctx.opened cls seg).slots[i] = none := by
  simp [Ctx.opened, Ctx.cleared]

theorem Ctx.opened_lastConflict (cls : MsgClass) (seg : Segment) : (Ctx.opened cls seg).lastConflict seg = none := by
  have unknown : (Ctx.opened cls seg).lastIndex = none := rfl
  simp only [Ctx.lastConflict, unknown, Ctx.opened_slots]
  simp

/-- Eviction of a record that does not hold the segment's key leaves the segment free to open one. -/
theorem MayOpen.evict {k : SlotNo} (may : MayOpen s k seg) (cause : EvictCause) (l : LineNo) (v : CtxNo) :
    MayOpen (evict cause l v s) k seg := by
  obtain ⟨⟨enabled, address⟩, unheld, unseen, limit⟩ := may
  rw [State.lookupKey_none] at unheld
  refine ⟨⟨by rw [source_evict, enabled], by rw [source_evict, address]⟩, State.lookupKey_none.2 fun m => ?_, ?_, ?_⟩
  · rw [ctx_evict]
    split
    · exact fun used => absurd rfl used
    · exact unheld m
  · rw [source_evict]
    exact unseen
  · rw [source_evict]
    dsimp only
    split <;> omega

theorem openAt_eq (n : CtxNo) (k : SlotNo) (cls : MsgClass) (seg : Segment) (s : State) :
    openAt n k cls seg s =
      storeSegment n seg ((s.openedFor n k cls seg).post (segmentEvent .ctxOpened seg (some n) (numAt cls.code 0))) := rfl

/-- The opened record neither adds to nor takes from the cells an urgent request may use. -/
theorem requestPasses_opened {k : SlotNo} {cls : MsgClass} (unlisted : n ∉ s.ageList) (e : EventRec)
    (passes : s.requestPasses cls (cellsFor seg.length) = true) :
    ((s.openedFor n k cls seg).post e).requestPasses cls (cellsFor seg.length) = true := by
  cases cls with
  | ordinary => exact passes
  | urgent =>
    have same : ((s.openedFor n k .urgent seg).post e).evictableCells (s.ageList ++ [n]) = s.evictableCells s.ageList := by
      have older : ((s.openedFor n k .urgent seg).post e).evictableCells s.ageList = s.evictableCells s.ageList :=
        State.evictableCells_congr fun m hm => by
          rw [State.ctx_post, State.ctx_openedFor, if_neg fun e : m = n => unlisted (e ▸ hm)]
      rw [← older]
      unfold State.evictableCells
      rw [List.filter_append]
      have urgent : (((s.openedFor n k .urgent seg).post e).evictable n) = false := by
        rw [State.evictable, State.ctx_post, State.ctx_openedFor, if_pos rfl]
        rfl
      simp [urgent]
    simp only [State.requestPasses, decide_eq_true_eq] at passes ⊢
    change _ ≤ s.freeCount + ((s.openedFor n k .urgent seg).post e).evictableCells (s.ageList ++ [n])
    rw [same]
    exact passes

theorem openAt_admits {k : SlotNo} {cls : MsgClass} (granted : w.collections → CollectionsInv s) (fits : seg.Fits)
    (may : MayOpen s k seg) (free : (s.ctx n).state = .free)
    (passes : w.collections → s.requestPasses cls (cellsFor seg.length) = true) (opening : w.opening seg.source seg.msgno) :
    AdmitsTo w seg s (openAt n k cls seg s) := by
  rw [openAt_eq]
  generalize segmentEvent .ctxOpened seg (some n) (numAt cls.code 0) = e
  have opened : Changes w s ((s.openedFor n k cls seg).post e) :=
    (Change.opens s n k cls seg free may.unheld may.enabled may.address may.unseen may.limit opening).single.post e
  have record : ((s.openedFor n k cls seg).post e).ctx n = Ctx.opened cls seg := by
    rw [State.ctx_post, State.ctx_openedFor, if_pos rfl]
  refine opened.admits (storeSegment_admits (fun g => opened.collections g (granted g)) fits ?_ ?_ ?_ fun g => ?_)
  · rw [record]
    rfl
  · rw [record, Ctx.opened_lastConflict]
  · rw [record, Ctx.opened_slots]
  · have unlisted : n ∉ s.ageList := fun h => by simp [((granted g).ageHolds n).1 h] at free
    rw [record]
    exact requestPasses_opened unlisted e (passes g)

/-- The candidate's cells, freed, pass the test that counted them (spec 01 R13). -/
theorem requestPasses_evicted {v : CtxNo} {k : Nat} (nodup : s.ageList.Nodup) (l : LineNo)
    (passes : s.candidatePasses v k = true) : (evict .slot l v s).requestPasses .urgent k = true := by
  simp only [State.candidatePasses, State.requestPasses, decide_eq_true_eq] at passes ⊢
  have others : (evict .slot l v s).evictableCells (s.ageList.erase v) = s.evictableCells (s.ageList.erase v) :=
    State.evictableCells_congr fun m hm => by
      rw [ctx_evict, if_neg fun e : m = v => nodup.not_mem_erase (e ▸ hm)]
  rw [evict_ageList, freeCount_evict, others]
  exact passes

theorem State.slotCandidate_mem {v : CtxNo} (h : s.slotCandidate = some v) : v ∈ s.ageList := List.mem_of_find?_eq_some h

theorem openContext_admits {k : SlotNo} (granted : w.collections → CollectionsInv s) (fits : seg.Fits)
    (entry : EntryOf s k seg) (unheld : s.lookupKey seg.source seg.msgno = none)
    (unseen : (s.source k).findHistory seg.msgno = none) (cls : MsgClass)
    (opening : w.opening seg.source seg.msgno) : AdmitsTo w seg s (openContext k cls seg s) := by
  unfold openContext
  dsimp only
  split
  · exact .inl (refuseAndPost_changes _)
  · rename_i limit
    have may : MayOpen s k seg := ⟨entry, unheld, unseen, by omega⟩
    split
    · rename_i n free
      split
      · exact openAt_admits granted fits may (State.lowestFree_some free) (fun _ => ‹_›) opening
      · exact .inl refuseForCells_changes
    · split
      · exact .inl (refuseAndPost_changes _)
      · split
        · exact .inl (refuseAndPost_changes _)
        · rename_i v candidate
          split
          · have evicted : Changes w s (evict .slot seg.line v s) :=
              evict_changes granted (fun g => ((granted g).ageHolds v).1 (State.slotCandidate_mem candidate)) _ _
            refine evicted.admits (openAt_admits (fun g => evicted.collections g (granted g)) fits (may.evict _ _ _) ?_
              (fun g => requestPasses_evicted (granted g).ageNodup _ ‹_›) opening)
            rw [ctx_evict, if_pos rfl]
            rfl
          · exact .inl refuseForCells_changes

/-! ## Key resolution and the admission checks -/

theorem answerFromHistory_changes (k : SlotNo) (h : HistRec) (m : Option CtxNo) :
    Changes w s (answerFromHistory k h seg m s) := by
  unfold answerFromHistory
  split
  · exact ((State.handOver_changes _ _ _).next (.spends _ k _)).post _
  · exact (Change.posts s _).single

theorem resolveElsewhere_admits {k : SlotNo} {m : Option CtxNo} (granted : w.collections → CollectionsInv s)
    (fits : seg.Fits) (entry : EntryOf s k seg) (found : s.lookupKey seg.source seg.msgno = m) (cls : MsgClass)
    (opening : s.lookupKey seg.source seg.msgno = none → w.opening seg.source seg.msgno) :
    AdmitsTo w seg s (resolveElsewhere k cls seg m s) := by
  unfold resolveElsewhere
  split
  · exact .inl (answerFromHistory_changes _ _ _)
  · rename_i unseen
    split
    · exact .inl (Change.posts s _).single
    · exact openContext_admits granted fits entry found unseen cls (opening found)

theorem resolveKey_admits {k : SlotNo} (granted : w.collections → CollectionsInv s) (fits : seg.Fits)
    (entry : EntryOf s k seg) (cls : MsgClass)
    (opening : s.lookupKey seg.source seg.msgno = none → w.opening seg.source seg.msgno) :
    AdmitsTo w seg s (resolveKey k cls seg s) := by
  unfold resolveKey
  split
  · rename_i m found
    split
    · exact storeInto_admits granted fits ‹_›
    · exact resolveElsewhere_admits granted fits entry found cls opening
  · exact resolveElsewhere_admits granted fits entry ‹_› cls opening

theorem admitFrom_admits {k : SlotNo} (granted : w.collections → CollectionsInv s) (fits : seg.Fits)
    (entry : EntryOf s k seg)
    (opening : s.lookupKey seg.source seg.msgno = none → w.opening seg.source seg.msgno) :
    AdmitsTo w seg s (admitFrom k seg s) := by
  unfold admitFrom
  split
  · exact .inl (refuseAndPost_changes _)
  · exact resolveKey_admits granted fits entry _ opening

theorem checkSource_admits (granted : w.collections → CollectionsInv s) (fits : seg.Fits)
    (opening : s.lookupKey seg.source seg.msgno = none → w.opening seg.source seg.msgno) :
    AdmitsTo w seg s (checkSource seg s) := by
  unfold checkSource
  split
  · rename_i k found
    split
    · exact .inl .refl
    · exact .inl (refuseAndPost_changes _)
    · exact admitFrom_admits granted fits ⟨‹_›, (State.findSource_some found).2⟩ opening
    · exact .inl .refl
  · rename_i unknown
    split
    · split
      · rename_i k unused
        have learned : Changes w s ((s.setSource k (.learned seg.source)).post
            (segmentEvent .sourceLearned seg none (numAt k.val 0))) :=
          (Change.adds s k _ (State.lowestUnused_some unused) unknown rfl rfl rfl).single.post _
        refine learned.admits (admitFrom_admits (fun g => learned.collections g (granted g)) fits ⟨?_, ?_⟩ opening) <;>
          rw [State.source_post, State.source_setSource_same] <;> rfl
      · exact .inl (Change.posts s _).single
    · exact .inl (Change.posts s _).single

/-- A frame whose header passes is a segment of legal length (spec 03 R52). -/
theorem parseSegment_fits {l : LineNo} {content : List Byte} (header : headerFault content = none) :
    (parseSegment l content).Fits := by
  have length : (parseSegment l content).length = (byteAt content 6).toNat := rfl
  have payload : (parseSegment l content).payload =
      (content.drop (payloadOffset ((byteAt content 3).getLsbD 4))).take (byteAt content 6).toNat := rfl
  unfold headerFault at header
  split at header
  · cases header
  · split at header
    · cases header
    · split at header
      · cases header
      · split at header
        · cases header
        · split at header
          · cases header
          · exact ⟨by omega, by omega, by rw [payload, length, List.length_take, List.length_drop]; omega⟩

/-- What a row that admits frames may do: store a segment, and open a record under a key that none holds. -/
structure Warrant.Admits (w : Warrant) (s : State) : Prop where
  storing : w.storing
  opening : ∀ a m, s.lookupKey a m = none → w.opening a m

theorem admitFrame_admits (granted : w.collections → CollectionsInv s) (opening : ∀ a m, s.lookupKey a m = none → w.opening a m)
    (l : LineNo) (content : List Byte) : AdmitsTo w (parseSegment l content) s (admitFrame l content s) := by
  unfold admitFrame
  split
  · exact .inl (Change.posts s _).single
  · split
    · exact .inl (Change.posts s _).single
    · split
      · exact .inl (Change.posts s _).single
      · exact checkSource_admits granted (parseSegment_fits ‹_›) (opening _ _)

theorem admitFrame_changes (granted : w.collections → CollectionsInv s) (admits : w.Admits s) (l : LineNo) (content : List Byte) :
    Changes w s (admitFrame l content s) := (admitFrame_admits granted admits.opening l content).changes admits.storing

/-! ## Decisions -/

theorem sendGap_changes (used : (s.ctx n).state ≠ .free) : Changes w s (sendGap n s) := by
  unfold sendGap
  dsimp only
  refine ((State.handOver_changes _ _ _).next (.adjust _ n ?_)).post _
  rw [State.ctx_handOver]
  exact ⟨rfl, id, fun free => absurd free used⟩

theorem decideExpiry_changes (granted : w.collections → CollectionsInv s) (n : CtxNo) :
    Changes w s (decideExpiry n s) := by
  rcases decideExpiry_cases n s with h | ⟨collecting, h⟩ | ⟨collecting, cause, h⟩ <;> rw [h]
  · exact sendGap_changes (by simp [collecting])
  · exact refusePostFree_changes granted (fun _ => collecting) _ _

theorem takeDecision_changes (deciding : w.deciding) (granted : w.collections → CollectionsInv s) (n : CtxNo) :
    Changes w s (takeDecision n s) := by
  unfold takeDecision
  split
  · have settled : Changes w s (s.settleDecision n) := (Change.settles s n deciding).single
    exact settled.append (decideExpiry_changes (fun g => settled.collections g (granted g)) n)
  · exact .refl

theorem takeOwed_changes (deciding : w.deciding) (granted : w.collections → CollectionsInv s) :
    Changes w s (takeOwed s) :=
  takeOwed_induct (Changes w s)
    (fun n _ h => h.append (takeDecision_changes deciding (fun g => h.collections g (granted g)) n)) s .refl

/-! ## The check engine -/

/-- Handing over reads and writes lines and events alone, so that it commutes with changes of other parts. -/
theorem State.handOver_congr {s t : State} (lines : t.lines = s.lines) (ev : t.ev = s.ev) (f : CtrlFrame)
    (requested : LineNo) (mask : LineMask) :
    (t.handOver f requested mask).lines = (s.handOver f requested mask).lines ∧
      (t.handOver f requested mask).ev = (s.handOver f requested mask).ev := by
  have line (l : LineNo) : t.line l = s.line l := State.line_congr lines l
  have chosen : t.txLine requested mask = s.txLine requested mask := by
    unfold State.txLine State.lineOn
    simp only [line]
  unfold State.handOver
  rw [chosen]
  split
  · exact ⟨lines, by simp [ev]⟩
  · rename_i l _
    rw [line]
    split
    · exact ⟨by simp [lines], ev⟩
    · exact ⟨lines, by simp [ev]⟩

theorem State.pushHistory_frame (s : State) (a : Byte) (m : MsgNo) :
    s.pushHistory a m = { s with sources := (s.pushHistory a m).sources } := by
  unfold State.pushHistory
  split <;> rfl

theorem State.pushHistory_congr {s t : State} (h : t.sources = s.sources) (a : Byte) (m : MsgNo) :
    (t.pushHistory a m).sources = (s.pushHistory a m).sources := by
  have source (k : SlotNo) : t.source k = s.source k := State.source_congr h k
  unfold State.pushHistory
  rw [State.findSource_congr (s := s) (fun k => by rw [source]) fun k => by rw [source]]
  split
  · simp [source, h]
  · exact h

/-- A match: the record's move, then its RECEIPT and its event (spec 05 R91). -/
theorem endMatch_eq (n : CtxNo) (s : State) :
    endMatch n s =
      ((s.matched n).handOver (matchReceipt (s.ctx n)) (s.ctx n).replyLine (s.ctx n).lineMask).post
        (checkEvent .msgReady n (s.ctx n)) := by
  unfold endMatch
  dsimp only
  generalize matchReceipt (s.ctx n) = f
  generalize checkEvent .msgReady n (s.ctx n) = e
  rw [State.pushHistory_frame, State.pushHistory_congr (s := s) (by simp), State.handOver_frame,
    State.handOver_frame (s := s.matched n)]
  simp only [State.engineIdle, State.post, State.matched]
  have same := State.handOver_congr (s := s.matched n)
    (t := State.setCtx
      { s with
        checker := { s.checker with queue := s.checker.queue.erase n }
        delivery := deliveryInsert (fun m => (s.ctx m).cls) s.delivery n }
      n { s.ctx n with state := .ready }) rfl rfl f (s.ctx n).replyLine (s.ctx n).lineMask
  obtain ⟨lines, ev⟩ := same
  rw [lines, ev]
  rfl

theorem endMatch_changes (closing : w.closing) (moving : w.moving) (checked : s.underCheck = some n)
    (running : ∃ crc v, s.checker.engine = .checking crc v) : Changes w s (endMatch n s) := by
  rw [endMatch_eq]
  exact ((Change.confirms s n checked running closing moving).single.append (State.handOver_changes _ _ _)).post _

theorem endMismatch_changes (closing : w.closing) (moving : w.moving) (checked : s.underCheck = some n) : Changes w s (endMismatch n s) := by
  refine ((State.refuseCtx_changes _ .check).post _).next (.ends _ n ?_ closing moving)
  rwa [State.underCheck_congr (s := s) (by simp [State.refuseCtx])]

theorem abortOutputs_changes (n : CtxNo) (r : Ctx) (notify : Bool) : Changes w s (abortOutputs n r notify s) := by
  unfold abortOutputs
  cases notify
  · exact (Change.posts s _).single
  · exact (State.refuseCtx_changes r .aborted).post _

theorem abortOutputs_frame (n : CtxNo) (r : Ctx) (notify : Bool) :
    abortOutputs n r notify s =
      { s with lines := (abortOutputs n r notify s).lines, ev := (abortOutputs n r notify s).ev } := by
  unfold abortOutputs
  cases notify
  · rfl
  · simp only [if_true]
    rw [State.refuseCtx_frame]
    rfl

theorem stopOutputs_changes (n : CtxNo) : Changes w s (stopOutputs n s) := by
  unfold stopOutputs
  split
  · exact abortOutputs_changes _ _ _
  all_goals exact .refl

theorem stopOutputs_frame (n : CtxNo) :
    stopOutputs n s = { s with lines := (stopOutputs n s).lines, ev := (stopOutputs n s).ev } := by
  unfold stopOutputs
  split
  · exact abortOutputs_frame _ _ _
  all_goals rfl

theorem engineStopped_changes (closing : w.closing) (moving : w.moving) (checked : s.underCheck = some n) :
    Changes w s ((stopOutputs n s).freeCtx n).engineIdle := by
  refine (stopOutputs_changes n).next (.ends _ n ?_ closing moving)
  rwa [State.underCheck_congr (s := s) (by rw [stopOutputs_frame])]

/-! ## Commands that free records -/

theorem State.lowerOpen_congr {s t : State} (h : t.sources = s.sources) (a : Byte) :
    (t.lowerOpen a).sources = (s.lowerOpen a).sources := by
  have source (k : SlotNo) : t.source k = s.source k := State.source_congr h k
  unfold State.lowerOpen
  rw [State.findSource_congr (s := s) (fun k => by rw [source]) fun k => by rw [source]]
  split
  · simp [source, h]
  · exact h

/-- What freeing writes, with the entries it leaves (spec 01 R26, 02 R44). -/
theorem State.freeCtx_eq (s : State) (n : CtxNo) :
    s.freeCtx n =
      { s with
        ctxs := s.ctxs.set n .cleared
        ageList := s.ageList.erase n
        pool := { s.pool with freeList := s.pool.freeList ++ (s.ctx n).chain }
        checker := { s.checker with queue := s.checker.queue.erase n }
        delivery := s.delivery.erase n
        sources := (s.lowerOpen (s.ctx n).source).sources } := by
  have sources : (s.freeCtx n).sources = (s.lowerOpen (s.ctx n).source).sources := by
    rw [State.freeCtx, State.setCtx_sources]
    refine State.lowerOpen_congr (s := s) ?_ _
    rfl
  rw [State.freeCtx_frame, sources]

/-- Freeing neither reads nor writes the port. -/
theorem State.freeCtx_setReadout (s : State) (n : CtxNo) (r : Readout) :
    State.freeCtx { s with readout := r } n = { s.freeCtx n with readout := r } := by
  rw [State.freeCtx_eq, State.freeCtx_eq (s := s), State.lowerOpen_congr (t := { s with readout := r }) (s := s) rfl]
  rfl

theorem State.freeCtx_post (s : State) (n : CtxNo) (e : EventRec) : (s.post e).freeCtx n = (s.freeCtx n).post e := by
  rw [State.freeCtx_eq, State.freeCtx_eq (s := s), State.lowerOpen_congr (t := s.post e) (s := s) rfl]
  rfl

/-- The held record freed by a command: its freeing with the port LOST, and READOUT_LOST (spec 08 R146). -/
theorem State.freeByCommand_held {s : State} {n : CtxNo} (held : (s.ctx n).state = .delivering) (cause : LossCause) :
    s.freeByCommand n cause =
      State.post { s.freeCtx n with readout := { s.readout with port := .lost, remaining := 0 } }
        (readoutLostEvent n (s.ctx n) cause) := by
  rw [State.freeByCommand, State.loseHeld, if_pos held, State.freeCtx_post, State.freeCtx_setReadout]

theorem State.freeByCommand_unheld {s : State} {n : CtxNo} (unheld : (s.ctx n).state ≠ .delivering) (cause : LossCause) :
    s.freeByCommand n cause = s.freeCtx n := by
  rw [State.freeByCommand, State.loseHeld, if_neg unheld]

theorem freeByCommand_changes (used : (s.ctx n).state ≠ .free) (unchecked : s.underCheck ≠ some n) (cause : LossCause) :
    Changes w s (s.freeByCommand n cause) := by
  by_cases held : (s.ctx n).state = .delivering
  · rw [State.freeByCommand_held held]
    exact (Change.single (.loses s n _ (fun _ => held) (.inr rfl))).post _
  · rw [State.freeByCommand_unheld held]
    exact (Change.frees s n (fun _ => used) (fun _ => held) fun _ => unchecked).single

theorem ctx_freeByCommand (s : State) (n m : CtxNo) (cause : LossCause) :
    (s.freeByCommand n cause).ctx m = if m = n then Ctx.cleared else s.ctx m := by
  by_cases held : (s.ctx n).state = .delivering
  · rw [State.freeByCommand_held held]
    exact s.ctx_freeCtx n m
  · rw [State.freeByCommand_unheld held, State.ctx_freeCtx]

theorem freeByCommand_checker (s : State) (n : CtxNo) (cause : LossCause) :
    (s.freeByCommand n cause).checker = { s.checker with queue := s.checker.queue.erase n } := by
  by_cases held : (s.ctx n).state = .delivering
  · rw [State.freeByCommand_held held, State.freeCtx_frame]
    rfl
  · rw [State.freeByCommand_unheld held, State.freeCtx_frame]

/-- The record under check stays under check while others are taken off the Check Queue. -/
theorem State.underCheck_erase {s t : State} (n : CtxNo)
    (checker : t.checker = { s.checker with queue := s.checker.queue.erase n }) (unchecked : s.underCheck ≠ some n) :
    t.underCheck = s.underCheck := by
  have head (engine : s.checker.engine ≠ .idle) : (s.checker.queue.erase n).head? = s.checker.queue.head? := by
    cases queue : s.checker.queue with
    | nil => rfl
    | cons h rest =>
      have other : h ≠ n := fun e => unchecked (State.underCheck_some.2 ⟨engine, by simp [queue, e]⟩)
      rw [List.erase_cons_tail (by simpa using other)]
      rfl
  unfold State.underCheck
  rw [checker]
  cases engine : s.checker.engine with
  | idle => rfl
  | checking crc v => exact head (by simp [engine])
  | stopPending crc v => exact head (by simp [engine])

theorem underCheck_freeByCommand {n : CtxNo} (unchecked : s.underCheck ≠ some n) (cause : LossCause) :
    (s.freeByCommand n cause).underCheck = s.underCheck :=
  State.underCheck_erase n (freeByCommand_checker s n cause) unchecked

/-- A list of records in use, none of them under check, freed in turn. -/
theorem freeAll_changes {records : List CtxNo} (nodup : records.Nodup)
    (used : ∀ n ∈ records, (s.ctx n).state ≠ .free ∧ s.underCheck ≠ some n) (cause : LossCause) :
    Changes w s (freeAll records cause s) := by
  unfold freeAll
  induction records generalizing s with
  | nil => exact .refl
  | cons n rest ih =>
    obtain ⟨other, nodup⟩ := List.nodup_cons.1 nodup
    obtain ⟨usedHead, unchecked⟩ := used n List.mem_cons_self
    rw [List.foldl_cons]
    refine (freeByCommand_changes usedHead unchecked cause).append (ih nodup fun m hm => ?_)
    rw [ctx_freeByCommand, if_neg fun e : m = n => other (e ▸ hm), underCheck_freeByCommand unchecked]
    exact used m (List.mem_cons_of_mem _ hm)

theorem ctx_freeAll (s : State) (records : List CtxNo) (cause : LossCause) (m : CtxNo) :
    (freeAll records cause s).ctx m = if m ∈ records then Ctx.cleared else s.ctx m := by
  unfold freeAll
  induction records generalizing s with
  | nil => simp
  | cons n rest ih =>
    rw [List.foldl_cons, ih, ctx_freeByCommand]
    by_cases first : m = n <;> simp [first]

theorem underCheck_freeAll {records : List CtxNo} (unchecked : ∀ n ∈ records, s.underCheck ≠ some n)
    (cause : LossCause) : (freeAll records cause s).underCheck = s.underCheck := by
  refine freeAll_induct (fun t => t.underCheck = s.underCheck) records cause (fun t n hn same => ?_) s rfl
  rw [underCheck_freeByCommand (same ▸ unchecked n hn), same]

theorem ctx_suspendCtx (s : State) (n m : CtxNo) : (suspendCtx n s).ctx m = if m = n then Ctx.cleared else s.ctx m := by
  rw [suspendCtx, State.ctx_freeCtx, State.refuseCtx, State.ctx_handOver]

theorem suspendCtx_changes (granted : w.collections → CollectionsInv s) (collecting : (s.ctx n).state = .collecting) :
    Changes w s (suspendCtx n s) := by
  refine (State.refuseCtx_changes _ .suspended).next (.frees _ n (fun _ => ?_) (fun _ => ?_) fun g => ?_)
  · simp [State.refuseCtx, collecting]
  · simp [State.refuseCtx, collecting]
  · rw [State.underCheck_congr (s := s) (by simp [State.refuseCtx])]
    exact (granted g).underCheck_ne (by simp [collecting])

theorem suspendAll_changes {records : List CtxNo} (granted : w.collections → CollectionsInv s) (nodup : records.Nodup)
    (collecting : ∀ n ∈ records, (s.ctx n).state = .collecting) :
    Changes w s (records.foldl (fun t n => suspendCtx n t) s) := by
  induction records generalizing s with
  | nil => exact .refl
  | cons n rest ih =>
    obtain ⟨other, nodup⟩ := List.nodup_cons.1 nodup
    have first : Changes w s (suspendCtx n s) := suspendCtx_changes granted (collecting n List.mem_cons_self)
    rw [List.foldl_cons]
    refine first.append (ih (fun g => first.collections g (granted g)) nodup fun m hm => ?_)
    rw [ctx_suspendCtx, if_neg fun e : m = n => other (e ▸ hm)]
    exact collecting m (List.mem_cons_of_mem _ hm)

end Chains

end Sys2Proof.Machine
end

