-- ==== Sys2Proof/Proofs/RowChanges.lean ====
section
/-! SUPPORT. Every row but HARDWARE_RESET as a chain of elementary changes, with steps between them that touch no record, cell, source,
queue or claim. -/

namespace Sys2Proof.Machine

/-! ## The part of the state that the records, cells, sources and claims make up -/

/-- The records with their cells, sources, collections and claim. -/
structure Records where
  ctxs : Vector Ctx 32
  ageList : List CtxNo
  mem : Memory
  freeList : List Nat
  sources : Vector SourceEntry 64
  checker : Checker
  delivery : List CtxNo
  readout : Readout

def State.records (s : State) : Records :=
  ⟨s.ctxs, s.ageList, s.pool.mem, s.pool.freeList, s.sources, s.checker, s.delivery, s.readout⟩

/-- The arbiter's pointer, RSTN and the reserve. -/
structure Dials where
  rotation : LineNo
  rstnLow : Bool
  reserve : Nat

def State.dials (s : State) : Dials := ⟨s.rotation, s.pins.rstnLow, s.pool.reserve⟩

/-- What a change of a line leaves. -/
def State.beside (s : State) : Records × Timer × Dials := (s.records, s.timer, s.dials)

/-- What an answer, an event record or a host access leaves. -/
def State.base (s : State) : (Records × Timer × Dials) × Vector LineUnit 4 × Nat := (s.beside, s.lines, s.cutSeq)

@[simp] theorem State.setLine_beside (s : State) (l : LineNo) (u : LineUnit) : (s.setLine l u).beside = s.beside := rfl
@[simp] theorem State.post_beside (s : State) (e : EventRec) : (s.post e).beside = s.beside := rfl
@[simp] theorem State.flushLine_beside (s : State) (l : LineNo) : (s.flushLine l).beside = s.beside := rfl
@[simp] theorem State.emptyOldest_beside (s : State) (l : LineNo) : (s.emptyOldest l).beside = s.beside := rfl

section Base

variable {s t : State}

theorem records_of_beside (h : t.beside = s.beside) : t.records = s.records := congrArg Prod.fst h
theorem timer_of_beside (h : t.beside = s.beside) : t.timer = s.timer := congrArg (fun b => b.2.1) h
theorem dials_of_beside (h : t.beside = s.beside) : t.dials = s.dials := congrArg (fun b => b.2.2) h
theorem beside_of_base (h : t.base = s.base) : t.beside = s.beside := congrArg Prod.fst h
theorem lines_of_base (h : t.base = s.base) : t.lines = s.lines := congrArg (fun b => b.2.1) h

end Base

/-- A step of a row: an elementary change; or one that leaves the records' part of the state, and of the rest what the row may not
write. -/
def Move (w : Warrant) (s t : State) : Prop :=
  Change w s t ∨ t.base = s.base ∨ (w.lining ∧ t.beside = s.beside) ∨ w.stirring ∧ t.records = s.records

abbrev Moves (w : Warrant) : State → State → Prop := Relation.ReflTransGen (Move w)

section Moves

variable {w : Warrant} {s t u : State}

theorem Changes.moves (h : Changes w s t) : Moves w s t :=
  Relation.ReflTransGen.mono (fun _ _ => Or.inl) _ _ h

theorem Moves.of_base (h : t.base = s.base) : Moves w s t := .single (.inr (.inl h))

theorem Moves.lines (lining : w.lining) (h : t.beside = s.beside) : Moves w s t := .single (.inr (.inr (.inl ⟨lining, h⟩)))

theorem Moves.stirs (stirring : w.stirring) (h : t.records = s.records) : Moves w s t :=
  .single (.inr (.inr (.inr ⟨stirring, h⟩)))

theorem Moves.append (h : Moves w s t) (rest : Moves w t u) : Moves w s u := h.trans rest

theorem Moves.then (h : Moves w s t) (quiet : u.base = t.base) : Moves w s u := h.append (.of_base quiet)

theorem Moves.finish (h : Moves w s t) (c : HostCommand) (words : Vector Word 6) : Moves w s (t.finish c words) := h.then rfl

theorem Moves.wait (h : Moves w s t) (v : Waiting) : Moves w s (t.wait v) := h.then rfl

/-- What every change keeps and the records' part alone decides, a row's chain keeps. -/
theorem Moves.induct (P : State → Prop) (h : Moves w s t) (keep : ∀ a b, Change w a b → P a → P b)
    (quiet : ∀ a b : State, b.records = a.records → P a → P b) (start : P s) : P t := by
  induction h with
  | refl => exact start
  | tail _ last ih =>
    rcases last with step | same | ⟨-, same⟩ | ⟨-, same⟩
    · exact keep _ _ step ih
    · exact quiet _ _ (records_of_beside (beside_of_base same)) ih
    · exact quiet _ _ (records_of_beside same) ih
    · exact quiet _ _ same ih

/-- The chain of a row that does not stir: its quiet steps leave the records, the timer and the dials, and the lines where it may not
write them. -/
theorem Moves.induct_calm (P : State → Prop) (h : Moves w s t) (calm : ¬w.stirring) (keep : ∀ a b, Change w a b → P a → P b)
    (quiet : ∀ a b : State, b.beside = a.beside → w.lining ∨ b.lines = a.lines → P a → P b) (start : P s) : P t := by
  induction h with
  | refl => exact start
  | tail _ last ih =>
    rcases last with step | same | ⟨lining, same⟩ | ⟨stirring, -⟩
    · exact keep _ _ step ih
    · exact quiet _ _ (beside_of_base same) (.inr (lines_of_base same)) ih
    · exact quiet _ _ same (.inl lining) ih
    · exact absurd stirring calm

theorem CollectionsInv.of_records (same : t.records = s.records) (inv : CollectionsInv s) : CollectionsInv t := by
  have ctxs : t.ctxs = s.ctxs := congrArg Records.ctxs same
  have checker : t.checker = s.checker := congrArg Records.checker same
  have readout : t.readout = s.readout := congrArg Records.readout same
  exact inv.of_states (fun m => by rw [State.ctx_congr ctxs]) (fun m _ => State.ctx_congr ctxs m)
    (congrArg Records.ageList same) (by rw [checker]) (congrArg Records.delivery same) (by simp [readout])
    (checker ▸ inv.checkedExists)

theorem Moves.collections (h : Moves w s t) (granted : w.collections) (inv : CollectionsInv s) : CollectionsInv t :=
  h.induct CollectionsInv (fun _ _ step => step.collections granted) (fun _ _ => .of_records) inv

end Moves

/-! ## Carrying a command out -/

section Commands

variable {w : Warrant} {s : State}

theorem doSetStation_base : (doSetStation s).base = s.base := by
  unfold doSetStation
  split
  · rfl
  · split <;> rfl

theorem doSetLearn_base : (doSetLearn s).base = s.base := by
  unfold doSetLearn
  split <;> rfl

theorem doSetTiming_records : (doSetTiming s).records = s.records := by
  unfold doSetTiming
  split <;> rfl

theorem doSetReserve_records : (doSetReserve s).records = s.records := by
  unfold doSetReserve
  split <;> rfl

theorem doSetLine_beside : (doSetLine s).beside = s.beside := by
  unfold doSetLine
  split
  · rfl
  · split <;> rfl

theorem doLineOn_beside : (doLineOn s).beside = s.beside := by
  unfold doLineOn
  split
  · rfl
  · split <;> rfl

@[simp] theorem closeLine_beside (l : LineNo) : (closeLine l s).beside = s.beside := by
  unfold closeLine
  split <;> rfl

theorem doLineOff_beside : (doLineOff s).beside = s.beside := by
  unfold doLineOff
  split
  · rfl
  · split
    · rw [closeLine_beside]
      rfl
    · exact closeLine_beside _
    · rfl
    · rfl

theorem State.stopIfDone_base (s : State) : s.stopIfDone.base = s.base := by
  rcases s.stopIfDone_cases with ⟨-, -, -, -, h⟩ | ⟨-, h⟩ <;> rw [h]
  rfl

theorem State.stopIfDone_beside (s : State) : s.stopIfDone.beside = s.beside := beside_of_base s.stopIfDone_base

@[simp] theorem stopIfDone_records : s.stopIfDone.records = s.records := records_of_beside s.stopIfDone_beside

theorem doStart_base : (doStart s).base = s.base := by
  unfold doStart
  split
  · rfl
  · split <;> rfl

theorem doStop_records : (doStop s).records = s.records := by
  unfold doStop
  split
  · rfl
  · rw [stopIfDone_records]
    rfl

theorem doQueryCtx_base : (doQueryCtx s).base = s.base := by
  unfold doQueryCtx
  split <;> rfl

theorem doQuerySrc_base : (doQuerySrc s).base = s.base := by
  unfold doQuerySrc
  split
  · rfl
  · split <;> rfl

/-- SRC_ADD's arguments describe an ENABLED entry with no record and no history (spec 03 R61). -/
theorem srcAddArgs_some {e : SourceEntry} (h : srcAddArgs s = some e) :
    e.state = .enabled ∧ e.openCount = 0 ∧ e.history = [] := by
  simp only [srcAddArgs, Option.bind_eq_bind, Option.bind_eq_some_iff, Option.pure_def, Option.some.injEq] at h
  obtain ⟨address, -, maxSegs, -, openLimit, -, urgentOk, -, rfl⟩ := h
  exact ⟨rfl, rfl, rfl⟩

theorem doSrcAdd_moves : Moves w s (doSrcAdd s) := by
  unfold doSrcAdd
  split
  · exact .of_base rfl
  · rename_i e args
    obtain ⟨enabled, count, history⟩ := srcAddArgs_some args
    split
    · exact .of_base rfl
    · rename_i unknown
      split
      · exact .of_base rfl
      · rename_i k unused
        exact (Change.single (.adds s k e (State.lowestUnused_some unused) unknown enabled count history)).moves.finish _ _

theorem doSrcResume_moves : Moves w s (doSrcResume s) := by
  unfold doSrcResume
  split
  · exact .of_base rfl
  · split
    · exact .of_base rfl
    · rename_i k found
      split
      · exact (Change.single (.marks s k .enabled (State.findSource_some found).1 (.inl ⟨rfl, ‹_›⟩))).moves.finish _ _
      · exact .of_base rfl

theorem State.recordsOf_nodup (s : State) (a : Byte) (keep : CtxNo → Bool) : (s.recordsOf a keep).Nodup :=
  (List.nodup_finRange 32).filter _

theorem State.mem_recordsOf {s : State} {a : Byte} {keep : CtxNo → Bool} {n : CtxNo} :
    n ∈ s.recordsOf a keep ↔ (s.ctx n).state ≠ .free ∧ (s.ctx n).source = a ∧ keep n = true := by
  simp [State.recordsOf, and_assoc]

theorem suspendSource_moves {k : SlotNo} (granted : w.collections → CollectionsInv s)
    (enabled : (s.source k).state = .enabled) : Moves w s (suspendSource k s) := by
  have marked : Changes w s (s.setSource k { s.source k with state := .suspended }) :=
    (Change.marks s k .suspended (by simp [enabled]) (.inr (.inl ⟨rfl, enabled⟩))).single
  refine Moves.finish (marked.append (suspendAll_changes (fun g => marked.collections g (granted g))
    (s.recordsOf_nodup (s.source k).address fun n => (s.ctx n).state == .collecting) fun n hn => ?_)).moves _ _
  obtain ⟨-, -, collecting⟩ := State.mem_recordsOf.1 hn
  simpa using collecting

theorem doSrcSuspend_moves (granted : w.collections → CollectionsInv s) : Moves w s (doSrcSuspend s) := by
  unfold doSrcSuspend
  split
  · exact .of_base rfl
  · split
    · exact .of_base rfl
    · rename_i k found
      split
      · exact suspendSource_moves granted ‹_›
      · exact .of_base rfl

/-- The records of a source that are not under check (spec 03 R63). -/
def State.heldUnchecked (s : State) (a : Byte) : List CtxNo := s.recordsOf a fun n => s.underCheck != some n

theorem State.mem_heldUnchecked {s : State} {a : Byte} {n : CtxNo} :
    n ∈ s.heldUnchecked a ↔ (s.ctx n).state ≠ .free ∧ (s.ctx n).source = a ∧ s.underCheck ≠ some n := by
  rw [State.heldUnchecked, State.mem_recordsOf]
  simp

theorem State.checkedOf_none {s : State} {a : Byte} :
    s.checkedOf a = none ↔ ∀ n, s.underCheck = some n → (s.ctx n).source ≠ a := by
  simp [State.checkedOf, Option.filter_eq_none_iff]

theorem State.checkedOf_some {s : State} {a : Byte} {n : CtxNo} :
    s.checkedOf a = some n ↔ s.underCheck = some n ∧ (s.ctx n).source = a := by
  simp [State.checkedOf, Option.filter_eq_some_iff]

/-- Freeing changes nothing of an entry but its open count. -/
theorem source_freeByCommand (s : State) (n : CtxNo) (cause : LossCause) (k : SlotNo) :
    (s.freeByCommand n cause).source k =
      { s.source k with
        openCount :=
          if s.findSource (s.ctx n).source = some k then (s.source k).openCount - 1 else (s.source k).openCount } := by
  by_cases held : (s.ctx n).state = .delivering
  · rw [State.freeByCommand_held held]
    exact s.source_freeCtx n k
  · rw [State.freeByCommand_unheld held, State.source_freeCtx]

theorem source_freeAll (s : State) (records : List CtxNo) (cause : LossCause) (k : SlotNo) :
    (freeAll records cause s).source k =
      { s.source k with openCount := ((freeAll records cause s).source k).openCount } := by
  refine freeAll_induct (fun t => t.source k = { s.source k with openCount := (t.source k).openCount }) records cause
    (fun t n _ same => ?_) s rfl
  rw [source_freeByCommand, same]

/-- The entry REMOVING and every record of its source that is not under check freed (spec 03 R63). -/
def State.emptied (s : State) (k : SlotNo) : State :=
  freeAll (s.heldUnchecked (s.source k).address) .remove
    (s.setSource k { s.source k with state := .removing })

theorem removeSource_unchecked {k : SlotNo} (unchecked : s.checkedOf (s.source k).address = none) :
    removeSource k s =
      ((s.emptied k).setSource k .cleared).finish .srcRemove (oneWord (s.heldUnchecked (s.source k).address).length) := by
  simp only [removeSource, unchecked]
  rfl

theorem removeSource_checked {k : SlotNo} {n : CtxNo} (checked : s.checkedOf (s.source k).address = some n) :
    removeSource k s =
      ((s.emptied k).requestStop n).wait
        (.srcRemove (s.source k).address (s.heldUnchecked (s.source k).address).length) := by
  simp only [removeSource, checked]
  rfl

theorem State.ctx_emptied (s : State) (k : SlotNo) (m : CtxNo) :
    (s.emptied k).ctx m =
      if m ∈ s.heldUnchecked (s.source k).address then Ctx.cleared else s.ctx m := by
  rw [State.emptied, ctx_freeAll, State.ctx_setSource]

theorem State.underCheck_emptied (s : State) (k : SlotNo) : (s.emptied k).underCheck = s.underCheck := by
  refine (underCheck_freeAll (fun n hn => ?_) .remove).trans rfl
  exact (State.mem_heldUnchecked.1 hn).2.2

theorem State.address_emptied (s : State) (k : SlotNo) : ((s.emptied k).source k).address = (s.source k).address := by
  rw [State.emptied, source_freeAll, State.source_setSource_same]

theorem emptied_changes {k : SlotNo} (closing : w.closing) (used : (s.source k).state ≠ .unused) :
    Changes w s (s.emptied k) := by
  refine (Change.single (.marks s k .removing used (.inr (.inr ⟨rfl, closing⟩)))).append
    (freeAll_changes (s.recordsOf_nodup _ _) (fun n hn => ?_) .remove)
  obtain ⟨usedRecord, -, unchecked⟩ := State.mem_heldUnchecked.1 hn
  exact ⟨usedRecord, unchecked⟩

theorem removeSource_moves {k : SlotNo} (closing : w.closing) (moving : w.moving) (used : (s.source k).state ≠ .unused) :
    Moves w s (removeSource k s) := by
  have emptied : Changes w s (s.emptied k) := emptied_changes closing used
  cases checked : s.checkedOf (s.source k).address with
  | none =>
    rw [removeSource_unchecked checked]
    refine Moves.finish (emptied.next (.drops _ k closing fun _ n => ?_)).moves _ _
    rw [State.ctx_emptied, State.address_emptied]
    split
    · exact fun used => absurd rfl used
    · rename_i kept
      intro used same
      refine kept (State.mem_heldUnchecked.2 ⟨used, same, fun underCheck => ?_⟩)
      exact State.checkedOf_none.1 checked n underCheck same
  | some n =>
    rw [removeSource_checked checked]
    refine Moves.wait (emptied.next (.requests _ n ?_ moving)).moves _
    rw [State.underCheck_emptied]
    exact (State.checkedOf_some.1 checked).1

theorem doSrcRemove_moves (closing : w.closing) (moving : w.moving) : Moves w s (doSrcRemove s) := by
  unfold doSrcRemove
  split
  · exact .of_base rfl
  · split
    · exact .of_base rfl
    · exact removeSource_moves closing moving (State.findSource_some ‹_›).1

theorem abortNow_moves {n : CtxNo} (notify : Bool) (used : (s.ctx n).state ≠ .free) (unchecked : s.underCheck ≠ some n) :
    Moves w s (abortNow n notify s) := by
  refine ((abortOutputs_changes n (s.ctx n) notify).append (freeByCommand_changes ?_ ?_ .abort)).moves.finish _ _
  · rwa [State.ctx_congr (s := s) (by rw [abortOutputs_frame])]
  · rwa [State.underCheck_congr (s := s) (by rw [abortOutputs_frame])]

theorem doCtxAbort_moves (moving : w.moving) : Moves w s (doCtxAbort s) := by
  unfold doCtxAbort
  split
  · exact .of_base rfl
  · split
    · exact .of_base rfl
    · split
      · exact (Change.single (.requests s _ ‹_› moving)).moves.wait _
      · exact abortNow_moves _ ‹_› ‹_›

theorem doRelease_moves (claiming : w.claiming) (granted : w.collections → CollectionsInv s) : Moves w s (doRelease s) := by
  unfold doRelease
  split
  · rename_i n v held
    refine (Change.single (.loses s n .cleared (fun g => ?_) (.inl ⟨rfl, claiming⟩))).moves.finish _ _
    exact ((granted g).portHolds n).1 ⟨v, held⟩
  · exact (Change.single (.releases s ‹_› claiming)).moves.finish _ _
  · exact .of_base rfl

theorem doFlush_moves (moving : w.moving) : Moves w s (doFlush s) := by
  have freed : Changes w s
      (freeAll ((List.finRange 32).filter fun n => (s.ctx n).state != .free && s.underCheck != some n) .flush s) := by
    refine freeAll_changes ((List.nodup_finRange 32).filter _) (fun n hn => ?_) .flush
    simpa using hn
  unfold doFlush
  dsimp only
  split
  · exact freed.moves.finish _ _
  · rename_i n checked
    refine (freed.next (.requests _ n ?_ moving)).moves.wait _
    rw [underCheck_freeAll, checked]
    intro m hm
    simp_all

end Commands

/-! ## The other rows -/

section Rows

variable {w : Warrant} {s t : State}

theorem awake_moves {f : State → State} (h : awake s f = .next t) (moves : Moves w s (f s)) : Moves w s t := by
  rcases awake_next h with ⟨-, rfl⟩ | ⟨-, rfl⟩
  · exact .refl
  · exact moves

theorem hostCommand_moves {c : HostCommand} {f : State → State} (h : hostCommand c f s = .next t)
    (granted : w.collections → CollectionsInv s)
    (moves : ∀ u : State, (w.collections → CollectionsInv u) → Moves w u (f u)) : Moves w s t := by
  rcases hostCommand_next h with ⟨-, rfl⟩ | ⟨-, -, rfl⟩ | ⟨-, rfl⟩
  · exact .refl
  · exact .of_base rfl
  · have accepted : Moves w s (s.accept c.code) := .of_base rfl
    exact accepted.append (moves _ fun g => accepted.collections g (granted g))

theorem hostCommand_base {c : HostCommand} {f : State → State} (h : hostCommand c f s = .next t)
    (same : ∀ u : State, (f u).base = u.base) : Moves w s t := by
  rcases hostCommand_next h with ⟨-, rfl⟩ | ⟨-, -, rfl⟩ | ⟨-, rfl⟩
  · exact .refl
  · exact .of_base rfl
  · exact .of_base (same _)

theorem hostCommand_beside {c : HostCommand} {f : State → State} (lining : w.lining) (h : hostCommand c f s = .next t)
    (same : ∀ u : State, (f u).beside = u.beside) : Moves w s t := by
  rcases hostCommand_next h with ⟨-, rfl⟩ | ⟨-, -, rfl⟩ | ⟨-, rfl⟩
  · exact .refl
  · exact .of_base rfl
  · exact .lines lining (same _)

theorem hostCommand_records {c : HostCommand} {f : State → State} (stirring : w.stirring) (h : hostCommand c f s = .next t)
    (same : ∀ u : State, (f u).records = u.records) : Moves w s t := by
  rcases hostCommand_next h with ⟨-, rfl⟩ | ⟨-, -, rfl⟩ | ⟨-, rfl⟩
  · exact .refl
  · exact .of_base rfl
  · exact .stirs stirring (same _)

theorem hostRead_moves {a : RegAddr} {f : State → State} (h : hostRead a f s = .next t) (moves : Moves w s (f s)) :
    Moves w s t := by
  cases h
  cases s.pins.rstnLow
  · exact moves.then rfl
  · exact .of_base rfl

theorem Ctx.ticked_adjusts (r : Ctx) : r.Adjusts r.ticked := by
  unfold Ctx.ticked
  split
  · rename_i collecting
    exact ⟨rfl, id, fun free => by simp [free] at collecting⟩
  · exact .refl r

theorem tickInRun_moves (stirring : w.stirring) : Moves w s (tickInRun s) := by
  have ticked : Change w s { s with ctxs := s.ctxs.map Ctx.ticked } := .adjusts s _ fun n => by
    rw [Fin.getElem_fin, Vector.getElem_map]
    exact Ctx.ticked_adjusts _
  exact ticked.single.moves.append (.stirs stirring (by simp only [tickInRun, State.records]))

theorem serveLine_moves (lining : w.lining) (stirring : w.stirring) (granted : w.collections → CollectionsInv s)
    (admits : w.Admits s) (l : LineNo) : Moves w s (serveLine l s) := by
  have pointed : Moves w s { s with rotation := l } := .stirs stirring rfl
  exact (pointed.append (admitFrame_changes (fun g => pointed.collections g (granted g)) ⟨admits.storing, admits.opening⟩ l _).moves).append
    (.lines lining (State.emptyOldest_beside _ l))

theorem execAdmissionEvent_moves (lining : w.lining) (stirring : w.stirring) (granted : w.collections → CollectionsInv s)
    (admits : w.Admits s) (h : execAdmissionEvent s = .next t) : Moves w s t := by
  refine awake_moves h ?_
  split
  · split
    · exact serveLine_moves lining stirring granted admits _
    · exact .refl
  · exact .refl

theorem State.underCheck_of_queue {n : CtxNo} {rest : List CtxNo} (queue : s.checker.queue = n :: rest)
    (engine : s.checker.engine ≠ .idle) : s.underCheck = some n :=
  State.underCheck_some.2 ⟨engine, by simp [queue]⟩

theorem checkCell_moves {n : CtxNo} {rest : List CtxNo} {crc : Word32} {v : Walk} (closing : w.closing)
    (moving : w.moving) (queue : s.checker.queue = n :: rest) (engine : s.checker.engine = .checking crc v) :
    Moves w s (checkCell n crc v s) := by
  have checked : s.underCheck = some n := State.underCheck_of_queue queue (by simp [engine])
  unfold checkCell
  dsimp only
  split
  · exact (Change.single (.walks s n rest crc v _ queue engine ‹_› moving)).moves
  · split
    · exact (endMatch_changes closing moving checked ⟨crc, v, engine⟩).moves.then (State.stopIfDone_base _)
    · exact (endMismatch_changes closing moving checked).moves.then (State.stopIfDone_base _)

/-- A source whose removal waits has no record left but the one that the engine stops for (spec 03 R63). -/
theorem SourcesInv.gone_of_removing {a : Byte} {f : Nat} {n : CtxNo} (inv : SourcesInv s)
    (waiting : s.cmd.state = .busy (.srcRemove a f)) (head : s.checker.queue.head? = some n) {m : CtxNo} (other : m ≠ n)
    (used : (s.ctx m).state ≠ .free) : (s.ctx m).source ≠ a := by
  obtain ⟨k, removing, address⟩ := inv.waiting a f waiting
  obtain ⟨-, n', head', held⟩ := inv.removing k removing
  rw [head] at head'
  cases head'
  rintro rfl
  have listed : m ∈ s.heldBy (s.source k).address := by simp [State.heldBy, used, address]
  rw [held, List.mem_singleton] at listed
  exact other listed

/-- The engine as it stops, before the command that made it stop completes (spec 05 R95). -/
def State.engineStopped (s : State) (n : CtxNo) : State := ((stopOutputs n s).freeCtx n).engineIdle

theorem engineStop_eq (n : CtxNo) (s : State) : engineStop n s = completeStopped (s.ctx n) (s.engineStopped n) := rfl

theorem State.ctx_engineStopped (s : State) (n m : CtxNo) :
    (s.engineStopped n).ctx m = if m = n then Ctx.cleared else s.ctx m := by
  have same : (stopOutputs n s).ctx m = s.ctx m := State.ctx_congr (by rw [stopOutputs_frame]) m
  rw [← same]
  exact State.ctx_freeCtx _ n m

@[simp] theorem State.engineStopped_cmd (s : State) (n : CtxNo) : (s.engineStopped n).cmd = s.cmd := by
  simp [State.engineStopped]

theorem engineStop_moves {n : CtxNo} {rest : List CtxNo} (closing : w.closing) (moving : w.moving)
    (granted : w.sources → SourcesInv s)
    (queue : s.checker.queue = n :: rest) (engine : s.checker.engine ≠ .idle) : Moves w s (engineStop n s) := by
  have stopped : Moves w s (s.engineStopped n) :=
    (engineStopped_changes closing moving (State.underCheck_of_queue queue engine)).moves
  rw [engineStop_eq]
  unfold completeStopped
  split
  · exact stopped.finish _ _
  · rename_i a f waiting
    rw [State.engineStopped_cmd] at waiting
    unfold State.dropSource
    split
    · rename_i k found
      refine Moves.finish (stopped.tail (.inl (.drops _ k closing fun g m => ?_))) _ _
      rw [State.ctx_engineStopped, (State.findSource_some found).2]
      split
      · exact fun used => absurd rfl used
      · rename_i other
        exact (granted g).gone_of_removing waiting (by simp [queue]) other
    · exact stopped.finish _ _
  · exact stopped.finish _ _
  all_goals exact stopped

theorem execCellCompletion_moves (closing : w.closing) (moving : w.moving) (granted : w.sources → SourcesInv s)
    (h : execCellCompletion s = .next t) : Moves w s t := by
  unfold execCellCompletion at h
  refine awake_moves h ?_
  split
  · exact .refl
  · rename_i n rest queue
    split
    · exact .refl
    · rename_i crc v engine
      exact checkCell_moves closing moving queue engine
    · rename_i crc v engine
      exact engineStop_moves closing moving granted queue (by simp [engine])

theorem dropFrame_beside (l : LineNo) (reason : LineReason) : (dropFrame l reason s).beside = s.beside := by
  unfold dropFrame faultLine
  dsimp only
  split <;> simp

theorem goodFrame_beside (l : LineNo) (content : List Byte) : (goodFrame l content s).beside = s.beside := by
  unfold goodFrame
  dsimp only
  split
  · simp
  · split <;> simp

theorem receiveByte_beside (l : LineNo) (b : Byte) (good : Bool) : (receiveByte l b good s).beside = s.beside := by
  unfold receiveByte
  dsimp only
  split
  · simp
  · rw [dropFrame_beside, State.setLine_beside]
  · rw [goodFrame_beside, State.setLine_beside]

theorem execFrameStart_moves {l : LineNo} (lining : w.lining) (h : execFrameStart l s = .next t) : Moves w s t := by
  unfold execFrameStart at h
  refine awake_moves h ?_
  split
  · exact .refl
  · split
    · exact .lines lining rfl
    · exact .refl

theorem completeLineOff_base (l : LineNo) (s : State) : (completeLineOff l s).base = s.base := by
  unfold completeLineOff
  split <;> rfl

theorem execAbortEnd_moves {l : LineNo} (lining : w.lining) (h : execAbortEnd l s = .next t) : Moves w s t := by
  refine awake_moves h (.lines lining ?_)
  dsimp only
  split
  · split
    · exact (State.stopIfDone_beside _).trans (beside_of_base (s := s.setLine l _) (completeLineOff_base l _))
    · exact State.stopIfDone_beside _
  · rfl

theorem head0Effect_moves (claiming : w.claiming) : Moves w s (head0Effect s) := by
  unfold head0Effect
  split
  · split
    · exact .refl
    · exact (Change.single (.claims s _ _ ‹_› ‹_› claiming)).moves
  · exact .refl
  · exact .refl

theorem dataEffect_moves : Moves w s (dataEffect s) := by
  unfold dataEffect
  split
  · rename_i n v held
    dsimp only
    split
    · exact .refl
    · rename_i more
      have first := Change.reads (w := w) s n v held (by omega)
      split
      · rename_i last
        rw [last] at first
        exact first.single.moves
      · refine (first.single.next (.reads _ n ((s.ctx n).readoutNext v) rfl ?_)).moves
        change 0 < s.readout.remaining - 1
        omega
  · exact .refl
  · exact .refl

theorem popEffect_base : (popEffect s).base = s.base := by
  unfold popEffect
  split <;> rfl

/-- The rows that may end a check or remove a source. -/
def closes : Instr → Bool
  | .cellCompletion | .srcRemove => true
  | _ => false

/-- The rows that may take decisions. -/
def decides : Instr → Bool
  | .tick | .expiryDecision _ => true
  | _ => false

/-- The rows that may move the engine. -/
def engages : Instr → Bool
  | .takeHead | .cellCompletion | .srcRemove | .ctxAbort | .flush => true
  | _ => false

/-- The rows that may claim or release a message. -/
def claims : Instr → Bool
  | .msgHead0 | .release => true
  | _ => false

/-- The rows that may write the lines. -/
def lines : Instr → Bool
  | .byteReception _ _ _ | .admissionEvent | .frameStart _ | .frameEnd _ | .abortEnd _ | .setLine | .lineOn | .lineOff | .stop
  | .rxdReturnToMark _ => true
  | _ => false

/-- The rows that may write the timer or the dials. -/
def stirs : Instr → Bool
  | .tick | .admissionEvent | .setTiming | .setReserve | .stop | .leaveReset => true
  | _ => false

/-- Every row but HARDWARE_RESET is a chain of changes. -/
theorem exec_moves {c : Instr} (h : exec c s = .next t) (noReset : c ≠ .hardwareReset)
    (collections : w.collections → CollectionsInv s) (sources : w.sources → SourcesInv s)
    (closing : closes c = true → w.closing) (deciding : decides c = true → w.deciding)
    (moving : engages c = true → w.moving) (claiming : claims c = true → w.claiming)
    (lining : lines c = true → w.lining) (stirring : stirs c = true → w.stirring)
    (admits : c = .admissionEvent → w.Admits s) : Moves w s t := by
  cases c with
  | hardwareReset => exact absurd rfl noReset
  | tick =>
    refine awake_moves h ?_
    split
    · exact (takeOwed_changes (deciding rfl) collections).moves.append (tickInRun_moves (stirring rfl))
    · exact .refl
  | expiryDecision n =>
    refine awake_moves h ?_
    split
    · exact (takeDecision_changes (deciding rfl) collections n).moves
    · exact .refl
  | byteReception l b good =>
    refine awake_moves h ?_
    split
    · exact .lines (lining rfl) (receiveByte_beside l b good)
    · exact .refl
  | admissionEvent => exact execAdmissionEvent_moves (lining rfl) (stirring rfl) collections (admits rfl) h
  | takeHead =>
    refine awake_moves h ?_
    split
    · rename_i ready
      obtain ⟨idle, -, waiting⟩ := ready
      exact (Change.single (.takes s idle waiting (moving rfl))).moves
    · exact .refl
  | cellCompletion => exact execCellCompletion_moves (closing rfl) (moving rfl) sources h
  | frameStart l => exact execFrameStart_moves (lining rfl) h
  | frameEnd l =>
    refine awake_moves h (.lines (lining rfl) ?_)
    split
    · exact State.stopIfDone_beside _
    · rfl
  | abortEnd l => exact execAbortEnd_moves (lining rfl) h
  | stopCompletion => exact awake_moves h (.of_base s.stopIfDone_base)
  | msgHead0 => exact hostRead_moves h (head0Effect_moves (claiming rfl))
  | data => exact hostRead_moves h dataEffect_moves
  | evtPop => exact hostRead_moves h (.of_base popEffect_base)
  | cmdResult => exact hostRead_moves (f := fun s => { s with cmd := { s.cmd with done := false } }) h (.of_base rfl)
  | evtMaskWrite r v =>
    rw [exec, execEvtMaskWrite] at h
    refine awake_moves h (.of_base ?_)
    split <;> rfl
  | irqEn v => exact awake_moves (f := fun s => { s with ev := { s.ev with irqEn := v.setWidth 3 } }) h (.of_base rfl)
  | cmdArg r v =>
    exact awake_moves (f := fun s => { s with cmd := { s.cmd with args := s.cmd.args.set r v } }) h (.of_base rfl)
  | ignoredWrite a v =>
    rw [execIgnoredWrite_eq (w := v) h]
  | badCommand v =>
    have unnamed : namesCommand v = false := by simpa [Instr.wf] using wf_of_exec_next h
    rw [exec_badCommand unnamed] at h
    refine awake_moves h (.of_base ?_)
    unfold cmdWrite
    split <;> rfl
  | setStation => exact hostCommand_base h fun _ => doSetStation_base
  | setLearn => exact hostCommand_base h fun _ => doSetLearn_base
  | setTiming => exact hostCommand_records (stirring rfl) h fun _ => doSetTiming_records
  | setReserve => exact hostCommand_records (stirring rfl) h fun _ => doSetReserve_records
  | setLine => exact hostCommand_beside (lining rfl) h fun _ => doSetLine_beside
  | lineOn => exact hostCommand_beside (lining rfl) h fun _ => doLineOn_beside
  | lineOff => exact hostCommand_beside (lining rfl) h fun _ => doLineOff_beside
  | srcAdd => exact hostCommand_moves h collections fun _ _ => doSrcAdd_moves
  | srcSuspend => exact hostCommand_moves h collections fun _ => doSrcSuspend_moves
  | srcResume => exact hostCommand_moves h collections fun _ _ => doSrcResume_moves
  | srcRemove => exact hostCommand_moves h collections fun _ _ => doSrcRemove_moves (closing rfl) (moving rfl)
  | ctxAbort => exact hostCommand_moves h collections fun _ _ => doCtxAbort_moves (moving rfl)
  | release => exact hostCommand_moves h collections fun _ => doRelease_moves (claiming rfl)
  | flush => exact hostCommand_moves h collections fun _ _ => doFlush_moves (moving rfl)
  | start => exact hostCommand_base h fun _ => doStart_base
  | stop => exact hostCommand_records (stirring rfl) h fun _ => doStop_records
  | queryCtx => exact hostCommand_base h fun _ => doQueryCtx_base
  | querySrc => exact hostCommand_base h fun _ => doQuerySrc_base
  | queryPool => exact hostCommand_base h fun _ => rfl
  | clearLoss => exact hostCommand_base h fun _ => rfl
  | rxdReturnToMark l =>
    refine awake_moves h ?_
    split
    · exact .lines (lining rfl) rfl
    · exact .refl
  | leaveReset =>
    cases h
    exact .stirs (stirring rfl) rfl

end Rows

end Sys2Proof.Machine
end

