-- ==== Sys2Proof/Proofs/CellsAndCollections.lean ====
section
/-! SUPPORT. From the elementary changes to the steps: what they all keep and reset establishes, every step keeps. First the cells
and the collections. -/

namespace Sys2Proof.Machine

/-! ## Steps -/

/-- A step idles on an empty queue and otherwise runs the front command. -/
theorem step_cases {s t : State} (h : step s = .next t) :
    t = s ∨ ∃ c rest, s.pending = c :: rest ∧ exec c { s with pending := rest } = .next t := by
  unfold step at h
  split at h
  · cases h
    exact .inl rfl
  · exact .inr ⟨_, _, ‹_›, h⟩

/-- The records' part of the state as reset leaves it, over the payload bytes that stay (spec 02 R34). -/
def State.AtReset (s : State) : Prop := s.records = { State.reset.records with mem := s.pool.mem }

theorem atReset_of_hardwareReset {s t : State} (h : exec .hardwareReset s = .next t) : t.AtReset := by
  cases h
  rfl

/-- The warrant of every row, of a start whose collections agree, and of one whose sources agree as well. -/
def anyRow : Warrant := ⟨False, False, True, True, True, True, True, True, True, fun _ _ => True⟩
def anyRowOnCollections : Warrant := ⟨True, False, True, True, True, True, True, True, True, fun _ _ => True⟩
def anyRowOnSources : Warrant := ⟨True, True, True, True, True, True, True, True, True, fun _ _ => True⟩

/-- The row may do all that a row can. -/
def Warrant.full (w : Warrant) : Prop := w.closing ∧ w.deciding ∧ w.moving ∧ w.claiming ∧ w.lining ∧ w.stirring ∧
  w.storing ∧ ∀ a m, w.opening a m

theorem anyRow_full : anyRow.full := ⟨trivial, trivial, trivial, trivial, trivial, trivial, trivial, fun _ _ => trivial⟩
theorem anyRowOnCollections_full : anyRowOnCollections.full :=
  ⟨trivial, trivial, trivial, trivial, trivial, trivial, trivial, fun _ _ => trivial⟩

/-- What the records' part decides, every elementary change keeps and reset establishes, every row keeps. -/
theorem exec_keeps {w : Warrant} {P : State → Prop} (full : w.full)
    (collections : ∀ s, P s → w.collections → CollectionsInv s) (sources : ∀ s, P s → w.sources → SourcesInv s)
    (quiet : ∀ a b : State, b.records = a.records → P a → P b) (change : ∀ a b, Change w a b → P a → P b)
    (reset : ∀ a b : State, b.AtReset → b.pool.mem = a.pool.mem → P a → P b) {c : Instr} {s t : State}
    (h : exec c s = .next t) (start : P s) : P t := by
  by_cases isReset : c = .hardwareReset
  · subst isReset
    exact reset s t (atReset_of_hardwareReset h) (by cases h; rfl) start
  · obtain ⟨closing, deciding, moving, claiming, lining, stirring, storing, opening⟩ := full
    exact (exec_moves h isReset (collections s start) (sources s start) (fun _ => closing) (fun _ => deciding)
      (fun _ => moving) (fun _ => claiming) (fun _ => lining) (fun _ => stirring)
      fun _ => ⟨storing, fun a m _ => opening a m⟩).induct P change quiet start

/-- What every row keeps, whatever waits in the queue, every step keeps. -/
theorem step_keeps {P : State → Prop} (quiet : ∀ a b : State, b.records = a.records → P a → P b)
    (row : ∀ (c : Instr) (s t : State), exec c s = .next t → P s → P t) {s t : State} (h : step s = .next t) (start : P s) :
    P t := by
  rcases step_cases h with rfl | ⟨c, rest, -, h⟩
  · exact start
  · exact row c _ t h (quiet s { s with pending := rest } rfl start)

/-! ## The payload memory -/

theorem mem_of_records {s t : State} (same : t.records = s.records) : t.pool.mem = s.pool.mem := congrArg Records.mem same

/-- The payload bytes are written by a segment's store alone. -/
theorem Change.mem_wf {w : Warrant} {s t : State} (h : Change w s t) (wf : Memory.wf s.pool.mem = true) :
    Memory.wf t.pool.mem = true := by
  cases h with
  | names n seg => rwa [joinIfWhole_pool]
  | stores n seg =>
    rw [joinIfWhole_pool]
    exact Memory.wf_writeCells wf _ _
  | frees n => rwa [State.freeCtx_mem]
  | loses n r => simpa using wf
  | ends n => simpa using wf
  | requests n => rwa [State.requestStop_frame]
  | _ => exact wf

theorem exec_mem_wf {c : Instr} {s t : State} (h : exec c s = .next t) (wf : Memory.wf s.pool.mem = true) :
    Memory.wf t.pool.mem = true :=
  exec_keeps (w := anyRow) (P := fun s => Memory.wf s.pool.mem = true) anyRow_full (fun _ _ => False.elim)
    (fun _ _ => False.elim) (fun _ _ same wf => mem_of_records same ▸ wf) (fun _ _ => Change.mem_wf)
    (fun _ _ _ same wf => same ▸ wf) h wf

/-! ## The cells -/

section Cells

variable {s t : State}

theorem count_allChains (s : State) (c : Nat) : s.allChains.count c = ∑ n, (s.ctx n).chain.count c := by
  rw [State.allChains, List.count_flatMap, ← List.ofFn_eq_map, List.sum_ofFn]
  rfl

/-- The cells on the free list and on the chains are the pool's: counted cell by cell. -/
theorem cells_iff (s : State) :
    List.Perm (s.pool.freeList ++ s.allChains) (List.range Config.poolCells) ↔
      ∀ c, s.pool.freeList.count c + ∑ n, (s.ctx n).chain.count c = (List.range Config.poolCells).count c := by
  rw [List.perm_iff_count]
  simp only [List.count_append, count_allChains]

/-- Cells moved between one record's chain and the free list. -/
theorem PoolInv.exchange (inv : PoolInv s) (n : CtxNo) (others : ∀ m, m ≠ n → (t.ctx m).chain = (s.ctx m).chain)
    (moved : (t.pool.freeList ++ (t.ctx n).chain).Perm (s.pool.freeList ++ (s.ctx n).chain))
    (freeHasNone : ∀ m, (t.ctx m).state = .free → (t.ctx m).chain = []) : PoolInv t := by
  refine ⟨(cells_iff t).2 fun c => ?_, freeHasNone⟩
  rw [← (cells_iff s).1 inv.cells c]
  have here := moved.count_eq c
  simp only [List.count_append] at here
  have rest : ∑ m ∈ Finset.univ.erase n, (t.ctx m).chain.count c = ∑ m ∈ Finset.univ.erase n, (s.ctx m).chain.count c :=
    Finset.sum_congr rfl fun m hm => by rw [others m (Finset.ne_of_mem_erase hm)]
  rw [← Finset.add_sum_erase Finset.univ _ (Finset.mem_univ n), ← Finset.add_sum_erase Finset.univ _ (Finset.mem_univ n),
    rest]
  omega

/-- Every chain and the free list stand, and no record in use becomes FREE. -/
theorem PoolInv.of_chains (inv : PoolInv s) (chains : ∀ m, (t.ctx m).chain = (s.ctx m).chain)
    (freeList : t.pool.freeList = s.pool.freeList)
    (free : ∀ m, (t.ctx m).state = .free → (s.ctx m).state = .free) : PoolInv t := by
  refine inv.exchange 0 (fun m _ => chains m) ?_ fun m h => ?_
  · rw [chains, freeList]
  · rw [chains, inv.freeHasNone m (free m h)]

theorem PoolInv.of_records (same : t.records = s.records) (inv : PoolInv s) : PoolInv t := by
  have ctx (m : CtxNo) : t.ctx m = s.ctx m := State.ctx_congr (congrArg Records.ctxs same) m
  exact inv.of_chains (fun m => by rw [ctx]) (congrArg Records.freeList same) fun m => by rw [ctx]; exact id

/-- One record rewritten with its chain, in use before and after. -/
theorem PoolInv.of_set {n : CtxNo} {r : Ctx} (inv : PoolInv s) (ctxs : ∀ m, t.ctx m = if m = n then r else s.ctx m)
    (chain : r.chain = (s.ctx n).chain) (used : r.state ≠ .free) (freeList : t.pool.freeList = s.pool.freeList) :
    PoolInv t := by
  refine inv.of_chains (fun m => ?_) freeList fun m => ?_ <;> rw [ctxs]
  · split
    · rename_i e
      rw [chain, e]
    · rfl
  · split
    · exact fun h => absurd h used
    · exact id

theorem PoolInv.freed {n : CtxNo} (inv : PoolInv s) (ctxs : ∀ m, t.ctx m = if m = n then Ctx.cleared else s.ctx m)
    (freeList : t.pool.freeList = s.pool.freeList ++ (s.ctx n).chain) : PoolInv t := by
  refine inv.exchange n (fun m other => by rw [ctxs, if_neg other]) ?_ fun m => ?_
  · rw [freeList, ctxs, if_pos rfl]
    exact .of_eq (List.append_nil _)
  · rw [ctxs]
    split
    · exact fun _ => rfl
    · exact inv.freeHasNone m

/-- A whole message's move to the Check Queue leaves chains and free list. -/
theorem PoolInv.joinIfWhole {n : CtxNo} (inv : PoolInv s) : PoolInv (joinIfWhole n s) := by
  rcases joinIfWhole_cases s n with ⟨-, h⟩ | ⟨-, h⟩ <;> rw [h]
  · exact inv.of_set (s.ctx_joined n) rfl nofun rfl
  · exact inv

/-- The cells at the head of the free list join the record's chain. -/
theorem PoolInv.allocated {n : CtxNo} (inv : PoolInv s) (seg : Segment) (used : (s.ctx n).state ≠ .free) :
    PoolInv (allocateAndStore n seg s) := by
  have ctxs (m : CtxNo) := ctx_allocateAndStore s n m seg
  refine inv.exchange n (fun m other => by rw [ctxs, if_neg other]) ?_ fun m => ?_
  · rw [ctxs, if_pos rfl]
    change (s.pool.freeList.drop _ ++ ((s.ctx n).chain ++ s.pool.freeList.take _)).Perm _
    rw [← List.append_assoc]
    refine List.perm_append_comm.trans ?_
    rw [← List.append_assoc, List.take_append_drop]
  · rw [ctxs]
    split
    · exact fun h => absurd h used
    · exact inv.freeHasNone m

theorem Change.pool {w : Warrant} (h : Change w s t) (inv : PoolInv s) : PoolInv t := by
  cases h with
  | adjusts ctxs adjust =>
    exact inv.of_chains (fun m => (adjust m).chain) rfl fun m free => (adjust m).state ▸ free
  | names n seg collecting =>
    refine PoolInv.joinIfWhole (inv.of_set (fun m => s.ctx_setCtx n m _) ?_ ?_ rfl)
    · unfold Ctx.duplicated
      dsimp only
      split <;> rfl
    · rw [Ctx.duplicated_state, collecting]
      nofun
  | stores n seg fits collecting => exact (inv.allocated seg (by simp [collecting])).joinIfWhole
  | opens n k cls seg free =>
    refine inv.of_chains (fun m => ?_) rfl fun m => ?_ <;> rw [State.ctx_openedFor]
    · split
      · rename_i e
        rw [e, inv.freeHasNone n free]
        rfl
      · rfl
    · split
      · nofun
      · exact id
  | frees n => exact inv.freed (fun m => s.ctx_freeCtx n m) (by simp)
  | loses n r => exact inv.freed (fun m => s.ctx_freeCtx n m) (by simp)
  | ends n => exact inv.freed (fun m => s.ctx_freeCtx n m) (by simp)
  | confirms n => exact inv.of_set (s.ctx_matched n) rfl nofun rfl
  | requests n =>
    refine inv.of_chains (fun m => ?_) (by rw [State.requestStop_frame]) fun m => ?_ <;> rw [State.ctx_requestStop]
    · split <;> simp_all
    · split
      · rename_i e
        rw [e]
        exact id
      · exact id
  | claims n rest => exact inv.of_set (fun m => ctx_claim s n m rest) rfl nofun rfl
  | _ => exact inv.of_chains (fun _ => rfl) rfl fun _ => id

theorem State.AtReset.ctx {s : State} (h : s.AtReset) (n : CtxNo) : s.ctx n = Ctx.cleared := by
  have ctxs : s.ctxs = State.reset.ctxs := congrArg Records.ctxs h
  simp [State.ctx, ctxs, State.reset]

theorem State.AtReset.source {s : State} (h : s.AtReset) (k : SlotNo) : s.source k = SourceEntry.cleared := by
  have sources : s.sources = State.reset.sources := congrArg Records.sources h
  simp [State.source, sources, State.reset]

theorem State.AtReset.pool (h : s.AtReset) : PoolInv s where
  cells := by
    have freeList : s.pool.freeList = List.range' 0 Config.poolCells := congrArg Records.freeList h
    have chains : s.allChains = [] := by
      rw [State.allChains, List.flatMap_eq_nil_iff]
      intro n _
      rw [h.ctx]
      rfl
    rw [freeList, chains, List.append_nil, List.range_eq_range']
  freeHasNone n _ := by
    rw [h.ctx]
    rfl

theorem exec_pool {c : Instr} (h : exec c s = .next t) (inv : PoolInv s) : PoolInv t :=
  exec_keeps (w := anyRow) anyRow_full (fun _ _ => False.elim) (fun _ _ => False.elim) (fun _ _ => .of_records)
    (fun _ _ => Change.pool) (fun _ _ reset _ _ => reset.pool) h inv

end Cells

/-- Settles O50: only a store writes payload bytes, and every change moves cells between the free list and one chain at most. -/
theorem cellsNeverLostOrShared : Obligations.CellsNeverLostOrShared := by
  unfold Obligations.CellsNeverLostOrShared
  constructor
  · intro s t wf h
    exact step_keeps (P := fun s => Memory.wf s.pool.mem = true) (fun _ _ same wf => mem_of_records same ▸ wf)
      (fun _ _ _ => exec_mem_wf) h wf
  · intro s t inv h
    exact step_keeps (fun _ _ => .of_records) (fun _ _ _ => exec_pool) h inv

/-! ## The collections -/

section Collections

variable {s t : State}

theorem State.AtReset.collections (h : s.AtReset) : CollectionsInv s := by
  have age : s.ageList = [] := congrArg Records.ageList h
  have checker : s.checker = ⟨[], .idle⟩ := congrArg Records.checker h
  have delivery : s.delivery = [] := congrArg Records.delivery h
  have readout : s.readout = .cleared := congrArg Records.readout h
  have free (n : CtxNo) : (s.ctx n).state = .free := by
    rw [h.ctx]
    rfl
  refine ⟨?_, fun n => ?_, ?_, fun n => ?_, ?_, fun n => ?_, fun n => ?_, ?_, fun n _ => h.ctx n⟩ <;>
    simp [age, checker, delivery, readout, free, Readout.cleared]

theorem exec_collections {c : Instr} (h : exec c s = .next t) (inv : CollectionsInv s) : CollectionsInv t :=
  exec_keeps (w := anyRowOnCollections) anyRowOnCollections_full (fun _ inv _ => inv) (fun _ _ => False.elim)
    (fun _ _ => .of_records) (fun _ _ step => step.collections trivial) (fun _ _ reset _ _ => reset.collections) h inv

/-- A stop is waited for. -/
def State.stopPends (s : State) : Prop := ∃ crc v, s.checker.engine = .stopPending crc v

theorem AbortPendingInv.of_same (inv : AbortPendingInv s) (pending : ∀ n, (t.ctx n).abortPending = (s.ctx n).abortPending)
    (head : s.stopPends → t.checker.queue.head? = s.checker.queue.head?) (engine : t.stopPends ↔ s.stopPends) :
    AbortPendingInv t := by
  intro n
  rw [pending, inv n]
  change _ ∧ s.stopPends ↔ _ ∧ t.stopPends
  rw [engine]
  exact ⟨fun h => ⟨by rw [head h.2, h.1], h.2⟩, fun h => ⟨by rw [← head h.2, h.1], h.2⟩⟩

theorem AbortPendingInv.of_records (same : t.records = s.records) (inv : AbortPendingInv s) : AbortPendingInv t := by
  have ctx (m : CtxNo) : t.ctx m = s.ctx m := State.ctx_congr (congrArg Records.ctxs same) m
  have checker : t.checker = s.checker := congrArg Records.checker same
  exact inv.of_same (fun m => by rw [ctx]) (fun _ => by rw [checker]) (by rw [State.stopPends, State.stopPends, checker])

/-- With no stop waited for, no record's abort is pending. -/
theorem AbortPendingInv.of_none (pending : ∀ n, (t.ctx n).abortPending = false) (engine : ¬t.stopPends) :
    AbortPendingInv t := fun n => by
  rw [pending]
  exact iff_of_false nofun fun h => engine h.2

theorem AbortPendingInv.none (inv : AbortPendingInv s) (engine : ¬s.stopPends) (n : CtxNo) :
    (s.ctx n).abortPending = false := by
  cases h : (s.ctx n).abortPending with
  | false => rfl
  | true => exact absurd ((inv n).1 h).2 engine

/-- Only the record under check has its abort pending. -/
theorem AbortPendingInv.unchecked (inv : AbortPendingInv s) {n : CtxNo} (h : s.underCheck ≠ some n) :
    (s.ctx n).abortPending = false := by
  cases p : (s.ctx n).abortPending with
  | false => rfl
  | true =>
    obtain ⟨head, crc, v, engine⟩ := (inv n).1 p
    exact absurd (State.underCheck_some.2 ⟨by simp [engine], head⟩) h

theorem AbortPendingInv.freed (inv : AbortPendingInv s) {n : CtxNo} (unchecked : s.underCheck ≠ some n) :
    AbortPendingInv (s.freeCtx n) := by
  refine inv.of_same (fun m => ?_) (fun ⟨crc, v, engine⟩ => ?_) (by simp [State.stopPends])
  · rw [State.ctx_freeCtx]
    split
    · rename_i e
      rw [e, inv.unchecked unchecked]
      rfl
    · rfl
  · have same := State.underCheck_erase (s := s) (t := s.freeCtx n) n (by rw [State.freeCtx_frame]) unchecked
    simpa [State.underCheck, engine] using same

/-- The record under check leaves it with the engine IDLE. -/
theorem AbortPendingInv.left (inv : AbortPendingInv s) {n : CtxNo} {r : Ctx} (checked : s.underCheck = some n)
    (ctxs : ∀ m, t.ctx m = if m = n then r else s.ctx m) (pending : r.abortPending = false)
    (engine : t.checker.engine = .idle) : AbortPendingInv t := by
  refine .of_none (fun m => ?_) fun ⟨crc, v, h⟩ => by simp [engine] at h
  rw [ctxs]
  split
  · exact pending
  · rename_i other
    exact inv.unchecked fun h => other (by rw [checked] at h; cases h; rfl)

theorem AbortPendingInv.joinIfWhole (inv : AbortPendingInv s) (collections : CollectionsInv s) (n : CtxNo) :
    AbortPendingInv (joinIfWhole n s) := by
  rcases joinIfWhole_cases s n with ⟨-, h⟩ | ⟨-, h⟩ <;> rw [h]
  · refine inv.of_same (fun m => ?_) (fun ⟨crc, v, engine⟩ => ?_) .rfl
    · rw [State.ctx_joined]
      split
      · rename_i e
        rw [e]
      · rfl
    · obtain ⟨h, rest, queue⟩ := List.exists_cons_of_ne_nil (collections.checkedExists (by simp [engine]))
      simp [State.joined, queue]
  · exact inv

theorem Change.abortPending {w : Warrant} (h : Change w s t) (granted : w.collections) (collections : CollectionsInv s)
    (inv : AbortPendingInv s) : AbortPendingInv t := by
  have rewritten {n : CtxNo} {r : Ctx} {u : State} (ctxs : ∀ m, u.ctx m = if m = n then r else s.ctx m)
      (pending : r.abortPending = (s.ctx n).abortPending) (checker : u.checker = s.checker) : AbortPendingInv u := by
    refine inv.of_same (fun m => ?_) (fun _ => by rw [checker]) (by rw [State.stopPends, State.stopPends, checker])
    rw [ctxs]
    split
    · rename_i e
      rw [pending, e]
    · rfl
  cases h with
  | adjusts ctxs adjust => exact inv.of_same (fun m => (adjust m).abortPending) (fun _ => rfl) .rfl
  | names n seg collecting =>
    have same : AbortPendingInv (s.setCtx n ((s.ctx n).duplicated seg)) := by
      refine rewritten (fun m => s.ctx_setCtx n m _) ?_ rfl
      unfold Ctx.duplicated
      dsimp only
      split <;> rfl
    refine same.joinIfWhole (collections.rewritten ?_ ((s.ctx n).duplicated_state seg) (fun m => s.ctx_setCtx n m _) rfl rfl
      rfl rfl) n
    simp [collecting]
  | stores n seg fits collecting =>
    have same : AbortPendingInv (allocateAndStore n seg s) := rewritten (fun m => ctx_allocateAndStore s n m seg) rfl rfl
    refine same.joinIfWhole (collections.rewritten (r := (s.ctx n).stored seg _) ?_ rfl
      (fun m => ctx_allocateAndStore s n m seg) rfl rfl rfl rfl) n
    simp [collecting]
  | opens n k cls seg free =>
    refine rewritten (fun m => s.ctx_openedFor n m k cls seg) ?_ rfl
    rw [collections.freeIsCleared n free]
    rfl
  | frees n used unclaimed unchecked => exact inv.freed (unchecked granted)
  | loses n r held =>
    have freed : AbortPendingInv (s.freeCtx n) := inv.freed (collections.underCheck_ne (by simp [held granted]))
    exact freed.of_same (fun _ => rfl) (fun _ => rfl) .rfl
  | ends n checked => exact inv.left checked (fun m => s.ctx_freeCtx n m) rfl rfl
  | confirms n checked running =>
    refine inv.left checked (s.ctx_matched n) ?_ rfl
    obtain ⟨crc, v, engine⟩ := running
    exact inv.none (fun ⟨_, _, h⟩ => by simp [engine] at h) n
  | requests n checked =>
    obtain ⟨engine, head⟩ := State.underCheck_some.1 checked
    have pends : (s.requestStop n).stopPends := by
      unfold State.stopPends State.requestStop
      split
      · exact ⟨_, _, rfl⟩
      · exact absurd ‹_› engine
      · exact ⟨_, _, ‹_›⟩
    intro m
    rw [State.ctx_requestStop]
    have queue : (s.requestStop n).checker.queue = s.checker.queue := by rw [State.requestStop_frame]
    rw [queue, head]
    split
    · rename_i e
      exact iff_of_true rfl ⟨by rw [e], pends⟩
    · rename_i other
      rw [inv.unchecked (by rw [checked]; simpa using Ne.symm other)]
      exact iff_of_false nofun fun h => other (by simpa using h.1.symm)
  | takes idle waiting =>
    refine .of_none (inv.none ?_) ?_
    · exact fun ⟨_, _, h⟩ => by simp [idle] at h
    · exact fun ⟨_, _, h⟩ => nomatch h
  | walks n rest crc v next queue engine =>
    refine .of_none (inv.none ?_) ?_
    · exact fun ⟨_, _, h⟩ => by simp [engine] at h
    · exact fun ⟨_, _, h⟩ => nomatch h
  | claims n rest => exact rewritten (fun m => ctx_claim s n m rest) rfl rfl
  | _ => exact inv.of_same (fun _ => rfl) (fun _ => rfl) .rfl

theorem State.AtReset.abortPending (h : s.AtReset) : AbortPendingInv s := by
  have checker : s.checker = ⟨[], .idle⟩ := congrArg Records.checker h
  refine .of_none (fun n => ?_) fun ⟨_, _, engine⟩ => by simp [checker] at engine
  rw [h.ctx]
  rfl

theorem exec_abortPending {c : Instr} (h : exec c s = .next t) (inv : CollectionsInv s ∧ AbortPendingInv s) :
    CollectionsInv t ∧ AbortPendingInv t :=
  exec_keeps (w := anyRowOnCollections) (P := fun s => CollectionsInv s ∧ AbortPendingInv s) anyRowOnCollections_full
    (fun _ inv _ => inv.1) (fun _ _ => False.elim) (fun _ _ same inv => ⟨inv.1.of_records same, inv.2.of_records same⟩)
    (fun _ _ step inv => ⟨step.collections trivial inv.1, step.abortPending trivial inv.1 inv.2⟩)
    (fun _ _ reset _ _ => ⟨reset.collections, reset.abortPending⟩) h inv

end Collections

theorem step_collections {s t : State} (h : step s = .next t) (inv : CollectionsInv s) : CollectionsInv t :=
  step_keeps (fun _ _ => .of_records) (fun _ _ _ => exec_collections) h inv

/-- Settles O51: each change moves one record between collections with its state, and a stop's request alone sets abort pending. -/
theorem collectionsFollowTheStates : Obligations.CollectionsFollowTheStates := by
  unfold Obligations.CollectionsFollowTheStates
  intro s t inv h
  refine ⟨step_collections h inv, fun abort => ?_⟩
  exact (step_keeps (P := fun s => CollectionsInv s ∧ AbortPendingInv s)
    (fun _ _ same inv => ⟨inv.1.of_records same, inv.2.of_records same⟩) (fun _ _ _ => exec_abortPending) h ⟨inv, abort⟩).2

end Sys2Proof.Machine
end

