-- ==== Sys2Proof/Proofs/KeysAndCounts.lean ====
section
/-! SUPPORT. Keys stay unique, the delivery queue stays in order, and every record's counts, end and chain go on following its segment
map (spec 01 R2, R3, R7, R20, 05 R99). -/

namespace Sys2Proof.Machine

/-! ## Keys -/

section Keys

variable {w : Warrant} {s t : State}

/-- Every record in use was in use before, with the same key. -/
theorem KeysUnique.of_kept (keys : KeysUnique s)
    (kept : ∀ m, (t.ctx m).state ≠ .free →
      (s.ctx m).state ≠ .free ∧ (t.ctx m).source = (s.ctx m).source ∧ (t.ctx m).msgno = (s.ctx m).msgno) :
    KeysUnique t := by
  intro m n usedM usedN source msgno
  obtain ⟨usedM, sourceM, msgnoM⟩ := kept m usedM
  obtain ⟨usedN, sourceN, msgnoN⟩ := kept n usedN
  exact keys m n usedM usedN (by rw [← sourceM, ← sourceN, source]) (by rw [← msgnoM, ← msgnoN, msgno])

theorem KeysUnique.of_records (same : t.records = s.records) (keys : KeysUnique s) : KeysUnique t := by
  have ctx (m : CtxNo) : t.ctx m = s.ctx m := State.ctx_congr (congrArg Records.ctxs same) m
  exact keys.of_kept fun m used => by rw [ctx] at *; exact ⟨used, rfl, rfl⟩

theorem KeysUnique.of_set {n : CtxNo} {r : Ctx} (keys : KeysUnique s) (ctxs : ∀ m, t.ctx m = if m = n then r else s.ctx m)
    (used : r.state ≠ .free → (s.ctx n).state ≠ .free)
    (key : r.state ≠ .free → r.source = (s.ctx n).source ∧ r.msgno = (s.ctx n).msgno) : KeysUnique t := by
  refine keys.of_kept fun m inUse => ?_
  rw [ctxs] at inUse ⊢
  split at inUse
  · rename_i e
    rw [if_pos e, e]
    exact ⟨used inUse, key inUse⟩
  · rename_i e
    rw [if_neg e]
    exact ⟨inUse, rfl, rfl⟩

theorem KeysUnique.joinIfWhole (keys : KeysUnique s) {n : CtxNo} (used : (s.ctx n).state ≠ .free) :
    KeysUnique (joinIfWhole n s) := by
  rcases joinIfWhole_cases s n with ⟨-, h⟩ | ⟨-, h⟩ <;> rw [h]
  · exact keys.of_set (s.ctx_joined n) (fun _ => used) fun _ => ⟨rfl, rfl⟩
  · exact keys

/-- The record opened is the only one with its key, for none held it. -/
theorem KeysUnique.opened (keys : KeysUnique s) {n : CtxNo} {k : SlotNo} {cls : MsgClass} {seg : Segment}
    (unheld : s.lookupKey seg.source seg.msgno = none) : KeysUnique (s.openedFor n k cls seg) := by
  have ctxs (m : CtxNo) := s.ctx_openedFor n m k cls seg
  have opened : (Ctx.opened cls seg).source = seg.source ∧ (Ctx.opened cls seg).msgno = seg.msgno := ⟨rfl, rfl⟩
  rw [State.lookupKey_none] at unheld
  intro m m' used used' source msgno
  rw [ctxs] at used used' source msgno
  rw [ctxs] at source msgno
  by_cases first : m = n <;> by_cases second : m' = n
  · rw [first, second]
  · simp only [first, second, if_true, if_false] at used' source msgno
    exact absurd msgno.symm (unheld m' used' source.symm)
  · simp only [first, second, if_true, if_false] at used source msgno
    exact absurd msgno (unheld m used source)
  · simp only [first, second, if_false] at used used' source msgno
    exact keys m m' used used' source msgno

theorem Ctx.duplicated_key (r : Ctx) (seg : Segment) :
    (r.duplicated seg).source = r.source ∧ (r.duplicated seg).msgno = r.msgno := by
  unfold Ctx.duplicated
  dsimp only
  split <;> exact ⟨rfl, rfl⟩

theorem Change.keys (h : Change w s t) (collections : CollectionsInv s) (keys : KeysUnique s) :
    KeysUnique t := by
  have cleared {n : CtxNo} {u : State} (ctxs : ∀ m, u.ctx m = if m = n then Ctx.cleared else s.ctx m) : KeysUnique u :=
    keys.of_set ctxs (fun used => absurd rfl used) fun used => absurd rfl used
  cases h with
  | adjusts ctxs adjust =>
    exact keys.of_kept fun m used => ⟨(adjust m).state ▸ used, (adjust m).source, (adjust m).msgno⟩
  | names n seg collecting =>
    have same : KeysUnique (s.setCtx n ((s.ctx n).duplicated seg)) :=
      keys.of_set (fun m => s.ctx_setCtx n m _) (by simp [collecting]) fun _ => (s.ctx n).duplicated_key seg
    exact same.joinIfWhole (by simp [Ctx.duplicated_state, collecting])
  | stores n seg fits collecting =>
    have same : KeysUnique (allocateAndStore n seg s) :=
      keys.of_set (r := (s.ctx n).stored seg _) (fun m => ctx_allocateAndStore s n m seg) (by simp [collecting])
        fun _ => ⟨rfl, rfl⟩
    refine same.joinIfWhole ?_
    rw [ctx_allocateAndStore, if_pos rfl]
    exact fun free => by simp [Ctx.stored, collecting] at free
  | opens n k cls seg free unheld => exact keys.opened unheld
  | frees n => exact cleared fun m => s.ctx_freeCtx n m
  | loses n r => exact cleared fun m => s.ctx_freeCtx n m
  | ends n => exact cleared fun m => s.ctx_freeCtx n m
  | confirms n checked =>
    have verifying := collections.state_underCheck checked
    exact keys.of_set (s.ctx_matched n) (by simp [verifying]) fun _ => ⟨rfl, rfl⟩
  | requests n => exact keys.of_set (s.ctx_requestStop n) id fun _ => ⟨rfl, rfl⟩
  | claims n rest port queue =>
    have ready := (collections.deliveryHolds n).1 (by simp [queue])
    exact keys.of_set (fun m => ctx_claim s n m rest) (by simp [ready]) fun _ => ⟨rfl, rfl⟩
  | _ => exact keys.of_kept fun _ used => ⟨used, rfl, rfl⟩

theorem State.AtReset.keys (h : s.AtReset) : KeysUnique s := fun m _ used => absurd (by rw [h.ctx]; rfl) used

end Keys

/-! ## The order of the delivery queue -/

section Delivery

variable {w : Warrant} {s t : State}

/-- The queue loses entries at most, and each that stays keeps its class. -/
theorem DeliveryOrder.of_sublist (order : DeliveryOrder s) (sublist : List.Sublist t.delivery s.delivery)
    (cls : ∀ m ∈ t.delivery, (t.ctx m).cls = (s.ctx m).cls) : DeliveryOrder t := by
  refine (List.Pairwise.sublist sublist order).imp_of_mem fun ha hb h => ?_
  rw [cls _ ha, cls _ hb]
  exact h

theorem DeliveryOrder.of_records (same : t.records = s.records) (order : DeliveryOrder s) : DeliveryOrder t := by
  have ctx (m : CtxNo) : t.ctx m = s.ctx m := State.ctx_congr (congrArg Records.ctxs same) m
  have delivery : t.delivery = s.delivery := congrArg Records.delivery same
  exact order.of_sublist (delivery ▸ List.Sublist.refl _) fun m _ => by rw [ctx]

theorem DeliveryOrder.of_set {n : CtxNo} {r : Ctx} (order : DeliveryOrder s)
    (ctxs : ∀ m, t.ctx m = if m = n then r else s.ctx m) (sublist : List.Sublist t.delivery s.delivery)
    (cls : n ∈ t.delivery → r.cls = (s.ctx n).cls) : DeliveryOrder t := by
  refine order.of_sublist sublist fun m hm => ?_
  rw [ctxs]
  split
  · rename_i e
    rw [e] at hm ⊢
    exact cls hm
  · rfl

theorem DeliveryOrder.joinIfWhole (order : DeliveryOrder s) (n : CtxNo) : DeliveryOrder (joinIfWhole n s) := by
  rcases joinIfWhole_cases s n with ⟨-, h⟩ | ⟨-, h⟩ <;> rw [h]
  · exact order.of_set (s.ctx_joined n) (List.Sublist.refl _) fun _ => rfl
  · exact order

/-- An urgent record goes behind the urgent ones, an ordinary one behind all. -/
theorem deliveryInsert_pairwise {cls : CtxNo → MsgClass} {queue : List CtxNo}
    (order : queue.Pairwise fun a b => cls b = .urgent → cls a = .urgent) (n : CtxNo) :
    (deliveryInsert cls queue n).Pairwise fun a b => cls b = .urgent → cls a = .urgent := by
  unfold deliveryInsert
  split
  · rename_i urgent
    have before : ∀ a ∈ queue.takeWhile fun m => cls m == .urgent, cls a = .urgent := fun a ha => by
      simpa using List.mem_takeWhile_imp ha
    refine List.pairwise_append.2 ⟨order.sublist (List.takeWhile_sublist _), List.pairwise_cons.2 ⟨fun _ _ _ => urgent, ?_⟩,
      fun a ha _ _ _ => before a ha⟩
    exact order.sublist (List.dropWhile_sublist _)
  · rename_i ordinary
    refine List.pairwise_append.2 ⟨order, List.pairwise_singleton _ _, fun a _ b hb urgent => ?_⟩
    rw [List.mem_singleton.1 hb, ordinary] at urgent
    cases urgent

theorem Change.deliveryOrder (h : Change w s t) (collections : CollectionsInv s) (order : DeliveryOrder s) : DeliveryOrder t := by
  have cleared {n : CtxNo} {u : State} (ctxs : ∀ m, u.ctx m = if m = n then Ctx.cleared else s.ctx m)
      (delivery : u.delivery = s.delivery.erase n) : DeliveryOrder u := by
    refine order.of_set ctxs (delivery ▸ List.erase_sublist) fun listed => ?_
    rw [delivery] at listed
    exact absurd listed collections.deliveryNodup.not_mem_erase
  cases h with
  | adjusts ctxs adjust => exact order.of_sublist (List.Sublist.refl _) fun m _ => (adjust m).cls
  | names n seg collecting =>
    refine DeliveryOrder.joinIfWhole (order.of_set (fun m => s.ctx_setCtx n m _) (List.Sublist.refl _) fun _ => ?_) n
    unfold Ctx.duplicated
    dsimp only
    split <;> rfl
  | stores n seg =>
    have same : DeliveryOrder (allocateAndStore n seg s) :=
      order.of_set (fun m => ctx_allocateAndStore s n m seg) (List.Sublist.refl _) fun _ => rfl
    exact same.joinIfWhole n
  | opens n k cls seg free =>
    refine order.of_set (fun m => s.ctx_openedFor n m k cls seg) (List.Sublist.refl _) fun listed => ?_
    have ready := (collections.deliveryHolds n).1 listed
    simp [free] at ready
  | frees n => exact cleared (fun m => s.ctx_freeCtx n m) (by simp)
  | loses n r => exact cleared (fun m => s.ctx_freeCtx n m) (by simp)
  | ends n => exact cleared (fun m => s.ctx_freeCtx n m) (by simp)
  | confirms n =>
    have cls (m : CtxNo) : ((s.matched n).ctx m).cls = (s.ctx m).cls := by
      rw [State.ctx_matched]
      split
      · rename_i e
        rw [e]
      · rfl
    simp only [DeliveryOrder, cls]
    exact deliveryInsert_pairwise order n
  | requests n =>
    exact order.of_set (s.ctx_requestStop n) (by rw [State.requestStop_frame]) fun _ => rfl
  | claims n rest port queue =>
    refine order.of_set (fun m => ctx_claim s n m rest) ?_ fun _ => rfl
    rw [queue]
    exact List.sublist_cons_self n rest
  | _ => exact order.of_sublist (List.Sublist.refl _) fun _ _ => rfl

theorem State.AtReset.deliveryOrder (h : s.AtReset) : DeliveryOrder s := by
  have delivery : s.delivery = [] := congrArg Records.delivery h
  rw [DeliveryOrder, delivery]
  exact List.Pairwise.nil

end Delivery

theorem exec_keys {c : Instr} {s t : State} (h : exec c s = .next t) (inv : CollectionsInv s ∧ KeysUnique s) :
    CollectionsInv t ∧ KeysUnique t :=
  exec_keeps (w := anyRowOnCollections) (P := fun s => CollectionsInv s ∧ KeysUnique s) anyRowOnCollections_full
    (fun _ inv _ => inv.1) (fun _ _ => False.elim) (fun _ _ same inv => ⟨inv.1.of_records same, inv.2.of_records same⟩)
    (fun _ _ step inv => ⟨step.collections trivial inv.1, step.keys inv.1 inv.2⟩)
    (fun _ _ reset _ _ => ⟨reset.collections, reset.keys⟩) h inv

theorem exec_deliveryOrder {c : Instr} {s t : State} (h : exec c s = .next t) (inv : CollectionsInv s ∧ DeliveryOrder s) :
    CollectionsInv t ∧ DeliveryOrder t :=
  exec_keeps (w := anyRowOnCollections) (P := fun s => CollectionsInv s ∧ DeliveryOrder s) anyRowOnCollections_full
    (fun _ inv _ => inv.1) (fun _ _ => False.elim) (fun _ _ same inv => ⟨inv.1.of_records same, inv.2.of_records same⟩)
    (fun _ _ step inv => ⟨step.collections trivial inv.1, step.deliveryOrder inv.1 inv.2⟩)
    (fun _ _ reset _ _ => ⟨reset.collections, reset.deliveryOrder⟩) h inv

/-- Settles O52: a key is given to a record where none holds it, and the delivery queue takes each record at its class's place. -/
theorem keysAndDeliveryOrderKept : Obligations.KeysAndDeliveryOrderKept := by
  unfold Obligations.KeysAndDeliveryOrderKept
  refine fun s t inv h => ⟨fun keys => ?_, fun order => ?_⟩
  · exact (step_keeps (P := fun s => CollectionsInv s ∧ KeysUnique s)
      (fun _ _ same inv => ⟨inv.1.of_records same, inv.2.of_records same⟩) (fun _ _ _ => exec_keys) h ⟨inv, keys⟩).2
  · exact (step_keeps (P := fun s => CollectionsInv s ∧ DeliveryOrder s)
      (fun _ _ same inv => ⟨inv.1.of_records same, inv.2.of_records same⟩) (fun _ _ _ => exec_deliveryOrder) h
      ⟨inv, order⟩).2

/-! ## The present slots of a record -/

section Slots

variable {r : Ctx}

/-- A slot put where none was joins the present ones. -/
theorem presentSlots_set {slots : Vector (Option Slot) 64} {i : SegIndex} (absent : slots[i] = none) (sl : Slot) :
    ((slots.set i (some sl)).toList.filterMap id).Perm (sl :: slots.toList.filterMap id) := by
  have inside : i.val < slots.toList.length := by simp
  have here : slots.toList[i.val] = none := by simpa using absent
  have split : slots.toList = slots.toList.take i ++ none :: slots.toList.drop (i + 1) := by
    rw [← here, List.getElem_cons_drop, List.take_append_drop]
  rw [Vector.toList_set, List.set_eq_take_append_cons_drop, if_pos inside]
  conv => rhs; rw [split]
  simp only [List.filterMap_append, List.filterMap_cons, id]
  exact List.perm_middle

theorem mem_presentSlots {sl : Slot} : sl ∈ r.presentSlots ↔ ∃ i : SegIndex, r.slots[i] = some sl := by
  simp only [Ctx.presentSlots, List.mem_filterMap, id, exists_eq_right, Vector.mem_toList_iff, Vector.mem_iff_getElem]
  exact ⟨fun ⟨i, hi, h⟩ => ⟨⟨i, hi⟩, h⟩, fun ⟨i, h⟩ => ⟨i, i.isLt, h⟩⟩

theorem length_filterMap_id {α : Type} (list : List (Option α)) :
    (list.filterMap id).length = list.countP Option.isSome := by
  induction list with
  | nil => rfl
  | cons o rest ih =>
    cases o with
    | none => rw [List.filterMap_cons_none rfl, List.countP_cons_of_neg (by simp), ih]
    | some a => rw [List.filterMap_cons_some (f := id) (b := a) rfl, List.countP_cons_of_pos rfl, List.length_cons, ih]

theorem Ctx.slots_toList (r : Ctx) : r.slots.toList = (List.finRange 64).map fun i => r.slots[i] := by
  apply List.ext_getElem
  · simp
  · intro i _ _
    simp

/-- The number of present slots, index by index. -/
theorem presentSlots_length (r : Ctx) :
    r.presentSlots.length = (Finset.univ.filter fun i : SegIndex => (r.slots[i]).isSome).card := by
  have distinct : ((List.finRange 64).filter (Option.isSome ∘ fun i => r.slots[i])).Nodup := (List.nodup_finRange 64).filter _
  rw [Ctx.presentSlots, length_filterMap_id, r.slots_toList, List.countP_map, List.countP_eq_length_filter,
    ← List.toFinset_card_of_nodup distinct]
  congr 1
  ext i
  simp

end Slots

/-! ## Counts -/

section Counts

variable {w : Warrant} {s t : State}

theorem CountsFollow.of_same {r q : Ctx} (counts : CountsFollow r) (slots : q.slots = r.slots)
    (present : q.presentCount = r.presentCount) (bytes : q.byteCount = r.byteCount) (chain : q.chain = r.chain) :
    CountsFollow q := by
  have same : q.presentSlots = r.presentSlots := by rw [Ctx.presentSlots, slots, Ctx.presentSlots]
  exact ⟨by rw [present, same, counts.present], by rw [bytes, same, counts.bytes], by rw [chain, same, counts.cells],
    by rw [same]; exact counts.slots⟩

/-- A record with no segment: its counts are 0. -/
theorem CountsFollow.of_empty {r : Ctx} (slots : r.slots = Vector.replicate 64 none) (present : r.presentCount = 0)
    (bytes : r.byteCount = 0) (chain : r.chain = []) : CountsFollow r := by
  have none : r.presentSlots = [] := by
    rw [Ctx.presentSlots, slots]
    rfl
  exact ⟨by rw [present, none]; rfl, by rw [bytes, none]; rfl, by rw [chain, none]; rfl, by simp [none]⟩

theorem CountsFollow.stored {r : Ctx} {seg : Segment} {cells : List Nat} (counts : CountsFollow r) (fits : seg.Fits)
    (absent : r.slots[seg.index] = none) (enough : cells.length = cellsFor seg.length) :
    CountsFollow (r.stored seg cells) := by
  have perm : (r.stored seg cells).presentSlots.Perm (_ :: r.presentSlots) := presentSlots_set absent _
  refine ⟨?_, ?_, ?_, fun sl hsl => ?_⟩
  · rw [perm.length_eq, List.length_cons, ← counts.present]
    rfl
  · rw [(perm.map Slot.length).sum_eq, List.map_cons, List.sum_cons, ← counts.bytes]
    exact Nat.add_comm _ _
  · rw [(perm.map Slot.cells).sum_eq, List.map_cons, List.sum_cons, ← counts.cells]
    change (r.chain ++ cells).length = _
    rw [List.length_append, enough, Nat.add_comm]
  · rcases List.mem_cons.1 (perm.mem_iff.1 hsl) with rfl | older
    · exact ⟨fits.positive, fits.bounded, rfl⟩
    · exact counts.slots sl older

/-- What holds of every record, and of one that is rewritten, holds of every record after. -/
theorem forall_ctx_of_set {P : Ctx → Prop} {n : CtxNo} {r : Ctx} (all : ∀ m, P (s.ctx m))
    (ctxs : ∀ m, t.ctx m = if m = n then r else s.ctx m) (rewritten : P r) (m : CtxNo) : P (t.ctx m) := by
  rw [ctxs]
  split
  · exact rewritten
  · exact all m

theorem counts_joinIfWhole {n : CtxNo} (all : ∀ m, CountsFollow (s.ctx m)) (m : CtxNo) :
    CountsFollow ((joinIfWhole n s).ctx m) := by
  rcases joinIfWhole_cases s n with ⟨-, h⟩ | ⟨-, h⟩ <;> rw [h]
  · exact forall_ctx_of_set all (s.ctx_joined n) ((all n).of_same rfl rfl rfl rfl) m
  · exact all m

theorem Ctx.duplicated_stands (r : Ctx) (seg : Segment) :
    (r.duplicated seg).slots = r.slots ∧ (r.duplicated seg).presentCount = r.presentCount ∧
      (r.duplicated seg).byteCount = r.byteCount ∧ (r.duplicated seg).chain = r.chain := by
  unfold Ctx.duplicated
  dsimp only
  split <;> exact ⟨rfl, rfl, rfl, rfl⟩

theorem CountsFollow.duplicated {r : Ctx} (counts : CountsFollow r) (seg : Segment) : CountsFollow (r.duplicated seg) := by
  obtain ⟨slots, present, bytes, chain⟩ := r.duplicated_stands seg
  exact counts.of_same slots present bytes chain

theorem CountsFollow.cleared : CountsFollow Ctx.cleared := .of_empty rfl rfl rfl rfl

/-- The cells an allocation takes are as many as the segment needs. -/
theorem taken_length {k : Nat} (room : k ≤ s.freeCount) : (s.pool.freeList.take k).length = k := by
  rw [List.length_take]
  exact min_eq_left room

theorem Change.counts (h : Change w s t) (granted : w.collections) (all : ∀ n, CountsFollow (s.ctx n)) (m : CtxNo) :
    CountsFollow (t.ctx m) := by
  have same {n : CtxNo} {r : Ctx} {u : State} (ctxs : ∀ m, u.ctx m = if m = n then r else s.ctx m)
      (slots : r.slots = (s.ctx n).slots) (present : r.presentCount = (s.ctx n).presentCount)
      (bytes : r.byteCount = (s.ctx n).byteCount) (chain : r.chain = (s.ctx n).chain) : CountsFollow (u.ctx m) :=
    forall_ctx_of_set all ctxs ((all n).of_same slots present bytes chain) m
  cases h with
  | adjusts ctxs adjust =>
    exact (all m).of_same (adjust m).slots (adjust m).presentCount (adjust m).byteCount (adjust m).chain
  | names n seg => exact counts_joinIfWhole (forall_ctx_of_set all (fun m => s.ctx_setCtx n m _) ((all n).duplicated seg)) m
  | stores n seg fits collecting passes absent room =>
    exact counts_joinIfWhole (forall_ctx_of_set all (fun m => ctx_allocateAndStore s n m seg)
      ((all n).stored fits absent (taken_length (room granted)))) m
  | opens n k cls seg =>
    exact forall_ctx_of_set all (fun m => s.ctx_openedFor n m k cls seg) (.of_empty rfl rfl rfl rfl) m
  | frees n => exact forall_ctx_of_set all (fun m => s.ctx_freeCtx n m) .cleared m
  | loses n r => exact forall_ctx_of_set (t := { s.freeCtx n with readout := r }) all (fun m => s.ctx_freeCtx n m) .cleared m
  | ends n => exact forall_ctx_of_set (t := (s.freeCtx n).engineIdle) all (fun m => s.ctx_freeCtx n m) .cleared m
  | confirms n => exact same (s.ctx_matched n) rfl rfl rfl rfl
  | requests n => exact same (s.ctx_requestStop n) rfl rfl rfl rfl
  | claims n rest => exact same (fun m => ctx_claim s n m rest) rfl rfl rfl rfl
  | _ => exact all m

end Counts

/-! ## Ends and wholeness -/

section Whole

variable {w : Warrant} {s t : State}

/-- The LAST tests as the spec words them (spec 01 R16). -/
theorem lastConflict_none {r : Ctx} {seg : Segment} : r.lastConflict seg = none ↔ r.lastTestsPass seg := by
  unfold Ctx.lastConflict Ctx.lastTestsPass
  cases known : r.lastIndex with
  | some last =>
    cases seg.last
    · simp
    · simp
  | none =>
    cases seg.last
    · simp
    · simp [List.any_eq_true]

/-- The end of a record: nothing present above a known last index, and the check word known with it (spec 01 R1). -/
structure EndFollows (r : Ctx) : Prop where
  below : ∀ last, r.lastIndex = some last → ∀ i : SegIndex, (r.slots[i]).isSome → i ≤ last
  checkWord : r.checkWord.isSome = r.lastIndex.isSome

theorem WholeFollows.end {r : Ctx} (whole : WholeFollows r) : EndFollows r := ⟨whole.below, whole.checkWord⟩

/-- As many slots present as the last index says are all of them, for none lies above it. -/
theorem EndFollows.complete {r : Ctx} (ends : EndFollows r) (present : r.presentCount = r.presentSlots.length)
    (whole : r.whole = true) : ∃ last, r.lastIndex = some last ∧ ∀ i : SegIndex, i ≤ last → (r.slots[i]).isSome := by
  unfold Ctx.whole at whole
  split at whole
  · rename_i last known
    refine ⟨last, known, fun i hi => ?_⟩
    have count : (Finset.univ.filter fun i : SegIndex => (r.slots[i]).isSome).card = (Finset.Iic last).card := by
      rw [← presentSlots_length, ← present, Fin.card_Iic]
      simpa using whole
    have subset : (Finset.univ.filter fun i : SegIndex => (r.slots[i]).isSome) ⊆ Finset.Iic last := fun j hj => by
      rw [Finset.mem_Iic]
      exact ends.below last known j (Finset.mem_filter.1 hj).2
    have all := Finset.eq_of_subset_of_card_le subset count.ge
    have mem : i ∈ Finset.Iic last := Finset.mem_Iic.2 hi
    rw [← all] at mem
    exact (Finset.mem_filter.1 mem).2
  · cases whole

theorem WholeFollows.of_same {r q : Ctx} (whole : WholeFollows r) (slots : q.slots = r.slots)
    (lastIndex : q.lastIndex = r.lastIndex) (checkWord : q.checkWord = r.checkWord)
    (present : q.presentCount = r.presentCount) (collecting : q.state = .collecting → r.state = .collecting)
    (past : q.past → r.past) : WholeFollows q where
  below := by
    rw [lastIndex, slots]
    exact whole.below
  lacks h := by
    rw [Ctx.whole, lastIndex, present]
    exact whole.lacks (collecting h)
  complete h := by
    rw [lastIndex, slots]
    exact whole.complete (past h)
  checkWord := by rw [checkWord, lastIndex, whole.checkWord]

/-- A record with no segment and no end. -/
theorem WholeFollows.of_empty {r : Ctx} (lastIndex : r.lastIndex = none) (checkWord : r.checkWord = none)
    (past : ¬r.past) : WholeFollows r where
  below last known := by simp [lastIndex] at known
  lacks _ := by simp [Ctx.whole, lastIndex]
  complete h := absurd h past
  checkWord := by rw [lastIndex, checkWord]; rfl

/-- The test of the whole message settles a COLLECTING record's state. -/
theorem whole_joinIfWhole {n : CtxNo} (others : ∀ m, m ≠ n → WholeFollows (s.ctx m)) (ends : EndFollows (s.ctx n))
    (present : (s.ctx n).presentCount = (s.ctx n).presentSlots.length) (collecting : (s.ctx n).state = .collecting)
    (m : CtxNo) : WholeFollows ((joinIfWhole n s).ctx m) := by
  rcases joinIfWhole_cases s n with ⟨whole, h⟩ | ⟨lacks, h⟩ <;> rw [h]
  · rw [State.ctx_joined]
    split
    · exact ⟨ends.below, nofun, fun _ => ends.complete present whole, ends.checkWord⟩
    · exact others m ‹_›
  · by_cases e : m = n
    · rw [e]
      exact ⟨ends.below, fun _ => lacks, fun past => by simp [collecting] at past, ends.checkWord⟩
    · exact others m e

theorem EndFollows.stored {r : Ctx} {seg : Segment} {cells : List Nat} (ends : EndFollows r)
    (passes : r.lastConflict seg = none) : EndFollows (r.stored seg cells) := by
  obtain ⟨known, unknown⟩ := lastConflict_none.1 passes
  have slots (i : SegIndex) : (r.stored seg cells).slots[i] =
      if seg.index = i then
        some { length := seg.length, first := cells.headD 0, cells := cellsFor seg.length, line := seg.line }
      else r.slots[i] := by
    simp [Ctx.stored, Vector.getElem_set, Fin.ext_iff]
  refine ⟨fun last hlast i hi => ?_, ?_⟩
  · rw [slots] at hi
    cases flag : seg.last with
    | true =>
      have named : seg.index = last := by simpa [Ctx.stored, flag] using hlast
      rw [← named]
      split at hi
      · exact le_of_eq ‹seg.index = i›.symm
      · cases before : r.lastIndex with
        | some l =>
          have same := known l before
          rw [flag, if_pos rfl] at same
          rw [same]
          exact ends.below l before i hi
        | none =>
          by_contra above
          rw [unknown before flag i (not_le.1 above)] at hi
          cases hi
    | false =>
      have kept : r.lastIndex = some last := by simpa [Ctx.stored, flag] using hlast
      split at hi
      · have under := known last kept
        rw [flag] at under
        rw [← ‹seg.index = i›]
        exact le_of_lt (by simpa using under)
      · exact ends.below last kept i hi
  · cases flag : seg.last with
    | true => simp [Ctx.stored, flag]
    | false => simpa [Ctx.stored, flag] using ends.checkWord

theorem EndFollows.named {r : Ctx} {seg : Segment} (last : seg.last = true) (unknown : r.lastIndex = none)
    (passes : r.lastConflict seg = none) : EndFollows (r.duplicated seg) := by
  have above := (lastConflict_none.1 passes).2 unknown last
  rw [Ctx.duplicated, if_pos ⟨last, unknown⟩]
  refine ⟨fun l hl i hi => ?_, by simp⟩
  have named : seg.index = l := Option.some.inj hl
  by_contra beyond
  have none := above i (not_le.1 (named ▸ beyond))
  change (r.slots[i]).isSome = true at hi
  simp [none] at hi

theorem WholeFollows.cleared : WholeFollows Ctx.cleared := .of_empty rfl rfl (by simp [Ctx.past, Ctx.cleared])

theorem Change.whole (h : Change w s t) (granted : w.collections) (collections : CollectionsInv s)
    (counts : ∀ n, CountsFollow (s.ctx n)) (all : ∀ n, WholeFollows (s.ctx n)) (m : CtxNo) : WholeFollows (t.ctx m) := by
  cases h with
  | adjusts ctxs adjust =>
    exact (all m).of_same (adjust m).slots (adjust m).lastIndex (adjust m).checkWord (adjust m).presentCount
      (fun h => (adjust m).state ▸ h) fun h => by
        have state : ctxs[m].state = (s.ctx m).state := (adjust m).state
        change ctxs[m].past at h
        rwa [Ctx.past, state] at h
  | names n seg collecting last unknown passes =>
    have counts' := (counts n).duplicated seg
    refine whole_joinIfWhole (fun m other => ?_) ?_ ?_ ?_ m
    · rw [State.ctx_setCtx_other _ other]
      exact all m
    · rw [State.ctx_setCtx_same]
      exact .named last unknown passes
    · rw [State.ctx_setCtx_same]
      exact counts'.present
    · rw [State.ctx_setCtx_same, Ctx.duplicated_state, collecting]
  | stores n seg fits collecting passes absent room =>
    have ctxs (m : CtxNo) := ctx_allocateAndStore s n m seg
    refine whole_joinIfWhole (fun m other => ?_) ?_ ?_ ?_ m
    · rw [ctxs, if_neg other]
      exact all m
    · rw [ctxs, if_pos rfl]
      exact (all n).end.stored passes
    · rw [ctxs, if_pos rfl]
      exact ((counts n).stored fits absent (taken_length (room granted))).present
    · rw [ctxs, if_pos rfl]
      exact collecting
  | opens n k cls seg =>
    exact forall_ctx_of_set all (fun m => s.ctx_openedFor n m k cls seg)
      (.of_empty rfl rfl (by simp [Ctx.past, Ctx.opened])) m
  | frees n => exact forall_ctx_of_set all (fun m => s.ctx_freeCtx n m) .cleared m
  | loses n r => exact forall_ctx_of_set (t := { s.freeCtx n with readout := r }) all (fun m => s.ctx_freeCtx n m) .cleared m
  | ends n => exact forall_ctx_of_set (t := (s.freeCtx n).engineIdle) all (fun m => s.ctx_freeCtx n m) .cleared m
  | confirms n checked =>
    have verifying := collections.state_underCheck checked
    exact forall_ctx_of_set all (s.ctx_matched n)
      ((all n).of_same rfl rfl rfl rfl nofun fun _ => .inl verifying) m
  | requests n => exact forall_ctx_of_set all (s.ctx_requestStop n) ((all n).of_same rfl rfl rfl rfl id id) m
  | claims n rest port queue =>
    have ready := (collections.deliveryHolds n).1 (by simp [queue])
    exact forall_ctx_of_set all (fun m => ctx_claim s n m rest)
      ((all n).of_same rfl rfl rfl rfl nofun fun _ => .inr (.inl ready)) m
  | _ => exact all m

end Whole

/-! ## The rows -/

/-- The collections agree, and the counts and ends of the records follow. -/
structure WholeInv (s : State) : Prop where
  collections : CollectionsInv s
  counts : ∀ n, CountsFollow (s.ctx n)
  whole : ∀ n, WholeFollows (s.ctx n)

theorem forall_ctx_of_records {P : Ctx → Prop} {s t : State} (same : t.records = s.records) (all : ∀ n, P (s.ctx n))
    (n : CtxNo) : P (t.ctx n) := by
  rw [State.ctx_congr (congrArg Records.ctxs same)]
  exact all n

theorem exec_counts {c : Instr} {s t : State} (h : exec c s = .next t)
    (inv : CollectionsInv s ∧ ∀ n, CountsFollow (s.ctx n)) : CollectionsInv t ∧ ∀ n, CountsFollow (t.ctx n) :=
  exec_keeps (w := anyRowOnCollections) (P := fun s => CollectionsInv s ∧ ∀ n, CountsFollow (s.ctx n)) anyRowOnCollections_full
    (fun _ inv _ => inv.1) (fun _ _ => False.elim)
    (fun _ _ same inv => ⟨inv.1.of_records same, forall_ctx_of_records same inv.2⟩)
    (fun _ _ step inv => ⟨step.collections trivial inv.1, step.counts trivial inv.2⟩)
    (fun _ _ reset _ _ => ⟨reset.collections, fun n => by rw [reset.ctx]; exact .cleared⟩) h inv

theorem exec_whole {c : Instr} {s t : State} (h : exec c s = .next t) (inv : WholeInv s) : WholeInv t :=
  exec_keeps (w := anyRowOnCollections) anyRowOnCollections_full (fun _ inv _ => inv.collections) (fun _ _ => False.elim)
    (fun _ _ same inv =>
      ⟨inv.collections.of_records same, forall_ctx_of_records same inv.counts, forall_ctx_of_records same inv.whole⟩)
    (fun _ _ step inv =>
      ⟨step.collections trivial inv.collections, step.counts trivial inv.counts,
        step.whole trivial inv.collections inv.counts inv.whole⟩)
    (fun _ _ reset _ _ =>
      ⟨reset.collections, fun n => by rw [reset.ctx]; exact .cleared, fun n => by rw [reset.ctx]; exact .cleared⟩) h inv

/-- Settles O53: a store adds its slot to the map and to the three counts, and is tested for the whole message in its event. -/
theorem countsAndWholenessKept : Obligations.CountsAndWholenessKept := by
  unfold Obligations.CountsAndWholenessKept
  refine fun s t inv counts h => ⟨?_, fun whole => ?_⟩
  · exact (step_keeps (P := fun s => CollectionsInv s ∧ ∀ n, CountsFollow (s.ctx n))
      (fun _ _ same inv => ⟨inv.1.of_records same, forall_ctx_of_records same inv.2⟩) (fun _ _ _ => exec_counts) h
      ⟨inv, counts⟩).2
  · exact (step_keeps (P := WholeInv)
      (fun _ _ same inv =>
        ⟨inv.collections.of_records same, forall_ctx_of_records same inv.counts, forall_ctx_of_records same inv.whole⟩)
      (fun _ _ _ => exec_whole) h ⟨inv, counts, whole⟩).whole

end Sys2Proof.Machine
end

