-- ==== Sys2Proof/Proofs/Chains.lean ====
section
/-! SUPPORT. Cells: each is held once; and a record's chain goes on being the cells of its present slots, run by run (spec 01 R2, R3,
02 R31). -/

namespace Sys2Proof.Machine

/-! ## Cells held once -/

section Cells

variable {s t : State}

namespace PoolInv

variable (inv : PoolInv s)
include inv

theorem nodup : (s.pool.freeList ++ s.allChains).Nodup := inv.cells.nodup_iff.2 List.nodup_range

theorem freeList_nodup : s.pool.freeList.Nodup := (List.nodup_append.1 inv.nodup).1

theorem allChains_nodup : s.allChains.Nodup := (List.nodup_append.1 inv.nodup).2.1

theorem chain_nodup (n : CtxNo) : (s.ctx n).chain.Nodup :=
  (List.nodup_flatMap.1 inv.allChains_nodup).1 n (List.mem_finRange n)

theorem not_mem_freeList {c : Nat} {n : CtxNo} (held : c ∈ (s.ctx n).chain) : c ∉ s.pool.freeList := fun free =>
  (List.nodup_append.1 inv.nodup).2.2 c free c (List.mem_flatMap.2 ⟨n, List.mem_finRange n, held⟩) rfl

end PoolInv

end Cells

/-! ## The runs of a chain -/

section Runs

variable {r : Ctx}

/-- A list cut before the head of a run in it and after the run's length is the run, where nothing stands in it twice. -/
theorem take_dropWhile_of_run {before run behind : List Nat} {first : Nat} (nodup : (before ++ run ++ behind).Nodup)
    (head : run.head? = some first) :
    ((before ++ run ++ behind).dropWhile (· != first)).take run.length = run := by
  obtain ⟨rest, rfl⟩ : ∃ rest, run = first :: rest := by
    cases run with
    | nil => cases head
    | cons c rest => exact ⟨rest, by rw [Option.some.inj head]⟩
  have others : ∀ c ∈ before, (c != first) = true := fun c hc => by
    rw [List.append_assoc] at nodup
    exact bne_iff_ne.2 ((List.nodup_append.1 nodup).2.2 c hc first (by simp))
  rw [List.append_assoc, List.dropWhile_append_of_pos others, List.cons_append, List.dropWhile_cons_of_neg (by simp),
    ← List.cons_append, List.take_left]

/-- A record's slots with their runs of cells. -/
structure Ctx.HasRuns (r : Ctx) (runs : List (SegIndex × List Nat)) : Prop where
  nodup : (runs.map Prod.fst).Nodup
  present : ∀ i, i ∈ runs.map Prod.fst ↔ (r.slots[i]).isSome
  slot : ∀ p ∈ runs, ∃ sl, r.slots[p.1] = some sl ∧ p.2.head? = some sl.first ∧ p.2.length = sl.cells
  chain : r.chain = runs.flatMap Prod.snd

theorem Ctx.chainFollows_iff : r.ChainFollows ↔ ∃ runs, r.HasRuns runs :=
  ⟨fun ⟨runs, nodup, present, slot, chain⟩ => ⟨runs, nodup, present, slot, chain⟩,
    fun ⟨runs, h⟩ => ⟨runs, h.nodup, h.present, h.slot, h.chain⟩⟩

namespace Ctx.HasRuns

variable {runs : List (SegIndex × List Nat)} (h : r.HasRuns runs)
include h

/-- A present slot has a run. -/
theorem run_of_slot {i : SegIndex} {sl : Slot} (slot : r.slots[i] = some sl) :
    ∃ run, (i, run) ∈ runs ∧ run.head? = some sl.first ∧ run.length = sl.cells := by
  obtain ⟨⟨j, run⟩, mem, rfl⟩ := List.mem_map.1 ((h.present i).2 (by rw [slot]; rfl))
  obtain ⟨sl', slot', head, length⟩ := h.slot _ mem
  rw [slot] at slot'
  cases slot'
  exact ⟨run, mem, head, length⟩

/-- A slot's cells are its run. -/
theorem slotCells_eq (distinct : r.chain.Nodup) {i : SegIndex} {sl : Slot} {run : List Nat} (mem : (i, run) ∈ runs)
    (slot : r.slots[i] = some sl) : r.slotCells sl = run := by
  obtain ⟨sl', slot', head, length⟩ := h.slot _ mem
  rw [slot] at slot'
  cases slot'
  obtain ⟨before, behind, rfl⟩ := List.append_of_mem mem
  have chain : r.chain = before.flatMap Prod.snd ++ run ++ behind.flatMap Prod.snd := by
    rw [h.chain]
    simp
  rw [Ctx.slotCells, chain, ← length]
  exact take_dropWhile_of_run (chain ▸ distinct) head

end Ctx.HasRuns

theorem Ctx.ChainFollows.slotCells_length (follows : r.ChainFollows) (distinct : r.chain.Nodup) {i : SegIndex} {sl : Slot}
    (slot : r.slots[i] = some sl) : (r.slotCells sl).length = sl.cells := by
  obtain ⟨runs, h⟩ := Ctx.chainFollows_iff.1 follows
  obtain ⟨run, mem, -, length⟩ := h.run_of_slot slot
  rw [h.slotCells_eq distinct mem slot, length]

theorem slotCells_subset (r : Ctx) (sl : Slot) : r.slotCells sl ⊆ r.chain := fun _ mem =>
  (List.dropWhile_sublist _).subset (List.mem_of_mem_take mem)

theorem Ctx.ChainFollows.of_same {q : Ctx} (follows : r.ChainFollows) (slots : q.slots = r.slots) (chain : q.chain = r.chain) :
    q.ChainFollows := by
  rw [Ctx.ChainFollows, slots, chain]
  exact follows

theorem Ctx.ChainFollows.of_empty (slots : r.slots = Vector.replicate 64 none) (chain : r.chain = []) : r.ChainFollows :=
  ⟨[], List.nodup_nil, fun i => by simp [slots], nofun, chain⟩

theorem cellsFor_pos {n : Nat} (positive : 1 ≤ n) : 1 ≤ cellsFor n := by
  unfold cellsFor
  omega

theorem head?_eq_headD {cells : List Nat} (positive : 1 ≤ cells.length) : cells.head? = some (cells.headD 0) := by
  cases cells with
  | nil => simp at positive
  | cons c rest => rfl

theorem Ctx.slots_stored (r : Ctx) (seg : Segment) (cells : List Nat) (i : SegIndex) :
    (r.stored seg cells).slots[i] =
      if i = seg.index then
        some { length := seg.length, first := cells.headD 0, cells := cellsFor seg.length, line := seg.line }
      else r.slots[i] := by
  change (r.slots.set seg.index.val _)[i.val] = _
  by_cases here : i = seg.index
  · simp [here]
  · rw [Vector.getElem_set_ne _ _ fun e => here (Fin.ext e.symm), if_neg here]
    rfl

/-- A stored segment's cells are the last run. -/
theorem Ctx.HasRuns.stored {runs : List (SegIndex × List Nat)} (h : r.HasRuns runs) {seg : Segment} {cells : List Nat}
    (fits : seg.Fits) (absent : r.slots[seg.index] = none) (enough : cells.length = cellsFor seg.length) :
    (r.stored seg cells).HasRuns (runs ++ [(seg.index, cells)]) := by
  have new : seg.index ∉ runs.map Prod.fst := by simp [h.present, absent]
  refine ⟨?_, fun i => ?_, fun p hp => ?_, ?_⟩
  · rw [List.map_append]
    exact nodup_snoc h.nodup new
  · rw [Ctx.slots_stored, List.map_append, List.mem_append, h.present]
    by_cases here : i = seg.index <;> simp [here]
  · rw [Ctx.slots_stored]
    rcases List.mem_append.1 hp with older | newest
    · rw [if_neg fun e : p.1 = seg.index => new (e ▸ List.mem_map_of_mem older)]
      exact h.slot p older
    · rw [List.mem_singleton.1 newest, if_pos rfl]
      exact ⟨_, rfl, head?_eq_headD (enough ▸ cellsFor_pos fits.positive), enough⟩
  · rw [List.flatMap_append, ← h.chain]
    simp [Ctx.stored]

theorem Ctx.ChainFollows.stored (follows : r.ChainFollows) {seg : Segment} {cells : List Nat} (fits : seg.Fits)
    (absent : r.slots[seg.index] = none) (enough : cells.length = cellsFor seg.length) :
    (r.stored seg cells).ChainFollows := by
  obtain ⟨runs, h⟩ := Ctx.chainFollows_iff.1 follows
  exact Ctx.chainFollows_iff.2 ⟨_, h.stored fits absent enough⟩

theorem Ctx.ChainFollows.cleared : Ctx.cleared.ChainFollows := .of_empty rfl rfl

end Runs

/-! ## The rows -/

section Rows

variable {w : Warrant} {s t : State}

theorem chains_joinIfWhole {n : CtxNo} (all : ∀ m, (s.ctx m).ChainFollows) (m : CtxNo) :
    ((joinIfWhole n s).ctx m).ChainFollows := by
  rcases joinIfWhole_cases s n with ⟨-, h⟩ | ⟨-, h⟩ <;> rw [h]
  · exact forall_ctx_of_set all (s.ctx_joined n) ((all n).of_same rfl rfl) m
  · exact all m

theorem Change.chains (h : Change w s t) (granted : w.collections) (all : ∀ n, (s.ctx n).ChainFollows) (m : CtxNo) :
    (t.ctx m).ChainFollows := by
  have same {n : CtxNo} {r : Ctx} {u : State} (ctxs : ∀ m, u.ctx m = if m = n then r else s.ctx m)
      (slots : r.slots = (s.ctx n).slots) (chain : r.chain = (s.ctx n).chain) : (u.ctx m).ChainFollows :=
    forall_ctx_of_set all ctxs ((all n).of_same slots chain) m
  cases h with
  | adjusts ctxs adjust => exact (all m).of_same (adjust m).slots (adjust m).chain
  | names n seg =>
    obtain ⟨slots, -, -, chain⟩ := (s.ctx n).duplicated_stands seg
    exact chains_joinIfWhole (forall_ctx_of_set all (fun m => s.ctx_setCtx n m _) ((all n).of_same slots chain)) m
  | stores n seg fits collecting passes absent room =>
    exact chains_joinIfWhole (forall_ctx_of_set all (fun m => ctx_allocateAndStore s n m seg)
      ((all n).stored fits absent (taken_length (room granted)))) m
  | opens n k cls seg =>
    exact forall_ctx_of_set all (fun m => s.ctx_openedFor n m k cls seg) (.of_empty rfl rfl) m
  | frees n => exact forall_ctx_of_set all (fun m => s.ctx_freeCtx n m) .cleared m
  | loses n r => exact forall_ctx_of_set (t := { s.freeCtx n with readout := r }) all (fun m => s.ctx_freeCtx n m) .cleared m
  | ends n => exact forall_ctx_of_set (t := (s.freeCtx n).engineIdle) all (fun m => s.ctx_freeCtx n m) .cleared m
  | confirms n => exact same (s.ctx_matched n) rfl rfl
  | requests n => exact same (s.ctx_requestStop n) rfl rfl
  | claims n rest => exact same (fun m => ctx_claim s n m rest) rfl rfl
  | _ => exact all m

theorem RecordsInv.of_records (same : t.records = s.records) (inv : RecordsInv s) : RecordsInv t :=
  ⟨inv.pool.of_records same, inv.collections.of_records same, forall_ctx_of_records same inv.counts,
    forall_ctx_of_records same inv.whole, forall_ctx_of_records same inv.chains⟩

theorem Change.recordsInv (h : Change w s t) (granted : w.collections) (inv : RecordsInv s) : RecordsInv t :=
  ⟨h.pool inv.pool, h.collections granted inv.collections, h.counts granted inv.counts,
    h.whole granted inv.collections inv.counts inv.whole, h.chains granted inv.chains⟩

theorem State.AtReset.recordsInv (h : s.AtReset) : RecordsInv s :=
  ⟨h.pool, h.collections, fun n => h.ctx n ▸ .cleared, fun n => h.ctx n ▸ .cleared, fun n => h.ctx n ▸ .cleared⟩

theorem exec_recordsInv {c : Instr} (h : exec c s = .next t) (inv : RecordsInv s) : RecordsInv t :=
  exec_keeps (w := anyRowOnCollections) anyRowOnCollections_full (fun _ inv _ => inv.collections) (fun _ _ => False.elim)
    (fun _ _ same inv => inv.of_records same) (fun _ _ step inv => step.recordsInv trivial inv)
    (fun _ _ reset _ _ => reset.recordsInv) h inv

/-- A record past COLLECTING has walks that are defined. -/
theorem RecordsInv.walkable (inv : RecordsInv s) {n : CtxNo} (past : (s.ctx n).past) : (s.ctx n).walkable := by
  obtain ⟨last, known, complete⟩ := (inv.whole n).complete past
  intro i hi
  have within : i ≤ last := by simpa [Ctx.walkEnd, known] using hi
  obtain ⟨sl, slot⟩ := Option.isSome_iff_exists.1 (complete i within)
  obtain ⟨positive, bounded, cells⟩ := (inv.counts n).slots sl (mem_presentSlots.2 ⟨i, slot⟩)
  exact ⟨sl, slot, positive, bounded, cells, (inv.chains n).slotCells_length (inv.pool.chain_nodup n) slot⟩

/-- Settles O54: a store's cells join the chain as the last run, and a run is found again from its first cell. -/
theorem chainsKeepRecordsWalkable : Obligations.ChainsKeepRecordsWalkable := by
  unfold Obligations.ChainsKeepRecordsWalkable
  refine ⟨fun s t inv h => ?_, fun s inv n past => inv.walkable past⟩
  exact step_keeps (fun _ _ same inv => inv.of_records same) (fun _ _ _ => exec_recordsInv) h inv

end Rows

end Sys2Proof.Machine
end

