-- ==== Sys2Proof/Proofs/Walks.lean ====
section
/-! SUPPORT. The two walks over a record's cells: the bytes that are still to go from a walk position on, and how one cell read of the
check and one byte of the readout take the first of them (spec 05 R89, 08 R142). -/

namespace Sys2Proof.Machine

/-! ## The bytes of one slot -/

section SlotBytes

variable {r : Ctx} {m : Memory} {sl : Slot}

/-- Cell j of a run of cells stands behind the bytes of the cells before it. -/
theorem drop_flatMap_cells {f : Nat → List Byte} (size : ∀ c, (f c).length = 32) (cells : List Nat) (j : Nat)
    (inside : j < cells.length) :
    (cells.flatMap f).drop (32 * j) = f cells[j] ++ (cells.flatMap f).drop (32 * (j + 1)) := by
  induction cells generalizing j with
  | nil => cases inside
  | cons c rest ih =>
    have past (k : Nat) : ((c :: rest).flatMap f).drop (32 * (k + 1)) = (rest.flatMap f).drop (32 * k) := by
      rw [List.flatMap_cons, List.drop_append, size, List.drop_of_length_le (by rw [size]; omega)]
      rfl
    cases j with
    | zero => rw [past 0]; simp
    | succ j =>
      rw [past, past, List.getElem_cons_succ]
      exact ih j (by simpa using inside)

theorem length_flatMap_cells {f : Nat → List Byte} (size : ∀ c, (f c).length = 32) (cells : List Nat) :
    (cells.flatMap f).length = 32 * cells.length := by
  simp [List.length_flatMap, size, Nat.mul_comm]

theorem Memory.length_readCell (m : Memory) (c o n : Nat) : (m.readCell c o n).length = n := by simp [Memory.readCell]

theorem Memory.take_readCell (m : Memory) (c n : Nat) : (m.readCell c 0 32).take n = m.readCell c 0 (min 32 n) := by
  rw [Memory.readCell, ← List.map_take, List.take_range, Nat.min_comm, Memory.readCell]

theorem cellsFor_bounds (n : Nat) : n ≤ 32 * cellsFor n ∧ 32 * cellsFor n < n + 32 := by
  unfold cellsFor
  omega

/-- A slot whose cells stand on the chain, as many as its length needs. -/
structure Ctx.HasSlot (r : Ctx) (i : SegIndex) (sl : Slot) : Prop where
  slot : r.slots[i] = some sl
  positive : 1 ≤ sl.length
  cells : sl.cells = cellsFor sl.length
  enough : (r.slotCells sl).length = sl.cells

theorem Ctx.walkable.hasSlot (walkable : r.walkable) {i : SegIndex} (within : i ≤ r.walkEnd) : ∃ sl, r.HasSlot i sl := by
  obtain ⟨sl, slot, positive, -, cells, enough⟩ := walkable i within
  exact ⟨sl, slot, positive, cells, enough⟩

namespace Ctx.HasSlot

variable {i : SegIndex} (h : r.HasSlot i sl)
include h

theorem length_slotBytes : (r.slotBytes m sl).length = sl.length := by
  have bounds := cellsFor_bounds sl.length
  rw [Ctx.slotBytes, List.length_take, length_flatMap_cells fun c => m.length_readCell c 0 Config.cellBytes,
    h.enough, h.cells]
  omega

/-- The bytes of cell j of a slot, and those of the cells behind it. -/
theorem drop_slotBytes {j : Nat} (inside : j < sl.cells) :
    (r.slotBytes m sl).drop (32 * j) =
      m.readCell ((r.slotCells sl).getD j 0) 0 (min 32 (sl.length - 32 * j)) ++ (r.slotBytes m sl).drop (32 * (j + 1)) := by
  have size (c : Nat) : (m.readCell c 0 32).length = 32 := m.length_readCell c 0 32
  have listed : j < (r.slotCells sl).length := h.enough ▸ inside
  rw [Ctx.slotBytes, List.drop_take, List.drop_take]
  change List.take _ (List.drop _ ((r.slotCells sl).flatMap fun c => m.readCell c 0 32)) = _
  rw [drop_flatMap_cells size _ j listed, List.take_append, size, Memory.take_readCell, Nat.sub_sub,
    List.getD_eq_getElem _ _ listed]
  rfl

/-- Byte t of a slot stands in cell t / 32, at t modulo 32. -/
theorem getElem?_slotBytes {t : Nat} (inside : t < sl.length) :
    (r.slotBytes m sl)[t]? = some (m.read (cellAddr ((r.slotCells sl).getD (t / 32) 0) (t % 32))) := by
  have bounds := cellsFor_bounds sl.length
  have place : t = 32 * (t / 32) + t % 32 := (Nat.div_add_mod t 32).symm
  have cell : t / 32 < sl.cells := by rw [h.cells]; omega
  have offset : t % 32 < min 32 (sl.length - 32 * (t / 32)) := by omega
  conv_lhs => rw [place]
  rw [← List.getElem?_drop, h.drop_slotBytes cell, List.getElem?_append_left (by rw [Memory.length_readCell]; exact offset)]
  simp [Memory.readCell, offset]

end Ctx.HasSlot

end SlotBytes

/-! ## The bytes of the slots in index order -/

section Payload

variable (r : Ctx) (m : Memory)

/-- The payload bytes of one index. -/
def Ctx.bytesAt (i : SegIndex) : List Byte := if i ≤ r.walkEnd then ((r.slots[i]).map (r.slotBytes m)).getD [] else []

/-- The payload bytes from an index on. -/
def Ctx.bytesFrom (k : Nat) : List Byte := ((List.finRange 64).drop k).flatMap (r.bytesAt m)

/-- The cells that the walk reads for one index, and from an index on. -/
def Ctx.cellsAt (i : SegIndex) : Nat := if i ≤ r.walkEnd then ((r.slots[i]).map Slot.cells).getD 0 else 0

def Ctx.cellsFrom (k : Nat) : Nat := (((List.finRange 64).drop k).map r.cellsAt).sum

theorem Ctx.bytesFrom_zero : r.bytesFrom m 0 = r.payload m := rfl

theorem Ctx.cellsFrom_zero : r.cellsFrom 0 = r.walkCells := rfl

theorem drop_finRange (i : SegIndex) : (List.finRange 64).drop i.val = i :: (List.finRange 64).drop (i.val + 1) := by
  rw [List.drop_eq_getElem_cons (by simp)]
  simp

theorem le_of_mem_drop_finRange {i : SegIndex} {k : Nat} (mem : i ∈ (List.finRange 64).drop k) : k ≤ i.val := by
  obtain ⟨j, inside, rfl⟩ := List.mem_iff_getElem.1 mem
  simp

theorem lt_of_mem_take_finRange {i : SegIndex} {k : Nat} (mem : i ∈ (List.finRange 64).take k) : i.val < k := by
  obtain ⟨j, inside, rfl⟩ := List.mem_iff_getElem.1 mem
  have : j < k := lt_of_lt_of_le inside (List.length_take_le _ _)
  simpa using this

theorem Ctx.bytesFrom_step (i : SegIndex) : r.bytesFrom m i.val = r.bytesAt m i ++ r.bytesFrom m (i.val + 1) := by
  rw [Ctx.bytesFrom, drop_finRange, List.flatMap_cons, Ctx.bytesFrom]

theorem Ctx.cellsFrom_step (i : SegIndex) : r.cellsFrom i.val = r.cellsAt i + r.cellsFrom (i.val + 1) := by
  rw [Ctx.cellsFrom, drop_finRange, List.map_cons, List.sum_cons, Ctx.cellsFrom]

theorem Ctx.bytesFrom_end : r.bytesFrom m (r.walkEnd.val + 1) = [] := by
  refine List.flatMap_eq_nil_iff.2 fun i mem => if_neg fun within => ?_
  have := le_of_mem_drop_finRange mem
  have : i.val ≤ r.walkEnd.val := within
  omega

theorem Ctx.cellsFrom_end : r.cellsFrom (r.walkEnd.val + 1) = 0 := by
  refine List.sum_eq_zero fun c mem => ?_
  obtain ⟨i, listed, rfl⟩ := List.mem_map.1 mem
  refine if_neg fun within => ?_
  have := le_of_mem_drop_finRange listed
  have : i.val ≤ r.walkEnd.val := within
  omega

variable {r m} {i : SegIndex} {sl : Slot}

theorem Ctx.bytesAt_of_slot (within : i ≤ r.walkEnd) (slot : r.slots[i] = some sl) : r.bytesAt m i = r.slotBytes m sl := by
  rw [Ctx.bytesAt, if_pos within, slot]
  rfl

theorem Ctx.cellsAt_of_slot (within : i ≤ r.walkEnd) (slot : r.slots[i] = some sl) : r.cellsAt i = sl.cells := by
  rw [Ctx.cellsAt, if_pos within, slot]
  rfl

theorem succ_val {i e : SegIndex} (below : i < e) : (i + 1).val = i.val + 1 :=
  Fin.val_add_one_of_lt (lt_of_lt_of_le below (Fin.le_last e))

/-- The payload bytes from a walk position on. -/
def Ctx.toGo (r : Ctx) (m : Memory) (w : Walk) : List Byte :=
  (r.bytesAt m w.slot).drop w.taken ++ r.bytesFrom m (w.slot.val + 1)

theorem Ctx.toGo_start : r.toGo m Walk.start = r.payload m := by
  rw [← r.bytesFrom_zero, show (0 : Nat) = (0 : SegIndex).val from rfl, r.bytesFrom_step m 0]
  rfl

/-- The start of the next slot. -/
theorem Ctx.toGo_nextSlot {i e : SegIndex} {cell : Nat} (below : i < e) :
    r.toGo m { slot := i + 1, cell := cell, taken := 0 } = r.bytesFrom m (i.val + 1) := by
  rw [← succ_val below, r.bytesFrom_step m (i + 1)]
  rfl

/-- The bytes before a walk position and those from it on are the payload. -/
theorem Ctx.walkable.split (walkable : r.walkable) {w : Walk} (within : w.slot ≤ r.walkEnd) (slot : r.slots[w.slot] = some sl)
    (taken : w.taken ≤ sl.length) : ∃ before, before ++ r.toGo m w = r.payload m ∧ before.length = r.bytesBefore w := by
  refine ⟨((List.finRange 64).take w.slot).flatMap (r.bytesAt m) ++ (r.bytesAt m w.slot).take w.taken, ?_, ?_⟩
  · rw [Ctx.toGo, List.append_assoc, ← List.append_assoc ((r.bytesAt m w.slot).take _), List.take_append_drop,
      ← r.bytesFrom_step, Ctx.bytesFrom, ← List.flatMap_append, List.take_append_drop]
    rfl
  · obtain ⟨sl', hasSlot⟩ := walkable.hasSlot within
    obtain rfl : sl' = sl := Option.some.inj (hasSlot.slot.symm.trans slot)
    have length (i : SegIndex) (hi : i ∈ (List.finRange 64).take w.slot) :
        (r.bytesAt m i).length = if i < w.slot then ((r.slots[i]).map Slot.length).getD 0 else 0 := by
      have below : i < w.slot := lt_of_mem_take_finRange hi
      have inside : i ≤ r.walkEnd := below.le.trans within
      obtain ⟨sl, has⟩ := walkable.hasSlot inside
      rw [Ctx.bytesAt_of_slot inside has.slot, has.length_slotBytes, if_pos below, has.slot]
      rfl
    have others : (((List.finRange 64).drop w.slot).map fun i =>
        if i < w.slot then ((r.slots[i]).map Slot.length).getD 0 else 0).sum = 0 := by
      refine List.sum_eq_zero fun c mem => ?_
      obtain ⟨i, listed, rfl⟩ := List.mem_map.1 mem
      exact if_neg (not_lt.2 (le_of_mem_drop_finRange listed))
    rw [List.length_append, List.length_flatMap, List.map_congr_left length, List.length_take,
      Ctx.bytesAt_of_slot within slot, hasSlot.length_slotBytes, min_eq_left taken, Ctx.bytesBefore]
    conv_rhs => rw [← List.take_append_drop w.slot.val (List.finRange 64), List.map_append, List.sum_append, others]
    rfl

theorem Ctx.walkable.toGo_eq (walkable : r.walkable) {w : Walk} (within : w.slot ≤ r.walkEnd)
    (slot : r.slots[w.slot] = some sl) (taken : w.taken ≤ sl.length) :
    (r.payload m).take (r.bytesBefore w) ++ r.toGo m w = r.payload m ∧ r.bytesBefore w ≤ (r.payload m).length := by
  obtain ⟨before, whole, length⟩ := walkable.split (m := m) within slot taken
  rw [← whole, ← length, List.take_left]
  exact ⟨rfl, by simp⟩

end Payload

/-! ## The check's walk -/

section CheckWalk

variable {r : Ctx} {m : Memory} {w next : Walk}

/-- The walk stands at a cell of a present slot up to the last index, all cells before it taken (spec 05 R87). -/
def Ctx.AtCell (r : Ctx) (w : Walk) : Prop :=
  w.slot ≤ r.walkEnd ∧ ∃ sl, r.slots[w.slot] = some sl ∧ 1 ≤ w.cell ∧ w.cell ≤ sl.cells ∧ w.taken = 32 * (w.cell - 1)

/-- The cell reads to go from a walk position on. -/
def Ctx.cellsToGo (r : Ctx) (w : Walk) : Nat := r.cellsAt w.slot + 1 - w.cell + r.cellsFrom (w.slot.val + 1)

theorem Ctx.walkable.atCell_first (walkable : r.walkable) {i : SegIndex} (within : i ≤ r.walkEnd) :
    r.AtCell { slot := i, cell := 1, taken := 0 } := by
  obtain ⟨sl, has⟩ := walkable.hasSlot within
  exact ⟨within, sl, has.slot, le_refl _, has.cells ▸ cellsFor_pos has.positive, rfl⟩

theorem Ctx.walkable.atCell_start (walkable : r.walkable) : r.AtCell Walk.start := walkable.atCell_first (Fin.zero_le _)

/-- A walk position at a cell, with its slot. -/
theorem Ctx.walkable.atCell (walkable : r.walkable) (h : r.AtCell w) :
    ∃ sl, r.HasSlot w.slot sl ∧ 1 ≤ w.cell ∧ w.cell ≤ sl.cells ∧ w.taken = 32 * (w.cell - 1) ∧ w.taken ≤ sl.length := by
  obtain ⟨within, sl, slot, first, last, taken⟩ := h
  obtain ⟨sl', has⟩ := walkable.hasSlot within
  obtain rfl : sl' = sl := Option.some.inj (has.slot.symm.trans slot)
  have := (cellsFor_bounds sl'.length).2
  have := has.cells
  exact ⟨sl', has, first, last, taken, by omega⟩

/-- What a cell read takes of the bytes to go. -/
theorem Ctx.walkable.toGo_cell (walkable : r.walkable) (h : r.AtCell w) :
    ∃ sl, r.HasSlot w.slot sl ∧
      r.toGo m w = r.walkBytes m w ++ ((r.slotBytes m sl).drop (32 * w.cell) ++ r.bytesFrom m (w.slot.val + 1)) := by
  obtain ⟨sl, has, first, last, taken, -⟩ := walkable.atCell h
  refine ⟨sl, has, ?_⟩
  have behind : w.cell - 1 + 1 = w.cell := Nat.sub_add_cancel first
  rw [Ctx.toGo, Ctx.bytesAt_of_slot h.1 has.slot, taken, has.drop_slotBytes (j := w.cell - 1) (by omega), behind,
    List.append_assoc, Ctx.walkBytes, has.slot, taken]
  rfl

theorem Ctx.walkNext_some (h : r.walkNext w = some next) {sl : Slot} (slot : r.slots[w.slot] = some sl) :
    (w.cell < sl.cells ∧ next = { w with cell := w.cell + 1, taken := w.taken + 32 }) ∨
      (¬w.cell < sl.cells ∧ w.slot < r.walkEnd ∧ next = { slot := w.slot + 1, cell := 1, taken := 0 }) := by
  rw [Ctx.walkNext, slot] at h
  change (if w.cell < sl.cells then _ else _) = some next at h
  split_ifs at h with within below
  · exact .inl ⟨within, (Option.some.inj h).symm⟩
  · exact .inr ⟨within, below, (Option.some.inj h).symm⟩

theorem Ctx.walkNext_none (h : r.walkNext w = none) {sl : Slot} (slot : r.slots[w.slot] = some sl) :
    sl.cells ≤ w.cell ∧ r.walkEnd ≤ w.slot := by
  rw [Ctx.walkNext, slot] at h
  change (if w.cell < sl.cells then _ else _) = none at h
  split_ifs at h with within below
  exact ⟨not_lt.1 within, not_lt.1 below⟩

/-- A cell read inside the message: the walk stands at the next cell, and its bytes are taken. -/
theorem Ctx.walkable.walk_next (walkable : r.walkable) (h : r.AtCell w) (goes : r.walkNext w = some next) :
    r.AtCell next ∧ r.toGo m w = r.walkBytes m w ++ r.toGo m next ∧ r.cellsToGo w = r.cellsToGo next + 1 := by
  obtain ⟨sl, has, toGo⟩ := walkable.toGo_cell (m := m) h
  obtain ⟨sl', has', first, last, taken, -⟩ := walkable.atCell h
  obtain rfl : sl' = sl := Option.some.inj (has'.slot.symm.trans has.slot)
  rcases Ctx.walkNext_some goes has.slot with ⟨within, rfl⟩ | ⟨ends, below, rfl⟩
  · refine ⟨⟨h.1, sl', has.slot, by simp, within, by simp only [taken]; omega⟩, ?_, ?_⟩
    · have position : w.taken + 32 = 32 * w.cell := by omega
      rw [toGo, Ctx.toGo, Ctx.bytesAt_of_slot h.1 has.slot]
      simp only [position]
    · simp only [Ctx.cellsToGo, Ctx.cellsAt_of_slot h.1 has.slot]
      omega
  · have above : w.slot + 1 ≤ r.walkEnd := Fin.le_def.2 (by rw [succ_val below]; exact below)
    have position : sl'.cells = w.cell := le_antisymm (not_lt.1 ends) last
    have all : sl'.length ≤ 32 * w.cell := position ▸ has.cells ▸ (cellsFor_bounds _).1
    refine ⟨walkable.atCell_first above, ?_, ?_⟩
    · rw [toGo, Ctx.toGo_nextSlot below, List.drop_of_length_le (by rw [has.length_slotBytes]; exact all), List.nil_append]
    · simp only [Ctx.cellsToGo, Ctx.cellsAt_of_slot h.1 has.slot]
      rw [← succ_val below, r.cellsFrom_step]
      omega

/-- The last cell read: it takes what was to go. -/
theorem Ctx.walkable.walk_last (walkable : r.walkable) (h : r.AtCell w) (ends : r.walkNext w = none) :
    r.toGo m w = r.walkBytes m w ∧ r.cellsToGo w = 1 := by
  obtain ⟨sl, has, toGo⟩ := walkable.toGo_cell (m := m) h
  obtain ⟨sl', has', first, last, taken, -⟩ := walkable.atCell h
  obtain rfl : sl' = sl := Option.some.inj (has'.slot.symm.trans has.slot)
  obtain ⟨lastCell, lastSlot⟩ := Ctx.walkNext_none ends has.slot
  have slot : w.slot = r.walkEnd := le_antisymm h.1 lastSlot
  have all : sl'.length ≤ 32 * w.cell := le_trans (cellsFor_bounds _).1 (by rw [← has.cells]; omega)
  refine ⟨?_, ?_⟩
  · rw [toGo, List.drop_of_length_le (by rw [has.length_slotBytes]; exact all), slot, r.bytesFrom_end, List.append_nil,
      List.append_nil]
  · rw [Ctx.cellsToGo, Ctx.cellsAt_of_slot h.1 has.slot, slot, r.cellsFrom_end]
    omega

theorem iterate_walkNext_succ (r : Ctx) (w : Walk) (k : Nat) :
    (fun o : Option Walk => o.bind r.walkNext)^[k + 1] (some w) =
      (fun o : Option Walk => o.bind r.walkNext)^[k] (r.walkNext w) := rfl

theorem Ctx.readsLeft.succ {k : Nat} (left : r.readsLeft next k) (goes : r.walkNext w = some next) : r.readsLeft w (k + 1) := by
  refine ⟨by rw [iterate_walkNext_succ, goes]; exact left.1, fun j below => ?_⟩
  cases j with
  | zero => simp
  | succ j =>
    rw [iterate_walkNext_succ, goes]
    exact left.2 j (by omega)

theorem Ctx.readsLeft_last (ends : r.walkNext w = none) : r.readsLeft w 1 :=
  ⟨ends, fun j below => by obtain rfl : j = 0 := by omega
                           simp⟩

/-- Where a walk ends with its cell, one read is to go. -/
theorem Ctx.readsLeft.eq_one {k : Nat} (left : r.readsLeft w k) (ends : r.walkNext w = none) : k = 1 := by
  obtain ⟨over', before⟩ := left
  match k with
  | 0 => simp at over'
  | 1 => rfl
  | k + 2 => exact absurd (show (fun o : Option Walk => o.bind r.walkNext)^[1] (some w) = none from ends) (before 1 (by omega))

theorem Ctx.checkRun_next {k : Nat} (goes : r.walkNext w = some next) :
    r.checkRun m (k + 1) w = r.walkBytes m w ++ r.checkRun m k next := by rw [Ctx.checkRun, goes]

theorem Ctx.checkRun_last {k : Nat} (ends : r.walkNext w = none) : r.checkRun m (k + 1) w = r.walkBytes m w := by
  rw [Ctx.checkRun, ends]

/-- From a cell on the walk reads the bytes to go, in as many cell reads as there are cells to go. -/
theorem Ctx.walkable.checkRun (walkable : r.walkable) (h : r.AtCell w) :
    r.checkRun m (r.cellsToGo w) w = r.toGo m w ∧ r.readsLeft w (r.cellsToGo w) := by
  generalize left : r.cellsToGo w = k
  induction k generalizing w with
  | zero =>
    cases goes : r.walkNext w with
    | none => simp [(walkable.walk_last (m := m) h goes).2] at left
    | some next => simp [(walkable.walk_next (m := m) h goes).2.2] at left
  | succ k ih =>
    cases goes : r.walkNext w with
    | none =>
      obtain ⟨bytes, one⟩ := walkable.walk_last (m := m) h goes
      obtain rfl : k = 0 := by omega
      exact ⟨by rw [Ctx.checkRun_last goes, bytes], Ctx.readsLeft_last goes⟩
    | some next =>
      obtain ⟨stands, bytes, cells⟩ := walkable.walk_next (m := m) h goes
      obtain ⟨run, reads⟩ := ih stands (by omega)
      exact ⟨by rw [Ctx.checkRun_next goes, run, bytes], reads.succ goes⟩

theorem Ctx.cellsToGo_start (r : Ctx) : r.cellsToGo Walk.start = r.walkCells := by
  rw [← r.cellsFrom_zero, show (0 : Nat) = (0 : SegIndex).val from rfl, r.cellsFrom_step 0]
  rfl

end CheckWalk

/-! ## The readout walk -/

section ReadoutWalk

variable {r : Ctx} {m : Memory} {w : Walk}

/-- The readout walk stands at a byte of a present slot up to the last index (spec 08 R142). -/
def Ctx.AtByte (r : Ctx) (w : Walk) : Prop :=
  w.slot ≤ r.walkEnd ∧ w.cell = w.taken / 32 + 1 ∧ ∃ sl, r.slots[w.slot] = some sl ∧ w.taken < sl.length

theorem Ctx.walkable.atByte_first (walkable : r.walkable) {i : SegIndex} (within : i ≤ r.walkEnd) :
    r.AtByte { slot := i, cell := 1, taken := 0 } := by
  obtain ⟨sl, has⟩ := walkable.hasSlot within
  exact ⟨within, by simp, sl, has.slot, has.positive⟩

theorem Ctx.walkable.atByte_start (walkable : r.walkable) : r.AtByte Walk.start := walkable.atByte_first (Fin.zero_le _)

theorem Ctx.readoutNext_of_slot {sl : Slot} (slot : r.slots[w.slot] = some sl) :
    r.readoutNext w =
      if w.taken + 1 < sl.length then { w with cell := (w.taken + 1) / 32 + 1, taken := w.taken + 1 }
      else if w.slot < r.walkEnd then { slot := w.slot + 1, cell := 1, taken := 0 }
      else { w with taken := w.taken + 1 } := by
  rw [Ctx.readoutNext, slot]
  rfl

/-- One byte of the readout is the first to go; the walk then stands at the next, or none is left. -/
theorem Ctx.walkable.readout (walkable : r.walkable) (h : r.AtByte w) :
    r.toGo m w = r.readoutByte m w :: r.toGo m (r.readoutNext w) ∧
      (r.AtByte (r.readoutNext w) ∨ r.toGo m (r.readoutNext w) = []) := by
  obtain ⟨within, cell, sl, slot, taken⟩ := h
  obtain ⟨sl', has⟩ := walkable.hasSlot within
  obtain rfl : sl' = sl := Option.some.inj (has.slot.symm.trans slot)
  have inside : w.taken < (r.slotBytes m sl').length := has.length_slotBytes ▸ taken
  have byte : (r.slotBytes m sl')[w.taken] = r.readoutByte m w := by
    have read := has.getElem?_slotBytes (m := m) taken
    rw [List.getElem?_eq_getElem inside] at read
    rw [Option.some.inj read, Ctx.readoutByte, slot]
    change _ = m.read (cellAddr ((r.slotCells sl').getD (w.cell - 1) 0) (w.taken % 32))
    rw [cell, Nat.add_sub_cancel]
  have toGo : r.toGo m w =
      r.readoutByte m w :: ((r.slotBytes m sl').drop (w.taken + 1) ++ r.bytesFrom m (w.slot.val + 1)) := by
    rw [Ctx.toGo, Ctx.bytesAt_of_slot within slot, List.drop_eq_getElem_cons inside, byte, List.cons_append]
  rw [toGo, Ctx.readoutNext_of_slot slot]
  split_ifs with more below
  · refine ⟨?_, .inl ⟨within, rfl, sl', slot, more⟩⟩
    rw [Ctx.toGo, Ctx.bytesAt_of_slot within slot]
  · have above : w.slot + 1 ≤ r.walkEnd := Fin.le_def.2 (by rw [succ_val below]; exact below)
    refine ⟨?_, .inl (walkable.atByte_first above)⟩
    rw [Ctx.toGo_nextSlot below, List.drop_of_length_le (by rw [has.length_slotBytes]; omega), List.nil_append]
  · have last : w.slot = r.walkEnd := le_antisymm within (not_lt.1 below)
    have stays : r.toGo m { w with taken := w.taken + 1 } =
        (r.slotBytes m sl').drop (w.taken + 1) ++ r.bytesFrom m (w.slot.val + 1) := by
      rw [Ctx.toGo, Ctx.bytesAt_of_slot within slot]
    refine ⟨by rw [stays], .inr ?_⟩
    rw [stays, List.drop_of_length_le (by rw [has.length_slotBytes]; omega), last, r.bytesFrom_end, List.append_nil]

theorem Ctx.walkable.readoutRun (walkable : r.walkable) (h : r.AtByte w) :
    r.readoutRun m (r.toGo m w).length w = r.toGo m w := by
  generalize bytes : r.toGo m w = list
  induction list generalizing w with
  | nil => rfl
  | cons b rest ih =>
    obtain ⟨first, goes⟩ := walkable.readout (m := m) h
    obtain ⟨rfl, rfl⟩ := List.cons.inj (bytes.symm.trans first)
    rw [List.length_cons, Ctx.readoutRun]
    congr 1
    rcases goes with stands | ended
    · exact ih stands rfl
    · rw [ended]
      rfl

end ReadoutWalk

/-- Settles O29: each cell read, and each byte delivered, takes the first of the payload bytes that are still to go. -/
theorem walksReadThePayload : Obligations.WalksReadThePayload := by
  unfold Obligations.WalksReadThePayload
  refine ⟨fun r m walkable => ?_, fun r m walkable => ?_⟩
  · have run := walkable.checkRun (m := m) walkable.atCell_start
    rw [r.cellsToGo_start, Ctx.toGo_start] at run
    exact ⟨run.1, run.2.1, run.2.2⟩
  · have run := walkable.readoutRun (m := m) walkable.atByte_start
    rwa [Ctx.toGo_start] at run

end Sys2Proof.Machine
end

