-- ==== Sys2Proof/Proofs/EngineWalk.lean ====
section
/-! SUPPORT. While a message is checked or read its record and its bytes stand, so the check's walk and the readout walk stay where their
bytes are (spec 05 R87, R89, R90, 08 R142, R144). -/

namespace Sys2Proof.Machine

/-! ## Messages that stand -/

section Carries

variable {r q : Ctx} {m m' : Memory} {w : Walk}

/-- The message of a record: what its walks, its check and its head record read of it. -/
structure Ctx.Carries (r q : Ctx) : Prop where
  slots : q.slots = r.slots
  chain : q.chain = r.chain
  lastIndex : q.lastIndex = r.lastIndex
  byteCount : q.byteCount = r.byteCount
  cls : q.cls = r.cls
  source : q.source = r.source
  msgno : q.msgno = r.msgno

theorem Ctx.Carries.refl (r : Ctx) : r.Carries r := ⟨rfl, rfl, rfl, rfl, rfl, rfl, rfl⟩

theorem Ctx.Adjusts.carries (h : r.Adjusts q) : r.Carries q :=
  ⟨h.slots, h.chain, h.lastIndex, h.byteCount, h.cls, h.source, h.msgno⟩

/-- The bytes of a record's cells are the same in both memories. -/
def Ctx.SameBytes (r : Ctx) (m m' : Memory) : Prop :=
  ∀ c ∈ r.chain, ∀ o < 32, m'.read (cellAddr c o) = m.read (cellAddr c o)

theorem Ctx.SameBytes.readCell (same : r.SameBytes m m') {c : Nat} (held : c ∈ r.chain) :
    m'.readCell c 0 32 = m.readCell c 0 32 := by
  refine List.map_congr_left fun o ho => ?_
  rw [Nat.zero_add]
  exact same c held o (List.mem_range.1 ho)

namespace Ctx.Carries

variable (h : r.Carries q)
include h

theorem walkEnd : q.walkEnd = r.walkEnd := by rw [Ctx.walkEnd, h.lastIndex, Ctx.walkEnd]

theorem slotCells (sl : Slot) : q.slotCells sl = r.slotCells sl := by rw [Ctx.slotCells, h.chain, Ctx.slotCells]

theorem slotBytes (same : r.SameBytes m m') (sl : Slot) : q.slotBytes m' sl = r.slotBytes m sl := by
  have cells : ((r.slotCells sl).flatMap fun c => m'.readCell c 0 32) = (r.slotCells sl).flatMap fun c => m.readCell c 0 32 :=
    List.flatMap_congr fun c hc => same.readCell (slotCells_subset r sl hc)
  rw [Ctx.slotBytes, h.slotCells, Ctx.slotBytes]
  exact congrArg (List.take sl.length) cells

theorem payload (same : r.SameBytes m m') : q.payload m' = r.payload m := by
  have bytes : q.slotBytes m' = r.slotBytes m := funext (h.slotBytes same)
  rw [Ctx.payload, h.walkEnd, h.slots, bytes, Ctx.payload]

theorem bytesBefore (w : Walk) : q.bytesBefore w = r.bytesBefore w := by rw [Ctx.bytesBefore, h.slots, Ctx.bytesBefore]

theorem atCell : q.AtCell w ↔ r.AtCell w := by rw [Ctx.AtCell, h.walkEnd, h.slots, Ctx.AtCell]

theorem atByte : q.AtByte w ↔ r.AtByte w := by rw [Ctx.AtByte, h.walkEnd, h.slots, Ctx.AtByte]

end Ctx.Carries

end Carries

section Keeps

variable {w : Warrant} {s t : State} {n : CtxNo}

/-- Record n's message stands, with its bytes. -/
structure State.Keeps (s t : State) (n : CtxNo) : Prop where
  carries : (s.ctx n).Carries (t.ctx n)
  bytes : (s.ctx n).SameBytes s.pool.mem t.pool.mem

theorem State.Keeps.of_set {m : CtxNo} {r : Ctx} (ctxs : ∀ m', t.ctx m' = if m' = m then r else s.ctx m')
    (carries : (s.ctx m).Carries r) (mem : t.pool.mem = s.pool.mem) : s.Keeps t n := by
  refine ⟨?_, fun _ _ _ _ => by rw [mem]⟩
  rw [ctxs]
  split
  · rename_i e
    exact e ▸ carries
  · exact .refl _

theorem State.Keeps.of_cleared {m : CtxNo} (ctxs : ∀ m', t.ctx m' = if m' = m then Ctx.cleared else s.ctx m')
    (used : (t.ctx n).state ≠ .free) (mem : t.pool.mem = s.pool.mem) : s.Keeps t n := by
  have other : n ≠ m := fun e => used (by rw [ctxs, if_pos e]; rfl)
  exact ⟨by rw [ctxs, if_neg other]; exact .refl _, fun _ _ _ _ => by rw [mem]⟩

theorem ctx_joinIfWhole_other {m : CtxNo} (other : m ≠ n) : (joinIfWhole n s).ctx m = s.ctx m := by
  rcases joinIfWhole_cases s n with ⟨-, h⟩ | ⟨-, h⟩ <;> rw [h]
  rw [State.ctx_joined, if_neg other]

theorem Ctx.past.ne_collecting {r : Ctx} (past : r.past) : r.state ≠ .collecting := by
  rcases past with h | h | h <;> simp [h]

theorem Ctx.past.ne_free {r : Ctx} (past : r.past) : r.state ≠ .free := by
  rcases past with h | h | h <;> simp [h]

/-- A record past COLLECTING that a change does not free keeps its message. -/
theorem Change.keeps (h : Change w s t) (pool : PoolInv s) (past : (s.ctx n).past) (used : (t.ctx n).state ≠ .free) :
    s.Keeps t n := by
  have apart {m : CtxNo} (collecting : (s.ctx m).state = .collecting) : n ≠ m := fun e =>
    past.ne_collecting (e ▸ collecting)
  cases h with
  | adjusts ctxs adjust => exact ⟨(adjust n).carries, fun _ _ _ _ => rfl⟩
  | names m seg collecting =>
    have other := apart collecting
    refine ⟨?_, fun _ _ _ _ => by rw [joinIfWhole_pool]; rfl⟩
    rw [ctx_joinIfWhole_other other, State.ctx_setCtx_other _ other]
    exact .refl _
  | stores m seg fits collecting =>
    have other := apart collecting
    refine ⟨?_, fun c held o ho => ?_⟩
    · rw [ctx_joinIfWhole_other other, ctx_allocateAndStore, if_neg other]
      exact .refl _
    · rw [joinIfWhole_pool]
      exact s.pool.mem.read_writeCells_other _ _ (fun taken => pool.not_mem_freeList held (List.mem_of_mem_take taken)) ho
  | opens m k cls seg free =>
    have other : n ≠ m := fun e => past.ne_free (e ▸ free)
    exact ⟨by rw [State.ctx_openedFor, if_neg other]; exact .refl _, fun _ _ _ _ => rfl⟩
  | frees m => exact .of_cleared (fun m' => s.ctx_freeCtx m m') used (by simp)
  | loses m r => exact .of_cleared (m := m) (fun m' => s.ctx_freeCtx m m') used (by simp)
  | ends m => exact .of_cleared (m := m) (fun m' => s.ctx_freeCtx m m') used (by simp)
  | confirms m => exact .of_set (s.ctx_matched m) ⟨rfl, rfl, rfl, rfl, rfl, rfl, rfl⟩ rfl
  | requests m =>
    exact .of_set (s.ctx_requestStop m) ⟨rfl, rfl, rfl, rfl, rfl, rfl, rfl⟩ (by rw [State.requestStop_frame])
  | claims m rest => exact .of_set (fun m' => ctx_claim s m m' rest) ⟨rfl, rfl, rfl, rfl, rfl, rfl, rfl⟩ rfl
  | _ => exact ⟨.refl _, fun _ _ _ _ => rfl⟩

end Keeps

/-! ## The engine -/

section Engine

variable {w : Warrant} {s t : State} {r : Ctx} {m : Memory} {crc : Word32} {v next : Walk} {n : CtxNo}

/-- The engine out of IDLE, with this running CRC and walk position. -/
def State.checkAt (s : State) (crc : Word32) (v : Walk) : Prop :=
  s.checker.engine = .checking crc v ∨ s.checker.engine = .stopPending crc v

theorem State.checkAt.ne_idle (h : s.checkAt crc v) : s.checker.engine ≠ .idle := by
  rcases h with h | h <;> simp [h]

/-- The walk stands at a cell, and the CRC has run over the payload before it. -/
def Ctx.CheckedTo (r : Ctx) (m : Memory) (crc : Word32) (v : Walk) : Prop :=
  r.AtCell v ∧ crc = crc32Fold crc32Ones ((r.payload m).take (r.bytesBefore v))

theorem Ctx.Carries.checkedTo {q : Ctx} {m' : Memory} (h : r.Carries q) (same : r.SameBytes m m')
    (checked : r.CheckedTo m crc v) : q.CheckedTo m' crc v := by
  rw [Ctx.CheckedTo, h.atCell, h.payload same, h.bytesBefore]
  exact checked

/-- What the payload is at a walk position: the bytes before it, then the bytes to go. -/
theorem Ctx.walkable.cell_split (walkable : r.walkable) (h : r.AtCell v) :
    (r.payload m).take (r.bytesBefore v) ++ r.toGo m v = r.payload m ∧ r.bytesBefore v ≤ (r.payload m).length := by
  obtain ⟨sl, has, -, -, -, taken⟩ := walkable.atCell h
  exact walkable.toGo_eq h.1 has.slot taken

theorem Ctx.walkable.checkedTo_start (walkable : r.walkable) : r.CheckedTo m crc32Ones Walk.start := by
  refine ⟨walkable.atCell_start, ?_⟩
  have before : r.bytesBefore Walk.start = 0 := by
    have whole := (walkable.cell_split (m := m) walkable.atCell_start).1
    have bound := (walkable.cell_split (m := m) walkable.atCell_start).2
    have length := congrArg List.length whole
    rw [Ctx.toGo_start, List.length_append, List.length_take, min_eq_left bound] at length
    omega
  rw [before]
  rfl

/-- A cell read folds in the bytes up to the next position. -/
theorem Ctx.walkable.checkedTo_next (walkable : r.walkable) (checked : r.CheckedTo m crc v) (goes : r.walkNext v = some next) :
    r.CheckedTo m (crc32Fold crc (r.walkBytes m v)) next := by
  obtain ⟨stands, rfl⟩ := checked
  obtain ⟨nextStands, toGo, -⟩ := walkable.walk_next (m := m) stands goes
  refine ⟨nextStands, ?_⟩
  have here := (walkable.cell_split (m := m) stands).1
  rw [toGo, ← List.append_assoc] at here
  have there := (walkable.cell_split (m := m) nextStands).1
  rw [← crc32Fold_append, List.append_cancel_right (there.trans here.symm)]

theorem RecordsInv.walkable_underCheck (inv : RecordsInv s) (checked : s.underCheck = some n) : (s.ctx n).walkable :=
  inv.walkable (.inl (inv.collections.state_underCheck checked))

theorem checkFollows_iff (inv : RecordsInv s) :
    CheckFollows s ↔ ∀ n crc v, s.underCheck = some n → s.checkAt crc v → (s.ctx n).CheckedTo s.pool.mem crc v := by
  constructor
  · intro follows n crc v checked at'
    obtain ⟨-, head⟩ := State.underCheck_some.1 checked
    obtain ⟨rest, queue⟩ := List.head?_eq_some_iff.1 head
    obtain ⟨within, slot, bytes, k, -, payload, length, crcEq⟩ := follows n rest crc v queue at'
    refine ⟨⟨within, slot⟩, ?_⟩
    rw [← payload, ← length, List.take_left]
    exact crcEq
  · intro follows n rest crc v queue at'
    have checked := State.underCheck_of_queue queue (State.checkAt.ne_idle at')
    have walkable := inv.walkable_underCheck checked
    obtain ⟨stands, crcEq⟩ := follows n crc v checked at'
    obtain ⟨run, reads⟩ := walkable.checkRun (m := s.pool.mem) stands
    obtain ⟨whole, bound⟩ := walkable.cell_split (m := s.pool.mem) stands
    exact ⟨stands.1, stands.2, _, _, reads, by rw [run, whole], by rw [List.length_take, min_eq_left bound], crcEq⟩

/-- The engine and the record under check stand. -/
theorem CheckFollows.of_kept (inv : RecordsInv s) (after : RecordsInv t) (follows : CheckFollows s)
    (keeps : ∀ n, (s.ctx n).past → (t.ctx n).state ≠ .free → s.Keeps t n)
    (checked : t.checker.engine ≠ .idle → t.underCheck = s.underCheck) (engine : ∀ crc v, t.checkAt crc v → s.checkAt crc v) :
    CheckFollows t := by
  rw [checkFollows_iff inv] at follows
  rw [checkFollows_iff after]
  intro n crc v under at'
  have before : s.underCheck = some n := (checked at'.ne_idle) ▸ under
  have verifying := after.collections.state_underCheck under
  have keeps := keeps n (.inl (inv.collections.state_underCheck before)) (by simp [verifying])
  exact keeps.carries.checkedTo keeps.bytes (follows n crc v before (engine crc v at'))

theorem CheckFollows.of_idle (idle : s.checker.engine = .idle) : CheckFollows s := by
  rintro n rest crc v - (h | h) <;> simp [idle] at h

theorem joinIfWhole_engine (n : CtxNo) (s : State) : (joinIfWhole n s).checker.engine = s.checker.engine := by
  rcases joinIfWhole_cases s n with ⟨-, h⟩ | ⟨-, h⟩ <;> rw [h]
  rfl

/-- A record that joins the Check Queue joins it behind the one under check. -/
theorem underCheck_joinIfWhole (collections : CollectionsInv s) (n : CtxNo) : (joinIfWhole n s).underCheck = s.underCheck := by
  rcases joinIfWhole_cases s n with ⟨-, h⟩ | ⟨-, h⟩ <;> rw [h]
  by_cases idle : s.checker.engine = .idle
  · simp [State.underCheck, State.joined, idle]
  · obtain ⟨head, rest, queue⟩ := List.exists_cons_of_ne_nil (collections.checkedExists idle)
    rw [State.underCheck_of_queue queue idle]
    exact State.underCheck_of_queue (rest := rest ++ [n]) (by simp [State.joined, queue]) idle

theorem checkAt_of_engine (engine : t.checker.engine = s.checker.engine) (crc : Word32) (v : Walk) (h : t.checkAt crc v) :
    s.checkAt crc v := by rwa [State.checkAt, ← engine]

theorem State.underCheck_requestStop (s : State) (n : CtxNo) : (s.requestStop n).underCheck = s.underCheck := by
  have queue : (s.requestStop n).checker.queue = s.checker.queue := by rw [State.requestStop_frame]
  refine Option.ext fun m => ?_
  rw [State.underCheck_some, State.underCheck_some, Ne, Ne, State.requestStop_engine_idle, queue]

/-- The stop asked for leaves the running CRC and the walk where they are (spec 05 R94). -/
theorem State.checkAt_of_requestStop (h : (s.requestStop n).checkAt crc v) : s.checkAt crc v := by
  unfold State.checkAt State.requestStop at h
  cases engine : s.checker.engine with
  | idle => simp [engine] at h
  | checking crc' v' =>
    obtain ⟨rfl, rfl⟩ : crc' = crc ∧ v' = v := by simpa [engine] using h
    exact .inl engine
  | stopPending crc' v' =>
    obtain ⟨rfl, rfl⟩ : crc' = crc ∧ v' = v := by simpa [engine] using h
    exact .inr engine

theorem Change.checkFollows (h : Change w s t) (granted : w.collections) (inv : RecordsInv s) (follows : CheckFollows s) :
    CheckFollows t := by
  have after := h.recordsInv granted inv
  have keeps (n : CtxNo) := h.keeps (n := n) inv.pool
  have of_kept := follows.of_kept inv after keeps
  cases h with
  | names n seg =>
    refine of_kept (fun engine => ?_) (checkAt_of_engine (joinIfWhole_engine n _))
    rw [joinIfWhole_engine] at engine
    exact underCheck_joinIfWhole (s := s.setCtx n _)
      (inv.collections.rewritten (by simp [*]) (Ctx.duplicated_state _ _) (fun m => s.ctx_setCtx n m _) rfl rfl rfl rfl) n
  | stores n seg =>
    refine of_kept (fun engine => ?_) (checkAt_of_engine (joinIfWhole_engine n _))
    exact underCheck_joinIfWhole (s := allocateAndStore n seg s)
      (inv.collections.rewritten (r := (s.ctx n).stored seg _) (by simp [*]) rfl (fun m => ctx_allocateAndStore s n m seg)
        rfl rfl rfl rfl) n
  | frees n used unclaimed unchecked =>
    have checker : (s.freeCtx n).checker = { s.checker with queue := s.checker.queue.erase n } := by
      rw [State.freeCtx_frame]
    exact of_kept (fun _ => s.underCheck_erase n checker (unchecked granted)) (checkAt_of_engine (by simp))
  | loses n r held =>
    have checker : (s.freeCtx n).checker = { s.checker with queue := s.checker.queue.erase n } := by
      rw [State.freeCtx_frame]
    have unchecked := inv.collections.underCheck_ne (n := n) (by simp [held granted])
    exact of_kept (fun _ => State.underCheck_erase n checker unchecked) (checkAt_of_engine (by simp))
  | ends n => exact .of_idle rfl
  | confirms n => exact .of_idle rfl
  | requests n checked =>
    exact of_kept (fun _ => s.underCheck_requestStop n) fun _ _ => State.checkAt_of_requestStop
  | takes idle waiting =>
    rw [checkFollows_iff after]
    rintro n crc v checked at'
    have walkable := after.walkable_underCheck checked
    obtain ⟨rfl, rfl⟩ : crc32Ones = crc ∧ Walk.start = v := by simpa [State.checkAt] using at'
    exact walkable.checkedTo_start
  | walks n rest crc v next queue engine within =>
    rw [checkFollows_iff after]
    rintro n' crc' v' checked at'
    have under := State.underCheck_of_queue queue (by simp [engine])
    have checked' : s.underCheck = some n' := by
      rw [State.underCheck_some] at checked ⊢
      exact ⟨by simp [engine], checked.2⟩
    obtain rfl : n = n' := Option.some.inj (under.symm.trans checked')
    obtain ⟨rfl, rfl⟩ : _ = crc' ∧ next = v' := by simpa [State.checkAt] using at'
    exact (inv.walkable_underCheck under).checkedTo_next ((checkFollows_iff inv).1 follows n crc v under (.inl engine)) within
  | _ => exact of_kept (fun _ => rfl) fun _ _ => id

end Engine

end Sys2Proof.Machine
end

