-- ==== Sys2Proof/Proofs/ReadoutWalk.lean ====
section
/-! SUPPORT. What a check's end depends on; and the readout walk, which stays at the first byte not delivered (spec 05 R90, R91, R93, 08
R139, R142, R144). -/

namespace Sys2Proof.Machine

/-! ## Steps keep the engine's walk -/

section Engine

variable {s t : State}

theorem CheckFollows.of_records (same : t.records = s.records) (follows : CheckFollows s) : CheckFollows t := by
  have checker : t.checker = s.checker := congrArg Records.checker same
  have ctx (n : CtxNo) : t.ctx n = s.ctx n := State.ctx_congr (congrArg Records.ctxs same) n
  have mem : t.pool.mem = s.pool.mem := mem_of_records same
  simpa only [CheckFollows, checker, ctx, mem] using follows

theorem State.AtReset.checkFollows (h : s.AtReset) : CheckFollows s := .of_idle (congrArg (fun r => r.checker.engine) h)

theorem exec_checkFollows {c : Instr} (h : exec c s = .next t) (inv : RecordsInv s ∧ CheckFollows s) :
    RecordsInv t ∧ CheckFollows t :=
  exec_keeps (w := anyRowOnCollections) (P := fun s => RecordsInv s ∧ CheckFollows s) anyRowOnCollections_full
    (fun _ inv _ => inv.1.collections) (fun _ _ => False.elim)
    (fun _ _ same inv => ⟨inv.1.of_records same, inv.2.of_records same⟩)
    (fun _ _ step inv => ⟨step.recordsInv trivial inv.1, step.checkFollows trivial inv.1 inv.2⟩)
    (fun _ _ reset _ _ => ⟨reset.recordsInv, reset.checkFollows⟩) h inv

/-! ## The check's end -/

variable {n : CtxNo} {rest : List CtxNo} {crc : Word32} {w : Walk}

theorem exec_cellCompletion_checking (hrstn : s.pins.rstnLow = false) (queue : s.checker.queue = n :: rest)
    (engine : s.checker.engine = .checking crc w) : exec .cellCompletion s = .next (checkCell n crc w s) := by
  have row : exec .cellCompletion s = execCellCompletion s := rfl
  rw [row, execCellCompletion, awake_eq _ _ hrstn, queue]
  simp only [engine]

theorem ctx_stopIfDone (s : State) (m : CtxNo) : s.stopIfDone.ctx m = s.ctx m :=
  State.ctx_congr (congrArg Records.ctxs stopIfDone_records) m

theorem checkCell_match (ends : (s.ctx n).walkNext w = none)
    (equal : (s.ctx n).checkWord = some (crc32Fold crc ((s.ctx n).walkBytes s.pool.mem w) ^^^ crc32Ones)) :
    checkCell n crc w s = (endMatch n s).stopIfDone := by
  rw [checkCell, ends]
  exact if_pos equal

theorem checkCell_mismatch (ends : (s.ctx n).walkNext w = none)
    (differs : (s.ctx n).checkWord ≠ some (crc32Fold crc ((s.ctx n).walkBytes s.pool.mem w) ^^^ crc32Ones)) :
    checkCell n crc w s = (endMismatch n s).stopIfDone := by
  rw [checkCell, ends]
  exact if_neg differs

theorem ctx_endMatch (n m : CtxNo) (s : State) :
    (endMatch n s).ctx m = if m = n then { s.ctx n with state := .ready } else s.ctx m := by
  rw [endMatch_eq, State.ctx_post, State.ctx_handOver, State.ctx_matched]

theorem ctx_endMismatch (n m : CtxNo) (s : State) :
    (endMismatch n s).ctx m = if m = n then Ctx.cleared else s.ctx m := by
  rw [endMismatch]
  exact (State.ctx_freeCtx _ n m).trans (by simp [State.refuseCtx])

/-- At its last cell the walk's bytes, with those read before, are the payload. -/
theorem CheckFollows.last_cell (follows : CheckFollows s) (queue : s.checker.queue = n :: rest)
    (engine : s.checker.engine = .checking crc w) (ends : (s.ctx n).walkNext w = none) :
    crc32Fold crc ((s.ctx n).walkBytes s.pool.mem w) ^^^ crc32Ones = messageCheck ((s.ctx n).payload s.pool.mem) := by
  obtain ⟨-, -, bytes, k, reads, payload, -, rfl⟩ := follows n rest crc w queue (.inl engine)
  obtain rfl := reads.eq_one ends
  rw [Ctx.checkRun_last ends] at payload
  rw [← payload, messageCheck, crc32Fold_append]
  rfl

/-- Settles O55: each change of the engine folds in what its walk takes, and no other touches the record under check; so the CRC at
the last cell is the payload's. -/
theorem checkFollowsThePayload : Obligations.CheckFollowsThePayload := by
  unfold Obligations.CheckFollowsThePayload
  refine ⟨fun s t inv follows h => ?_, fun s n rest crc w hrstn follows queue engine ends => ?_⟩
  · exact (step_keeps (P := fun s => RecordsInv s ∧ CheckFollows s)
      (fun _ _ same inv => ⟨inv.1.of_records same, inv.2.of_records same⟩) (fun _ _ _ => exec_checkFollows) h
      ⟨inv, follows⟩).2
  · refine ⟨_, exec_cellCompletion_checking hrstn queue engine, ?_⟩
    rw [← follows.last_cell queue engine ends]
    by_cases equal : (s.ctx n).checkWord = some (crc32Fold crc ((s.ctx n).walkBytes s.pool.mem w) ^^^ crc32Ones)
    · rw [checkCell_match ends equal, ctx_stopIfDone, ctx_endMatch, if_pos rfl]
      exact ⟨iff_of_true rfl equal, fun other => absurd rfl other⟩
    · rw [checkCell_mismatch ends equal, ctx_stopIfDone, ctx_endMismatch, if_pos rfl]
      exact ⟨iff_of_false nofun equal, fun _ => rfl⟩

end Engine

/-! ## The payload's length -/

section Length

variable {r : Ctx} {m : Memory}

/-- The bytes of the present slots, index by index. -/
theorem sum_presentSlots (r : Ctx) (f : Slot → Nat) :
    (r.presentSlots.map f).sum = ((List.finRange 64).map fun i => ((r.slots[i]).map f).getD 0).sum := by
  have sums (list : List (Option Slot)) :
      ((list.filterMap id).map f).sum = (list.map fun o => (o.map f).getD 0).sum := by
    induction list with
    | nil => rfl
    | cons o rest ih =>
      cases o with
      | none => rw [List.filterMap_cons_none rfl, ih]; simp
      | some sl => rw [List.filterMap_cons_some (f := id) (b := sl) rfl, List.map_cons, List.sum_cons, ih]; simp
  rw [Ctx.presentSlots, sums, r.slots_toList, List.map_map]
  rfl

theorem Ctx.walkable.length_payload (walkable : r.walkable) (counts : CountsFollow r) (whole : WholeFollows r) (past : r.past) :
    (r.payload m).length = r.byteCount := by
  obtain ⟨last, known, -⟩ := whole.complete past
  have ends : r.walkEnd = last := by rw [Ctx.walkEnd, known]; rfl
  rw [counts.bytes, sum_presentSlots, ← Ctx.bytesFrom_zero, Ctx.bytesFrom, List.drop_zero, List.length_flatMap]
  congr 1
  refine List.map_congr_left fun i _ => ?_
  by_cases within : i ≤ r.walkEnd
  · obtain ⟨sl, has⟩ := walkable.hasSlot within
    rw [Ctx.bytesAt_of_slot within has.slot, has.length_slotBytes, has.slot]
    rfl
  · have absent : r.slots[i] = none := by
      by_contra present
      exact within (ends ▸ whole.below last known i (Option.isSome_iff_ne_none.2 present))
    rw [Ctx.bytesAt, if_neg within, absent]
    rfl

end Length

/-! ## The readout -/

section Readout

variable {w : Warrant} {s t : State} {r : Ctx} {m : Memory} {v : Walk} {n : CtxNo} {remaining : Nat}

/-- The readout walk stands at the first of the bytes remaining. -/
def Ctx.ReadTo (r : Ctx) (remaining : Nat) (v : Walk) : Prop :=
  remaining ≤ r.byteCount ∧ (0 < remaining → r.AtByte v ∧ r.bytesBefore v + remaining = r.byteCount)

theorem Ctx.Carries.readTo {q : Ctx} (h : r.Carries q) (read : r.ReadTo remaining v) : q.ReadTo remaining v := by
  rw [Ctx.ReadTo, h.byteCount, h.atByte, h.bytesBefore]
  exact read

theorem Ctx.walkable.byte_split (walkable : r.walkable) (h : r.AtByte v) :
    (r.payload m).take (r.bytesBefore v) ++ r.toGo m v = r.payload m ∧ r.bytesBefore v ≤ (r.payload m).length := by
  obtain ⟨within, -, sl, slot, taken⟩ := h
  exact walkable.toGo_eq within slot taken.le

/-- The bytes to go from a byte on are as many as the counts leave. -/
theorem Ctx.walkable.length_toGo (walkable : r.walkable) (h : r.AtByte v) :
    r.bytesBefore v + (r.toGo m v).length = (r.payload m).length := by
  obtain ⟨whole, bound⟩ := walkable.byte_split (m := m) h
  have length := congrArg List.length whole
  rwa [List.length_append, List.length_take, min_eq_left bound] at length

theorem RecordsInv.length_payload (inv : RecordsInv s) (past : (s.ctx n).past) :
    ((s.ctx n).payload s.pool.mem).length = (s.ctx n).byteCount :=
  (inv.walkable past).length_payload (inv.counts n) (inv.whole n) past

theorem Ctx.walkable.readTo_start (walkable : r.walkable) (length : (r.payload m).length = r.byteCount) :
    r.ReadTo r.byteCount Walk.start := by
  refine ⟨le_refl _, fun _ => ⟨walkable.atByte_start, ?_⟩⟩
  have sum := walkable.length_toGo (m := m) walkable.atByte_start
  rwa [Ctx.toGo_start, length] at sum

/-- One byte delivered. -/
theorem Ctx.walkable.readTo_next (walkable : r.walkable) (length : (r.payload m).length = r.byteCount)
    (read : r.ReadTo (remaining + 1) v) : r.ReadTo remaining (r.readoutNext v) := by
  obtain ⟨stands, before⟩ := read.2 (by omega)
  refine ⟨by have := read.1; omega, fun more => ?_⟩
  obtain ⟨first, goes⟩ := walkable.readout (m := m) stands
  have here := walkable.length_toGo (m := m) stands
  rw [first, List.length_cons, length] at here
  rcases goes with next | ended
  · have there := walkable.length_toGo (m := m) next
    exact ⟨next, by omega⟩
  · rw [ended, List.length_nil] at here
    omega

theorem CollectionsInv.delivering (inv : CollectionsInv s) (held : s.readout.port = .held n v) :
    (s.ctx n).state = .delivering := (inv.portHolds n).1 ⟨v, held⟩

theorem RecordsInv.walkable_held (inv : RecordsInv s) (held : s.readout.port = .held n v) : (s.ctx n).walkable :=
  inv.walkable (.inr (.inr (inv.collections.delivering held)))

theorem readoutFollows_iff (inv : RecordsInv s) :
    ReadoutFollows s ↔ (s.readout.port = .none → s.readout = .cleared) ∧ (s.readout.port = .lost → s.readout.remaining = 0) ∧
      ∀ n v, s.readout.port = .held n v →
        s.readout.head = ⟨n, (s.ctx n).cls, (s.ctx n).source, (s.ctx n).msgno, (s.ctx n).byteCount⟩ ∧
          (s.ctx n).ReadTo s.readout.remaining v := by
  constructor
  · rintro ⟨none, lost, held⟩
    refine ⟨none, lost, fun n v port => ?_⟩
    obtain ⟨head, ⟨delivered, -, length⟩, stands⟩ := held n v port
    refine ⟨head, by omega, fun more => ?_⟩
    obtain ⟨within, before, cell, slot⟩ := stands more
    exact ⟨⟨within, cell, slot⟩, before⟩
  · rintro ⟨none, lost, held⟩
    refine ⟨none, lost, fun n v port => ?_⟩
    obtain ⟨head, bound, stands⟩ := held n v port
    have walkable := inv.walkable_held port
    have length := inv.length_payload (n := n) (.inr (.inr (inv.collections.delivering port)))
    refine ⟨head, ?_, fun more => ?_⟩
    · rcases Nat.eq_zero_or_pos s.readout.remaining with ended | more
      · exact ⟨_, by rw [ended]; exact List.append_nil _, by rw [ended]; exact length⟩
      · obtain ⟨atByte, before⟩ := stands more
        obtain ⟨whole, fits⟩ := walkable.byte_split (m := s.pool.mem) atByte
        have toGo := walkable.length_toGo (m := s.pool.mem) atByte
        have count : s.readout.remaining = ((s.ctx n).toGo s.pool.mem v).length := by omega
        refine ⟨_, by rw [count, walkable.readoutRun atByte]; exact whole, ?_⟩
        rw [List.length_take, min_eq_left fits, before]
    · obtain ⟨⟨within, cell, slot⟩, before⟩ := stands more
      exact ⟨within, before, cell, slot⟩

/-- The port stands, and the held record with it. -/
theorem ReadoutFollows.of_kept (inv : RecordsInv s) (after : RecordsInv t) (follows : ReadoutFollows s)
    (keeps : ∀ n, (s.ctx n).past → (t.ctx n).state ≠ .free → s.Keeps t n) (readout : t.readout = s.readout) :
    ReadoutFollows t := by
  rw [readoutFollows_iff inv] at follows
  obtain ⟨none, lost, held⟩ := follows
  rw [readoutFollows_iff after, readout]
  refine ⟨none, lost, fun n v port => ?_⟩
  have delivering := after.collections.delivering (n := n) (v := v) (readout ▸ port)
  obtain ⟨carries, -⟩ := keeps n (.inr (.inr (inv.collections.delivering port))) (by simp [delivering])
  rw [carries.cls, carries.source, carries.msgno, carries.byteCount]
  obtain ⟨head, read⟩ := held n v port
  exact ⟨head, carries.readTo read⟩

theorem ReadoutFollows.of_cleared (cleared : s.readout = .cleared) : ReadoutFollows s where
  none _ := cleared
  lost _ := by rw [cleared]; rfl
  held n v port := by rw [cleared] at port; cases port

theorem ReadoutFollows.of_lost (lost : s.readout.port = .lost) (none : s.readout.remaining = 0) : ReadoutFollows s where
  none port := by rw [lost] at port; cases port
  lost _ := none
  held n v port := by rw [lost] at port; cases port

theorem Change.readoutFollows (h : Change w s t) (granted : w.collections) (inv : RecordsInv s) (follows : ReadoutFollows s) :
    ReadoutFollows t := by
  have after := h.recordsInv granted inv
  have of_kept := follows.of_kept inv after fun n => h.keeps (n := n) inv.pool
  cases h with
  | names n seg => exact of_kept (by rcases joinIfWhole_cases _ n with ⟨-, h⟩ | ⟨-, h⟩ <;> rw [h] <;> rfl)
  | stores n seg => exact of_kept (by rcases joinIfWhole_cases _ n with ⟨-, h⟩ | ⟨-, h⟩ <;> rw [h] <;> rfl)
  | frees n => exact of_kept (by simp)
  | ends n => exact of_kept (by simp)
  | requests n => exact of_kept (by rw [State.requestStop_frame])
  | loses n r held port =>
    rcases port with ⟨rfl, -⟩ | rfl
    · exact .of_cleared rfl
    · exact .of_lost rfl rfl
  | claims n rest port queue =>
    have ready := (inv.collections.deliveryHolds n).1 (by simp [queue])
    have walkable := inv.walkable (n := n) (.inr (.inl ready))
    have length := inv.length_payload (n := n) (.inr (.inl ready))
    have ctx : (claim n rest s).ctx n = { s.ctx n with state := .delivering } := by rw [ctx_claim, if_pos rfl]
    refine (readoutFollows_iff after).2 ⟨nofun, nofun, ?_⟩
    rintro m v ⟨⟩
    rw [ctx]
    have carries : (s.ctx n).Carries { s.ctx n with state := .delivering } := ⟨rfl, rfl, rfl, rfl, rfl, rfl, rfl⟩
    exact ⟨rfl, carries.readTo (walkable.readTo_start length)⟩
  | reads n v held more =>
    obtain ⟨-, -, read⟩ := (readoutFollows_iff inv).1 follows
    obtain ⟨head, read⟩ := read n v held
    have walkable := inv.walkable_held held
    have length := inv.length_payload (n := n) (.inr (.inr (inv.collections.delivering held)))
    refine (readoutFollows_iff after).2 ⟨nofun, nofun, ?_⟩
    rintro m v' ⟨⟩
    exact ⟨head, walkable.readTo_next length (by rwa [Nat.sub_add_cancel more])⟩
  | releases lost => exact .of_cleared rfl
  | _ => exact of_kept rfl

theorem ReadoutFollows.of_records (same : t.records = s.records) (follows : ReadoutFollows s) : ReadoutFollows t := by
  have readout : t.readout = s.readout := congrArg Records.readout same
  have ctx (n : CtxNo) : t.ctx n = s.ctx n := State.ctx_congr (congrArg Records.ctxs same) n
  have mem : t.pool.mem = s.pool.mem := mem_of_records same
  obtain ⟨none, lost, held⟩ := follows
  exact ⟨by rwa [readout], by rwa [readout], by simpa only [readout, ctx, mem] using held⟩

theorem State.AtReset.readoutFollows (h : s.AtReset) : ReadoutFollows s := .of_cleared (congrArg Records.readout h)

theorem exec_readoutFollows {c : Instr} (h : exec c s = .next t) (inv : RecordsInv s ∧ ReadoutFollows s) :
    RecordsInv t ∧ ReadoutFollows t :=
  exec_keeps (w := anyRowOnCollections) (P := fun s => RecordsInv s ∧ ReadoutFollows s) anyRowOnCollections_full
    (fun _ inv _ => inv.1.collections) (fun _ _ => False.elim)
    (fun _ _ same inv => ⟨inv.1.of_records same, inv.2.of_records same⟩)
    (fun _ _ step inv => ⟨step.recordsInv trivial inv.1, step.readoutFollows trivial inv.1 inv.2⟩)
    (fun _ _ reset _ _ => ⟨reset.recordsInv, reset.readoutFollows⟩) h inv

/-- The bytes remaining start behind the ones delivered. -/
theorem ReadoutFollows.getD_payload (follows : ReadoutFollows s) (held : s.readout.port = .held n v) (j : Nat) :
    ((s.ctx n).payload s.pool.mem).getD ((s.ctx n).byteCount - s.readout.remaining + j) 0 =
      ((s.ctx n).readoutRun s.pool.mem s.readout.remaining v).getD j 0 := by
  obtain ⟨-, ⟨delivered, payload, length⟩, -⟩ := follows.held n v held
  have start : (s.ctx n).byteCount - s.readout.remaining = delivered.length := by omega
  rw [← payload, start, List.getD_append_right _ _ _ _ (by omega), Nat.add_sub_cancel_left]

/-- Settles O56: each byte delivered moves the walk to the next byte of the payload, and no other change touches the held record. -/
theorem readoutFollowsThePayload : Obligations.ReadoutFollowsThePayload := by
  unfold Obligations.ReadoutFollowsThePayload
  refine ⟨fun s t inv follows h => ?_, fun s n w hrstn follows held => ⟨fun two => ?_, fun last => ?_⟩⟩
  · exact (step_keeps (P := fun s => RecordsInv s ∧ ReadoutFollows s)
      (fun _ _ same inv => ⟨inv.1.of_records same, inv.2.of_records same⟩) (fun _ _ _ => exec_readoutFollows) h
      ⟨inv, follows⟩).2
  · refine ⟨_, exec_data_two hrstn held two, rfl, ?_⟩
    obtain ⟨k, remaining⟩ : ∃ k, s.readout.remaining = k + 2 := ⟨_, (Nat.sub_add_cancel two).symm⟩
    have first := follows.getD_payload held 0
    have second := follows.getD_payload held 1
    rw [Nat.add_zero] at first
    rw [first, second, remaining]
    rfl
  · refine ⟨_, exec_data_last hrstn held last, rfl, ?_⟩
    have first := follows.getD_payload held 0
    rw [Nat.add_zero] at first
    rw [first, last]
    rfl

end Readout

end Sys2Proof.Machine
end

