-- ==== Sys2Proof/Proofs/LineSteps.lean ====
section
/-! SUPPORT. The elementary changes of one line, and what they all keep: its states agree, no two of its waiting frames would merge, and
nothing passes its capacity (spec 06 6.5, R106, 07 7.1, R122, R123, R126). -/

namespace Sys2Proof.Machine

/-! ## Placing a frame -/

section Placing

variable {f g h : CtrlFrame} {queue out : List CtrlFrame} {k : Nat}

def CtrlFrame.IsGap (f : CtrlFrame) : Prop := ∃ tail reference missing, f.body = .gap tail reference missing

def CtrlFrame.IsReceipt (f : CtrlFrame) : Prop := ∃ length count, f.body = .receipt length count

theorem isGapFor_iff {dest : Byte} {msgno : MsgNo} :
    f.isGapFor dest msgno = true ↔ f.IsGap ∧ f.dest = dest ∧ f.msgno = msgno := by
  unfold CtrlFrame.isGapFor CtrlFrame.IsGap
  split <;> simp_all

/-- Which waiting frames the merge rules would have made one (spec 06 R106). -/
theorem mergesWith_iff :
    f.mergesWith g = true ↔ (f.IsGap ∧ g.IsGap ∧ g.dest = f.dest ∧ g.msgno = f.msgno) ∨ (f.IsReceipt ∧ f = g) := by
  unfold CtrlFrame.mergesWith
  split
  · rename_i body
    have gap : f.IsGap := ⟨_, _, _, body⟩
    have noReceipt : ¬f.IsReceipt := by rintro ⟨_, _, other⟩; simp [body] at other
    simp [isGapFor_iff, gap, noReceipt]
  · rename_i body
    have receipt : f.IsReceipt := ⟨_, _, body⟩
    have noGap : ¬f.IsGap := by rintro ⟨_, _, _, other⟩; simp [body] at other
    simp [receipt, noGap]
  · rename_i body
    have noGap : ¬f.IsGap := by rintro ⟨_, _, _, other⟩; simp [body] at other
    have noReceipt : ¬f.IsReceipt := by rintro ⟨_, _, other⟩; simp [body] at other
    simp [noGap, noReceipt]

theorem IsGap.not_isReceipt (gap : f.IsGap) : ¬f.IsReceipt := by
  obtain ⟨_, _, _, body⟩ := gap
  rintro ⟨_, _, other⟩
  simp [body] at other

theorem mem_of_mem_replaceGap (replaced : replaceGap f queue = some out) (mem : h ∈ out) : h = f ∨ h ∈ queue := by
  induction queue generalizing out with
  | nil => cases replaced
  | cons g rest ih =>
    rw [replaceGap] at replaced
    split at replaced
    · obtain rfl := Option.some.inj replaced
      rcases List.mem_cons.1 mem with here | there
      · exact .inl here
      · exact .inr (List.mem_cons_of_mem g there)
    · obtain ⟨tail, found, rfl⟩ := Option.map_eq_some_iff.1 replaced
      rcases List.mem_cons.1 mem with here | there
      · exact .inr (here ▸ List.mem_cons_self)
      · exact (ih found there).imp_right (List.mem_cons_of_mem g)

theorem replaceGap_none (none : replaceGap f queue = none) : ∀ g ∈ queue, g.isGapFor f.dest f.msgno = false := by
  induction queue with
  | nil => nofun
  | cons g rest ih =>
    rw [replaceGap] at none
    split at none
    · cases none
    · rename_i other
      rintro g' mem
      rcases List.mem_cons.1 mem with here | there
      · simpa [here] using other
      · exact ih (Option.map_eq_none_iff.1 none) g' there

/-- The GAP that takes a waiting GAP's place merges with what that one merged with (spec 06 R107). -/
theorem pairwise_replaceGap (gap : f.IsGap) (replaced : replaceGap f queue = some out)
    (distinct : queue.Pairwise fun f g => f.mergesWith g = false) : out.Pairwise fun f g => f.mergesWith g = false := by
  induction queue generalizing out with
  | nil => cases replaced
  | cons g rest ih =>
    obtain ⟨head, tail⟩ := List.pairwise_cons.1 distinct
    rw [replaceGap] at replaced
    split at replaced
    · rename_i isGap
      obtain rfl := Option.some.inj replaced
      obtain ⟨gapG, dest, msgno⟩ := isGapFor_iff.1 isGap
      refine List.pairwise_cons.2 ⟨fun x mem => ?_, tail⟩
      have apart := head x mem
      rw [← Bool.not_eq_true, mergesWith_iff] at apart ⊢
      rintro (⟨-, gapX, destX, msgnoX⟩ | ⟨receipt, -⟩)
      · exact apart (.inl ⟨gapG, gapX, destX.trans dest.symm, msgnoX.trans msgno.symm⟩)
      · exact IsGap.not_isReceipt gap receipt
    · rename_i other
      obtain ⟨tail', found, rfl⟩ := Option.map_eq_some_iff.1 replaced
      refine List.pairwise_cons.2 ⟨fun x mem => ?_, ih found tail⟩
      rcases mem_of_mem_replaceGap found mem with rfl | older
      · rw [← Bool.not_eq_true, mergesWith_iff]
        rintro (⟨gapG, -, dest, msgno⟩ | ⟨receipt, rfl⟩)
        · exact other (isGapFor_iff.2 ⟨gapG, dest.symm, msgno.symm⟩)
        · exact IsGap.not_isReceipt gap receipt
      · exact head x older

/-- A frame placed: in a GAP's place, merged with a waiting RECEIPT, or at the tail, where it merges with no waiting frame (spec 06
R109). -/
theorem placeFrame_cases (placed : placeFrame f k queue = some out) :
    (∃ waiting, f.IsGap ∧ replaceGap f (queue.drop k) = some waiting ∧ out = queue.take k ++ waiting) ∨
      (f ∈ queue.drop k ∧ out = queue) ∨
      (out = queue ++ [f] ∧ ∀ g ∈ queue.drop k, g.mergesWith f = false) := by
  unfold placeFrame at placed
  split at placed
  · rename_i body
    have gap : f.IsGap := ⟨_, _, _, body⟩
    split at placed
    · rename_i waiting replaced
      exact .inl ⟨waiting, gap, replaced, (Option.some.inj placed).symm⟩
    · rename_i none
      refine .inr (.inr ⟨(appendFrame_eq placed).2, fun g mem => ?_⟩)
      have other := replaceGap_none none g mem
      rw [← Bool.not_eq_true, isGapFor_iff] at other
      rw [← Bool.not_eq_true, mergesWith_iff]
      rintro (⟨gapG, -, dest, msgno⟩ | ⟨receipt, rfl⟩)
      · exact other ⟨gapG, dest.symm, msgno.symm⟩
      · exact IsGap.not_isReceipt gap receipt
  · rename_i body
    split at placed
    · exact .inr (.inl ⟨‹_›, (Option.some.inj placed).symm⟩)
    · rename_i new
      refine .inr (.inr ⟨(appendFrame_eq placed).2, fun g mem => ?_⟩)
      rw [← Bool.not_eq_true, mergesWith_iff]
      rintro (⟨-, gap, -, -⟩ | ⟨-, rfl⟩)
      · exact IsGap.not_isReceipt gap ⟨_, _, body⟩
      · exact new mem
  · rename_i body
    refine .inr (.inr ⟨(appendFrame_eq placed).2, fun g _ => ?_⟩)
    rw [← Bool.not_eq_true, mergesWith_iff]
    rintro (⟨-, ⟨_, _, _, gap⟩, -, -⟩ | ⟨⟨_, _, receipt⟩, rfl⟩)
    · simp [body] at gap
    · simp [body] at receipt

theorem placeFrame_ne_nil (placed : placeFrame f k queue = some out) : out ≠ [] := by
  rcases placeFrame_cases placed with ⟨waiting, -, replaced, rfl⟩ | ⟨mem, rfl⟩ | ⟨rfl, -⟩
  · cases queue' : queue.drop k with
    | nil => rw [queue'] at replaced; cases replaced
    | cons g rest =>
      have length := replaceGap_length replaced
      rw [queue'] at length
      rintro nil
      rw [(List.append_eq_nil_iff.1 nil).2] at length
      cases length
  · rintro rfl
    simp at mem
  · simp

/-- No two waiting frames that would merge come to stand in a queue. -/
theorem pairwise_placeFrame (placed : placeFrame f k queue = some out)
    (distinct : (queue.drop k).Pairwise fun f g => f.mergesWith g = false) :
    (out.drop k).Pairwise fun f g => f.mergesWith g = false := by
  rcases placeFrame_cases placed with ⟨waiting, gap, replaced, rfl⟩ | ⟨-, rfl⟩ | ⟨rfl, apart⟩
  · have pairs := pairwise_replaceGap gap replaced distinct
    rw [List.drop_append]
    refine pairs.sublist ?_
    rw [List.drop_of_length_le (List.length_take_le _ _), List.nil_append]
    exact List.drop_sublist _ _
  · exact distinct
  · have pairs : (queue.drop k ++ [f]).Pairwise fun f g => f.mergesWith g = false :=
      List.pairwise_append.2 ⟨distinct, List.pairwise_singleton _ _, fun g mem x last => by
        rw [List.mem_singleton.1 last]
        exact apart g mem⟩
    rw [List.drop_append]
    exact pairs.sublist ((List.Sublist.refl _).append (List.drop_sublist _ _))

end Placing

/-! ## The changes of a line -/

/-- One elementary change of a line, in a row that may set its divisor and threshold (`setting`), or turn the line on, off or to
FAULTED (`switching`), or in RUN (`running`). -/
inductive LineStep (setting switching running : Prop) : LineUnit → LineUnit → Prop
  | places (u : LineUnit) (f : CtrlFrame) (queue : List CtrlFrame) (on : u.state = .on)
      (placed : placeFrame f u.inFlight u.queue = some queue) : LineStep setting switching running u { u with queue := queue }
  | sets (u : LineUnit) (divisor threshold : Nat) (allowed : setting) :
      LineStep setting switching running u { u with divisor := divisor, threshold := threshold }
  | turnsOn (u : LineUnit) (was : u.state = .off ∨ u.state = .faulted) (allowed : switching) :
      LineStep setting switching running u u.broughtOn
  | turnsOff (u : LineUnit) (was : u.state = .faulted ∨ u.queue = [] ∧ u.rx = .hunt) (allowed : switching) :
      LineStep setting switching running u { u with state := if u.tx = .idle then .off else .closing }
  | stops (u : LineUnit) : LineStep setting switching running u u.rxStopped
  | flushes (u : LineUnit) (seq : Nat) : LineStep setting switching running u (u.flushed seq)
  | faults (u : LineUnit) (seq : Nat) (on : u.state = .on) (allowed : switching) :
      LineStep setting switching running u (LineUnit.flushed { u.rxStopped with state := .faulted } seq)
  | stays (u : LineUnit) (b : Byte) (good : Bool) (rx : RxState) (assembly : List Byte) (on : u.state = .on)
      (byte : rxByte u.rx u.assembly b good = .stay rx assembly) :
      LineStep setting switching running u { u with rx := rx, assembly := assembly }
  | awaits (u : LineUnit) (mark : Bool) : LineStep setting switching running u { u with awaitMark := mark }
  | drops (u : LineUnit) (reason : LineReason) :
      LineStep setting switching running u
        { u with rx := .hunt, assembly := [], badCount := nextBadCount reason u.badCount }
  | completes (u : LineUnit) (on : u.state = .on) :
      LineStep setting switching running u { u with rx := .frame, assembly := [], badCount := 0 }
  | buffers (u : LineUnit) (content : List Byte) (room : u.buffers.length < Config.frameBuffers)
      (run : running) :
      LineStep setting switching running u { u with buffers := u.buffers ++ [content] }
  | empties (u : LineUnit) (left : List (List Byte)) (fewer : left.length ≤ u.buffers.length) :
      LineStep setting switching running u { u with buffers := left }
  | starts (u : LineUnit) (wire : List Byte) (idle : u.tx = .idle) (on : u.state = .on) (waits : u.queue ≠ [])
      (run : running) :
      LineStep setting switching running u { u with tx := .sending, wire := wire }
  | ends (u : LineUnit) (sending : u.tx = .sending) :
      LineStep setting switching running u { u with queue := u.queue.tail, tx := .idle, wire := [] }
  | aborts (u : LineUnit) (aborting : u.tx = .aborting) (allowed : u.state = .closing → switching) :
      LineStep setting switching running u
        { u with tx := .idle, wire := [], state := if u.state = .closing then .off else u.state }

abbrev LineSteps (setting switching running : Prop) : LineUnit → LineUnit → Prop :=
  Relation.ReflTransGen (LineStep setting switching running)

section Line

variable {setting switching running : Prop} {u v : LineUnit}

theorem LineStep.steps (h : LineStep setting switching running u v) : LineSteps setting switching running u v := .single h

theorem LineSteps.next {w : LineUnit} (h : LineSteps setting switching running u v) (last : LineStep setting switching running v w) :
    LineSteps setting switching running u w := h.tail last

/-- What every change of a line keeps, a chain keeps. -/
theorem LineSteps.induct (P : LineUnit → Prop) (h : LineSteps setting switching running u v)
    (keep : ∀ a b, LineStep setting switching running a b → P a → P b) (start : P u) : P v := by
  induction h with
  | refl => exact start
  | tail _ last ih => exact keep _ _ last ih

/-! ### Its states agree -/

/-- A flushed line holds no frame, and none is being sent. -/
theorem LineUnit.flushed_eq (u : LineUnit) (seq : Nat) :
    u.flushed seq =
      { u with
        queue := []
        tx := if u.tx = .sending then .aborting else u.tx
        wire := if u.tx = .sending then abortOnLine u.wire seq else u.wire } := by
  unfold LineUnit.flushed
  split <;> simp [*]

theorem LineAgrees.flushed (agrees : LineAgrees u) (seq : Nat) : LineAgrees (u.flushed seq) := by
  rw [LineUnit.flushed_eq]
  obtain ⟨queueOn, sending, offIdle, closing, stopped, hunt, mark⟩ := agrees
  refine ⟨fun _ => rfl, fun h => ?_, fun off => ?_, fun c => ?_, stopped, hunt, fun idle => ?_⟩
  · dsimp only at h
    split at h <;> simp_all
  · simp [offIdle off]
  · simp [closing c]
  · dsimp only at idle ⊢
    split at idle
    · cases idle
    · rename_i other
      rw [if_neg other]
      exact mark idle

/-- Only a byte that leaves the receiver in HUNT leaves it there with what was in assembly. -/
theorem rxByte_stay_hunt {rx : RxState} {a a' : List Byte} {b : Byte} {good : Bool}
    (byte : rxByte rx a b good = .stay .hunt a') : rx = .hunt ∧ a' = a := by
  unfold rxByte closeFrame appendContent at byte
  split at byte <;> split_ifs at byte <;> cases byte
  exact ⟨rfl, rfl⟩

theorem LineStep.agrees (h : LineStep setting switching running u v) (agrees : LineAgrees u) : LineAgrees v := by
  obtain ⟨queueOn, sending, offIdle, closing, stopped, hunt, mark⟩ := id agrees
  cases h with
  | places f queue on placed =>
    exact ⟨fun off => absurd on off, fun _ => ⟨on, placeFrame_ne_nil placed⟩, offIdle, closing, stopped, hunt, mark⟩
  | sets => exact ⟨queueOn, sending, offIdle, closing, stopped, hunt, mark⟩
  | turnsOn was =>
    refine ⟨fun h => absurd rfl h, fun h => ?_, nofun, nofun, fun h => absurd rfl h, fun _ => rfl, mark⟩
    have on := (sending h).1
    rcases was with off | faulted
    · rw [off] at on; cases on
    · rw [faulted] at on; cases on
  | turnsOff was =>
    have quiet : u.queue = [] ∧ u.rx = .hunt := by
      rcases was with faulted | quiet
      · exact ⟨queueOn (by simp [faulted]), stopped (by simp [faulted])⟩
      · exact quiet
    refine ⟨fun _ => quiet.1, fun h => absurd quiet.1 (sending h).2, fun h => ?_, fun h => ?_, fun _ => quiet.2, hunt, mark⟩
    · dsimp only at h ⊢
      split at h
      · assumption
      · cases h
    · dsimp only at h ⊢
      split at h
      · cases h
      · rename_i busy
        cases tx : u.tx with
        | idle => exact absurd tx busy
        | sending => exact absurd quiet.1 (sending tx).2
        | aborting => rfl
  | stops => exact ⟨queueOn, sending, offIdle, closing, fun _ => rfl, fun _ => rfl, mark⟩
  | flushes seq => exact agrees.flushed seq
  | faults seq on =>
    rw [LineUnit.flushed_eq]
    refine ⟨fun _ => rfl, fun h => ?_, nofun, nofun, fun _ => rfl, fun _ => rfl, fun idle => ?_⟩
    · dsimp only at h
      split at h <;> simp_all
    · change (if u.tx = .sending then TxState.aborting else u.tx) = .idle at idle
      change (if u.tx = .sending then abortOnLine u.wire seq else u.wire) = []
      split at idle
      · cases idle
      · rename_i other
        rw [if_neg other]
        exact mark idle
  | stays b good rx a on byte =>
    refine ⟨queueOn, sending, offIdle, closing, fun off => absurd on off, fun isHunt => ?_, mark⟩
    change rx = .hunt at isHunt
    subst isHunt
    obtain ⟨before, same⟩ := rxByte_stay_hunt byte
    exact same.trans (hunt before)
  | awaits => exact ⟨queueOn, sending, offIdle, closing, stopped, hunt, mark⟩
  | drops => exact ⟨queueOn, sending, offIdle, closing, fun _ => rfl, fun _ => rfl, mark⟩
  | completes on => exact ⟨queueOn, sending, offIdle, closing, fun off => absurd on off, nofun, mark⟩
  | buffers => exact ⟨queueOn, sending, offIdle, closing, stopped, hunt, mark⟩
  | empties => exact ⟨queueOn, sending, offIdle, closing, stopped, hunt, mark⟩
  | starts wire idle on waits =>
    exact ⟨queueOn, fun _ => ⟨on, waits⟩, fun off => absurd (on.symm.trans off) nofun,
      fun c => absurd (on.symm.trans c) nofun, stopped, hunt, nofun⟩
  | ends isSending =>
    have on := (sending isSending).1
    exact ⟨fun off => absurd on off, nofun, fun off => absurd (on.symm.trans off) nofun,
      fun c => absurd (on.symm.trans c) nofun, stopped, hunt, fun _ => rfl⟩
  | aborts aborting =>
    refine ⟨fun h => ?_, nofun, fun _ => rfl, fun h => ?_, fun h => ?_, hunt, fun _ => rfl⟩
    · dsimp only at h ⊢
      split at h
      · rename_i c
        exact queueOn (by simp [c])
      · exact queueOn h
    · dsimp only at h
      split at h
      · cases h
      · exact absurd h ‹_›
    · dsimp only at h ⊢
      split at h
      · rename_i c
        exact stopped (by simp [c])
      · exact stopped h

/-! ### Its waiting frames stay distinct -/

theorem WaitingDistinct.of_empty (empty : u.queue = []) : WaitingDistinct u := by
  rw [WaitingDistinct, empty, List.drop_nil]
  exact List.Pairwise.nil

theorem WaitingDistinct.of_same (distinct : WaitingDistinct u) (queue : v.queue = u.queue) (inFlight : v.inFlight = u.inFlight) :
    WaitingDistinct v := by
  rwa [WaitingDistinct, queue, inFlight]

theorem LineStep.distinct (h : LineStep setting switching running u v) (distinct : WaitingDistinct u) : WaitingDistinct v := by
  cases h with
  | places f queue on placed => exact pairwise_placeFrame placed distinct
  | flushes seq => exact .of_empty (by rw [LineUnit.flushed_eq])
  | faults seq => exact .of_empty (by rw [LineUnit.flushed_eq])
  | starts wire idle =>
    have none : u.inFlight = 0 := by simp [LineUnit.inFlight, idle]
    rw [WaitingDistinct, none] at distinct
    exact distinct.sublist (List.drop_sublist _ _)
  | ends sending =>
    have one : u.inFlight = 1 := by simp [LineUnit.inFlight, sending]
    rw [WaitingDistinct, one, List.drop_one] at distinct
    exact distinct
  | aborts aborting => exact distinct.of_same rfl (by simp [LineUnit.inFlight, aborting])
  | _ => exact distinct.of_same rfl rfl

/-! ### Its capacities -/

/-- The capacities of one line (spec 06 R106, 07 7.4, R126, 7.6). -/
structure LineCapacity (u : LineUnit) : Prop where
  queue : u.queue.length ≤ Config.txQueueCap
  buffers : u.buffers.length ≤ Config.frameBuffers
  assembly : u.assembly.length ≤ Config.maxContent
  badCount : u.badCount ≤ 15

/-- A byte inside a frame leaves the assembly, empties it, or adds one byte to it (spec 07 7.4). -/
theorem rxByte_stay {rx rx' : RxState} {a a' : List Byte} {b : Byte} {good : Bool} (byte : rxByte rx a b good = .stay rx' a') :
    a' = a ∨ a' = [] ∨ a.length < Config.maxContent ∧ ∃ x, a' = a ++ [x] := by
  unfold rxByte closeFrame appendContent at byte
  split at byte <;> split_ifs at byte <;> cases byte
  exacts [.inr (.inl rfl), .inl rfl, .inr (.inl rfl), .inl rfl, .inr (.inr ⟨‹_›, _, rfl⟩), .inr (.inr ⟨‹_›, _, rfl⟩)]

theorem rxByte_stay_length {rx rx' : RxState} {a a' : List Byte} {b : Byte} {good : Bool}
    (byte : rxByte rx a b good = .stay rx' a') (bound : a.length ≤ Config.maxContent) : a'.length ≤ Config.maxContent := by
  rcases rxByte_stay byte with rfl | rfl | ⟨room, x, rfl⟩
  · exact bound
  · exact Nat.zero_le _
  · simpa using room

theorem LineStep.capacity (h : LineStep setting switching running u v) (capacity : LineCapacity u) : LineCapacity v := by
  obtain ⟨queue, buffers, assembly, badCount⟩ := capacity
  cases h with
  | places f waiting on placed => exact ⟨placeFrame_length queue placed, buffers, assembly, badCount⟩
  | turnsOn => exact ⟨queue, buffers, Nat.zero_le _, Nat.zero_le _⟩
  | stops => exact ⟨queue, buffers, Nat.zero_le _, badCount⟩
  | flushes seq =>
    rw [LineUnit.flushed_eq]
    exact ⟨Nat.zero_le _, buffers, assembly, badCount⟩
  | faults seq =>
    rw [LineUnit.flushed_eq]
    exact ⟨Nat.zero_le _, buffers, Nat.zero_le _, badCount⟩
  | stays b good rx a on byte => exact ⟨queue, buffers, rxByte_stay_length byte assembly, badCount⟩
  | drops reason =>
    refine ⟨queue, buffers, Nat.zero_le _, ?_⟩
    change nextBadCount reason u.badCount ≤ 15
    unfold nextBadCount
    split
    · exact badCount
    · exact min_le_left _ _
  | completes => exact ⟨queue, buffers, Nat.zero_le _, Nat.zero_le _⟩
  | buffers content room => exact ⟨queue, by simpa using room, assembly, badCount⟩
  | empties left fewer => exact ⟨queue, fewer.trans buffers, assembly, badCount⟩
  | ends => exact ⟨(List.tail_sublist _).length_le.trans queue, buffers, assembly, badCount⟩
  | _ => exact ⟨queue, buffers, assembly, badCount⟩

/-! ### What only its own rows change -/

/-- Outside RUN no transmitter starts and no frame is placed in a buffer. -/
theorem LineStep.idle (h : LineStep setting switching running u v) (none : ¬running) :
    (u.tx = .idle → v.tx = .idle) ∧ (u.buffers = [] → v.buffers = []) := by
  cases h with
  | flushes seq =>
    rw [LineUnit.flushed_eq]
    exact ⟨fun idle => by simp [idle], id⟩
  | faults seq =>
    rw [LineUnit.flushed_eq]
    refine ⟨fun idle => ?_, id⟩
    change (if u.tx = .sending then TxState.aborting else u.tx) = .idle
    simp [idle]
  | buffers content room run => exact absurd run none
  | empties left fewer => exact ⟨id, fun empty => List.length_eq_zero_iff.1 (by simpa [empty] using fewer)⟩
  | starts wire idle on waits run => exact absurd run none
  | ends => exact ⟨fun _ => rfl, id⟩
  | aborts => exact ⟨fun _ => rfl, id⟩
  | _ => exact ⟨id, id⟩


theorem LineStep.settings (h : LineStep setting switching running u v) (none : ¬setting) :
    v.divisor = u.divisor ∧ v.threshold = u.threshold := by
  cases h with
  | sets divisor threshold allowed => exact absurd allowed none
  | flushes seq => rw [LineUnit.flushed_eq]; exact ⟨rfl, rfl⟩
  | faults seq => rw [LineUnit.flushed_eq]; exact ⟨rfl, rfl⟩
  | _ => exact ⟨rfl, rfl⟩

theorem LineStep.state (h : LineStep setting switching running u v) (none : ¬switching) : v.state = u.state := by
  cases h with
  | turnsOn was allowed => exact absurd allowed none
  | turnsOff was allowed => exact absurd allowed none
  | flushes seq => rw [LineUnit.flushed_eq]
  | faults seq on allowed => exact absurd allowed none
  | aborts aborting allowed => exact if_neg fun closing => none (allowed closing)
  | _ => rfl

end Line

end Sys2Proof.Machine
end

