-- ==== Sys2Proof/Proofs/RowLines.lean ====
section
/-! SUPPORT. What the rows do to the lines, and to the other parts of the state that the rows about records leave to others: each line
by its elementary changes, in every row. -/

namespace Sys2Proof.Machine

section Rows

variable {w : Warrant} {s t : State}

theorem joinIfWhole_base (n : CtxNo) (s : State) :
    (joinIfWhole n s).lines = s.lines ∧ (joinIfWhole n s).timer = s.timer ∧ (joinIfWhole n s).dials = s.dials := by
  rcases joinIfWhole_cases s n with ⟨-, h⟩ | ⟨-, h⟩ <;> rw [h] <;> exact ⟨rfl, rfl, rfl⟩

theorem freeCtx_base (n : CtxNo) (s : State) :
    (s.freeCtx n).lines = s.lines ∧ (s.freeCtx n).timer = s.timer ∧ (s.freeCtx n).dials = s.dials := by
  rw [State.freeCtx_frame]
  exact ⟨rfl, rfl, rfl⟩

/-- An elementary change places a waiting frame, settles a decision, or leaves lines, timer and dials. -/
theorem Change.beside (h : Change w s t) :
    (∃ l f queue, (s.line l).state = .on ∧ placeFrame f (s.line l).inFlight (s.line l).queue = some queue ∧
        t = s.setLine l { s.line l with queue := queue }) ∨
      (∃ n, w.deciding ∧ t = s.settleDecision n) ∨ t.lines = s.lines ∧ t.timer = s.timer ∧ t.dials = s.dials := by
  cases h with
  | hands l f queue on placed => exact .inl ⟨l, f, queue, on, placed, rfl⟩
  | settles n deciding => exact .inr (.inl ⟨n, deciding, rfl⟩)
  | names n seg => exact .inr (.inr (joinIfWhole_base n _))
  | stores n seg => exact .inr (.inr (joinIfWhole_base n _))
  | frees n => exact .inr (.inr (freeCtx_base n s))
  | loses n r => exact .inr (.inr (freeCtx_base n s))
  | ends n => exact .inr (.inr (freeCtx_base n s))
  | requests n => exact .inr (.inr (by rw [State.requestStop_frame]; exact ⟨rfl, rfl, rfl⟩))
  | _ => exact .inr (.inr ⟨rfl, rfl, rfl⟩)

/-! ## Lines -/

variable {setting running : Prop} {switching : LineNo → Prop}

/-- Each line from one state to another by its own changes, in a row that may set the divisors, and turn the lines it names. -/
def LinesStep (setting : Prop) (switching : LineNo → Prop) (running : Prop) (s t : State) : Prop :=
  ∀ l, LineSteps setting (switching l) running (s.line l) (t.line l)

theorem LinesStep.of_lines (same : t.lines = s.lines) : LinesStep setting switching running s t := fun l => by
  rw [State.line_congr same]

theorem LinesStep.append {u : State} (h : LinesStep setting switching running s t) (rest : LinesStep setting switching running t u) :
    LinesStep setting switching running s u := fun l => (h l).trans (rest l)

theorem LinesStep.then {u : State} (h : LinesStep setting switching running s t) (same : u.lines = t.lines) :
    LinesStep setting switching running s u := h.append (.of_lines same)

/-- One line changed. -/
theorem LinesStep.set {l : LineNo} {u : LineUnit} (steps : LineSteps setting (switching l) running (s.line l) u) :
    LinesStep setting switching running s (s.setLine l u) := fun m => by
  rw [State.line_setLine]
  split
  · rename_i e
    exact e ▸ steps
  · exact .refl

theorem Change.linesStep (h : Change w s t) : LinesStep setting switching running s t := by
  rcases h.beside with ⟨l, f, queue, on, placed, rfl⟩ | ⟨n, -, rfl⟩ | ⟨same, -⟩
  · exact .set (LineStep.places _ f queue on placed).steps
  · exact .of_lines rfl
  · exact .of_lines same

theorem Changes.linesStep (h : Changes w s t) : LinesStep setting switching running s t :=
  h.induct (LinesStep setting switching running s) (fun _ _ step before => before.append step.linesStep) (.of_lines rfl)

theorem Moves.linesStep (h : Moves w s t) (calm : ¬w.stirring) (still : ¬w.lining) : LinesStep setting switching running s t :=
  h.induct_calm (LinesStep setting switching running s) calm (fun _ _ step before => before.append step.linesStep)
    (fun _ _ _ same before => before.then (same.resolve_left still)) (.of_lines rfl)

/-! ### The rows that write the lines -/

theorem State.stopIfDone_lines (s : State) : s.stopIfDone.lines = s.lines := lines_of_base s.stopIfDone_base

theorem flushLine_linesStep (l : LineNo) : LinesStep setting switching running s (s.flushLine l) :=
  (LinesStep.set (LineStep.flushes (s.line l) s.cutSeq).steps).then rfl

theorem faultLine_linesStep (l : LineNo) (reason : LineReason) (on : (s.line l).state = .on) (allowed : switching l) :
    LinesStep setting switching running s (faultLine l reason s) := by
  have faults := LineStep.faults (setting := setting) (switching := switching l) (running := running) (s.line l) s.cutSeq on allowed
  refine (LinesStep.set faults.steps).then ?_
  simp only [faultLine, State.flushLine, State.post_lines, State.line_setLine_same, State.setLine_setLine]
  rfl

theorem dropFrame_linesStep (l : LineNo) (reason : LineReason) (on : (s.line l).state = .on) (allowed : switching l) :
    LinesStep setting switching running s (dropFrame l reason s) := by
  have drops := LineStep.drops (setting := setting) (switching := switching l) (running := running) (s.line l) reason
  have dropped : LinesStep setting switching running s (State.post
      (s.setLine l { s.line l with rx := .hunt, assembly := [], badCount := nextBadCount reason (s.line l).badCount })
      (lineErrorEvent l reason (nextBadCount reason (s.line l).badCount))) := (LinesStep.set drops.steps).then rfl
  unfold dropFrame
  dsimp only
  split
  · exact dropped.append (faultLine_linesStep l reason (by simp [on]) allowed)
  · exact dropped

theorem goodFrame_linesStep (l : LineNo) (content : List Byte) (on : (s.line l).state = .on)
    (inRun : s.cmd.mode = .run → running) :
    LinesStep setting switching running s (goodFrame l content s) := by
  have completes := LineStep.completes (setting := setting) (switching := switching l) (running := running) (s.line l) on
  unfold goodFrame
  dsimp only
  split
  · exact .set completes.steps
  · rename_i run
    split
    · rename_i room
      exact .set (completes.steps.next (.buffers _ content room (inRun (not_not.1 run))))
    · exact (LinesStep.set completes.steps).then rfl

theorem receiveByte_linesStep (l : LineNo) (b : Byte) (good : Bool) (on : (s.line l).state = .on) (allowed : switching l)
    (inRun : s.cmd.mode = .run → running) : LinesStep setting switching running s (receiveByte l b good s) := by
  have awaits : LinesStep setting switching running s (s.setLine l { s.line l with awaitMark := !good }) :=
    .set (LineStep.awaits _ _).steps
  have stillOn : ((s.setLine l { s.line l with awaitMark := !good }).line l).state = .on := by simp [on]
  unfold receiveByte
  dsimp only
  split
  · rename_i rx a byte
    refine awaits.append (.set (LineStep.stays _ b good rx a stillOn ?_).steps)
    rw [State.line_setLine_same]
    exact byte
  · exact awaits.append (dropFrame_linesStep l _ stillOn allowed)
  · exact awaits.append (goodFrame_linesStep l _ stillOn inRun)

theorem serveLine_linesStep (l : LineNo) : LinesStep setting switching running s (serveLine l s) := by
  have pointed : LinesStep setting switching running s { s with rotation := l } := .of_lines rfl
  have admitted := pointed.append (admitFrame_changes (w := anyRow) False.elim
    ⟨trivial, fun _ _ _ => trivial⟩ l ((s.line l).buffers.headD [])).linesStep
  exact admitted.append (.set (LineStep.empties _ _ (List.tail_sublist _).length_le).steps)

theorem discardBuffers_linesStep : LinesStep setting switching running s s.discardBuffers := fun l => by
  rw [State.line_discardBuffers]
  exact (LineStep.empties _ [] (Nat.zero_le _)).steps

theorem doStop_linesStep : LinesStep setting switching running s (doStop s) := by
  unfold doStop
  split
  · exact .of_lines rfl
  · have discarded : LinesStep setting switching running (s.withMode .stopping) (s.withMode .stopping).discardBuffers :=
      discardBuffers_linesStep
    exact (LinesStep.append (.of_lines rfl) discarded).then (State.stopIfDone_lines _)

theorem doSetLine_linesStep (allowed : setting) : LinesStep setting switching running s (doSetLine s) := by
  unfold doSetLine
  split
  · exact .of_lines rfl
  · split
    · exact (LinesStep.set (LineStep.sets _ _ _ allowed).steps).then rfl
    · exact .of_lines rfl

theorem doLineOn_linesStep (allowed : ∀ l, switching l) : LinesStep setting switching running s (doLineOn s) := by
  unfold doLineOn
  split
  · exact .of_lines rfl
  · split
    · exact (LinesStep.set (LineStep.turnsOn _ (.inl ‹_›) (allowed _)).steps).then rfl
    · exact (LinesStep.set (LineStep.turnsOn _ (.inr ‹_›) (allowed _)).steps).then rfl
    · exact .of_lines rfl
    · exact .of_lines rfl

theorem closeLine_linesStep (l : LineNo) (was : (s.line l).state = .faulted ∨ (s.line l).queue = [] ∧ (s.line l).rx = .hunt)
    (allowed : switching l) : LinesStep setting switching running s (closeLine l s) := by
  have turnsOff := LineStep.turnsOff (setting := setting) (switching := switching l) (running := running) (s.line l) was allowed
  unfold closeLine
  split
  · rename_i idle
    rw [if_pos idle] at turnsOff
    exact (LinesStep.set turnsOff.steps).then rfl
  · rename_i busy
    rw [if_neg busy] at turnsOff
    exact (LinesStep.set turnsOff.steps).then rfl

theorem doLineOff_linesStep (allowed : ∀ l, switching l) : LinesStep setting switching running s (doLineOff s) := by
  unfold doLineOff
  split
  · exact .of_lines rfl
  · rename_i l _
    split
    · have stopped : LinesStep setting switching running s (s.setLine l (s.line l).rxStopped) := .set (LineStep.stops _).steps
      refine (stopped.append (flushLine_linesStep l)).append (closeLine_linesStep l (.inr ?_) (allowed l))
      simp [State.flushLine_eq, State.line, LineUnit.rxStopped, State.setLine]
    · exact closeLine_linesStep l (.inl ‹_›) (allowed l)
    · exact .of_lines rfl
    · exact .of_lines rfl

theorem abortEnds_linesStep (l : LineNo) (aborting : (s.line l).tx = .aborting) (allowed : switching l) :
    LinesStep setting switching running s
      (s.setLine l
        { s.line l with tx := .idle, wire := [], state := if (s.line l).state = .closing then .off else (s.line l).state }) :=
  .set (LineStep.aborts _ aborting fun _ => allowed).steps

theorem execAbortEnd_linesStep {l : LineNo} (h : execAbortEnd l s = .next t) (allowed : switching l) :
    LinesStep setting switching running s t := by
  rcases awake_next h with ⟨-, rfl⟩ | ⟨-, rfl⟩
  · exact .of_lines rfl
  split
  · rename_i aborting
    have ends := abortEnds_linesStep (setting := setting) (switching := switching) (running := running) l aborting allowed
    dsimp only
    split
    · rename_i closing
      rw [if_pos closing] at ends
      exact ends.then ((State.stopIfDone_lines _).trans (lines_of_base (s := s.setLine l _) (completeLineOff_base l _)))
    · rename_i other
      rw [if_neg other] at ends
      exact ends.then (State.stopIfDone_lines _)
  · exact .of_lines rfl

theorem awake_linesStep {f : State → State} (h : awake s f = .next t) (steps : LinesStep setting switching running s (f s)) :
    LinesStep setting switching running s t := by
  rcases awake_next h with ⟨-, rfl⟩ | ⟨-, rfl⟩
  · exact .of_lines rfl
  · exact steps

theorem hostCommand_linesStep {c : HostCommand} {f : State → State} (h : hostCommand c f s = .next t)
    (steps : ∀ u : State, LinesStep setting switching running u (f u)) : LinesStep setting switching running s t := by
  rcases hostCommand_next h with ⟨-, rfl⟩ | ⟨-, -, rfl⟩ | ⟨-, rfl⟩
  · exact .of_lines rfl
  · exact .of_lines rfl
  · have accepted : LinesStep setting switching running s (s.accept c.code) := .of_lines rfl
    exact accepted.append (steps _)

/-- The rows that may turn line l on, off or to FAULTED. -/
def switchesLine (c : Instr) (l : LineNo) : Prop :=
  c = .lineOn ∨ c = .lineOff ∨ c = .abortEnd l ∨ ∃ b good, c = .byteReception l b good

theorem tickInRun_lines (s : State) : (tickInRun s).lines = s.lines := by rw [tickInRun_frame]

/-- The warrant of a row that leaves the lines but for the waiting frames, the timer but for its decisions, and the dials. -/
def calmRow : Warrant := ⟨False, False, True, True, True, True, False, False, True, fun _ _ => True⟩

theorem exec_calm {c : Instr} (h : exec c s = .next t) (noReset : c ≠ .hardwareReset) (still : lines c = false)
    (calm : stirs c = false) : Moves calmRow s t :=
  exec_moves h noReset False.elim False.elim (fun _ => trivial) (fun _ => trivial) (fun _ => trivial) (fun _ => trivial)
    (fun lines => by simp [still] at lines) (fun stirs => by simp [calm] at stirs) fun _ => ⟨trivial, fun _ _ _ => trivial⟩

/-- Every row but HARDWARE_RESET changes the lines by their elementary changes. -/
theorem exec_linesStep {c : Instr} (h : exec c s = .next t) (noReset : c ≠ .hardwareReset) :
    LinesStep (c = .setLine) (switchesLine c) (s.cmd.mode = .run) s t := by
  by_cases calm : lines c = false ∧ stirs c = false
  · exact (exec_calm h noReset calm.1 calm.2).linesStep id id
  cases c with
  | tick =>
    refine awake_linesStep h ?_
    split
    · exact (takeOwed_changes (w := calmRow) trivial False.elim).linesStep.then (tickInRun_lines _)
    · exact .of_lines rfl
  | byteReception l b good =>
    refine awake_linesStep h ?_
    split
    · rename_i seeks
      exact receiveByte_linesStep l b good seeks.1 (.inr (.inr (.inr ⟨b, good, rfl⟩))) id
    · exact .of_lines rfl
  | admissionEvent =>
    refine awake_linesStep h ?_
    split
    · split
      · exact serveLine_linesStep _
      · exact .of_lines rfl
    · exact .of_lines rfl
  | frameStart l =>
    change execFrameStart l s = .next t at h
    unfold execFrameStart at h
    refine awake_linesStep h ?_
    split
    · exact .of_lines rfl
    · rename_i f rest queue
      split
      · rename_i ready
        obtain ⟨idle, on, run⟩ := ready
        exact .set (LineStep.starts _ _ idle on (by simp [queue]) run).steps
      · exact .of_lines rfl
  | frameEnd l =>
    refine awake_linesStep h ?_
    split
    · exact (LinesStep.set (LineStep.ends _ ‹_›).steps).then (State.stopIfDone_lines _)
    · exact .of_lines rfl
  | abortEnd l => exact execAbortEnd_linesStep h (.inr (.inr (.inl rfl)))
  | setTiming => exact hostCommand_linesStep h fun u => .of_lines (by unfold doSetTiming; split <;> rfl)
  | setReserve => exact hostCommand_linesStep h fun u => .of_lines (by unfold doSetReserve; split <;> rfl)
  | setLine => exact hostCommand_linesStep h fun u => doSetLine_linesStep rfl
  | lineOn => exact hostCommand_linesStep h fun u => doLineOn_linesStep fun _ => .inl rfl
  | lineOff => exact hostCommand_linesStep h fun u => doLineOff_linesStep fun _ => .inr (.inl rfl)
  | stop => exact hostCommand_linesStep h fun u => doStop_linesStep
  | rxdReturnToMark l =>
    refine awake_linesStep h ?_
    split
    · exact .set (LineStep.awaits _ _).steps
    · exact .of_lines rfl
  | leaveReset =>
    cases h
    exact .of_lines rfl
  | _ => exact absurd ⟨rfl, rfl⟩ calm

end Rows

end Sys2Proof.Machine
end

