-- ==== Sys2Proof/Proofs/LineInvariants.lean ====
section
/-! SUPPORT. The lines' states agree, and no queue, buffer, counter or history passes its capacity (spec 06 6.5, R106, 07 7.1, R123, R126,
7.6, 10 R173, R174, 03 R66, 01 R17). -/

namespace Sys2Proof.Machine

/-! ## Lines -/

section Lines

variable {s t : State} {P : LineUnit → Prop}

theorem lines_of_hardwareReset (h : exec .hardwareReset s = .next t) (l : LineNo) : t.line l = LineUnit.reset := by
  cases h
  change (Vector.replicate 4 LineUnit.reset)[l] = _
  simp

/-- What every change of a line keeps and a line after reset has, every row keeps of every line. -/
theorem exec_keeps_lines {c : Instr} (h : exec c s = .next t) (reset : P LineUnit.reset)
    (keep : ∀ {setting switching running : Prop} {u v : LineUnit}, LineStep setting switching running u v → P u → P v)
    (start : ∀ l, P (s.line l)) (l : LineNo) : P (t.line l) := by
  by_cases isReset : c = .hardwareReset
  · subst isReset
    rw [lines_of_hardwareReset h]
    exact reset
  · exact (exec_linesStep h isReset l).induct P (fun _ _ => keep) (start l)

theorem step_keeps_lines (h : step s = .next t) (reset : P LineUnit.reset)
    (keep : ∀ {setting switching running : Prop} {u v : LineUnit}, LineStep setting switching running u v → P u → P v)
    (start : ∀ l, P (s.line l)) (l : LineNo) : P (t.line l) := by
  rcases step_cases h with rfl | ⟨c, rest, -, h⟩
  · exact start l
  · exact exec_keeps_lines h reset keep start l

theorem LineAgrees.reset : LineAgrees LineUnit.reset where
  queueOn _ := rfl
  sending := nofun
  offIdle _ := rfl
  closingAborting := nofun
  stopped _ := rfl
  huntEmpty _ := rfl
  idleMark _ := rfl

theorem LineCapacity.reset : LineCapacity LineUnit.reset := ⟨Nat.zero_le _, Nat.zero_le _, Nat.zero_le _, Nat.zero_le _⟩

end Lines

/-! ## Events -/

section Events

variable {s t : State} {a b : EventBlock}

/-- The capacities of the event block (spec 10 R173, R174). -/
structure EventCapacity (ev : EventBlock) : Prop where
  events : ev.queue.length ≤ Config.eventQueueCap
  loss : ev.loss ≤ 255

theorem EventCapacity.post (capacity : EventCapacity a) (e : EventRec) : EventCapacity (a.post e) := by
  refine ⟨a.post_length e capacity.events, ?_⟩
  unfold EventBlock.post
  split_ifs
  · exact capacity.loss
  · exact capacity.loss
  · exact min_le_left _ _

theorem EventCapacity.posts (capacity : EventCapacity a) (posts : a.PostsTo b) : EventCapacity b := by
  obtain ⟨events, rfl⟩ := posts
  induction events generalizing a with
  | nil => exact capacity
  | cons e rest ih => exact ih (capacity.post e)

/-! ### The rows that access the block themselves -/

theorem exec_evtPop_ev (h : exec .evtPop s = .next t) :
    t.ev = { s.ev with queue := t.ev.queue, latches := t.ev.latches } ∧ t.ev.queue.length ≤ s.ev.queue.length := by
  cases h
  cases s.pins.rstnLow
  · change (popEffect s).ev = { s.ev with queue := (popEffect s).ev.queue, latches := (popEffect s).ev.latches } ∧
      (popEffect s).ev.queue.length ≤ s.ev.queue.length
    unfold popEffect
    split
    · exact ⟨rfl, le_refl _⟩
    · rename_i queue
      exact ⟨rfl, by simp [queue]⟩
  · exact ⟨rfl, le_refl _⟩

theorem exec_evtMaskWrite_ev {r : Fin 2} {v : Word} (h : exec (.evtMaskWrite r v) s = .next t) :
    t.ev = s.ev ∨ r = 0 ∧ t.ev = { s.ev with mask0 := v } ∨ r = 1 ∧ t.ev = { s.ev with mask1 := v.setWidth 5 } := by
  rw [exec, execEvtMaskWrite] at h
  rcases awake_next h with ⟨-, rfl⟩ | ⟨-, rfl⟩
  · exact .inl rfl
  · split
    · exact .inr (.inl ⟨‹_›, rfl⟩)
    · exact .inr (.inr ⟨by omega, rfl⟩)

theorem exec_irqEn_ev {v : Word} (h : exec (.irqEn v) s = .next t) :
    t.ev = s.ev ∨ t.ev = { s.ev with irqEn := v.setWidth 3 } := by
  rw [exec, execIrqEn] at h
  rcases awake_next h with ⟨-, rfl⟩ | ⟨-, rfl⟩
  · exact .inl rfl
  · exact .inr rfl

theorem exec_clearLoss_ev (h : exec .clearLoss s = .next t) :
    t.ev = s.ev ∨ t.ev = { s.ev with loss := 0, overflow := false } := by
  rcases hostCommand_next h with ⟨-, rfl⟩ | ⟨-, -, rfl⟩ | ⟨-, rfl⟩
  · exact .inl rfl
  · exact .inl rfl
  · exact .inr rfl

theorem exec_eventCapacity {c : Instr} (h : exec c s = .next t) (capacity : EventCapacity s.ev) : EventCapacity t.ev := by
  by_cases other : accessesEvents c = false
  · exact capacity.posts (exec_posts other h)
  obtain ⟨events, loss⟩ := id capacity
  cases c with
  | hardwareReset =>
    cases h
    exact ⟨Nat.zero_le _, Nat.zero_le _⟩
  | evtPop =>
    obtain ⟨ev, fewer⟩ := exec_evtPop_ev h
    refine ⟨fewer.trans events, ?_⟩
    rw [ev]
    exact loss
  | evtMaskWrite r v =>
    rcases exec_evtMaskWrite_ev h with ev | ⟨-, ev⟩ | ⟨-, ev⟩ <;> rw [ev]
    · exact capacity
    · exact ⟨events, loss⟩
    · exact ⟨events, loss⟩
  | irqEn v =>
    rcases exec_irqEn_ev h with ev | ev <;> rw [ev]
    · exact capacity
    · exact ⟨events, loss⟩
  | clearLoss =>
    rcases exec_clearLoss_ev h with ev | ev <;> rw [ev]
    · exact capacity
    · exact ⟨events, Nat.zero_le _⟩
  | _ => exact absurd rfl other

end Events

/-! ## Histories and duplicate counts -/

section Records

variable {w : Warrant} {s t : State}

theorem pushHistory_length (e : SourceEntry) (msgno : MsgNo) (bound : e.history.length ≤ Config.historyCap) :
    (e.pushHistory msgno).history.length ≤ Config.historyCap := by
  unfold SourceEntry.pushHistory
  dsimp only
  split
  · rename_i room
    simpa using room
  · rw [List.length_append, List.length_tail]
    change _ + 1 ≤ 4
    change _ ≤ 4 at bound
    omega

/-- What holds of every entry, and of one that is rewritten, holds of every entry after. -/
theorem forall_source_of_set {P : SourceEntry → Prop} {k : SlotNo} {e : SourceEntry} (all : ∀ j, P (s.source j))
    (rewritten : P e) (j : SlotNo) : P ((s.setSource k e).source j) := by
  rw [State.source_setSource]
  split
  · exact rewritten
  · exact all j

theorem source_pushHistory (s : State) (a : Byte) (msgno : MsgNo) (j : SlotNo) :
    (s.pushHistory a msgno).source j =
      if s.findSource a = some j then (s.source j).pushHistory msgno else s.source j := by
  unfold State.pushHistory
  split
  · rename_i k found
    rw [State.source_setSource, found]
    by_cases here : j = k
    · rw [here, if_pos rfl, if_pos rfl]
    · rw [if_neg here, if_neg fun e => here (Option.some.inj e).symm]
  · rename_i none
    rw [none, if_neg nofun]

theorem source_matched (s : State) (n : CtxNo) (j : SlotNo) :
    (s.matched n).source j = (s.pushHistory (s.ctx n).source (s.ctx n).msgno).source j := rfl

theorem source_joinIfWhole (s : State) (n : CtxNo) (j : SlotNo) : (joinIfWhole n s).source j = s.source j :=
  State.source_congr (joinIfWhole_sources s n) j

theorem source_requestStop (s : State) (n : CtxNo) (j : SlotNo) : (s.requestStop n).source j = s.source j :=
  State.source_congr (by rw [State.requestStop_frame]) j

theorem Change.historyLength (h : Change w s t) (all : ∀ k, (s.source k).history.length ≤ Config.historyCap) (j : SlotNo) :
    (t.source j).history.length ≤ Config.historyCap := by
  have freed (n : CtxNo) : ((s.freeCtx n).source j).history.length ≤ Config.historyCap := by
    rw [State.source_freeCtx]
    exact all j
  have rewritten {k : SlotNo} {e : SourceEntry} (fits : e.history.length ≤ Config.historyCap) :
      ((s.setSource k e).source j).history.length ≤ Config.historyCap :=
    forall_source_of_set (P := fun e => e.history.length ≤ Config.historyCap) all fits j
  cases h with
  | names n seg => rw [source_joinIfWhole]; exact all j
  | stores n seg => rw [source_joinIfWhole]; exact all j
  | opens n k cls seg =>
    exact rewritten (k := k) (e := { s.source k with openCount := (s.source k).openCount + 1 }) (all k)
  | frees n => exact freed n
  | loses n r => exact freed n
  | ends n => exact freed n
  | confirms n =>
    rw [source_matched, source_pushHistory]
    split
    · exact pushHistory_length _ _ (all j)
    · exact all j
  | requests n => rw [source_requestStop]; exact all j
  | adds k e unused unknown enabled count history =>
    exact rewritten (by rw [history]; exact Nat.zero_le _)
  | marks k st => exact rewritten (e := { s.source k with state := st }) (all k)
  | drops k => exact rewritten (e := .cleared) (Nat.zero_le _)
  | spends k msgno =>
    refine rewritten (e := (s.source k).spendCredit msgno) ?_
    change ((s.source k).history.map _).length ≤ _
    rw [List.length_map]
    exact all k
  | _ => exact all j

theorem Change.duplicates (h : Change w s t) (all : ∀ n, (s.ctx n).dupCount ≤ 255) (m : CtxNo) :
    (t.ctx m).dupCount ≤ 255 := by
  have cleared {n : CtxNo} {u : State} (ctxs : ∀ m, u.ctx m = if m = n then Ctx.cleared else s.ctx m) :
      (u.ctx m).dupCount ≤ 255 :=
    forall_ctx_of_set (P := fun r => r.dupCount ≤ 255) all ctxs (Nat.zero_le _) m
  have joined {n : CtxNo} {u : State} (all : ∀ m, (u.ctx m).dupCount ≤ 255) :
      ((Machine.joinIfWhole n u).ctx m).dupCount ≤ 255 := by
    rcases joinIfWhole_cases u n with ⟨-, h⟩ | ⟨-, h⟩ <;> rw [h]
    · exact forall_ctx_of_set (P := fun r => r.dupCount ≤ 255) all (u.ctx_joined n) (all n) m
    · exact all m
  cases h with
  | adjusts ctxs adjust => exact (adjust m).duplicates (all m)
  | names n seg =>
    refine joined fun m => forall_ctx_of_set (P := fun r => r.dupCount ≤ 255) all (fun m => s.ctx_setCtx n m _) ?_ m
    unfold Ctx.duplicated
    dsimp only
    split <;> exact min_le_left _ _
  | stores n seg =>
    exact joined fun m =>
      forall_ctx_of_set (P := fun r => r.dupCount ≤ 255) all (fun m => ctx_allocateAndStore s n m seg) (all n) m
  | opens n k cls seg =>
    exact forall_ctx_of_set (P := fun r => r.dupCount ≤ 255) all (fun m => s.ctx_openedFor n m k cls seg) (Nat.zero_le _) m
  | frees n => exact cleared fun m => s.ctx_freeCtx n m
  | loses n r => exact cleared (n := n) fun m => s.ctx_freeCtx n m
  | ends n => exact cleared (n := n) fun m => s.ctx_freeCtx n m
  | confirms n => exact forall_ctx_of_set (P := fun r => r.dupCount ≤ 255) all (s.ctx_matched n) (all n) m
  | requests n => exact forall_ctx_of_set (P := fun r => r.dupCount ≤ 255) all (s.ctx_requestStop n) (all n) m
  | claims n rest => exact forall_ctx_of_set (P := fun r => r.dupCount ≤ 255) all (fun m => ctx_claim s n m rest) (all n) m
  | _ => exact all m

theorem forall_source_of_records {P : SourceEntry → Prop} (same : t.records = s.records) (all : ∀ k, P (s.source k))
    (k : SlotNo) : P (t.source k) := by
  rw [State.source_congr (congrArg Records.sources same)]
  exact all k

theorem exec_historyLength {c : Instr} (h : exec c s = .next t)
    (all : ∀ k, (s.source k).history.length ≤ Config.historyCap) (k : SlotNo) :
    (t.source k).history.length ≤ Config.historyCap :=
  exec_keeps (w := anyRow) (P := fun s => ∀ k, (s.source k).history.length ≤ Config.historyCap) anyRow_full
    (fun _ _ => False.elim) (fun _ _ => False.elim)
    (fun _ _ same all => forall_source_of_records (P := fun e => e.history.length ≤ Config.historyCap) same all)
    (fun _ _ => Change.historyLength) (fun _ _ reset _ _ k => by rw [reset.source]; exact Nat.zero_le _) h all k

theorem exec_duplicates {c : Instr} (h : exec c s = .next t) (all : ∀ n, (s.ctx n).dupCount ≤ 255) (n : CtxNo) :
    (t.ctx n).dupCount ≤ 255 :=
  exec_keeps (w := anyRow) (P := fun s => ∀ n, (s.ctx n).dupCount ≤ 255) anyRow_full
    (fun _ _ => False.elim) (fun _ _ => False.elim)
    (fun _ _ same all => forall_ctx_of_records (P := fun r => r.dupCount ≤ 255) same all)
    (fun _ _ => Change.duplicates) (fun _ _ reset _ _ n => by rw [reset.ctx]; exact Nat.zero_le _) h all n

end Records

/-! ## All capacities -/

section Capacity

variable {s t : State}

theorem CapacityInv.line (inv : CapacityInv s) (l : LineNo) : LineCapacity (s.line l) :=
  ⟨inv.txQueues l, inv.buffers l, inv.assembly l, inv.badCount l⟩

theorem exec_capacity {c : Instr} (h : exec c s = .next t) (inv : CapacityInv s) : CapacityInv t := by
  have line := exec_keeps_lines (P := LineCapacity) h .reset (fun h => h.capacity) inv.line
  have ev := exec_eventCapacity h ⟨inv.events, inv.loss⟩
  exact
    { events := ev.events
      loss := ev.loss
      txQueues := fun l => (line l).queue
      buffers := fun l => (line l).buffers
      assembly := fun l => (line l).assembly
      badCount := fun l => (line l).badCount
      history := exec_historyLength h inv.history
      duplicates := exec_duplicates h inv.duplicates }

/-- Settles O57: every row changes a line by elementary changes that keep its states in agreement and its waiting frames distinct, and
nothing is added where it would pass a capacity. -/
theorem linesAgreeWithinCapacities : Obligations.LinesAgreeWithinCapacities := by
  unfold Obligations.LinesAgreeWithinCapacities
  refine ⟨fun s t h => ⟨?_, ?_⟩, fun s t inv h => ?_⟩
  · exact step_keeps_lines h .reset fun step => step.agrees
  · exact step_keeps_lines h (.of_empty rfl) fun step => step.distinct
  · rcases step_cases h with rfl | ⟨c, rest, -, h⟩
    · exact inv
    · exact exec_capacity h
        ⟨inv.events, inv.loss, inv.txQueues, inv.buffers, inv.assembly, inv.badCount, inv.history, inv.duplicates⟩

end Capacity

end Sys2Proof.Machine
end

