-- ==== Sys2Proof/Proofs/UnitAnswers.lean ====
section
/-! SUPPORT. What the rows do to the command unit: which carry a command out in one event, and which parts of the unit only their own
command writes (spec 09 R151, R152, R154, R160, R161, 9.3). -/

namespace Sys2Proof.Machine

/-! ## A command carried out in one event -/

section Answers

variable {s t u : State}

/-- The part of the command unit that a completion leaves: mode, argument registers, station and learn setting. -/
def CommandUnit.config (c : CommandUnit) : Mode × Vector Word 6 × Byte × Bool := (c.mode, c.args, c.station, c.learn)

/-- The command unit answered, from its state in s. -/
def State.Answers (s t : State) : Prop := ∃ code r words, t.cmd = (s.complete code r words).cmd

theorem State.Answers.state (h : s.Answers t) : t.cmd.state = .idle := by
  obtain ⟨_, _, _, h⟩ := h
  rw [h]
  rfl

theorem State.Answers.config (h : s.Answers t) : t.cmd.config = s.cmd.config := by
  obtain ⟨_, _, _, h⟩ := h
  rw [h]
  rfl

theorem State.answers_fail (s : State) (c : HostCommand) (r : Result) : s.Answers (s.fail c r) := ⟨_, _, _, rfl⟩

theorem State.answers_finish (same : t.cmd = s.cmd) (c : HostCommand) (words : Vector Word 6) : s.Answers (t.finish c words) :=
  ⟨c.code, .ok, words, by simp only [State.finish, State.complete, same]⟩

theorem doSetStation_answers :
    s.Answers (doSetStation s) ∨ ∃ a, State.Answers { s with cmd := { s.cmd with station := a } } (doSetStation s) := by
  unfold doSetStation
  split
  · exact .inl (s.answers_fail _ _)
  · split
    · exact .inr ⟨_, State.answers_finish rfl _ _⟩
    · exact .inl (s.answers_fail _ _)

theorem doSetLearn_answers :
    s.Answers (doSetLearn s) ∨ ∃ on, State.Answers { s with cmd := { s.cmd with learn := on } } (doSetLearn s) := by
  unfold doSetLearn
  split
  · exact .inl (s.answers_fail _ _)
  · exact .inr ⟨_, State.answers_finish rfl _ _⟩

theorem doSetTiming_answers : s.Answers (doSetTiming s) := by
  unfold doSetTiming
  split
  · exact s.answers_fail _ _
  · exact State.answers_finish rfl _ _

theorem doSetReserve_answers : s.Answers (doSetReserve s) := by
  unfold doSetReserve
  split
  · exact s.answers_fail _ _
  · exact State.answers_finish rfl _ _

theorem doSetLine_answers : s.Answers (doSetLine s) := by
  unfold doSetLine
  split
  · exact s.answers_fail _ _
  · split
    · exact State.answers_finish rfl _ _
    · exact s.answers_fail _ _

theorem doLineOn_answers : s.Answers (doLineOn s) := by
  unfold doLineOn
  split
  · exact s.answers_fail _ _
  · split
    · exact State.answers_finish rfl _ _
    · exact State.answers_finish rfl _ _
    · exact s.answers_fail _ _
    · exact s.answers_fail _ _

theorem doSrcAdd_answers : s.Answers (doSrcAdd s) := by
  unfold doSrcAdd
  split
  · exact s.answers_fail _ _
  · split
    · exact s.answers_fail _ _
    · split
      · exact s.answers_fail _ _
      · exact State.answers_finish rfl _ _

theorem doSrcSuspend_answers : s.Answers (doSrcSuspend s) := by
  unfold doSrcSuspend
  split
  · exact s.answers_fail _ _
  · split
    · exact s.answers_fail _ _
    · split
      · exact State.answers_finish (suspendAll_cmd _ _) _ _
      · exact State.answers_finish rfl _ _

theorem doSrcResume_answers : s.Answers (doSrcResume s) := by
  unfold doSrcResume
  split
  · exact s.answers_fail _ _
  · split
    · exact s.answers_fail _ _
    · split
      · exact State.answers_finish rfl _ _
      · exact State.answers_finish rfl _ _

theorem doRelease_answers : s.Answers (doRelease s) := by
  unfold doRelease
  split
  · exact State.answers_finish (by simp) _ _
  · exact State.answers_finish rfl _ _
  · exact s.answers_fail _ _

theorem doQueryCtx_answers : s.Answers (doQueryCtx s) := by
  unfold doQueryCtx
  split
  · exact s.answers_fail _ _
  · exact State.answers_finish rfl _ _

theorem doQuerySrc_answers : s.Answers (doQuerySrc s) := by
  unfold doQuerySrc
  split
  · exact s.answers_fail _ _
  · split
    · exact s.answers_fail _ _
    · exact State.answers_finish rfl _ _

theorem doQueryPool_answers : s.Answers (doQueryPool s) := State.answers_finish rfl _ _

theorem doClearLoss_answers : s.Answers (doClearLoss s) := State.answers_finish rfl _ _

/-- The rows that carry a command out in one event and write no part of the unit but its answer. -/
def oneEvent : Instr → Option (HostCommand × (State → State))
  | .setTiming => some (.setTiming, doSetTiming)
  | .setReserve => some (.setReserve, doSetReserve)
  | .setLine => some (.setLine, doSetLine)
  | .lineOn => some (.lineOn, doLineOn)
  | .srcAdd => some (.srcAdd, doSrcAdd)
  | .srcSuspend => some (.srcSuspend, doSrcSuspend)
  | .srcResume => some (.srcResume, doSrcResume)
  | .release => some (.release, doRelease)
  | .queryCtx => some (.queryCtx, doQueryCtx)
  | .querySrc => some (.querySrc, doQuerySrc)
  | .queryPool => some (.queryPool, doQueryPool)
  | .clearLoss => some (.clearLoss, doClearLoss)
  | _ => none

theorem oneEvent_spec {c : Instr} {command : HostCommand} {f : State → State} (one : oneEvent c = some (command, f)) :
    (∀ s, exec c s = hostCommand command f s) ∧ ∀ s : State, s.Answers (f s) := by
  cases c with
  | setTiming => cases one; exact ⟨fun _ => rfl, fun _ => doSetTiming_answers⟩
  | setReserve => cases one; exact ⟨fun _ => rfl, fun _ => doSetReserve_answers⟩
  | setLine => cases one; exact ⟨fun _ => rfl, fun _ => doSetLine_answers⟩
  | lineOn => cases one; exact ⟨fun _ => rfl, fun _ => doLineOn_answers⟩
  | srcAdd => cases one; exact ⟨fun _ => rfl, fun _ => doSrcAdd_answers⟩
  | srcSuspend => cases one; exact ⟨fun _ => rfl, fun _ => doSrcSuspend_answers⟩
  | srcResume => cases one; exact ⟨fun _ => rfl, fun _ => doSrcResume_answers⟩
  | release => cases one; exact ⟨fun _ => rfl, fun _ => doRelease_answers⟩
  | queryCtx => cases one; exact ⟨fun _ => rfl, fun _ => doQueryCtx_answers⟩
  | querySrc => cases one; exact ⟨fun _ => rfl, fun _ => doQuerySrc_answers⟩
  | queryPool => cases one; exact ⟨fun _ => rfl, fun _ => doQueryPool_answers⟩
  | clearLoss => cases one; exact ⟨fun _ => rfl, fun _ => doClearLoss_answers⟩
  | _ => cases one

end Answers

/-! ## The configuration of the unit -/

section Config

variable {s t : State}

@[simp] theorem State.accept_config (s : State) (c : Byte) : (s.accept c).cmd.config = s.cmd.config := rfl
@[simp] theorem State.complete_config (s : State) (c : Byte) (r : Result) (v : Vector Word 6) :
    (s.complete c r v).cmd.config = s.cmd.config := rfl
@[simp] theorem State.finish_config (s : State) (c : HostCommand) (v : Vector Word 6) :
    (s.finish c v).cmd.config = s.cmd.config := rfl
@[simp] theorem State.fail_config (s : State) (c : HostCommand) (r : Result) : (s.fail c r).cmd.config = s.cmd.config := rfl
@[simp] theorem State.wait_config (s : State) (v : Waiting) : (s.wait v).cmd.config = s.cmd.config := rfl

theorem removeSource_config (k : SlotNo) : (removeSource k s).cmd.config = s.cmd.config := by
  unfold removeSource
  dsimp only
  split <;> simp

theorem doSrcRemove_config : (doSrcRemove s).cmd.config = s.cmd.config := by
  unfold doSrcRemove
  split
  · rfl
  · split
    · rfl
    · exact removeSource_config _

theorem doCtxAbort_config : (doCtxAbort s).cmd.config = s.cmd.config := by
  unfold doCtxAbort
  split
  · rfl
  · split
    · rfl
    · split
      · simp
      · simp [abortNow]

theorem doFlush_config : (doFlush s).cmd.config = s.cmd.config := by
  unfold doFlush
  dsimp only
  split <;> simp

theorem closeLine_config (l : LineNo) : (closeLine l s).cmd.config = s.cmd.config := by
  unfold closeLine
  split <;> rfl

theorem doLineOff_config : (doLineOff s).cmd.config = s.cmd.config := by
  unfold doLineOff
  split
  · rfl
  · split
    · exact closeLine_config _
    · exact closeLine_config _
    · rfl
    · rfl

theorem completeStopped_config (r : Ctx) (s : State) : (completeStopped r s).cmd.config = s.cmd.config := by
  unfold completeStopped
  split <;> simp

theorem completeLineOff_config (l : LineNo) (s : State) : (completeLineOff l s).cmd.config = s.cmd.config := by
  unfold completeLineOff
  split <;> rfl

/-- A row that writes no part of the unit's configuration but the mode. -/
def KeepsSettings (s t : State) : Prop :=
  t.cmd.args = s.cmd.args ∧ t.cmd.station = s.cmd.station ∧ t.cmd.learn = s.cmd.learn

theorem KeepsSettings.of_config (h : t.cmd.config = s.cmd.config) : KeepsSettings s t :=
  ⟨congrArg (fun c => c.2.1) h, congrArg (fun c => c.2.2.1) h, congrArg (fun c => c.2.2.2) h⟩

theorem KeepsSettings.of_cmd (h : t.cmd = s.cmd) : KeepsSettings s t := .of_config (congrArg _ h)

theorem KeepsSettings.trans {u : State} (h : KeepsSettings s t) (next : KeepsSettings t u) : KeepsSettings s u :=
  ⟨next.1.trans h.1, next.2.1.trans h.2.1, next.2.2.trans h.2.2⟩

theorem mode_of_config (h : t.cmd.config = s.cmd.config) : t.cmd.mode = s.cmd.mode := congrArg Prod.fst h

theorem stopIfDone_settings (s : State) : KeepsSettings s s.stopIfDone := by
  rcases s.stopIfDone_cases with ⟨-, -, -, -, h⟩ | ⟨-, h⟩ <;> rw [h]
  · exact ⟨rfl, rfl, rfl⟩
  · exact ⟨rfl, rfl, rfl⟩

theorem doStop_settings : KeepsSettings s (doStop s) := by
  unfold doStop
  split
  · exact .of_config rfl
  · exact KeepsSettings.trans ⟨rfl, rfl, rfl⟩ (stopIfDone_settings _)

theorem doStart_settings : KeepsSettings s (doStart s) := by
  unfold doStart
  split
  · exact .of_config rfl
  · split
    · exact .of_config rfl
    · exact ⟨rfl, rfl, rfl⟩

/-- The rows that do not write CMD, and touch the unit in nothing or in STOP's or a stopped command's completion alone. -/
theorem checkCell_settings (n : CtxNo) (crc : Word32) (w : Walk) (s : State) : KeepsSettings s (checkCell n crc w s) := by
  unfold checkCell
  dsimp only
  split
  · exact .of_cmd rfl
  · split
    · exact (KeepsSettings.of_cmd (endMatch_cmd s n)).trans (stopIfDone_settings _)
    · exact (KeepsSettings.of_cmd (endMismatch_cmd s n)).trans (stopIfDone_settings _)

theorem engineStop_config (n : CtxNo) (s : State) : (engineStop n s).cmd.config = s.cmd.config := by
  rw [engineStop_eq, completeStopped_config, State.engineStopped_cmd]

/-- The rows that leave the command unit. -/
def leavesUnit : Instr → Bool
  | .tick | .expiryDecision _ | .byteReception _ _ _ | .admissionEvent | .takeHead | .frameStart _ | .msgHead0 | .data
  | .evtPop | .evtMaskWrite _ _ | .irqEn _ | .ignoredWrite _ _ | .rxdReturnToMark _ | .leaveReset => true
  | _ => false

theorem awake_cmd {f : State → State} (h : awake s f = .next t) (same : (f s).cmd = s.cmd) : t.cmd = s.cmd := by
  rcases awake_next h with ⟨-, rfl⟩ | ⟨-, rfl⟩
  · rfl
  · exact same

theorem hostRead_cmd {a : RegAddr} {f : State → State} (h : hostRead a f s = .next t) (same : (f s).cmd = s.cmd) :
    t.cmd = s.cmd := by
  cases h
  cases s.pins.rstnLow
  · exact same
  · rfl

theorem exec_cmd {c : Instr} (h : exec c s = .next t) (leaves : leavesUnit c = true) : t.cmd = s.cmd := by
  cases c with
  | tick =>
    refine awake_cmd h ?_
    split
    · rw [tickInRun_cmd, takeOwed_cmd]
    · rfl
  | expiryDecision n =>
    refine awake_cmd h ?_
    split <;> simp
  | byteReception l b good =>
    refine awake_cmd h ?_
    split <;> simp
  | admissionEvent =>
    refine awake_cmd h ?_
    split
    · split <;> simp
    · rfl
  | takeHead =>
    refine awake_cmd h ?_
    split <;> rfl
  | frameStart l =>
    change execFrameStart l s = .next t at h
    unfold execFrameStart at h
    refine awake_cmd h ?_
    split
    · rfl
    · split <;> rfl
  | msgHead0 => exact hostRead_cmd h (head0Effect_cmd s)
  | data => exact hostRead_cmd h (dataEffect_cmd s)
  | evtPop => exact hostRead_cmd h (popEffect_cmd s)
  | evtMaskWrite r v =>
    rw [exec, execEvtMaskWrite] at h
    refine awake_cmd h ?_
    split <;> rfl
  | irqEn v =>
    rw [exec, execIrqEn] at h
    exact awake_cmd h rfl
  | ignoredWrite a v => rw [execIgnoredWrite_eq (w := v) h]
  | rxdReturnToMark l =>
    refine awake_cmd h ?_
    split <;> rfl
  | leaveReset =>
    cases h
    rfl
  | _ => cases leaves

theorem awake_settings {f : State → State} (h : awake s f = .next t) (kept : KeepsSettings s (f s)) : KeepsSettings s t := by
  rcases awake_next h with ⟨-, rfl⟩ | ⟨-, rfl⟩
  · exact .of_cmd rfl
  · exact kept

theorem hostRead_settings {a : RegAddr} {f : State → State} (h : hostRead a f s = .next t)
    (kept : KeepsSettings s (f s)) : KeepsSettings s t := by
  cases h
  dsimp only
  split
  · exact .of_cmd rfl
  · exact kept.trans (.of_cmd rfl)

theorem hostCommand_settings {c : HostCommand} {f : State → State} (h : hostCommand c f s = .next t)
    (kept : ∀ u : State, KeepsSettings u (f u)) : KeepsSettings s t := by
  rcases hostCommand_next h with ⟨-, rfl⟩ | ⟨-, -, rfl⟩ | ⟨-, rfl⟩
  · exact .of_cmd rfl
  · exact .of_config rfl
  · exact KeepsSettings.trans (t := s.accept c.code) (.of_config rfl) (kept _)

theorem exec_badCommand_config {v : Word} (h : exec (.badCommand v) s = .next t) : t.cmd.config = s.cmd.config := by
  have unnamed : namesCommand v = false := by simpa [Instr.wf] using wf_of_exec_next h
  rw [exec_badCommand unnamed] at h
  rcases awake_next h with ⟨-, rfl⟩ | ⟨-, rfl⟩
  · rfl
  · unfold cmdWrite
    split <;> rfl

/-- The rows that only answer a command keep the configuration. -/
theorem oneEvent_config {c : Instr} {command : HostCommand} {f : State → State} (one : oneEvent c = some (command, f))
    (h : exec c s = .next t) : t.cmd.config = s.cmd.config := by
  obtain ⟨row, answers⟩ := oneEvent_spec one
  rw [row] at h
  rcases hostCommand_next h with ⟨-, rfl⟩ | ⟨-, -, rfl⟩ | ⟨-, rfl⟩
  · rfl
  · rfl
  · exact (answers _).config.trans (s.accept_config _)

theorem exec_frameEnd_settings {l : LineNo} (h : exec (.frameEnd l) s = .next t) : KeepsSettings s t := by
  refine awake_settings h ?_
  split
  · exact KeepsSettings.trans (t := s.setLine l _) (.of_cmd rfl) (stopIfDone_settings _)
  · exact .of_cmd rfl

theorem exec_abortEnd_settings {l : LineNo} (h : exec (.abortEnd l) s = .next t) : KeepsSettings s t := by
  refine awake_settings h ?_
  dsimp only
  split
  · split
    · exact KeepsSettings.trans (.of_config (completeLineOff_config l (s.setLine l _))) (stopIfDone_settings _)
    · exact KeepsSettings.trans (t := s.setLine l _) (.of_cmd rfl) (stopIfDone_settings _)
  · exact .of_cmd rfl

theorem exec_cellCompletion_settings (h : exec .cellCompletion s = .next t) : KeepsSettings s t := by
  change execCellCompletion s = .next t at h
  unfold execCellCompletion at h
  refine awake_settings h ?_
  split
  · exact .of_cmd rfl
  · split
    · exact .of_cmd rfl
    · exact checkCell_settings _ _ _ _
    · exact .of_config (engineStop_config _ _)

/-- The argument registers, the station and the learn setting are written by their own rows alone. -/
theorem exec_settings {c : Instr} (h : exec c s = .next t) (noReset : c ≠ .hardwareReset) :
    (t.cmd.args ≠ s.cmd.args → ∃ i w, c = .cmdArg i w) ∧ (t.cmd.station ≠ s.cmd.station → c = .setStation) ∧
      (t.cmd.learn ≠ s.cmd.learn → c = .setLearn) := by
  have kept (same : KeepsSettings s t) : (t.cmd.args ≠ s.cmd.args → ∃ i w, c = .cmdArg i w) ∧
      (t.cmd.station ≠ s.cmd.station → c = .setStation) ∧ (t.cmd.learn ≠ s.cmd.learn → c = .setLearn) :=
    ⟨fun other => absurd same.1 other, fun other => absurd same.2.1 other, fun other => absurd same.2.2 other⟩
  by_cases leaves : leavesUnit c = true
  · exact kept (.of_cmd (exec_cmd h leaves))
  cases one : oneEvent c with
  | some p => exact kept (.of_config (oneEvent_config one h))
  | none =>
    cases c with
    | hardwareReset => exact absurd rfl noReset
    | cellCompletion => exact kept (exec_cellCompletion_settings h)
    | frameEnd l => exact kept (exec_frameEnd_settings h)
    | abortEnd l => exact kept (exec_abortEnd_settings h)
    | stopCompletion => exact kept (awake_settings h (stopIfDone_settings _))
    | cmdResult =>
      exact kept (hostRead_settings (a := 0x01) (f := fun s => { s with cmd := { s.cmd with done := false } }) h (.of_config rfl))
    | cmdArg i v =>
      rcases awake_next (f := fun s => { s with cmd := { s.cmd with args := s.cmd.args.set i v } }) h with
        ⟨-, rfl⟩ | ⟨-, rfl⟩
      · exact kept (.of_cmd rfl)
      · exact ⟨fun _ => ⟨i, v, rfl⟩, fun other => absurd rfl other, fun other => absurd rfl other⟩
    | badCommand v => exact kept (.of_config (exec_badCommand_config h))
    | setStation =>
      rcases hostCommand_next h with ⟨-, rfl⟩ | ⟨-, -, rfl⟩ | ⟨-, rfl⟩
      · exact kept (.of_cmd rfl)
      · exact kept (.of_config rfl)
      · rcases doSetStation_answers (s := s.accept _) with answers | ⟨a, answers⟩
        · exact kept (.of_config (answers.config.trans (s.accept_config _)))
        · have same := KeepsSettings.of_config answers.config
          exact ⟨fun other => absurd same.1 other, fun _ => rfl, fun other => absurd same.2.2 other⟩
    | setLearn =>
      rcases hostCommand_next h with ⟨-, rfl⟩ | ⟨-, -, rfl⟩ | ⟨-, rfl⟩
      · exact kept (.of_cmd rfl)
      · exact kept (.of_config rfl)
      · rcases doSetLearn_answers (s := s.accept _) with answers | ⟨a, answers⟩
        · exact kept (.of_config (answers.config.trans (s.accept_config _)))
        · have same := KeepsSettings.of_config answers.config
          exact ⟨fun other => absurd same.1 other, fun other => absurd same.2.1 other, fun _ => rfl⟩
    | lineOff => exact kept (hostCommand_settings h fun _ => .of_config doLineOff_config)
    | srcRemove => exact kept (hostCommand_settings h fun _ => .of_config doSrcRemove_config)
    | ctxAbort => exact kept (hostCommand_settings h fun _ => .of_config doCtxAbort_config)
    | flush => exact kept (hostCommand_settings h fun _ => .of_config doFlush_config)
    | start => exact kept (hostCommand_settings h fun _ => doStart_settings)
    | stop => exact kept (hostCommand_settings h fun _ => doStop_settings)
    | tick | expiryDecision _ | byteReception _ _ _ | admissionEvent | takeHead | frameStart _ | msgHead0 | data | evtPop
    | evtMaskWrite _ _ | irqEn _ | ignoredWrite _ _ | rxdReturnToMark _ | leaveReset => exact absurd rfl leaves
    | setTiming | setReserve | setLine | lineOn | srcAdd | srcSuspend | srcResume | release | queryCtx | querySrc | queryPool
    | clearLoss => cases one

end Config

end Sys2Proof.Machine
end

