-- ==== Sys2Proof/Proofs/ModeAndEngine.lean ====
section
/-! SUPPORT. Mode, command in flight and engine agree; outside RUN nothing waits in a buffer or for a decision, and in CONFIG no
transmitter is busy (spec 09 9.3, 03 R47, 04 R75, 05 R94, R98). -/

namespace Sys2Proof.Machine

/-! ## What only some rows touch: engine, timer and dials -/

section Kept

variable {w : Warrant} {s t : State}

theorem Change.engine (h : Change w s t) (still : ¬w.moving) : t.checker.engine = s.checker.engine := by
  cases h with
  | names n seg => exact joinIfWhole_engine n _
  | stores n seg => exact joinIfWhole_engine n _
  | frees n => exact s.freeCtx_engine n
  | loses n r => exact s.freeCtx_engine n
  | ends n checked closing moving => exact absurd moving still
  | confirms n checked running closing moving => exact absurd moving still
  | requests n checked moving => exact absurd moving still
  | takes idle waiting moving => exact absurd moving still
  | walks n rest crc v next queue engine within moving => exact absurd moving still
  | _ => rfl

theorem Moves.engine (h : Moves w s t) (still : ¬w.moving) : t.checker.engine = s.checker.engine :=
  h.induct (fun u => u.checker.engine = s.checker.engine) (fun _ _ step same => (step.engine still).trans same)
    (fun _ _ records same => (congrArg (fun r => r.checker.engine) records).trans same) rfl

/-- The warrant of a row that leaves the engine. -/
def restingRow : Warrant := ⟨False, False, True, True, False, True, True, True, True, fun _ _ => True⟩

theorem exec_engine {c : Instr} (h : exec c s = .next t) (noReset : c ≠ .hardwareReset) (still : engages c = false) :
    t.checker.engine = s.checker.engine :=
  Moves.engine (w := restingRow)
    (exec_moves h noReset False.elim False.elim (fun _ => trivial) (fun _ => trivial)
      (fun engages => by simp [still] at engages) (fun _ => trivial) (fun _ => trivial) (fun _ => trivial)
      fun _ => ⟨trivial, fun _ _ _ => trivial⟩)
    id

theorem Moves.dials (h : Moves w s t) (calm : ¬w.stirring) : t.dials = s.dials := by
  refine h.induct_calm (fun u => u.dials = s.dials) calm (fun a b step same => ?_) (fun _ _ same _ => ?_) rfl
  · rcases step.beside with ⟨_, _, _, -, -, rfl⟩ | ⟨_, -, rfl⟩ | ⟨-, -, dials⟩
    · exact same
    · exact same
    · exact dials.trans same
  · exact (dials_of_beside same).trans

theorem Moves.timer (h : Moves w s t) (calm : ¬w.stirring) (undecided : ¬w.deciding) : t.timer = s.timer := by
  refine h.induct_calm (fun u => u.timer = s.timer) calm (fun a b step same => ?_) (fun _ _ same _ => ?_) rfl
  · rcases step.beside with ⟨_, _, _, -, -, rfl⟩ | ⟨_, deciding, -⟩ | ⟨-, timer, -⟩
    · exact same
    · exact absurd deciding undecided
    · exact timer.trans same
  · exact (timer_of_beside same).trans

/-- The warrant of a row that leaves the dials and takes decisions at most. -/
def undialedRow : Warrant := ⟨False, False, True, True, True, True, True, False, True, fun _ _ => True⟩

/-- The warrant of a row that leaves the timer and the dials. -/
def untimedRow : Warrant := ⟨False, False, True, False, True, True, True, False, True, fun _ _ => True⟩

theorem exec_dials {c : Instr} (h : exec c s = .next t) (noReset : c ≠ .hardwareReset) (calm : stirs c = false) :
    t.dials = s.dials :=
  Moves.dials (w := undialedRow)
    (exec_moves h noReset False.elim False.elim (fun _ => trivial) (fun _ => trivial) (fun _ => trivial) (fun _ => trivial)
      (fun _ => trivial) (fun stirs => by simp [calm] at stirs)
      fun _ => ⟨trivial, fun _ _ _ => trivial⟩)
    id

theorem exec_timer {c : Instr} (h : exec c s = .next t) (noReset : c ≠ .hardwareReset) (calm : stirs c = false)
    (undecided : decides c = false) : t.timer = s.timer :=
  Moves.timer (w := untimedRow)
    (exec_moves h noReset False.elim False.elim (fun _ => trivial) (fun decides => by simp [undecided] at decides)
      (fun _ => trivial) (fun _ => trivial) (fun _ => trivial) (fun stirs => by simp [calm] at stirs)
      fun _ => ⟨trivial, fun _ _ _ => trivial⟩)
    id id

end Kept

/-! ## Mode and command in flight -/

/-- A unit whose command waits for the engine's stop (spec 05 R94). -/
def CommandUnit.waitsForEngine (c : CommandUnit) : Prop :=
  (∃ n notify, c.state = .busy (.ctxAbort n notify)) ∨ (∃ a f, c.state = .busy (.srcRemove a f)) ∨
    ∃ f, c.state = .busy (.flush f)

/-- A row that leaves mode and command state. -/
def KeepsUnit (s t : State) : Prop := t.cmd.mode = s.cmd.mode ∧ t.cmd.state = s.cmd.state

section Unit

variable {s t u : State} {c : Instr}

theorem KeepsUnit.of_cmd (h : t.cmd = s.cmd) : KeepsUnit s t := ⟨congrArg _ h, congrArg _ h⟩

theorem not_waitsForEngine_of_idle (idle : s.cmd.state = .idle) : ¬s.cmd.waitsForEngine := by
  rintro (⟨_, _, h⟩ | ⟨_, _, h⟩ | ⟨_, h⟩) <;> simp [idle] at h

theorem awake_unit {f : State → State} (h : awake s f = .next t) (kept : KeepsUnit s (f s)) : KeepsUnit s t := by
  rcases awake_next h with ⟨-, rfl⟩ | ⟨-, rfl⟩
  · exact ⟨rfl, rfl⟩
  · exact kept

/-- A command that is answered in its own event, its mode kept, leaves mode and command state. -/
theorem hostCommand_unit {c : HostCommand} {f : State → State} (h : hostCommand c f s = .next t)
    (mode : ∀ u : State, (f u).cmd.mode = u.cmd.mode) (idle : ∀ u : State, (f u).cmd.state = .idle) : KeepsUnit s t := by
  rcases hostCommand_next h with ⟨-, rfl⟩ | ⟨-, -, rfl⟩ | ⟨⟨-, before⟩, rfl⟩
  · exact ⟨rfl, rfl⟩
  · exact ⟨rfl, rfl⟩
  · exact ⟨mode _, (idle _).trans before.symm⟩

theorem oneEvent_unit {command : HostCommand} {f : State → State} (one : oneEvent c = some (command, f))
    (h : exec c s = .next t) : KeepsUnit s t := by
  obtain ⟨row, answers⟩ := oneEvent_spec one
  rw [row] at h
  exact hostCommand_unit h (fun u => mode_of_config (answers u).config) fun u => (answers u).state

theorem doSetStation_unit (u : State) : (doSetStation u).cmd.mode = u.cmd.mode ∧ (doSetStation u).cmd.state = .idle := by
  rcases doSetStation_answers (s := u) with answers | ⟨_, answers⟩
  · exact ⟨mode_of_config answers.config, answers.state⟩
  · exact ⟨congrArg Prod.fst answers.config, answers.state⟩

theorem doSetLearn_unit (u : State) : (doSetLearn u).cmd.mode = u.cmd.mode ∧ (doSetLearn u).cmd.state = .idle := by
  rcases doSetLearn_answers (s := u) with answers | ⟨_, answers⟩
  · exact ⟨mode_of_config answers.config, answers.state⟩
  · exact ⟨congrArg Prod.fst answers.config, answers.state⟩

theorem exec_badCommand_unit {v : Word} (h : exec (.badCommand v) s = .next t) : KeepsUnit s t := by
  have unnamed : namesCommand v = false := by simpa [Instr.wf] using wf_of_exec_next h
  rw [exec_badCommand unnamed] at h
  refine awake_unit h ?_
  unfold cmdWrite
  split
  · exact ⟨rfl, rfl⟩
  · exact ⟨rfl, (‹s.cmd.state = .idle›).symm⟩

/-- The rows that may change the mode or the command state. -/
def movesUnit : Instr → Bool
  | .hardwareReset | .cellCompletion | .frameEnd _ | .abortEnd _ | .stopCompletion | .lineOff | .srcRemove | .ctxAbort
  | .flush | .start | .stop => true
  | _ => false

theorem exec_unit (h : exec c s = .next t) (still : movesUnit c = false) : KeepsUnit s t := by
  by_cases leaves : leavesUnit c = true
  · exact .of_cmd (exec_cmd h leaves)
  cases one : oneEvent c with
  | some p => exact oneEvent_unit one h
  | none =>
    cases c with
    | setStation => exact hostCommand_unit h (fun u => (doSetStation_unit u).1) fun u => (doSetStation_unit u).2
    | setLearn => exact hostCommand_unit h (fun u => (doSetLearn_unit u).1) fun u => (doSetLearn_unit u).2
    | badCommand v => exact exec_badCommand_unit h
    | cmdArg i v => exact awake_unit (f := fun s => { s with cmd := { s.cmd with args := s.cmd.args.set i v } }) h ⟨rfl, rfl⟩
    | cmdResult =>
      cases h
      dsimp only
      split
      · exact ⟨rfl, rfl⟩
      · exact ⟨rfl, rfl⟩
    | hardwareReset | cellCompletion | frameEnd _ | abortEnd _ | stopCompletion | lineOff | srcRemove | ctxAbort | flush | start
    | stop => cases still
    | tick | expiryDecision _ | byteReception _ _ _ | admissionEvent | takeHead | frameStart _ | msgHead0 | data | evtPop
    | evtMaskWrite _ _ | irqEn _ | ignoredWrite _ _ | rxdReturnToMark _ | leaveReset => exact absurd rfl leaves
    | setTiming | setReserve | setLine | lineOn | srcAdd | srcSuspend | srcResume | release | queryCtx | querySrc | queryPool
    | clearLoss => cases one

/-! ## Mode, command in flight and engine agree -/

/-- The clauses of `ModeInv` that the command unit and the engine alone decide. -/
structure UnitAgrees (s : State) : Prop where
  stopping : s.cmd.mode = .stopping ↔ s.cmd.state = .busy .stop
  configEngine : s.cmd.mode = .config → s.checker.engine = .idle
  stopPending : s.stopPends ↔ s.cmd.waitsForEngine

theorem ModeInv.unit (inv : ModeInv s) : UnitAgrees s := ⟨inv.stopping, inv.configEngine, inv.stopPending⟩

theorem UnitAgrees.of_kept (agrees : UnitAgrees s) (unit : KeepsUnit s t) (engine : t.checker.engine = s.checker.engine) :
    UnitAgrees t := by
  obtain ⟨mode, state⟩ := unit
  obtain ⟨stopping, configEngine, stopPending⟩ := agrees
  refine ⟨by rw [mode, state, stopping], by rw [mode, engine]; exact configEngine, ?_⟩
  rw [State.stopPends, CommandUnit.waitsForEngine, engine, state]
  exact stopPending

theorem not_stopPends_of_engine_idle (idle : s.checker.engine = .idle) : ¬s.stopPends := fun ⟨_, _, h⟩ => by simp [idle] at h

/-- No command in flight, and the engine not stopping. -/
theorem UnitAgrees.of_idle (mode : s.cmd.mode ≠ .stopping) (idle : s.cmd.state = .idle)
    (configEngine : s.cmd.mode = .config → s.checker.engine = .idle) (free : ¬s.stopPends) : UnitAgrees s :=
  ⟨iff_of_false mode (by simp [idle]), configEngine, iff_of_false free (not_waitsForEngine_of_idle idle)⟩

theorem UnitAgrees.mode_of_idle (agrees : UnitAgrees s) (idle : s.cmd.state = .idle) : s.cmd.mode ≠ .stopping := fun mode => by
  simpa [idle] using agrees.stopping.1 mode

theorem UnitAgrees.mode_of_engine (agrees : UnitAgrees s) (busy : s.checker.engine ≠ .idle) : s.cmd.mode ≠ .config :=
  fun mode => busy (agrees.configEngine mode)

theorem UnitAgrees.stopIfDone (agrees : UnitAgrees s) : UnitAgrees s.stopIfDone := by
  rcases s.stopIfDone_cases with ⟨-, -, idle, -, h⟩ | ⟨-, h⟩ <;> rw [h]
  · exact .of_idle nofun rfl (fun _ => idle) (not_stopPends_of_engine_idle idle)
  · exact agrees

theorem UnitAgrees.accept (agrees : UnitAgrees s) (code : Byte) : UnitAgrees (s.accept code) := agrees.of_kept ⟨rfl, rfl⟩ rfl

theorem hostCommand_unitAgrees {c : HostCommand} {f : State → State} (h : hostCommand c f s = .next t) (agrees : UnitAgrees s)
    (kept : ∀ u : State, UnitAgrees u → u.cmd.state = .idle → UnitAgrees (f u)) : UnitAgrees t := by
  rcases hostCommand_next h with ⟨-, rfl⟩ | ⟨-, -, rfl⟩ | ⟨⟨-, idle⟩, rfl⟩
  · exact agrees
  · exact agrees.of_kept ⟨rfl, rfl⟩ rfl
  · exact kept _ (agrees.accept _) idle

theorem awake_unitAgrees {f : State → State} (h : awake s f = .next t) (agrees : UnitAgrees s) (kept : UnitAgrees (f s)) :
    UnitAgrees t := by
  rcases awake_next h with ⟨-, rfl⟩ | ⟨-, rfl⟩
  · exact agrees
  · exact kept

/-! ### START and STOP -/

theorem doStart_unitAgrees (agrees : UnitAgrees s) (idle : s.cmd.state = .idle) : UnitAgrees (doStart s) := by
  unfold doStart
  split
  · exact agrees.of_kept ⟨rfl, idle.symm⟩ rfl
  · rename_i config
    split
    · exact agrees.of_kept ⟨rfl, idle.symm⟩ rfl
    · exact .of_idle nofun rfl nofun (not_stopPends_of_engine_idle (s := s) (agrees.configEngine (by simpa using config)))

theorem doStop_unitAgrees (agrees : UnitAgrees s) (idle : s.cmd.state = .idle) : UnitAgrees (doStop s) := by
  unfold doStop
  split
  · exact agrees.of_kept ⟨rfl, idle.symm⟩ rfl
  · refine UnitAgrees.stopIfDone ⟨iff_of_true rfl rfl, nofun, iff_of_false (fun pends => ?_) ?_⟩
    · exact not_waitsForEngine_of_idle idle (agrees.stopPending.1 pends)
    · rintro (⟨_, _, h⟩ | ⟨_, _, h⟩ | ⟨_, h⟩) <;> cases h

/-! ### Commands that may stop the engine -/

/-- A command that frees records: answered with the engine as it was, or waiting for the engine that it stops (spec 05 R94). -/
structure StopsOrAnswers (s t : State) : Prop where
  mode : t.cmd.mode = s.cmd.mode
  outcome : (t.cmd.state = .idle ∧ t.checker.engine = s.checker.engine) ∨
    (t.cmd.waitsForEngine ∧ t.stopPends ∧ s.checker.engine ≠ .idle)

theorem State.stopPends_requestStop {n : CtxNo} (checked : s.underCheck = some n) : (s.requestStop n).stopPends := by
  obtain ⟨engine, -⟩ := State.underCheck_some.1 checked
  unfold State.stopPends State.requestStop
  split
  · exact ⟨_, _, rfl⟩
  · exact absurd ‹_› engine
  · exact ⟨_, _, ‹_›⟩

theorem StopsOrAnswers.unitAgrees (h : StopsOrAnswers s t) (agrees : UnitAgrees s) (idle : s.cmd.state = .idle) :
    UnitAgrees t := by
  obtain ⟨mode, outcome⟩ := h
  rcases outcome with ⟨state, engine⟩ | ⟨waits, pends, busy⟩
  · exact agrees.of_kept ⟨mode, state.trans idle.symm⟩ engine
  · refine ⟨iff_of_false ?_ ?_, fun config => ?_, iff_of_true pends waits⟩
    · exact mode ▸ agrees.mode_of_idle idle
    · rcases waits with ⟨_, _, h⟩ | ⟨_, _, h⟩ | ⟨_, h⟩ <;> simp [h]
    · exact absurd (mode ▸ config) (agrees.mode_of_engine busy)

theorem StopsOrAnswers.fail (s : State) (c : HostCommand) (r : Result) : StopsOrAnswers s (s.fail c r) :=
  ⟨rfl, .inl ⟨rfl, rfl⟩⟩

theorem StopsOrAnswers.answered (cmd : u.cmd = s.cmd) (engine : u.checker.engine = s.checker.engine) (c : HostCommand)
    (words : Vector Word 6) : StopsOrAnswers s (u.finish c words) :=
  ⟨mode_of_config ((u.finish_config c words).trans (congrArg _ cmd)), .inl ⟨rfl, engine⟩⟩

/-- Records freed, then the stop asked for. -/
theorem StopsOrAnswers.requested {n : CtxNo} {v : Waiting} (cmd : u.cmd = s.cmd) (checked : u.underCheck = some n)
    (engine : u.checker.engine = s.checker.engine) (waits : ((u.requestStop n).wait v).cmd.waitsForEngine) :
    StopsOrAnswers s ((u.requestStop n).wait v) := by
  refine ⟨?_, .inr ⟨waits, State.stopPends_requestStop checked, ?_⟩⟩
  · change (u.requestStop n).cmd.mode = _
    rw [State.requestStop_cmd, cmd]
  · exact engine ▸ (State.underCheck_some.1 checked).1

theorem Changes.engine {w : Warrant} (h : Changes w s t) (still : ¬w.moving) : t.checker.engine = s.checker.engine :=
  h.const (fun u => u.checker.engine) fun _ _ step => step.engine still

theorem State.emptied_engine {k : SlotNo} (used : (s.source k).state ≠ .unused) :
    (s.emptied k).checker.engine = s.checker.engine :=
  (emptied_changes (w := restingRow) trivial used).engine id

theorem State.emptied_cmd (k : SlotNo) : (s.emptied k).cmd = s.cmd := by simp [State.emptied]

theorem doSrcRemove_stops : StopsOrAnswers s (doSrcRemove s) := by
  unfold doSrcRemove
  split
  · exact .fail _ _ _
  · split
    · exact .fail _ _ _
    · rename_i k found
      have used := (State.findSource_some found).1
      cases checked : s.checkedOf (s.source k).address with
      | none =>
        rw [removeSource_unchecked checked]
        exact .answered (u := (s.emptied k).setSource k _) (s.emptied_cmd k) (State.emptied_engine used) _ _
      | some n =>
        rw [removeSource_checked checked]
        exact .requested (State.emptied_cmd k) ((s.underCheck_emptied k).trans (State.checkedOf_some.1 checked).1)
          (State.emptied_engine used) (.inr (.inl ⟨_, _, rfl⟩))

theorem doCtxAbort_stops : StopsOrAnswers s (doCtxAbort s) := by
  unfold doCtxAbort
  split
  · exact .fail _ _ _
  · rename_i n notify args
    split
    · exact .fail _ _ _
    · split
      · exact .requested rfl ‹_› rfl (.inl ⟨_, _, rfl⟩)
      · exact   .answered (u := (abortOutputs n (s.ctx n) notify s).freeByCommand n .abort) (by simp)
          ((abortNow_moves (w := restingRow) notify ‹_› ‹_›).engine id) _ _

theorem doFlush_stops : StopsOrAnswers s (doFlush s) := by
  have listed {n : CtxNo} (mem : n ∈ (List.finRange 32).filter fun n => (s.ctx n).state != .free && s.underCheck != some n) :
      (s.ctx n).state ≠ .free ∧ s.underCheck ≠ some n := by simpa using mem
  have engine := (freeAll_changes (w := restingRow) ((List.nodup_finRange 32).filter _) (fun _ => listed) .flush).engine id
  unfold doFlush
  dsimp only
  split
  · exact .answered (freeAll_cmd _ _ _) engine _ _
  · rename_i n checked
    exact   .requested (freeAll_cmd _ _ _) ((underCheck_freeAll (fun _ mem => (listed mem).2) _).trans checked) engine
      (.inr (.inr ⟨_, rfl⟩))

/-! ### The engine's completions -/

theorem endMatch_engine (n : CtxNo) (s : State) : (endMatch n s).checker.engine = .idle := rfl

theorem endMismatch_engine (n : CtxNo) (s : State) : (endMismatch n s).checker.engine = .idle := rfl

/-- A check in progress goes on or ends. -/
theorem UnitAgrees.checks {crc : Word32} {v : Walk} (agrees : UnitAgrees s) (engine : s.checker.engine = .checking crc v)
    (cmd : t.cmd = s.cmd) (free : ¬t.stopPends) : UnitAgrees t := by
  refine ⟨by rw [cmd]; exact agrees.stopping, fun config => ?_, iff_of_false free fun waits => ?_⟩
  · rw [cmd] at config
    simpa [engine] using agrees.configEngine config
  · obtain ⟨_, _, pends⟩ := agrees.stopPending.2 (cmd ▸ waits)
    simp [engine] at pends

theorem checkCell_unitAgrees {n : CtxNo} {crc : Word32} {v : Walk} (agrees : UnitAgrees s)
    (engine : s.checker.engine = .checking crc v) : UnitAgrees (checkCell n crc v s) := by
  unfold checkCell
  dsimp only
  split
  · exact agrees.checks engine rfl fun ⟨_, _, h⟩ => nomatch h
  · split
    · exact (agrees.checks engine (endMatch_cmd s n) (not_stopPends_of_engine_idle (endMatch_engine n s))).stopIfDone
    · exact (agrees.checks engine (endMismatch_cmd s n) (not_stopPends_of_engine_idle (endMismatch_engine n s))).stopIfDone

theorem dropSource_engine (a : Byte) (s : State) : (s.dropSource a).checker.engine = s.checker.engine := by
  unfold State.dropSource
  split <;> rfl

theorem completeStopped_engine (r : Ctx) (s : State) : (completeStopped r s).checker.engine = s.checker.engine := by
  unfold completeStopped
  split
  · rfl
  · exact dropSource_engine _ s
  all_goals rfl

theorem completeStopped_state (r : Ctx) (waits : s.cmd.waitsForEngine) : (completeStopped r s).cmd.state = .idle := by
  unfold completeStopped
  rcases waits with ⟨_, _, h⟩ | ⟨_, _, h⟩ | ⟨_, h⟩ <;> rw [h] <;> rfl

theorem engineStop_unitAgrees {n : CtxNo} (agrees : UnitAgrees s) (pends : s.stopPends) : UnitAgrees (engineStop n s) := by
  have waits := agrees.stopPending.1 pends
  have idle : (engineStop n s).checker.engine = .idle := by
    rw [engineStop_eq, completeStopped_engine]
    rfl
  refine .of_idle ?_ ?_ (fun _ => idle) (not_stopPends_of_engine_idle idle)
  · rw [mode_of_config (engineStop_config n s)]
    intro stopping
    have busy := agrees.stopping.1 stopping
    rcases waits with ⟨_, _, h⟩ | ⟨_, _, h⟩ | ⟨_, h⟩ <;> simp [h] at busy
  · rw [engineStop_eq]
    exact completeStopped_state _ (by rwa [State.engineStopped_cmd])

theorem exec_cellCompletion_unitAgrees (h : exec .cellCompletion s = .next t) (agrees : UnitAgrees s) : UnitAgrees t := by
  change execCellCompletion s = .next t at h
  unfold execCellCompletion at h
  refine awake_unitAgrees h agrees ?_
  split
  · exact agrees
  · split
    · exact agrees
    · exact checkCell_unitAgrees agrees ‹_›
    · exact engineStop_unitAgrees agrees ⟨_, _, ‹_›⟩

/-! ### LINE_OFF -/

theorem UnitAgrees.waitsForLine (agrees : UnitAgrees s) (idle : s.cmd.state = .idle) (l : LineNo) (mode : t.cmd.mode = s.cmd.mode)
    (state : t.cmd.state = .busy (.lineOff l)) (engine : t.checker.engine = s.checker.engine) : UnitAgrees t := by
  refine ⟨iff_of_false ?_ (by simp [state]), by rw [mode, engine]; exact agrees.configEngine, iff_of_false ?_ ?_⟩
  · rw [mode]
    exact agrees.mode_of_idle idle
  · rw [State.stopPends, engine]
    exact fun pends => not_waitsForEngine_of_idle idle (agrees.stopPending.1 pends)
  · rintro (⟨_, _, h⟩ | ⟨_, _, h⟩ | ⟨_, h⟩) <;> simp [state] at h

theorem closeLine_unitAgrees (agrees : UnitAgrees s) (idle : s.cmd.state = .idle) (l : LineNo) : UnitAgrees (closeLine l s) := by
  unfold closeLine
  split
  · exact agrees.of_kept ⟨rfl, idle.symm⟩ rfl
  · exact agrees.waitsForLine idle l rfl rfl rfl

theorem doLineOff_unitAgrees (agrees : UnitAgrees s) (idle : s.cmd.state = .idle) : UnitAgrees (doLineOff s) := by
  unfold doLineOff
  split
  · exact agrees.of_kept ⟨rfl, idle.symm⟩ rfl
  · split
    · exact closeLine_unitAgrees (s := (s.setLine _ _).flushLine _) (agrees.of_kept ⟨rfl, rfl⟩ rfl) idle _
    · exact closeLine_unitAgrees agrees idle _
    · exact agrees.of_kept ⟨rfl, idle.symm⟩ rfl
    · exact agrees.waitsForLine idle _ rfl rfl rfl

theorem completeLineOff_unitAgrees (agrees : UnitAgrees s) (l : LineNo) : UnitAgrees (completeLineOff l s) := by
  unfold completeLineOff
  split
  · rename_i waits
    refine .of_idle (fun stopping => ?_) rfl agrees.configEngine fun pends => ?_
    · simpa [waits] using agrees.stopping.1 stopping
    · rcases agrees.stopPending.1 pends with ⟨_, _, h⟩ | ⟨_, _, h⟩ | ⟨_, h⟩ <;> simp [waits] at h
  · exact agrees

theorem exec_unitAgrees (h : exec c s = .next t) (agrees : UnitAgrees s) : UnitAgrees t := by
  by_cases quiet : c ≠ .hardwareReset ∧ movesUnit c = false ∧ engages c = false
  · exact agrees.of_kept (exec_unit h quiet.2.1) (exec_engine h quiet.1 quiet.2.2)
  cases c with
  | hardwareReset =>
    cases h
    exact .of_idle nofun rfl (fun _ => rfl) (not_stopPends_of_engine_idle rfl)
  | takeHead =>
    refine awake_unitAgrees h agrees ?_
    split
    · rename_i ready
      obtain ⟨idle, run, -⟩ := ready
      refine ⟨agrees.stopping, fun config => ?_, iff_of_false (fun ⟨_, _, h⟩ => nomatch h) ?_⟩
      · simp [run] at config
      · exact fun waits => not_stopPends_of_engine_idle idle (agrees.stopPending.2 waits)
    · exact agrees
  | cellCompletion => exact exec_cellCompletion_unitAgrees h agrees
  | frameEnd l =>
    refine awake_unitAgrees h agrees ?_
    split
    · exact UnitAgrees.stopIfDone (agrees.of_kept ⟨rfl, rfl⟩ rfl)
    · exact agrees
  | abortEnd l =>
    refine awake_unitAgrees h agrees ?_
    dsimp only
    split
    · split
      · exact (completeLineOff_unitAgrees (s := s.setLine l _) (agrees.of_kept ⟨rfl, rfl⟩ rfl) l).stopIfDone
      · exact UnitAgrees.stopIfDone (s := s.setLine l _) (agrees.of_kept ⟨rfl, rfl⟩ rfl)
    · exact agrees
  | stopCompletion => exact awake_unitAgrees h agrees agrees.stopIfDone
  | lineOff => exact hostCommand_unitAgrees h agrees fun _ => doLineOff_unitAgrees
  | srcRemove => exact hostCommand_unitAgrees h agrees fun _ => doSrcRemove_stops.unitAgrees
  | ctxAbort => exact hostCommand_unitAgrees h agrees fun _ => doCtxAbort_stops.unitAgrees
  | flush => exact hostCommand_unitAgrees h agrees fun _ => doFlush_stops.unitAgrees
  | start => exact hostCommand_unitAgrees h agrees fun _ => doStart_unitAgrees
  | stop => exact hostCommand_unitAgrees h agrees fun _ => doStop_unitAgrees
  | _ => exact absurd ⟨nofun, rfl, rfl⟩ quiet

end Unit

/-! ## What waits outside RUN -/

section Waiting

variable {s t : State} {c : Instr}

/-- No frame waits in a buffer and no decision is owed. -/
structure NothingWaits (s : State) : Prop where
  buffers : ∀ l, (s.line l).buffers = []
  owed : ∀ n : CtxNo, s.timer.owed[n] = false

theorem discardBuffers_buffers (s : State) (l : LineNo) : (s.discardBuffers.line l).buffers = [] := by
  simp [State.discardBuffers, State.line]

theorem freezeTimers_owed (s : State) (n : CtxNo) : s.freezeTimers.timer.owed[n] = false := by simp [State.freezeTimers]

theorem NothingWaits.of_beside {u : State} (h : NothingWaits s) (lines : u.lines = s.lines) (timer : u.timer = s.timer) :
    NothingWaits u :=
  ⟨fun l => by rw [State.line_congr lines]; exact h.buffers l, fun n => by rw [timer]; exact h.owed n⟩

theorem NothingWaits.stopIfDone (h : NothingWaits s) : NothingWaits s.stopIfDone :=
  h.of_beside s.stopIfDone_lines (timer_of_beside s.stopIfDone_beside)

theorem doStop_nothingWaits (run : s.cmd.mode = .run) : NothingWaits (doStop s) := by
  rw [doStop, if_neg (by simp [run])]
  refine NothingWaits.stopIfDone ⟨fun l => ?_, fun n => ?_⟩
  · exact discardBuffers_buffers (s.withMode .stopping) l
  · exact freezeTimers_owed (s.withMode .stopping).discardBuffers n

/-- Outside RUN a row leaves the decisions not owed. -/
theorem exec_owed (h : exec c s = .next t) (noReset : c ≠ .hardwareReset) (mode : s.cmd.mode ≠ .run)
    (none : ∀ n : CtxNo, s.timer.owed[n] = false) (n : CtxNo) : t.timer.owed[n] = false := by
  have same (timer : t.timer = s.timer) : t.timer.owed[n] = false := by rw [timer]; exact none n
  by_cases still : stirs c = false ∧ decides c = false
  · exact same (exec_timer h noReset still.1 still.2)
  cases c with
  | tick =>
    refine same ?_
    rcases awake_next h with ⟨-, rfl⟩ | ⟨-, rfl⟩
    · rfl
    · rw [if_neg mode]
  | expiryDecision m =>
    refine same ?_
    rcases awake_next h with ⟨-, rfl⟩ | ⟨-, rfl⟩
    · rfl
    · rw [if_neg mode]
  | admissionEvent =>
    refine same ?_
    rcases awake_next h with ⟨-, rfl⟩ | ⟨-, rfl⟩
    · rfl
    · rw [if_neg mode]
  | setTiming =>
    rcases hostCommand_next h with ⟨-, rfl⟩ | ⟨-, -, rfl⟩ | ⟨-, rfl⟩
    · exact none n
    · exact none n
    · unfold doSetTiming
      split
      · exact none n
      · rename_i cls v args
        cases cls
        · exact none n
        · exact none n
  | setReserve =>
    refine same ?_
    rcases hostCommand_next h with ⟨-, rfl⟩ | ⟨-, -, rfl⟩ | ⟨-, rfl⟩
    · rfl
    · rfl
    · unfold doSetReserve
      split <;> rfl
  | stop =>
    refine same ?_
    rcases hostCommand_next h with ⟨-, rfl⟩ | ⟨-, -, rfl⟩ | ⟨-, rfl⟩
    · rfl
    · rfl
    · rw [doStop, if_pos (show (s.accept _).cmd.mode ≠ .run from mode)]
      rfl
  | leaveReset =>
    cases h
    exact none n
  | _ => exact absurd ⟨rfl, rfl⟩ still

/-! ## The mode -/

/-- The rows in which STOP may complete (spec 09 R159). -/
def completesStop (c : Instr) : Prop := c = .stopCompletion ∨ c = .cellCompletion ∨ ∃ l, c = .frameEnd l ∨ c = .abortEnd l

/-- Where the mode that a row leaves comes from. -/
inductive ModeCase (c : Instr) (s t : State) : Prop
  | same (mode : t.cmd.mode = s.cmd.mode)
  | started (start : c = .start) (mode : t.cmd.mode = .run)
  | stopping (stop : c = .stop) (u : State) (run : s.cmd.mode = .run) (mode : u.cmd.mode = .run) (after : t = doStop u)
  | stopped (row : completesStop c) (u : State) (mode : u.cmd.mode = s.cmd.mode) (after : t = u.stopIfDone)

theorem hostCommand_mode {command : HostCommand} {f : State → State} (h : hostCommand command f s = .next t)
    (kept : ∀ u : State, (f u).cmd.config = u.cmd.config) : t.cmd.mode = s.cmd.mode := by
  rcases hostCommand_next h with ⟨-, rfl⟩ | ⟨-, -, rfl⟩ | ⟨-, rfl⟩
  · rfl
  · rfl
  · exact mode_of_config (kept _)

theorem exec_cellCompletion_mode (h : exec .cellCompletion s = .next t) : ModeCase .cellCompletion s t := by
  change execCellCompletion s = .next t at h
  unfold execCellCompletion at h
  have row : completesStop .cellCompletion := .inr (.inl rfl)
  rcases awake_next h with ⟨-, rfl⟩ | ⟨-, rfl⟩
  · exact .same rfl
  split
  · exact .same rfl
  · split
    · exact .same rfl
    · unfold checkCell
      dsimp only
      split
      · exact .same rfl
      · split
        · exact .stopped row _ (congrArg _ (endMatch_cmd s _)) rfl
        · exact .stopped row _ (congrArg _ (endMismatch_cmd s _)) rfl
    · exact .same (mode_of_config (engineStop_config _ s))

theorem exec_abortEnd_mode {l : LineNo} (h : exec (.abortEnd l) s = .next t) : ModeCase (.abortEnd l) s t := by
  have row : completesStop (.abortEnd l) := .inr (.inr ⟨l, .inr rfl⟩)
  rcases awake_next h with ⟨-, rfl⟩ | ⟨-, rfl⟩
  · exact .same rfl
  dsimp only
  split
  · split
    · exact .stopped row _ (mode_of_config (completeLineOff_config l (s.setLine l _))) rfl
    · exact .stopped row (s.setLine l _) rfl rfl
  · exact .same rfl

theorem exec_mode (h : exec c s = .next t) (noReset : c ≠ .hardwareReset) : ModeCase c s t := by
  by_cases still : movesUnit c = false
  · exact .same (exec_unit h still).1
  cases c with
  | hardwareReset => exact absurd rfl noReset
  | cellCompletion => exact exec_cellCompletion_mode h
  | abortEnd l => exact exec_abortEnd_mode h
  | frameEnd l =>
    have row : completesStop (.frameEnd l) := .inr (.inr ⟨l, .inl rfl⟩)
    rcases awake_next h with ⟨-, rfl⟩ | ⟨-, rfl⟩
    · exact .same rfl
    split
    · exact .stopped row (s.setLine l _) rfl rfl
    · exact .same rfl
  | stopCompletion =>
    rcases awake_next h with ⟨-, rfl⟩ | ⟨-, rfl⟩
    · exact .same rfl
    · exact .stopped (.inl rfl) s rfl rfl
  | lineOff => exact .same (hostCommand_mode h fun _ => doLineOff_config)
  | srcRemove => exact .same (hostCommand_mode h fun _ => doSrcRemove_config)
  | ctxAbort => exact .same (hostCommand_mode h fun _ => doCtxAbort_config)
  | flush => exact .same (hostCommand_mode h fun _ => doFlush_config)
  | start =>
    rcases hostCommand_next h with ⟨-, rfl⟩ | ⟨-, -, rfl⟩ | ⟨-, rfl⟩
    · exact .same rfl
    · exact .same rfl
    · unfold doStart
      split
      · exact .same rfl
      · split
        · exact .same rfl
        · exact .started rfl rfl
  | stop =>
    rcases hostCommand_next h with ⟨-, rfl⟩ | ⟨-, -, rfl⟩ | ⟨-, rfl⟩
    · exact .same rfl
    · exact .same rfl
    · by_cases run : s.cmd.mode = .run
      · exact .stopping rfl (s.accept _) run run rfl
      · refine .same ?_
        rw [doStop, if_pos (show (s.accept _).cmd.mode ≠ .run from run)]
        rfl
  | _ => exact absurd rfl still

theorem stopIfDone_config (config : s.stopIfDone.cmd.mode = .config) :
    s.cmd.mode = .config ∨ ∀ l, (s.stopIfDone.line l).tx = .idle := by
  rcases s.stopIfDone_cases with ⟨-, -, -, idle, h⟩ | ⟨-, h⟩ <;> rw [h] at config ⊢
  · exact .inr idle
  · exact .inl config

/-- CONFIG is entered with every transmitter IDLE. -/
theorem ModeCase.config (h : ModeCase c s t) (config : t.cmd.mode = .config) :
    s.cmd.mode = .config ∨ ∀ l, (t.line l).tx = .idle := by
  cases h with
  | same mode => exact .inl (mode ▸ config)
  | started start mode => simp [mode] at config
  | stopping stop u run mode after =>
    subst after
    rw [doStop, if_neg (by simp [mode])] at config ⊢
    exact (stopIfDone_config config).imp_left nofun
  | stopped row u mode after =>
    subst after
    exact (stopIfDone_config config).imp_left mode.symm.trans

/-- RUN is left with nothing waiting. -/
theorem ModeCase.leavesRun (h : ModeCase c s t) (run : s.cmd.mode = .run) (left : t.cmd.mode ≠ .run) : NothingWaits t := by
  cases h with
  | same mode => exact absurd (mode.trans run) left
  | started start mode => exact absurd mode left
  | stopping stop u _ mode after => exact after ▸ doStop_nothingWaits mode
  | stopped row u mode after =>
    subst after
    rcases u.stopIfDone_cases with ⟨stopping, -⟩ | ⟨-, h⟩
    · simp [mode.symm.trans stopping] at run
    · rw [h] at left
      exact absurd (mode.trans run) left

theorem exec_nothingWaits (h : exec c s = .next t) (noReset : c ≠ .hardwareReset) (mode : s.cmd.mode ≠ .run)
    (waits : NothingWaits s) : NothingWaits t where
  buffers l := (exec_linesStep h noReset l).induct (fun u => u.buffers = []) (fun _ _ step => (step.idle mode).2) (waits.buffers l)
  owed := exec_owed h noReset mode waits.owed

theorem exec_txIdle (h : exec c s = .next t) (noReset : c ≠ .hardwareReset) (mode : s.cmd.mode ≠ .run) {l : LineNo}
    (idle : (s.line l).tx = .idle) : (t.line l).tx = .idle :=
  (exec_linesStep h noReset l).induct (fun u => u.tx = .idle) (fun _ _ step => (step.idle mode).1) idle

theorem ModeInv.nothingWaits (inv : ModeInv s) (mode : s.cmd.mode ≠ .run) : NothingWaits s :=
  ⟨inv.buffersInRun mode, inv.owedInRun mode⟩

theorem ModeInv.hardwareReset (h : exec .hardwareReset s = .next t) (unit : UnitAgrees t) : ModeInv t where
  buffersInRun _ l := by rw [lines_of_hardwareReset h]; rfl
  owedInRun _ n := by
    cases h
    change (Vector.replicate 32 false)[n] = false
    simp
  stopping := unit.stopping
  configEngine := unit.configEngine
  configTx _ l := by rw [lines_of_hardwareReset h]; rfl
  stopPending := unit.stopPending

theorem exec_modeInv (h : exec c s = .next t) (inv : ModeInv s) : ModeInv t := by
  have unit := exec_unitAgrees h inv.unit
  by_cases isReset : c = .hardwareReset
  · subst isReset
    exact .hardwareReset h unit
  have mode := exec_mode h isReset
  have waits (left : t.cmd.mode ≠ .run) : NothingWaits t := by
    by_cases run : s.cmd.mode = .run
    · exact mode.leavesRun run left
    · exact exec_nothingWaits h isReset run (inv.nothingWaits run)
  exact
    { buffersInRun := fun left => (waits left).buffers
      owedInRun := fun left => (waits left).owed
      stopping := unit.stopping
      configEngine := unit.configEngine
      configTx := fun config l => by
        rcases mode.config config with before | idle
        · exact exec_txIdle h isReset (by simp [before]) (inv.configTx before l)
        · exact idle l
      stopPending := unit.stopPending }

/-- Settles O58: the command unit and the engine are moved together by the rows that move either, RUN is left by STOP alone, which
discards what waits, and CONFIG is entered by STOP's completion alone, with every transmitter IDLE. -/
theorem modeInvariantKept : Obligations.ModeInvariantKept := by
  unfold Obligations.ModeInvariantKept
  intro s t inv h
  rcases step_cases h with rfl | ⟨c, rest, -, h⟩
  · exact inv
  · exact exec_modeInv h
      ⟨inv.buffersInRun, inv.owedInRun, inv.stopping, inv.configEngine, inv.configTx, inv.stopPending⟩

end Waiting

end Sys2Proof.Machine
end

