-- ==== Sys2Proof/Proofs/SourceTable.lean ====
section
/-! SUPPORT. The source table agrees with the records, and histories are legal (spec 03 R60, R63, R64, R66). -/

namespace Sys2Proof.Machine

/-! ## The records of a source -/

section Held

variable {s t : State}

theorem State.mem_heldBy {a : Byte} {n : CtxNo} : n ∈ s.heldBy a ↔ (s.ctx n).state ≠ .free ∧ (s.ctx n).source = a := by
  simp [State.heldBy]

theorem State.heldBy_nodup (s : State) (a : Byte) : (s.heldBy a).Nodup := (List.nodup_finRange 32).filter _

theorem State.heldBy_congr {a : Byte}
    (same : ∀ n, ((t.ctx n).state ≠ .free ∧ (t.ctx n).source = a) ↔ (s.ctx n).state ≠ .free ∧ (s.ctx n).source = a) :
    t.heldBy a = s.heldBy a := by
  refine List.filter_congr fun n _ => ?_
  have := same n
  grind

theorem filter_eq_singleton (n : CtxNo) : ((List.finRange 32).filter fun m => m == n) = [n] := by
  revert n
  decide

theorem State.heldBy_eq_singleton {a : Byte} {n : CtxNo} :
    s.heldBy a = [n] ↔ ∀ m, ((s.ctx m).state ≠ .free ∧ (s.ctx m).source = a) ↔ m = n := by
  constructor
  · intro held m
    rw [← State.mem_heldBy, held, List.mem_singleton]
  · intro only
    rw [← filter_eq_singleton n]
    refine List.filter_congr fun m _ => ?_
    have := only m
    grind

theorem State.heldBy_length_add {a : Byte} {n : CtxNo} (was : n ∉ s.heldBy a) (is : n ∈ t.heldBy a)
    (others : ∀ m, m ≠ n → (m ∈ t.heldBy a ↔ m ∈ s.heldBy a)) : (t.heldBy a).length = (s.heldBy a).length + 1 := by
  have perm : ((t.heldBy a).erase n).Perm (s.heldBy a) := by
    rw [List.perm_ext_iff_of_nodup ((t.heldBy_nodup a).erase n) (s.heldBy_nodup a)]
    intro m
    rw [(t.heldBy_nodup a).mem_erase_iff]
    by_cases here : m = n
    · simp [here, was]
    · simp [here, others m here]
  rw [← perm.length_eq, List.length_erase_of_mem is, Nat.sub_add_cancel (List.length_pos_of_mem is)]

end Held

/-! ## The clauses that the records' part decides -/

/-- The clauses of `SourcesInv` that hold between any two elementary changes. -/
structure TableAgrees (s : State) : Prop where
  unique : ∀ j k, (s.source j).state ≠ .unused → (s.source k).state ≠ .unused →
    (s.source j).address = (s.source k).address → j = k
  present : ∀ n, (s.ctx n).state ≠ .free → ∃ k, (s.source k).state ≠ .unused ∧ (s.source k).address = (s.ctx n).source
  counts : ∀ k, (s.source k).state ≠ .unused → (s.source k).openCount = (s.heldBy (s.source k).address).length
  limits : ∀ k, (s.source k).openCount ≤ (s.source k).openLimit
  unusedCleared : ∀ k, (s.source k).state = .unused → s.source k = .cleared

theorem SourcesInv.table {s : State} (inv : SourcesInv s) : TableAgrees s :=
  ⟨inv.unique, inv.present, inv.counts, inv.limits, inv.unusedCleared⟩

/-- Two entries alike in state, address, open count and open limit. -/
structure SourceEntry.Alike (e f : SourceEntry) : Prop where
  state : f.state = e.state
  address : f.address = e.address
  count : f.openCount = e.openCount
  limit : f.openLimit = e.openLimit
  cleared : e = .cleared → f = .cleared

theorem SourceEntry.Alike.refl (e : SourceEntry) : e.Alike e := ⟨rfl, rfl, rfl, rfl, id⟩

section Table

variable {w : Warrant} {s t : State} {n : CtxNo}

/-- The entry found for an address is the entry that holds it. -/
theorem TableAgrees.findSource (inv : TableAgrees s) {k : SlotNo} (used : (s.source k).state ≠ .unused) :
    s.findSource (s.source k).address = some k := by
  cases found : s.findSource (s.source k).address with
  | none => exact absurd rfl (State.findSource_none.1 found k used)
  | some j =>
    obtain ⟨usedJ, address⟩ := State.findSource_some found
    rw [inv.unique j k usedJ used address]

theorem TableAgrees.findSource_iff (inv : TableAgrees s) {k : SlotNo} (used : (s.source k).state ≠ .unused) (a : Byte) :
    s.findSource a = some k ↔ (s.source k).address = a :=
  ⟨fun found => (State.findSource_some found).2, fun address => address ▸ inv.findSource used⟩

/-- Entries alike and records in use the same with their sources. -/
theorem TableAgrees.of_alike (inv : TableAgrees s) (entries : ∀ k, (s.source k).Alike (t.source k))
    (records : ∀ m, ((t.ctx m).state = .free ↔ (s.ctx m).state = .free) ∧
      ((s.ctx m).state ≠ .free → (t.ctx m).source = (s.ctx m).source)) : TableAgrees t := by
  have held (a : Byte) : t.heldBy a = s.heldBy a := State.heldBy_congr fun m => by
    obtain ⟨free, source⟩ := records m
    by_cases used : (s.ctx m).state = .free
    · simp [used, free.2 used]
    · simp [used, mt free.1 used, source used]
  refine ⟨fun j k => ?_, fun m used => ?_, fun k used => ?_, fun k => ?_, fun k unused => ?_⟩
  · rw [(entries j).state, (entries k).state, (entries j).address, (entries k).address]
    exact inv.unique j k
  · obtain ⟨free, source⟩ := records m
    have usedBefore := mt free.2 used
    obtain ⟨k, inUse, address⟩ := inv.present m usedBefore
    exact ⟨k, (entries k).state ▸ inUse, by rw [(entries k).address, address, source usedBefore]⟩
  · rw [(entries k).state] at used
    rw [(entries k).count, (entries k).address, held]
    exact inv.counts k used
  · rw [(entries k).count, (entries k).limit]
    exact inv.limits k
  · rw [(entries k).state] at unused
    exact (entries k).cleared (inv.unusedCleared k unused)

theorem TableAgrees.of_records (same : t.records = s.records) (inv : TableAgrees s) : TableAgrees t := by
  have ctx (m : CtxNo) : t.ctx m = s.ctx m := State.ctx_congr (congrArg Records.ctxs same) m
  have source (k : SlotNo) : t.source k = s.source k := State.source_congr (congrArg Records.sources same) k
  exact inv.of_alike (fun k => source k ▸ .refl _) fun m => by rw [ctx]; exact ⟨.rfl, fun _ => rfl⟩

/-- One record in use rewritten, its source kept. -/
theorem TableAgrees.of_set {r : Ctx} (inv : TableAgrees s) (ctxs : ∀ m, t.ctx m = if m = n then r else s.ctx m)
    (used : (s.ctx n).state ≠ .free) (stays : r.state ≠ .free) (source : r.source = (s.ctx n).source)
    (entries : ∀ k, (s.source k).Alike (t.source k)) : TableAgrees t := by
  refine inv.of_alike entries fun m => ?_
  rw [ctxs]
  split
  · rename_i e
    subst e
    exact ⟨iff_of_false stays used, fun _ => source⟩
  · exact ⟨.rfl, fun _ => rfl⟩

/-- Freeing lowers the one count that counted the record (spec 01 R26, 03 R64). -/
theorem TableAgrees.freed (inv : TableAgrees s) (used : (s.ctx n).state ≠ .free)
    (ctxs : ∀ m, t.ctx m = if m = n then Ctx.cleared else s.ctx m) (entries : ∀ k, t.source k = (s.freeCtx n).source k) :
    TableAgrees t := by
  have source (k : SlotNo) := (entries k).trans (s.source_freeCtx n k)
  have others (m : CtxNo) (h : m ≠ n) : t.ctx m = s.ctx m := by rw [ctxs, if_neg h]
  have gone : (t.ctx n).state = .free := by rw [ctxs, if_pos rfl]; rfl
  have members (a : Byte) (m : CtxNo) (other : m ≠ n) : m ∈ s.heldBy a ↔ m ∈ t.heldBy a := by
    rw [State.mem_heldBy, State.mem_heldBy, others m other]
  have left (a : Byte) : n ∉ t.heldBy a := fun h => (State.mem_heldBy.1 h).1 gone
  refine ⟨fun j k => ?_, fun m inUse => ?_, fun k inUse => ?_, fun k => ?_, fun k unused => ?_⟩
  · rw [source, source]
    exact inv.unique j k
  · have other : m ≠ n := fun e => inUse (e ▸ gone)
    rw [others m other] at inUse ⊢
    obtain ⟨k, usedK, address⟩ := inv.present m inUse
    exact ⟨k, by rw [source]; exact usedK, by rw [source]; exact address⟩
  · rw [source] at inUse
    have count := inv.counts k inUse
    rw [source]
    change (if _ then _ else _) = (t.heldBy (s.source k).address).length
    by_cases own : (s.source k).address = (s.ctx n).source
    · rw [if_pos ((inv.findSource_iff inUse _).2 own)]
      have grew := State.heldBy_length_add (left (s.source k).address) (State.mem_heldBy.2 ⟨used, own.symm⟩)
        (members (s.source k).address)
      omega
    · rw [if_neg fun found => own ((inv.findSource_iff inUse _).1 found), count]
      refine congrArg List.length (State.heldBy_congr fun m => ?_).symm
      by_cases here : m = n
      · subst here
        simp [gone, Ne.symm own]
      · rw [others m here]
  · rw [source]
    change (if _ then _ else _) ≤ (s.source k).openLimit
    split
    · exact (Nat.sub_le _ _).trans (inv.limits k)
    · exact inv.limits k
  · rw [source] at unused ⊢
    have cleared := inv.unusedCleared k unused
    rw [if_neg fun found => (State.findSource_some found).1 unused]
    exact cleared

theorem Ctx.duplicated_source (r : Ctx) (seg : Segment) : (r.duplicated seg).source = r.source := (r.duplicated_key seg).1

theorem TableAgrees.joinIfWhole (inv : TableAgrees s) (n : CtxNo) (used : (s.ctx n).state ≠ .free) :
    TableAgrees (joinIfWhole n s) := by
  rcases joinIfWhole_cases s n with ⟨-, h⟩ | ⟨-, h⟩ <;> rw [h]
  · exact inv.of_set (s.ctx_joined n) used nofun rfl fun _ => .refl _
  · exact inv

/-- A record opened is counted at its source's entry (spec 01 R14, 03 R64). -/
theorem TableAgrees.opened {k : SlotNo} {cls : MsgClass} {seg : Segment} (inv : TableAgrees s) (free : (s.ctx n).state = .free)
    (enabled : (s.source k).state = .enabled) (address : (s.source k).address = seg.source)
    (limit : (s.source k).openCount < (s.source k).openLimit) : TableAgrees (s.openedFor n k cls seg) := by
  have ctxs (m : CtxNo) := s.ctx_openedFor n m k cls seg
  have entries (j : SlotNo) : (s.openedFor n k cls seg).source j =
      { s.source j with openCount := if j = k then (s.source k).openCount + 1 else (s.source j).openCount } := by
    rw [State.openedFor, State.source_setSource]
    split
    · rename_i e
      rw [e]
    · rfl
  have own : ((s.openedFor n k cls seg).ctx n).source = seg.source ∧ ((s.openedFor n k cls seg).ctx n).state ≠ .free := by
    rw [ctxs, if_pos rfl]
    exact ⟨rfl, nofun⟩
  have others (m : CtxNo) (h : m ≠ n) : (s.openedFor n k cls seg).ctx m = s.ctx m := by rw [ctxs, if_neg h]
  refine ⟨fun j i => ?_, fun m inUse => ?_, fun j inUse => ?_, fun j => ?_, fun j unused => ?_⟩
  · rw [entries, entries]
    exact inv.unique j i
  · by_cases here : m = n
    · subst here
      exact ⟨k, by rw [entries]; simp [enabled], by rw [entries, own.1]; exact address⟩
    · rw [others m here] at inUse ⊢
      obtain ⟨j, usedJ, addressJ⟩ := inv.present m inUse
      exact ⟨j, by rw [entries]; exact usedJ, by rw [entries]; exact addressJ⟩
  · rw [entries] at inUse ⊢
    have count := inv.counts j inUse
    change (if _ then _ else _) = ((s.openedFor n k cls seg).heldBy (s.source j).address).length
    by_cases here : j = k
    · subst here
      rw [if_pos rfl, count]
      refine (State.heldBy_length_add (fun h => (State.mem_heldBy.1 h).1 free)
        (State.mem_heldBy.2 ⟨own.2, own.1.trans address.symm⟩) fun m other => ?_).symm
      rw [State.mem_heldBy, State.mem_heldBy, others m other]
    · rw [if_neg here, count]
      refine congrArg List.length (State.heldBy_congr fun m => ?_).symm
      by_cases this : m = n
      · subst this
        have apart : seg.source ≠ (s.source j).address := fun same =>
          here (inv.unique j k inUse (by simp [enabled]) (same.symm.trans address.symm))
        simp [own.1, free, apart]
      · rw [others m this]
  · rw [entries]
    change (if _ then _ else _) ≤ (s.source j).openLimit
    have := inv.limits j
    split
    · rename_i e
      rw [e]
      exact limit
    · exact this
  · rw [entries] at unused ⊢
    have cleared := inv.unusedCleared j unused
    have other : j ≠ k := by
      rintro rfl
      simp [enabled] at unused
    rw [if_neg other]
    exact cleared

/-- A new entry holds an address that no record in use has (spec 03 R60, R61). -/
theorem TableAgrees.added {k : SlotNo} {e : SourceEntry} (inv : TableAgrees s) (unused : (s.source k).state = .unused)
    (unknown : s.findSource e.address = none) (enabled : e.state = .enabled) (count : e.openCount = 0) :
    TableAgrees (s.setSource k e) := by
  rw [State.findSource_none] at unknown
  have entries (j : SlotNo) := s.source_setSource k j e
  refine ⟨fun j i => ?_, fun m inUse => ?_, fun j inUse => ?_, fun j => ?_, fun j => ?_⟩
  · rw [entries, entries]
    by_cases first : j = k <;> by_cases second : i = k
    · exact fun _ _ _ => first.trans second.symm
    · rw [if_pos first, if_neg second]
      exact fun _ usedI address => absurd address.symm (unknown i usedI)
    · rw [if_neg first, if_pos second]
      exact fun usedJ _ address => absurd address (unknown j usedJ)
    · rw [if_neg first, if_neg second]
      exact inv.unique j i
  · obtain ⟨j, usedJ, address⟩ := inv.present m inUse
    have other : j ≠ k := by
      rintro rfl
      exact usedJ unused
    exact ⟨j, by rwa [entries, if_neg other], by rwa [entries, if_neg other]⟩
  · change ((s.setSource k e).source j).openCount = (s.heldBy ((s.setSource k e).source j).address).length
    rw [entries] at inUse ⊢
    split
    · rw [count, eq_comm, List.length_eq_zero_iff, List.eq_nil_iff_forall_not_mem]
      intro m listed
      obtain ⟨usedM, source⟩ := State.mem_heldBy.1 listed
      obtain ⟨i, usedI, address⟩ := inv.present m usedM
      exact unknown i usedI (address.trans source)
    · rename_i other
      rw [if_neg other] at inUse
      exact inv.counts j inUse
  · rw [entries]
    split
    · omega
    · exact inv.limits j
  · rw [entries]
    split
    · simp [enabled]
    · exact inv.unusedCleared j

/-- An entry leaves the table once no record in use has its address (spec 03 R63). -/
theorem TableAgrees.dropped {k : SlotNo} (inv : TableAgrees s)
    (gone : ∀ n, (s.ctx n).state ≠ .free → (s.ctx n).source ≠ (s.source k).address) :
    TableAgrees (s.setSource k .cleared) := by
  have entries (j : SlotNo) := s.source_setSource k j .cleared
  refine ⟨fun j i => ?_, fun m inUse => ?_, fun j inUse => ?_, fun j => ?_, fun j => ?_⟩
  · rw [entries, entries]
    split
    · exact fun used => absurd rfl used
    · split
      · exact fun _ used => absurd rfl used
      · exact inv.unique j i
  · obtain ⟨j, usedJ, address⟩ := inv.present m inUse
    have other : j ≠ k := by
      rintro rfl
      exact gone m inUse address.symm
    exact ⟨j, by rwa [entries, if_neg other], by rwa [entries, if_neg other]⟩
  · change ((s.setSource k .cleared).source j).openCount = (s.heldBy ((s.setSource k .cleared).source j).address).length
    rw [entries] at inUse ⊢
    split
    · rename_i here
      rw [if_pos here] at inUse
      exact absurd rfl inUse
    · rename_i other
      rw [if_neg other] at inUse
      exact inv.counts j inUse
  · rw [entries]
    split
    · exact Nat.zero_le _
    · exact inv.limits j
  · rw [entries]
    split
    · exact fun _ => rfl
    · exact inv.unusedCleared j

/-- An entry in use changed in its state alone. -/
theorem TableAgrees.marked {k : SlotNo} {st : SourceState} (inv : TableAgrees s) (used : (s.source k).state ≠ .unused)
    (stays : st ≠ .unused) : TableAgrees (s.setSource k { s.source k with state := st }) := by
  have entries (j : SlotNo) : (s.setSource k { s.source k with state := st }).source j =
      { s.source j with state := if j = k then st else (s.source j).state } := by
    rw [State.source_setSource]
    split
    · rename_i e
      rw [e]
    · rfl
  have inUse (j : SlotNo) : (if j = k then st else (s.source j).state) ≠ .unused → (s.source j).state ≠ .unused := by
    split
    · rename_i e
      exact fun _ => e ▸ used
    · exact id
  refine ⟨fun j i usedJ usedI => ?_, fun m h => ?_, fun j h => ?_, fun j => ?_, fun j unused => ?_⟩
  · rw [entries] at usedJ usedI
    rw [entries, entries]
    exact inv.unique j i (inUse j usedJ) (inUse i usedI)
  · obtain ⟨j, usedJ, address⟩ := inv.present m h
    refine ⟨j, ?_, by rw [entries]; exact address⟩
    rw [entries]
    change (if _ then _ else _) ≠ _
    split
    · exact stays
    · exact usedJ
  · rw [entries] at h ⊢
    exact inv.counts j (inUse j h)
  · rw [entries]
    exact inv.limits j
  · rw [entries] at unused ⊢
    change (if _ then _ else _) = _ at unused
    split at unused
    · exact absurd unused stays
    · rename_i other
      rw [if_neg other]
      exact inv.unusedCleared j unused

theorem SourceEntry.pushHistory_alike (e : SourceEntry) (msgno : MsgNo) (used : e.state ≠ .unused) :
    e.Alike (e.pushHistory msgno) :=
  ⟨rfl, rfl, rfl, rfl, fun cleared => absurd (by rw [cleared]; rfl) used⟩

theorem SourceEntry.spendCredit_alike (e : SourceEntry) (msgno : MsgNo) : e.Alike (e.spendCredit msgno) :=
  ⟨rfl, rfl, rfl, rfl, fun cleared => by rw [cleared]; rfl⟩

theorem alike_matched (s : State) (n : CtxNo) (k : SlotNo) : (s.source k).Alike ((s.matched n).source k) := by
  rw [source_matched, source_pushHistory]
  split
  · exact SourceEntry.pushHistory_alike _ _ (State.findSource_some ‹_›).1
  · exact .refl _

theorem alike_requestStop (s : State) (n : CtxNo) (k : SlotNo) : (s.source k).Alike ((s.requestStop n).source k) := by
  rw [source_requestStop]
  exact .refl _

theorem Change.table (h : Change w s t) (granted : w.collections) (sourced : w.sources) (collections : CollectionsInv s)
    (inv : TableAgrees s) : TableAgrees t := by
  cases h with
  | adjusts ctxs adjust =>
    exact inv.of_alike (fun _ => .refl _) fun m => ⟨by change ctxs[m].state = _ ↔ _; rw [(adjust m).state],
      fun _ => (adjust m).source⟩
  | names n seg collecting =>
    have used : (s.ctx n).state ≠ .free := by simp [collecting]
    have stays : ((s.ctx n).duplicated seg).state ≠ .free := by rw [Ctx.duplicated_state]; exact used
    refine (inv.of_set (fun m => s.ctx_setCtx n m _) used stays (Ctx.duplicated_source _ _) fun _ => .refl _).joinIfWhole n ?_
    rwa [State.ctx_setCtx_same]
  | stores n seg fits collecting =>
    have used : (s.ctx n).state ≠ .free := by simp [collecting]
    have stored : TableAgrees (allocateAndStore n seg s) :=
      inv.of_set (r := (s.ctx n).stored seg _) (fun m => ctx_allocateAndStore s n m seg) used used rfl fun _ => .refl _
    refine stored.joinIfWhole n ?_
    rw [ctx_allocateAndStore, if_pos rfl]
    exact used
  | opens n k cls seg free unheld enabled address unseen limit => exact inv.opened free enabled address limit
  | frees n used => exact inv.freed (used granted) (fun m => s.ctx_freeCtx n m) fun _ => rfl
  | loses n r held => exact inv.freed (by simp [held granted]) (fun m => s.ctx_freeCtx n m) fun _ => rfl
  | ends n checked =>
    exact inv.freed (by simp [collections.state_underCheck checked]) (fun m => s.ctx_freeCtx n m) fun _ => rfl
  | confirms n checked =>
    exact inv.of_set (s.ctx_matched n) (by simp [collections.state_underCheck checked]) nofun rfl (alike_matched s n)
  | requests n checked =>
    have used : (s.ctx n).state ≠ .free := by simp [collections.state_underCheck checked]
    exact inv.of_set (s.ctx_requestStop n) used used rfl (alike_requestStop s n)
  | claims n rest port queue =>
    have ready := (collections.deliveryHolds n).1 (by simp [queue])
    exact inv.of_set (fun m => ctx_claim s n m rest) (by simp [ready]) nofun rfl fun _ => .refl _
  | adds k e unused unknown enabled count history => exact inv.added unused unknown enabled count
  | marks k st used state =>
    refine inv.marked used ?_
    rcases state with ⟨rfl, -⟩ | ⟨rfl, -⟩ | ⟨rfl, -⟩ <;> nofun
  | drops k closing gone => exact inv.dropped (gone sourced)
  | spends k msgno =>
    refine inv.of_alike (fun j => ?_) fun _ => ⟨.rfl, fun _ => rfl⟩
    rw [State.source_setSource]
    split
    · rename_i e
      exact e ▸ SourceEntry.spendCredit_alike _ _
    · exact .refl _
  | _ => exact inv.of_alike (fun _ => .refl _) fun _ => ⟨.rfl, fun _ => rfl⟩

theorem State.AtReset.table (h : s.AtReset) : TableAgrees s where
  unique j k used := absurd (by rw [h.source]; rfl) used
  present n used := absurd (by rw [h.ctx]; rfl) used
  counts k used := absurd (by rw [h.source]; rfl) used
  limits k := by rw [h.source]; exact Nat.zero_le _
  unusedCleared k _ := h.source k

end Table

/-! ## Histories -/

/-- A record whose message is not yet checked. -/
def Ctx.assembling (r : Ctx) : Prop := r.state = .collecting ∨ r.state = .verifying

/-- An entry whose history holds the same message numbers, with credits spent at most. -/
structure SourceEntry.Remembers (e f : SourceEntry) : Prop where
  address : f.address = e.address
  used : f.state ≠ .unused → e.state ≠ .unused
  msgnos : f.history.map HistRec.msgno = e.history.map HistRec.msgno
  credit : (∀ h ∈ e.history, h.credit ≤ 3) → ∀ h ∈ f.history, h.credit ≤ 3

theorem SourceEntry.Remembers.of_same {e f : SourceEntry} (address : f.address = e.address) (state : f.state = e.state)
    (history : f.history = e.history) : e.Remembers f :=
  ⟨address, fun used => state ▸ used, by rw [history], by rw [history]; exact id⟩

theorem SourceEntry.Remembers.refl (e : SourceEntry) : e.Remembers e := .of_same rfl rfl rfl

section Histories

variable {w : Warrant} {s t : State} {n : CtxNo}

theorem HistoryInv.not_assembling (inv : HistoryInv s) {k : SlotNo} (used : (s.source k).state ≠ .unused) (n : CtxNo)
    (source : (s.ctx n).source = (s.source k).address)
    (mem : (s.ctx n).msgno ∈ (s.source k).history.map HistRec.msgno) : ¬(s.ctx n).assembling := by
  obtain ⟨h, listed, msgno⟩ := List.mem_map.1 mem
  obtain ⟨collecting, verifying⟩ := inv.notCollecting k used h listed n source msgno.symm
  rintro (state | state)
  · exact collecting state
  · exact verifying state

theorem HistoryInv.of_not_assembling (nodup : ∀ k, ((s.source k).history.map HistRec.msgno).Nodup)
    (credit : ∀ k, ∀ h ∈ (s.source k).history, h.credit ≤ 3)
    (apart : ∀ k, (s.source k).state ≠ .unused → ∀ n, (s.ctx n).source = (s.source k).address →
      (s.ctx n).msgno ∈ (s.source k).history.map HistRec.msgno → ¬(s.ctx n).assembling) : HistoryInv s :=
  ⟨nodup, credit, fun k used h mem n source msgno => by
    have apart := apart k used n source (List.mem_map.2 ⟨h, mem, msgno.symm⟩)
    exact ⟨fun state => apart (.inl state), fun state => apart (.inr state)⟩⟩

/-- No history gains a message number, and no record comes to assemble one of them. -/
theorem HistoryInv.of_kept (inv : HistoryInv s)
    (entries : ∀ k, (t.source k).history = [] ∨ (s.source k).Remembers (t.source k))
    (records : ∀ m, (t.ctx m).assembling →
      (s.ctx m).assembling ∧ (t.ctx m).source = (s.ctx m).source ∧ (t.ctx m).msgno = (s.ctx m).msgno) : HistoryInv t := by
  refine .of_not_assembling (fun k => ?_) (fun k => ?_) fun k used m source mem assembling => ?_
  · rcases entries k with none | kept
    · simp [none]
    · rw [kept.msgnos]
      exact inv.nodup k
  · rcases entries k with none | kept
    · simp [none]
    · exact kept.credit (inv.credit k)
  · obtain ⟨before, sourceKept, msgnoKept⟩ := records m assembling
    rcases entries k with none | kept
    · simp [none] at mem
    · refine inv.not_assembling (kept.used used) m ?_ ?_ before
      · rw [← sourceKept, source, kept.address]
      · rw [← msgnoKept, ← kept.msgnos]
        exact mem

theorem HistoryInv.of_records (same : t.records = s.records) (inv : HistoryInv s) : HistoryInv t := by
  have ctx (m : CtxNo) : t.ctx m = s.ctx m := State.ctx_congr (congrArg Records.ctxs same) m
  have source (k : SlotNo) : t.source k = s.source k := State.source_congr (congrArg Records.sources same) k
  exact inv.of_kept (fun k => .inr (source k ▸ .refl _)) fun m => by rw [ctx]; exact fun h => ⟨h, rfl, rfl⟩

/-- One record rewritten: it assembles nothing, or what it assembled before. -/
theorem HistoryInv.of_set {r : Ctx} (inv : HistoryInv s) (ctxs : ∀ m, t.ctx m = if m = n then r else s.ctx m)
    (kept : r.assembling → (s.ctx n).assembling ∧ r.source = (s.ctx n).source ∧ r.msgno = (s.ctx n).msgno)
    (entries : ∀ k, (t.source k).history = [] ∨ (s.source k).Remembers (t.source k)) : HistoryInv t := by
  refine inv.of_kept entries fun m => ?_
  rw [ctxs]
  split
  · rename_i e
    exact e ▸ kept
  · exact fun h => ⟨h, rfl, rfl⟩

theorem HistoryInv.freed (inv : HistoryInv s) (ctxs : ∀ m, t.ctx m = if m = n then Ctx.cleared else s.ctx m)
    (entries : ∀ k, t.source k = (s.freeCtx n).source k) : HistoryInv t :=
  inv.of_set ctxs (fun h => by rcases h with h | h <;> cases h) fun k => .inr (by
    rw [entries, State.source_freeCtx]
    exact .of_same rfl rfl rfl)

theorem HistoryInv.joinIfWhole (inv : HistoryInv s) (n : CtxNo) (assembling : (s.ctx n).assembling) :
    HistoryInv (joinIfWhole n s) := by
  rcases joinIfWhole_cases s n with ⟨-, h⟩ | ⟨-, h⟩ <;> rw [h]
  · exact inv.of_set (s.ctx_joined n) (fun _ => ⟨assembling, rfl, rfl⟩) fun _ => .inr (.refl _)
  · exact inv

theorem SourceEntry.findHistory_none {e : SourceEntry} {msgno : MsgNo} (none : e.findHistory msgno = none) :
    msgno ∉ e.history.map HistRec.msgno := by
  rw [SourceEntry.findHistory, List.find?_eq_none] at none
  intro mem
  obtain ⟨h, listed, number⟩ := List.mem_map.1 mem
  exact none h listed (by simp [number])

/-- The number of a message that opens is in no history of its source (spec 03 R56). -/
theorem HistoryInv.opened {k : SlotNo} {cls : MsgClass} {seg : Segment} (inv : HistoryInv s) (table : TableAgrees s)
    (enabled : (s.source k).state = .enabled) (address : (s.source k).address = seg.source)
    (unseen : (s.source k).findHistory seg.msgno = none) : HistoryInv (s.openedFor n k cls seg) := by
  have entry (j : SlotNo) : (s.openedFor n k cls seg).source j =
      { s.source j with openCount := ((s.openedFor n k cls seg).source j).openCount } := by
    rw [State.openedFor, State.source_setSource]
    split
    · rename_i e
      rw [e]
    · rfl
  have remembers (j : SlotNo) : (s.source j).Remembers ((s.openedFor n k cls seg).source j) := by
    rw [entry]
    exact .of_same rfl rfl rfl
  refine .of_not_assembling (fun j => (remembers j).msgnos ▸ inv.nodup j) (fun j => (remembers j).credit (inv.credit j))
    fun j used m => ?_
  rw [(remembers j).address, (remembers j).msgnos, State.ctx_openedFor]
  split
  · intro source mem
    have own : j = k := table.unique j k ((remembers j).used used) (by simp [enabled]) (source.symm.trans address.symm)
    exact absurd (own ▸ mem) (SourceEntry.findHistory_none unseen)
  · exact inv.not_assembling ((remembers j).used used) m

theorem pushHistory_msgnos (e : SourceEntry) (msgno : MsgNo) :
    ∃ kept, List.Sublist kept e.history ∧ (e.pushHistory msgno).history = kept ++ [⟨msgno, 3⟩] := by
  unfold SourceEntry.pushHistory
  dsimp only
  split
  · exact ⟨_, List.Sublist.refl _, rfl⟩
  · exact ⟨_, List.tail_sublist _, rfl⟩

/-- A match pushes a number that the history did not hold, and its record assembles nothing any more (spec 03 R66). -/
theorem HistoryInv.matched (inv : HistoryInv s) (keys : KeysUnique s) (verifying : (s.ctx n).state = .verifying) :
    HistoryInv (s.matched n) := by
  have entry (k : SlotNo) : (s.matched n).source k = s.source k ∨
      (s.matched n).source k = (s.source k).pushHistory (s.ctx n).msgno ∧ (s.source k).state ≠ .unused ∧
        (s.source k).address = (s.ctx n).source := by
    rw [source_matched, source_pushHistory]
    split
    · exact .inr ⟨rfl, State.findSource_some ‹_›⟩
    · exact .inl rfl
  have records (m : CtxNo) (assembling : ((s.matched n).ctx m).assembling) : m ≠ n ∧ (s.matched n).ctx m = s.ctx m := by
    rw [State.ctx_matched] at assembling ⊢
    split at assembling
    · rcases assembling with h | h <;> cases h
    · rename_i other
      exact ⟨other, if_neg other⟩
  refine .of_not_assembling (fun k => ?_) (fun k => ?_) fun k used m source mem assembling => ?_
  · rcases entry k with same | ⟨pushed, used, address⟩
    · rw [same]
      exact inv.nodup k
    · obtain ⟨kept, sublist, history⟩ := pushHistory_msgnos (s.source k) (s.ctx n).msgno
      rw [pushed, history, List.map_append]
      have apart := fun mem => inv.not_assembling used n address.symm mem (.inr verifying)
      refine List.Nodup.append ((inv.nodup k).sublist (sublist.map _)) (List.nodup_singleton _) ?_
      exact List.disjoint_singleton.2 fun mem => apart ((sublist.map _).subset mem)
  · rcases entry k with same | ⟨pushed, -, -⟩
    · rw [same]
      exact inv.credit k
    · obtain ⟨kept, sublist, history⟩ := pushHistory_msgnos (s.source k) (s.ctx n).msgno
      rw [pushed, history]
      intro h mem
      rcases List.mem_append.1 mem with older | new
      · exact inv.credit k h (sublist.subset older)
      · rw [List.mem_singleton.1 new]
  · obtain ⟨other, before⟩ := records m assembling
    rw [before] at source mem assembling
    rcases entry k with same | ⟨pushed, usedBefore, address⟩
    · rw [same] at used source mem
      exact inv.not_assembling used m source mem assembling
    · obtain ⟨kept, sublist, history⟩ := pushHistory_msgnos (s.source k) (s.ctx n).msgno
      rw [pushed] at source
      rw [pushed, history, List.map_append] at mem
      rcases List.mem_append.1 mem with older | new
      · exact inv.not_assembling usedBefore m source ((sublist.map _).subset older) assembling
      · have inUse : (s.ctx m).state ≠ .free := by rcases assembling with h | h <;> simp [h]
        exact other (keys m n inUse (by simp [verifying]) (source.trans address) (List.mem_singleton.1 new))

theorem Change.history (h : Change w s t) (collections : CollectionsInv s) (keys : KeysUnique s) (table : TableAgrees s)
    (inv : HistoryInv s) : HistoryInv t := by
  have same (k : SlotNo) : (s.source k).history = [] ∨ (s.source k).Remembers (s.source k) := .inr (.refl _)
  have rewritten {k : SlotNo} {e : SourceEntry} (kept : e.history = [] ∨ (s.source k).Remembers e) (j : SlotNo) :
      ((s.setSource k e).source j).history = [] ∨ (s.source j).Remembers ((s.setSource k e).source j) := by
    rw [State.source_setSource]
    split
    · rename_i here
      exact here ▸ kept
    · exact .inr (.refl _)
  cases h with
  | adjusts ctxs adjust =>
    refine inv.of_kept same fun m assembling => ⟨?_, (adjust m).source, (adjust m).msgno⟩
    rw [Ctx.assembling, ← (adjust m).state]
    exact assembling
  | names n seg collecting =>
    have kept : HistoryInv (s.setCtx n ((s.ctx n).duplicated seg)) :=
      inv.of_set (fun m => s.ctx_setCtx n m _) (fun _ => ⟨.inl collecting, (s.ctx n).duplicated_key seg⟩) same
    refine kept.joinIfWhole n (.inl ?_)
    rw [State.ctx_setCtx_same, Ctx.duplicated_state, collecting]
  | stores n seg fits collecting =>
    have kept : HistoryInv (allocateAndStore n seg s) :=
      inv.of_set (r := (s.ctx n).stored seg _) (fun m => ctx_allocateAndStore s n m seg)
        (fun _ => ⟨.inl collecting, rfl, rfl⟩) same
    refine kept.joinIfWhole n (.inl ?_)
    rw [ctx_allocateAndStore, if_pos rfl]
    exact collecting
  | opens n k cls seg free unheld enabled address unseen => exact inv.opened table enabled address unseen
  | frees n => exact inv.freed (fun m => s.ctx_freeCtx n m) fun _ => rfl
  | loses n r => exact inv.freed (fun m => s.ctx_freeCtx n m) fun _ => rfl
  | ends n => exact inv.freed (fun m => s.ctx_freeCtx n m) fun _ => rfl
  | confirms n checked => exact inv.matched keys (collections.state_underCheck checked)
  | requests n =>
    refine inv.of_set (s.ctx_requestStop n) (fun h => ⟨h, rfl, rfl⟩) fun k => ?_
    rw [source_requestStop]
    exact same k
  | claims n rest =>
    exact inv.of_set (fun m => ctx_claim s n m rest) (fun h => by rcases h with h | h <;> cases h) same
  | adds k e unused unknown enabled count history =>
    exact inv.of_kept (rewritten (.inl history)) fun _ h => ⟨h, rfl, rfl⟩
  | marks k st used =>
    exact inv.of_kept (rewritten (.inr ⟨rfl, fun _ => used, rfl, id⟩)) fun _ h => ⟨h, rfl, rfl⟩
  | drops k => exact inv.of_kept (rewritten (.inl rfl)) fun _ h => ⟨h, rfl, rfl⟩
  | spends k msgno =>
    refine inv.of_kept (rewritten (.inr ⟨rfl, id, ?_, fun bound => ?_⟩)) fun _ h => ⟨h, rfl, rfl⟩
    · change ((s.source k).history.map _).map _ = _
      rw [List.map_map]
      refine List.map_congr_left fun h _ => ?_
      dsimp only [Function.comp]
      split <;> rfl
    · intro h mem
      obtain ⟨h, listed, rfl⟩ := List.mem_map.1 mem
      have := bound h listed
      split
      · exact (Nat.sub_le _ _).trans this
      · exact this
  | _ => exact inv.of_kept same fun _ h => ⟨h, rfl, rfl⟩

theorem State.AtReset.history (h : s.AtReset) : HistoryInv s where
  nodup k := by rw [h.source]; exact List.nodup_nil
  credit k := by rw [h.source]; exact nofun
  notCollecting k := by rw [h.source]; exact nofun

end Histories

end Sys2Proof.Machine
end

