-- ==== Sys2Proof/Proofs/Removals.lean ====
section
/-! SUPPORT. An entry is REMOVING only while its SRC_REMOVE waits for the engine, with the record under check its last (spec 03 R63). -/

namespace Sys2Proof.Machine

section Removal

variable {w : Warrant} {s t u : State} {n : CtxNo} {c : Instr}

/-! ## Through the changes of a row that removes nothing -/

/-- The removal of a source waits: the engine stops for its last record. -/
structure RemovalWaits (a : Byte) (s : State) : Prop where
  pends : s.stopPends
  last : ∃ n, s.checker.queue.head? = some n ∧ s.heldBy a = [n]

/-- The same entries are REMOVING. -/
def SameRemoving (s t : State) : Prop :=
  ∀ k, ((t.source k).state = .removing ↔ (s.source k).state = .removing) ∧
    ((s.source k).state = .removing → (t.source k).address = (s.source k).address)

theorem SameRemoving.of_sources (same : ∀ k, (t.source k).state = (s.source k).state ∧ (t.source k).address = (s.source k).address) :
    SameRemoving s t := fun k => by
  obtain ⟨state, address⟩ := same k
  exact ⟨by rw [state], fun _ => address⟩

theorem SameRemoving.of_alike (alike : ∀ k, (s.source k).Alike (t.source k)) : SameRemoving s t :=
  .of_sources fun k => ⟨(alike k).state, (alike k).address⟩

theorem SameRemoving.refl (s : State) : SameRemoving s s := .of_sources fun _ => ⟨rfl, rfl⟩

theorem SameRemoving.trans (h : SameRemoving s t) (next : SameRemoving t u) : SameRemoving s u := fun k =>
  ⟨(next k).1.trans (h k).1, fun removing => ((next k).2 ((h k).1.2 removing)).trans ((h k).2 removing)⟩

theorem SameRemoving.of_freeCtx (s : State) (n : CtxNo) : SameRemoving s (s.freeCtx n) :=
  .of_sources fun k => by rw [State.source_freeCtx]; exact ⟨rfl, rfl⟩

/-- One entry rewritten that is REMOVING neither before nor after. -/
theorem SameRemoving.of_set {k : SlotNo} {e : SourceEntry} (before : (s.source k).state ≠ .removing)
    (after : e.state ≠ .removing) : SameRemoving s (s.setSource k e) := fun j => by
  rw [State.source_setSource]
  split
  · rename_i here
    rw [here]
    exact ⟨iff_of_false after before, fun removing => absurd removing before⟩
  · exact ⟨.rfl, fun _ => rfl⟩

theorem Change.sameRemoving (h : Change w s t) (keeps : ¬w.closing) : SameRemoving s t := by
  cases h with
  | names n seg => exact .of_sources fun k => by rw [source_joinIfWhole]; exact ⟨rfl, rfl⟩
  | stores n seg => exact .of_sources fun k => by rw [source_joinIfWhole]; exact ⟨rfl, rfl⟩
  | opens n k cls seg free unheld enabled =>
    exact SameRemoving.of_set (s := s) (e := { s.source k with openCount := (s.source k).openCount + 1 }) (by simp [enabled])
      (by simp [enabled])
  | frees n => exact .of_freeCtx s n
  | loses n r => exact .of_freeCtx s n
  | ends n checked closing => exact absurd closing keeps
  | confirms n checked running closing => exact absurd closing keeps
  | requests n => exact .of_alike (alike_requestStop s n)
  | adds k e unused unknown enabled => exact .of_set (by simp [unused]) (by simp [enabled])
  | marks k st used state =>
    rcases state with ⟨rfl, was⟩ | ⟨rfl, was⟩ | ⟨-, closing⟩
    · exact .of_set (by simp [was]) nofun
    · exact .of_set (by simp [was]) nofun
    · exact absurd closing keeps
  | drops k closing => exact absurd closing keeps
  | spends k msgno =>
    refine .of_sources fun j => ?_
    rw [State.source_setSource]
    split
    · rename_i here
      exact here ▸ ⟨rfl, rfl⟩
    · exact ⟨rfl, rfl⟩
  | _ => exact .refl s

theorem RemovalWaits.underCheck {a : Byte} (waits : RemovalWaits a s) {n : CtxNo} (head : s.checker.queue.head? = some n) :
    s.underCheck = some n := by
  obtain ⟨_, _, engine⟩ := waits.pends
  exact State.underCheck_some.2 ⟨by simp [engine], head⟩

/-- The engine goes on waiting for the same record, which is still the source's only one. -/
theorem RemovalWaits.of_same {a : Byte} (waits : RemovalWaits a s) (engine : t.checker.engine = s.checker.engine)
    (head : s.checker.queue ≠ [] → t.checker.queue.head? = s.checker.queue.head?)
    (held : ∀ m, ((t.ctx m).state ≠ .free ∧ (t.ctx m).source = a) ↔ (s.ctx m).state ≠ .free ∧ (s.ctx m).source = a) :
    RemovalWaits a t := by
  obtain ⟨pends, n, first, only⟩ := waits
  refine ⟨by rwa [State.stopPends, engine], n, ?_, ?_⟩
  · rw [head fun nil => by simp [nil] at first, first]
  · rw [State.heldBy_congr held, only]

/-- A record of the state rewritten, in use before and after, with its source. -/
theorem RemovalWaits.of_set {a : Byte} {r : Ctx} (waits : RemovalWaits a s) (ctxs : ∀ m, t.ctx m = if m = n then r else s.ctx m)
    (used : (s.ctx n).state ≠ .free) (stays : r.state ≠ .free) (source : r.source = (s.ctx n).source)
    (engine : t.checker.engine = s.checker.engine)
    (head : s.checker.queue ≠ [] → t.checker.queue.head? = s.checker.queue.head?) : RemovalWaits a t := by
  refine waits.of_same engine head fun m => ?_
  rw [ctxs]
  split
  · rename_i here
    rw [here, source]
    simp [used, stays]
  · exact .rfl

theorem RemovalWaits.joinIfWhole {a : Byte} (waits : RemovalWaits a s) (n : CtxNo) (used : (s.ctx n).state ≠ .free) :
    RemovalWaits a (joinIfWhole n s) := by
  rcases joinIfWhole_cases s n with ⟨-, h⟩ | ⟨-, h⟩ <;> rw [h]
  · refine waits.of_set (s.ctx_joined n) used nofun rfl rfl fun some => ?_
    exact List.head?_append_of_ne_nil _ some
  · exact waits

/-- A record that is not under check leaves. -/
theorem RemovalWaits.freed {a : Byte} (waits : RemovalWaits a s) (used : (s.ctx n).state ≠ .free)
    (unchecked : s.underCheck ≠ some n) (ctxs : ∀ m, t.ctx m = if m = n then Ctx.cleared else s.ctx m)
    (checker : t.checker = { s.checker with queue := s.checker.queue.erase n }) : RemovalWaits a t := by
  obtain ⟨last, first, only⟩ := id waits.last
  have other : last ≠ n := fun e => unchecked (e ▸ waits.underCheck first)
  have head : t.checker.queue.head? = some last := by
    rw [checker]
    obtain ⟨rest, queue⟩ := List.head?_eq_some_iff.1 first
    simp [queue, other]
  refine waits.of_same (by rw [checker]) (fun _ => head.trans first.symm) fun m => ?_
  rw [ctxs]
  split
  · rename_i here
    subst here
    refine iff_of_false (fun h => h.1 rfl) fun h => other ?_
    exact ((State.heldBy_eq_singleton.1 only m).1 h).symm
  · exact .rfl

theorem Change.removalWaits (h : Change w s t) (granted : w.collections) (keeps : ¬w.closing) (collections : CollectionsInv s)
    (table : TableAgrees s) {a : Byte} (removing : ∃ k, (s.source k).state = .removing ∧ (s.source k).address = a)
    (waits : RemovalWaits a s) : RemovalWaits a t := by
  cases h with
  | adjusts ctxs adjust =>
    refine waits.of_same rfl (fun _ => rfl) fun m => ?_
    change (ctxs[m].state ≠ _ ∧ ctxs[m].source = a) ↔ _
    rw [(adjust m).state, (adjust m).source]
  | names n seg collecting =>
    have used : (s.ctx n).state ≠ .free := by simp [collecting]
    have stays : ((s.ctx n).duplicated seg).state ≠ .free := by rw [Ctx.duplicated_state]; exact used
    refine (waits.of_set (fun m => s.ctx_setCtx n m _) used stays (Ctx.duplicated_source _ _) rfl fun _ => rfl).joinIfWhole n ?_
    rwa [State.ctx_setCtx_same]
  | stores n seg fits collecting =>
    have used : (s.ctx n).state ≠ .free := by simp [collecting]
    have stored : RemovalWaits a (allocateAndStore n seg s) :=
      waits.of_set (r := (s.ctx n).stored seg _) (fun m => ctx_allocateAndStore s n m seg) used used rfl rfl fun _ => rfl
    refine stored.joinIfWhole n ?_
    rw [ctx_allocateAndStore, if_pos rfl]
    exact used
  | opens n k cls seg free unheld enabled address =>
    obtain ⟨j, state, rfl⟩ := removing
    refine waits.of_same rfl (fun _ => rfl) fun m => ?_
    rw [State.ctx_openedFor]
    split
    · rename_i here
      subst here
      refine iff_of_false (fun h => ?_) fun h => h.1 free
      have same : j = k := table.unique j k (by simp [state]) (by simp [enabled]) (h.2.symm.trans address.symm)
      simp [← same, state] at enabled
    · exact .rfl
  | frees n used unclaimed unchecked =>
    exact waits.freed (used granted) (unchecked granted) (fun m => s.ctx_freeCtx n m) (by rw [State.freeCtx_frame])
  | loses n r held =>
    have delivering := held granted
    exact waits.freed (by simp [delivering]) (collections.underCheck_ne (by simp [delivering])) (fun m => s.ctx_freeCtx n m)
      (by rw [State.freeCtx_frame])
  | ends n checked closing => exact absurd closing keeps
  | confirms n checked running closing => exact absurd closing keeps
  | requests n checked =>
    obtain ⟨_, _, engine⟩ := id waits.pends
    have used : (s.ctx n).state ≠ .free := by simp [collections.state_underCheck checked]
    exact waits.of_set (s.ctx_requestStop n) used used rfl (by simp [State.requestStop, engine])
      fun _ => by rw [State.requestStop_frame]
  | takes idle =>
    obtain ⟨_, _, engine⟩ := waits.pends
    simp [idle] at engine
  | walks n rest crc v next queue checking =>
    obtain ⟨_, _, engine⟩ := waits.pends
    simp [checking] at engine
  | claims n rest port queue =>
    have ready := (collections.deliveryHolds n).1 (by simp [queue])
    exact waits.of_set (fun m => ctx_claim s n m rest) (by simp [ready]) nofun rfl rfl fun _ => rfl
  | drops k closing => exact absurd closing keeps
  | _ => exact waits.of_same rfl (fun _ => rfl) fun _ => .rfl

/-! ## A row that removes nothing -/

/-- The warrant of a row that removes no source and ends no check. -/
def keepingRow : Warrant := ⟨True, True, False, True, True, True, True, True, True, fun _ _ => True⟩

/-- What such a row carries of a state: its collections and its table agree, the entries REMOVING are those of the start, and their
removals wait. -/
structure RemovalsKept (s t : State) : Prop where
  collections : CollectionsInv t
  table : TableAgrees t
  same : SameRemoving s t
  waits : ∀ k, (t.source k).state = .removing → RemovalWaits (t.source k).address t

theorem RemovalsKept.change (carries : RemovalsKept s t) (h : Change keepingRow t u) : RemovalsKept s u := by
  have same := h.sameRemoving id
  refine ⟨h.collections trivial carries.collections, h.table trivial trivial carries.collections carries.table,
    carries.same.trans same, fun k removing => ?_⟩
  have before := (same k).1.1 removing
  rw [(same k).2 before]
  exact h.removalWaits trivial id carries.collections carries.table ⟨k, before, rfl⟩ (carries.waits k before)

theorem RemovalWaits.of_records {a : Byte} (same : t.records = s.records) (waits : RemovalWaits a s) : RemovalWaits a t := by
  have ctx (m : CtxNo) : t.ctx m = s.ctx m := State.ctx_congr (congrArg Records.ctxs same) m
  have checker : t.checker = s.checker := congrArg Records.checker same
  exact waits.of_same (by rw [checker]) (fun _ => by rw [checker]) fun m => by rw [ctx]

theorem RemovalsKept.of_records (carries : RemovalsKept s t) (same : u.records = t.records) : RemovalsKept s u := by
  have source (k : SlotNo) : u.source k = t.source k := State.source_congr (congrArg Records.sources same) k
  refine ⟨carries.collections.of_records same, carries.table.of_records same,
    carries.same.trans (.of_sources fun k => by rw [source]; exact ⟨rfl, rfl⟩), fun k removing => ?_⟩
  rw [source] at removing ⊢
  exact (carries.waits k removing).of_records same

/-- The command that waits for a source's removal. -/
def State.removes (s : State) (a : Byte) : Prop := ∃ f, s.cmd.state = .busy (.srcRemove a f)

theorem State.removes_congr (same : t.cmd.state = s.cmd.state) (a : Byte) : t.removes a ↔ s.removes a := by
  rw [State.removes, State.removes, same]

theorem SourcesInv.removalWaits (inv : SourcesInv s) (mode : ModeInv s) {k : SlotNo} (removing : (s.source k).state = .removing) :
    RemovalWaits (s.source k).address s := by
  obtain ⟨⟨f, busy⟩, last⟩ := inv.removing k removing
  exact ⟨mode.stopPending.2 (.inr (.inl ⟨_, f, busy⟩)), last⟩

theorem SourcesInv.of_parts (table : TableAgrees s)
    (removing : ∀ k, (s.source k).state = .removing → s.removes (s.source k).address ∧ RemovalWaits (s.source k).address s)
    (waiting : ∀ a, s.removes a → ∃ k, (s.source k).state = .removing ∧ (s.source k).address = a) : SourcesInv s where
  unique := table.unique
  present := table.present
  counts := table.counts
  limits := table.limits
  unusedCleared := table.unusedCleared
  removing k h := ⟨(removing k h).1, (removing k h).2.last⟩
  waiting a f h := waiting a ⟨f, h⟩

theorem exec_removalsKept (h : exec c s = .next t) (noReset : c ≠ .hardwareReset) (keeps : closes c = false)
    (collections : CollectionsInv s) (mode : ModeInv s) (inv : SourcesInv s) : RemovalsKept s t := by
  have moves : Moves keepingRow s t :=
    exec_moves h noReset (fun _ => collections) (fun _ => inv) (fun closes => by simp [keeps] at closes) (fun _ => trivial)
      (fun _ => trivial) (fun _ => trivial) (fun _ => trivial) (fun _ => trivial)
      fun _ => ⟨trivial, fun _ _ _ => trivial⟩
  exact moves.induct (RemovalsKept s) (fun _ _ step carries => carries.change step) (fun _ _ same carries => carries.of_records same)
    ⟨collections, inv.table, .refl s, fun _ removing => inv.removalWaits mode removing⟩

/-! ### The command that waits -/

theorem stopIfDone_removes (s : State) (a : Byte) : s.stopIfDone.removes a ↔ s.removes a := by
  rcases s.stopIfDone_cases with ⟨-, busy, -, -, h⟩ | ⟨-, h⟩ <;> rw [h]
  exact iff_of_false (fun ⟨_, h⟩ => nomatch h) fun ⟨_, h⟩ => by simp [busy] at h

theorem completeLineOff_removes (l : LineNo) (s : State) (a : Byte) : (completeLineOff l s).removes a ↔ s.removes a := by
  unfold completeLineOff
  split
  · rename_i busy
    exact iff_of_false (fun ⟨_, h⟩ => nomatch h) fun ⟨_, h⟩ => by simp [busy] at h
  · exact .rfl

theorem awake_removes {f : State → State} (h : awake s f = .next t) {a : Byte} (same : (f s).removes a ↔ s.removes a) :
    t.removes a ↔ s.removes a := by
  rcases awake_next h with ⟨-, rfl⟩ | ⟨-, rfl⟩
  · exact .rfl
  · exact same

/-- A command other than SRC_REMOVE is neither accepted while one waits nor waits as one. -/
theorem hostCommand_removes {command : HostCommand} {f : State → State} (h : hostCommand command f s = .next t) {a : Byte}
    (other : ∀ u : State, u.cmd.state = .idle → ¬(f u).removes a) : t.removes a ↔ s.removes a := by
  rcases hostCommand_next h with ⟨-, rfl⟩ | ⟨-, -, rfl⟩ | ⟨⟨-, idle⟩, rfl⟩
  · exact .rfl
  · exact .rfl
  · exact iff_of_false (other _ idle) fun ⟨_, busy⟩ => by simp [idle] at busy

theorem not_removes_of_state {a : Byte} {st : CmdState} (state : s.cmd.state = st) (other : ∀ f, st ≠ .busy (.srcRemove a f)) :
    ¬s.removes a := fun ⟨f, busy⟩ => other f (state.symm.trans busy)

theorem closeLine_removes (l : LineNo) (s : State) (a : Byte) : ¬(closeLine l s).removes a := by
  unfold closeLine
  split
  · exact not_removes_of_state rfl nofun
  · exact not_removes_of_state rfl nofun

theorem doLineOff_removes (s : State) (a : Byte) : ¬(doLineOff s).removes a := by
  unfold doLineOff
  split
  · exact not_removes_of_state rfl nofun
  · split
    · exact closeLine_removes _ _ a
    · exact closeLine_removes _ _ a
    · exact not_removes_of_state rfl nofun
    · exact not_removes_of_state rfl nofun

theorem doCtxAbort_removes (s : State) (a : Byte) : ¬(doCtxAbort s).removes a := by
  unfold doCtxAbort
  split
  · exact not_removes_of_state rfl nofun
  · split
    · exact not_removes_of_state rfl nofun
    · split
      · exact not_removes_of_state rfl nofun
      · exact not_removes_of_state rfl nofun

theorem doFlush_removes (s : State) (a : Byte) : ¬(doFlush s).removes a := by
  unfold doFlush
  dsimp only
  split
  · exact not_removes_of_state rfl nofun
  · exact not_removes_of_state rfl nofun

theorem doStart_removes (s : State) (a : Byte) : ¬(doStart s).removes a := by
  unfold doStart
  split
  · exact not_removes_of_state rfl nofun
  · split
    · exact not_removes_of_state rfl nofun
    · exact not_removes_of_state rfl nofun

theorem doStop_removes (s : State) (a : Byte) : ¬(doStop s).removes a := by
  unfold doStop
  split
  · exact not_removes_of_state rfl nofun
  · rw [stopIfDone_removes]
    exact not_removes_of_state rfl nofun

theorem exec_removes (h : exec c s = .next t) (noReset : c ≠ .hardwareReset) (keeps : closes c = false) (a : Byte) :
    t.removes a ↔ s.removes a := by
  by_cases still : movesUnit c = false
  · exact State.removes_congr (exec_unit h still).2 a
  cases c with
  | hardwareReset => exact absurd rfl noReset
  | cellCompletion => cases keeps
  | srcRemove => cases keeps
  | frameEnd l =>
    refine awake_removes h ?_
    split
    · exact stopIfDone_removes (s.setLine l _) a
    · exact .rfl
  | abortEnd l =>
    refine awake_removes h ?_
    dsimp only
    split
    · split
      · rw [stopIfDone_removes]
        exact completeLineOff_removes l (s.setLine l _) a
      · exact stopIfDone_removes (s.setLine l _) a
    · exact .rfl
  | stopCompletion => exact awake_removes h (stopIfDone_removes s a)
  | lineOff => exact hostCommand_removes h fun u _ => doLineOff_removes u a
  | ctxAbort => exact hostCommand_removes h fun u _ => doCtxAbort_removes u a
  | flush => exact hostCommand_removes h fun u _ => doFlush_removes u a
  | start => exact hostCommand_removes h fun u _ => doStart_removes u a
  | stop => exact hostCommand_removes h fun u _ => doStop_removes u a
  | _ => exact absurd rfl still

/-! ## The rows that remove -/

/-- No entry is REMOVING while the unit waits for no removal, and none waits after. -/
theorem SourcesInv.of_none (table : TableAgrees t) (none : ∀ k, (t.source k).state ≠ .removing) (idle : ∀ a, ¬t.removes a) :
    SourcesInv t :=
  .of_parts table (fun k removing => absurd removing (none k)) fun a removes => absurd removes (idle a)

theorem SourcesInv.not_removing (inv : SourcesInv s) (idle : ∀ a, ¬s.removes a) (k : SlotNo) :
    (s.source k).state ≠ .removing := fun removing => idle _ (inv.removing k removing).1

/-- The sources table kept with the command unit's waiting for a removal. -/
theorem SourcesInv.of_same (inv : SourcesInv s) (records : t.records = s.records) (removes : ∀ a, t.removes a ↔ s.removes a) :
    SourcesInv t := by
  have source (k : SlotNo) : t.source k = s.source k := State.source_congr (congrArg Records.sources records) k
  have ctx (m : CtxNo) : t.ctx m = s.ctx m := State.ctx_congr (congrArg Records.ctxs records) m
  have checker : t.checker = s.checker := congrArg Records.checker records
  obtain ⟨unique, present, counts, limits, unusedCleared⟩ := inv.table.of_records records
  refine ⟨unique, present, counts, limits, unusedCleared, fun k removing => ?_, fun a f busy => ?_⟩
  · rw [source] at removing ⊢
    obtain ⟨waits, last⟩ := inv.removing k removing
    refine ⟨(removes _).2 waits, ?_⟩
    have held : t.heldBy (s.source k).address = s.heldBy (s.source k).address := State.heldBy_congr fun m => by rw [ctx]
    rw [checker, held]
    exact last
  · obtain ⟨f, before⟩ := (removes a).1 ⟨f, busy⟩
    obtain ⟨k, removing⟩ := inv.waiting a f before
    exact ⟨k, by rwa [source]⟩

theorem not_removes_of_idle (idle : s.cmd.state = .idle) (a : Byte) : ¬s.removes a := fun ⟨_, busy⟩ => by simp [idle] at busy

theorem State.source_emptied (s : State) (k j : SlotNo) :
    ((s.emptied k).source j).state = (if j = k then .removing else (s.source j).state) ∧
      ((s.emptied k).source j).address = (s.source j).address := by
  rw [State.emptied, source_freeAll, State.source_setSource]
  split
  · rename_i here
    exact here ▸ ⟨rfl, rfl⟩
  · exact ⟨rfl, rfl⟩

/-- What is left of a source when its removal begins is the record under check (spec 03 R63). -/
theorem heldBy_emptied {k : SlotNo} (checked : s.checkedOf (s.source k).address = some n) (used : (s.ctx n).state ≠ .free) :
    (s.emptied k).heldBy (s.source k).address = [n] := by
  obtain ⟨underCheck, source⟩ := State.checkedOf_some.1 checked
  rw [State.heldBy_eq_singleton]
  intro m
  rw [State.ctx_emptied]
  split
  · rename_i listed
    refine iff_of_false (fun h => h.1 rfl) fun here => ?_
    exact (State.mem_heldUnchecked.1 listed).2.2 (here ▸ underCheck)
  · rename_i kept
    constructor
    · rintro ⟨usedM, sourceM⟩
      by_contra other
      exact kept (State.mem_heldUnchecked.2 ⟨usedM, sourceM, fun same => other (Option.some.inj (same.symm.trans underCheck))⟩)
    · rintro rfl
      exact ⟨used, source⟩

theorem doSrcRemove_sourcesInv (inv : SourcesInv s) (collections : CollectionsInv s) (table : TableAgrees (doSrcRemove s))
    (idle : s.cmd.state = .idle) : SourcesInv (doSrcRemove s) := by
  have none := inv.not_removing (not_removes_of_idle idle)
  unfold doSrcRemove at table ⊢
  split at table
  · exact .of_none table none (not_removes_of_idle rfl)
  · split at table
    · exact .of_none table none (not_removes_of_idle rfl)
    · rename_i k found
      have others {j : SlotNo} (removing : ((s.emptied k).source j).state = .removing) : j = k := by
        rw [(s.source_emptied k j).1] at removing
        by_contra other
        rw [if_neg other] at removing
        exact none j removing
      cases checked : s.checkedOf (s.source k).address with
      | none =>
        rw [removeSource_unchecked checked] at table ⊢
        refine .of_none table (fun j => ?_) (not_removes_of_idle rfl)
        change (((s.emptied k).setSource k .cleared).source j).state ≠ _
        rw [State.source_setSource]
        split
        · nofun
        · rename_i other
          exact fun removing => other (others removing)
      | some n =>
        rw [removeSource_checked checked] at table ⊢
        have underCheck : (s.emptied k).underCheck = some n :=
          (s.underCheck_emptied k).trans (State.checkedOf_some.1 checked).1
        have used : (s.ctx n).state ≠ .free := by
          simp [collections.state_underCheck (State.checkedOf_some.1 checked).1]
        have source (j : SlotNo) : (((s.emptied k).requestStop n).wait
            (.srcRemove (s.source k).address (s.heldUnchecked (s.source k).address).length)).source j = (s.emptied k).source j :=
          source_requestStop _ n j
        refine .of_parts table (fun j removing => ?_) fun a ⟨f, busy⟩ => ⟨k, ?_⟩
        · rw [source] at removing ⊢
          obtain rfl := others removing
          rw [(s.source_emptied j j).2]
          refine ⟨⟨_, rfl⟩, State.stopPends_requestStop underCheck, n, ?_, ?_⟩
          · change ((s.emptied j).requestStop n).checker.queue.head? = _
            rw [State.requestStop_frame]
            exact (State.underCheck_some.1 underCheck).2
          · rw [← heldBy_emptied checked used]
            refine State.heldBy_congr fun m => ?_
            change (((s.emptied j).requestStop n).ctx m).state ≠ .free ∧ (((s.emptied j).requestStop n).ctx m).source = _ ↔ _
            rw [State.ctx_requestStop]
            split
            · rename_i here
              exact here ▸ .rfl
            · exact .rfl
        · obtain ⟨rfl, -⟩ : (s.source k).address = a ∧ _ = f := by
            injection busy with busy
            injection busy with address count
            exact ⟨address, count⟩
          rw [source, (s.source_emptied k k).1, (s.source_emptied k k).2]
          exact ⟨if_pos rfl, rfl⟩

theorem source_engineStopped_alike (s : State) (n : CtxNo) (k : SlotNo) :
    ((s.engineStopped n).source k).state = (s.source k).state ∧ ((s.engineStopped n).source k).address = (s.source k).address := by
  have same : (stopOutputs n s).source k = s.source k := State.source_congr (by rw [stopOutputs_frame]) k
  change (((stopOutputs n s).freeCtx n).source k).state = _ ∧ (((stopOutputs n s).freeCtx n).source k).address = _
  rw [State.source_freeCtx, same]
  exact ⟨rfl, rfl⟩

/-- The engine's stop completes the removal that waits, and its entry leaves (spec 03 R63, 05 R95). -/
theorem engineStop_sourcesInv (inv : SourcesInv s) (waits : s.cmd.waitsForEngine) (table : TableAgrees (engineStop n s)) :
    SourcesInv (engineStop n s) := by
  have idle : (engineStop n s).cmd.state = .idle := by
    rw [engineStop_eq]
    exact completeStopped_state _ (by rwa [State.engineStopped_cmd])
  refine .of_none table (fun k removing => ?_) (not_removes_of_idle idle)
  have alike := source_engineStopped_alike s n
  have kept (same : (engineStop n s).source k = (s.engineStopped n).source k) (other : ∀ a, ¬s.removes a) : False := by
    rw [same, (alike k).1] at removing
    exact inv.not_removing other k removing
  rcases waits with ⟨m, notify, busy⟩ | ⟨a, f, busy⟩ | ⟨f, busy⟩
  · refine kept ?_ fun a ⟨f, other⟩ => by simp [busy] at other
    rw [engineStop_eq, completeStopped, State.engineStopped_cmd, busy]
    rfl
  · obtain ⟨j, removingJ, rfl⟩ := inv.waiting a f busy
    have dropped : (engineStop n s).source k = ((s.engineStopped n).dropSource (s.source j).address).source k := by
      rw [engineStop_eq, completeStopped, State.engineStopped_cmd, busy]
      rfl
    have found : (s.engineStopped n).findSource (s.source j).address = some j := by
      rw [State.findSource_congr (fun k => (alike k).1) (fun k => (alike k).2)]
      exact inv.table.findSource (by simp [removingJ])
    rw [dropped, State.dropSource, found] at removing
    change (((s.engineStopped n).setSource j .cleared).source k).state = _ at removing
    rw [State.source_setSource] at removing
    split at removing
    · cases removing
    · rename_i other
      rw [(alike k).1] at removing
      obtain ⟨f', busy'⟩ := (inv.removing k removing).1
      rw [busy] at busy'
      injection busy' with busy'
      injection busy' with address count
      exact other (inv.unique k j (by simp [removing]) (by simp [removingJ]) address.symm)
  · refine kept ?_ fun a ⟨f, other⟩ => by simp [busy] at other
    rw [engineStop_eq, completeStopped, State.engineStopped_cmd, busy]
    rfl

theorem source_stopIfDone (s : State) (k : SlotNo) : s.stopIfDone.source k = s.source k :=
  State.source_congr (congrArg Records.sources stopIfDone_records) k

theorem source_endMatch (n : CtxNo) (s : State) (k : SlotNo) : (endMatch n s).source k = (s.matched n).source k :=
  State.source_congr (by rw [endMatch_eq]; simp) k

theorem source_endMismatch (n : CtxNo) (s : State) (k : SlotNo) :
    ((endMismatch n s).source k).state = (s.source k).state := by
  have same : ((s.refuseCtx (s.ctx n) .check).post (checkEvent .checkFailed n (s.ctx n))).source k = s.source k :=
    State.source_congr (by simp [State.refuseCtx]) k
  change ((State.freeCtx _ n).source k).state = _
  rw [State.source_freeCtx, same]

theorem checkCell_source (n : CtxNo) (crc : Word32) (v : Walk) (s : State) (k : SlotNo) :
    ((checkCell n crc v s).source k).state = (s.source k).state := by
  unfold checkCell
  dsimp only
  split
  · rfl
  · split
    · rw [source_stopIfDone, source_endMatch]
      exact (alike_matched s n k).state
    · rw [source_stopIfDone, source_endMismatch]

theorem checkCell_removes (n : CtxNo) (crc : Word32) (v : Walk) (s : State) (a : Byte) :
    (checkCell n crc v s).removes a ↔ s.removes a := by
  unfold checkCell
  dsimp only
  split
  · exact .rfl
  · split
    · rw [stopIfDone_removes, State.removes, endMatch_cmd, State.removes]
    · rw [stopIfDone_removes, State.removes, endMismatch_cmd, State.removes]

theorem checkCell_sourcesInv {crc : Word32} {v : Walk} (inv : SourcesInv s) (waits : ¬s.cmd.waitsForEngine)
    (table : TableAgrees (checkCell n crc v s)) : SourcesInv (checkCell n crc v s) := by
  have idle (a : Byte) : ¬s.removes a := fun ⟨f, busy⟩ => waits (.inr (.inl ⟨a, f, busy⟩))
  refine .of_none table (fun k => ?_) fun a => ?_
  · rw [checkCell_source]
    exact inv.not_removing idle k
  · rw [checkCell_removes]
    exact idle a

theorem exec_cellCompletion_sourcesInv (h : exec .cellCompletion s = .next t) (inv : SourcesInv s) (mode : ModeInv s)
    (table : TableAgrees t) : SourcesInv t := by
  change execCellCompletion s = .next t at h
  unfold execCellCompletion at h
  rcases awake_next h with ⟨-, rfl⟩ | ⟨-, rfl⟩
  · exact inv
  revert table
  split
  · exact fun _ => inv
  · split
    · exact fun _ => inv
    · rename_i engine
      refine checkCell_sourcesInv inv fun waits => ?_
      obtain ⟨_, _, pends⟩ := mode.stopPending.2 waits
      simp [engine] at pends
    · exact engineStop_sourcesInv inv (mode.stopPending.1 ⟨_, _, ‹_›⟩)

/-! ## Every row -/

theorem exec_table (h : exec c s = .next t) (inv : CollectionsInv s ∧ SourcesInv s) : CollectionsInv t ∧ TableAgrees t := by
  by_cases isReset : c = .hardwareReset
  · subst isReset
    have reset := atReset_of_hardwareReset h
    exact ⟨reset.collections, reset.table⟩
  have moves : Moves anyRowOnSources s t :=
    exec_moves h isReset (fun _ => inv.1) (fun _ => inv.2) (fun _ => trivial) (fun _ => trivial) (fun _ => trivial)
      (fun _ => trivial) (fun _ => trivial) (fun _ => trivial) fun _ => ⟨trivial, fun _ _ _ => trivial⟩
  exact moves.induct (fun u => CollectionsInv u ∧ TableAgrees u)
    (fun _ _ step inv => ⟨step.collections trivial inv.1, step.table trivial trivial inv.1 inv.2⟩)
    (fun _ _ same inv => ⟨inv.1.of_records same, inv.2.of_records same⟩) ⟨inv.1, inv.2.table⟩

theorem exec_sourcesInv (h : exec c s = .next t) (collections : CollectionsInv s) (mode : ModeInv s) (inv : SourcesInv s) :
    SourcesInv t := by
  obtain ⟨-, table⟩ := exec_table h ⟨collections, inv⟩
  by_cases quiet : c ≠ .hardwareReset ∧ closes c = false
  · have kept := exec_removalsKept h quiet.1 quiet.2 collections mode inv
    have removes (a : Byte) := exec_removes h quiet.1 quiet.2 a
    refine .of_parts kept.table (fun k removing => ⟨?_, kept.waits k removing⟩) fun a waits => ?_
    · have before := (kept.same k).1.1 removing
      rw [removes, (kept.same k).2 before]
      exact (inv.removing k before).1
    · obtain ⟨f, busy⟩ := (removes a).1 waits
      obtain ⟨k, removing, rfl⟩ := inv.waiting a f busy
      exact ⟨k, (kept.same k).1.2 removing, (kept.same k).2 removing⟩
  cases c with
  | hardwareReset =>
    have reset := atReset_of_hardwareReset h
    cases h
    exact .of_none table (fun k => by rw [reset.source]; nofun) (not_removes_of_idle rfl)
  | srcRemove =>
    rcases hostCommand_next h with ⟨-, rfl⟩ | ⟨-, -, rfl⟩ | ⟨⟨-, idle⟩, rfl⟩
    · exact inv
    · exact inv.of_same rfl fun _ => .rfl
    · have same : (s.accept HostCommand.srcRemove.code).records = s.records := rfl
      exact doSrcRemove_sourcesInv (inv.of_same same fun a => State.removes_congr rfl a) (collections.of_records same) table idle
  | cellCompletion => exact exec_cellCompletion_sourcesInv h inv mode table
  | _ => exact absurd ⟨nofun, rfl⟩ quiet

/-- What the histories rest on. -/
structure HistoryGround (s : State) : Prop where
  collections : CollectionsInv s
  keys : KeysUnique s
  table : TableAgrees s
  history : HistoryInv s

theorem exec_history (h : exec c s = .next t) (collections : CollectionsInv s) (keys : KeysUnique s) (inv : SourcesInv s)
    (history : HistoryInv s) : HistoryInv t := by
  by_cases isReset : c = .hardwareReset
  · subst isReset
    exact (atReset_of_hardwareReset h).history
  have moves : Moves anyRowOnSources s t :=
    exec_moves h isReset (fun _ => collections) (fun _ => inv) (fun _ => trivial) (fun _ => trivial) (fun _ => trivial)
      (fun _ => trivial) (fun _ => trivial) (fun _ => trivial) fun _ => ⟨trivial, fun _ _ _ => trivial⟩
  have kept := moves.induct HistoryGround
    (fun _ _ step ⟨collections, keys, table, history⟩ =>
      ⟨step.collections trivial collections, step.keys collections keys, step.table trivial trivial collections table,
        step.history collections keys table history⟩)
    (fun _ _ same ⟨collections, keys, table, history⟩ =>
      ⟨collections.of_records same, keys.of_records same, table.of_records same, history.of_records same⟩)
    ⟨collections, keys, inv.table, history⟩
  exact kept.history

/-- Settles O59: every change keeps the open counts those of the records in use and the numbers in a history apart from those still
assembled, and an entry REMOVING stays with the command that waits for its last record. -/
theorem sourceTableAgrees : Obligations.SourceTableAgrees := by
  unfold Obligations.SourceTableAgrees
  intro s t collections mode keys inv h
  rcases step_cases h with rfl | ⟨c, rest, -, h⟩
  · exact ⟨inv, id⟩
  have same : State.records { s with pending := rest } = s.records := rfl
  have started : SourcesInv { s with pending := rest } := inv.of_same same fun _ => .rfl
  have modeStarted : ModeInv { s with pending := rest } :=
    ⟨mode.buffersInRun, mode.owedInRun, mode.stopping, mode.configEngine, mode.configTx, mode.stopPending⟩
  exact ⟨exec_sourcesInv h (collections.of_records same) modeStarted started,
    fun history => exec_history h (collections.of_records same) (keys.of_records same) started (history.of_records same)⟩

end Removal

end Sys2Proof.Machine
end

