-- ==== Sys2Proof/Proofs/ResetAndOwnership.lean ====
section
/-! SUPPORT. A step is its front command; the values after reset, and the part held while RSTN is low; the invariants at reset; and what
only its own command changes (spec 09 R150, 11 11.9). -/

namespace Sys2Proof.Machine

/-- Settles O1: the step's definition on an empty queue and on one with a front command. -/
theorem stepRunsTheFrontCommand : Obligations.StepRunsTheFrontCommand := by
  unfold Obligations.StepRunsTheFrontCommand
  refine ⟨fun s c rest waits => ?_, fun s none => ?_⟩
  · rw [step, waits]
  · rw [step, none]

/-! ## Reset -/

section Reset

variable {s t : State}

theorem State.reset_atReset : State.reset.AtReset := rfl

theorem State.reset_line (l : LineNo) : State.reset.line l = LineUnit.reset := by
  change (Vector.replicate 4 LineUnit.reset)[l] = _
  simp

/-- Settles O60: each invariant from the values that the records, the lines and the unit have after reset. -/
theorem invariantsHoldAtReset : Obligations.InvariantsHoldAtReset := by
  unfold Obligations.InvariantsHoldAtReset
  have reset := State.reset_atReset
  have records := reset.recordsInv
  have table := reset.table
  have capacity (l : LineNo) : LineCapacity (State.reset.line l) := State.reset_line l ▸ .reset
  refine ⟨rfl, reset.pool, reset.collections, reset.keys, reset.deliveryOrder,
    fun n => ⟨records.counts n, records.whole n⟩, ?_, fun l => ?_, ?_, ?_, reset.history, records, reset.abortPending,
    reset.checkFollows, reset.readoutFollows⟩
  · exact
      { events := Nat.zero_le _
        loss := Nat.zero_le _
        txQueues := fun l => (capacity l).queue
        buffers := fun l => (capacity l).buffers
        assembly := fun l => (capacity l).assembly
        badCount := fun l => (capacity l).badCount
        history := fun k => by rw [reset.source]; exact Nat.zero_le _
        duplicates := fun n => by rw [reset.ctx]; exact Nat.zero_le _ }
  · rw [State.reset_line]
    exact ⟨.reset, .of_empty rfl⟩
  · have unit : UnitAgrees State.reset := .of_idle nofun rfl (fun _ => rfl) (not_stopPends_of_engine_idle rfl)
    exact
      { buffersInRun := fun _ l => by rw [State.reset_line]; rfl
        owedInRun := fun _ n => by change (Vector.replicate 32 false)[n] = false; simp
        stopping := unit.stopping
        configEngine := unit.configEngine
        configTx := fun _ l => by rw [State.reset_line]; rfl
        stopPending := unit.stopPending }
  · exact .of_none table (fun k => by rw [reset.source]; nofun) (not_removes_of_idle rfl)

/-- The part as HARDWARE_RESET leaves it, but for the payload bytes, the wire's cut and the queue, which it keeps. -/
def State.held : State := { State.reset with pins := { rstnLow := true, dataOut := none } }

theorem held_readWord : ∀ a, State.held.readWord a = if a = 0x25 then 0x1502 else if a = 0x26 then 0x000C else 0 := by
  decide

/-- A row that a part held in reset leaves undone, or answers with a word alone. -/
theorem awake_held {f : State → State} (h : awake s f = .next t) (low : s.pins.rstnLow = true) :
    ∃ d, t = { s with pins := { s.pins with dataOut := d } } := by
  rw [awake_asleep s f low] at h
  cases h
  exact ⟨s.pins.dataOut, rfl⟩

theorem hostRead_held {a : RegAddr} {f : State → State} (h : hostRead a f s = .next t) (low : s.pins.rstnLow = true) :
    ∃ d, t = { s with pins := { s.pins with dataOut := d } } := by
  cases h
  exact ⟨some (s.readWord a), by simp [low]⟩

theorem exec_held {c : Instr} (h : exec c s = .next t) (low : s.pins.rstnLow = true) (noReset : c ≠ .hardwareReset)
    (noLeave : c ≠ .leaveReset) : ∃ d, t = { s with pins := { s.pins with dataOut := d } } := by
  cases c with
  | hardwareReset => exact absurd rfl noReset
  | leaveReset => exact absurd rfl noLeave
  | msgHead0 => exact hostRead_held (a := 0x10) (f := head0Effect) h low
  | data => exact hostRead_held (a := 0x14) (f := dataEffect) h low
  | evtPop => exact hostRead_held (a := 0x20) (f := popEffect) h low
  | cmdResult => exact hostRead_held (a := 0x01) (f := fun s => { s with cmd := { s.cmd with done := false } }) h low
  | ignoredWrite a w => exact ⟨s.pins.dataOut, by rw [execIgnoredWrite_eq (w := w) h]⟩
  | badCommand w =>
    have unnamed : namesCommand w = false := by simpa [Instr.wf] using wf_of_exec_next h
    rw [exec_badCommand unnamed] at h
    exact awake_held h low
  | cellCompletion =>
    change execCellCompletion s = .next t at h
    unfold execCellCompletion at h
    exact awake_held h low
  | frameStart l =>
    change execFrameStart l s = .next t at h
    unfold execFrameStart at h
    exact awake_held h low
  | evtMaskWrite r w =>
    rw [exec, execEvtMaskWrite] at h
    exact awake_held h low
  | irqEn w =>
    rw [exec, execIrqEn] at h
    exact awake_held h low
  | cmdArg i w =>
    rw [exec, execCmdArg] at h
    exact awake_held h low
  | _ => exact awake_held h low

/-- Settles O3: the reset state written out, and every other row found to do nothing while RSTN is low. -/
theorem resetValuesAndHold : Obligations.ResetValuesAndHold := by
  unfold Obligations.ResetValuesAndHold
  refine ⟨fun s => ⟨_, rfl, fun n => ?_, rfl, ?_, rfl, rfl, rfl, fun k => ?_, rfl, rfl, rfl, rfl, fun l => ?_, rfl, rfl, rfl, rfl, rfl,
    fun a => ?_⟩, fun s => rfl, fun c s t low noReset noLeave h => exec_held h low noReset noLeave⟩
  · exact State.reset_atReset.ctx n
  · exact List.range_eq_range'.symm
  · exact State.reset_atReset.source k
  · have line := lines_of_hardwareReset (s := s) (t := _) rfl l
    rw [line]
    exact ⟨rfl, rfl, rfl, rfl, rfl, rfl, rfl, rfl, rfl, rfl⟩
  · rw [← held_readWord a]
    rfl

end Reset

/-! ## What only its own command changes -/

section Own

variable {w : Warrant} {s t : State} {c : Instr}

/-! ### Events -/

theorem EventBlock.loss_le_post (ev : EventBlock) (e : EventRec) (bound : ev.loss ≤ 255) : ev.loss ≤ (ev.post e).loss := by
  unfold EventBlock.post
  split_ifs
  · exact le_refl _
  · exact le_refl _
  · exact le_min bound (Nat.le_succ _)

/-- Postings lower no loss count that is within its bound. -/
theorem EventBlock.PostsTo.loss {a b : EventBlock} (posts : a.PostsTo b) (capacity : EventCapacity a) : a.loss ≤ b.loss := by
  obtain ⟨events, rfl⟩ := posts
  induction events generalizing a with
  | nil => exact le_refl _
  | cons e rest ih => exact (a.loss_le_post e capacity.loss).trans (ih (capacity.post e))

/-- The masks, the enables and the falling of the loss count belong to their own rows. -/
theorem exec_ownEvents (h : exec c s = .next t) (noReset : c ≠ .hardwareReset) :
    (t.ev.irqEn ≠ s.ev.irqEn → ∃ w, c = .irqEn w) ∧ (t.ev.mask0 ≠ s.ev.mask0 → ∃ w, c = .evtMaskWrite 0 w) ∧
      (t.ev.mask1 ≠ s.ev.mask1 → ∃ w, c = .evtMaskWrite 1 w) ∧ (EventCapacity s.ev → t.ev.loss < s.ev.loss → c = .clearLoss) := by
  by_cases other : accessesEvents c = false
  · have posts := exec_posts other h
    have frame := posts.frame
    refine ⟨fun changed => absurd ?_ changed, fun changed => absurd ?_ changed, fun changed => absurd ?_ changed,
      fun capacity falls => absurd falls (posts.loss capacity).not_gt⟩ <;> rw [frame]
  cases c with
  | hardwareReset => exact absurd rfl noReset
  | evtPop =>
    obtain ⟨ev, -⟩ := exec_evtPop_ev h
    rw [ev]
    exact ⟨fun changed => absurd rfl changed, fun changed => absurd rfl changed, fun changed => absurd rfl changed,
      fun _ falls => absurd falls (lt_irrefl _)⟩
  | evtMaskWrite r v =>
    rcases exec_evtMaskWrite_ev h with ev | ⟨rfl, ev⟩ | ⟨rfl, ev⟩ <;> rw [ev]
    · exact ⟨fun changed => absurd rfl changed, fun changed => absurd rfl changed, fun changed => absurd rfl changed,
        fun _ falls => absurd falls (lt_irrefl _)⟩
    · exact ⟨fun changed => absurd rfl changed, fun _ => ⟨v, rfl⟩, fun changed => absurd rfl changed,
        fun _ falls => absurd falls (lt_irrefl _)⟩
    · exact ⟨fun changed => absurd rfl changed, fun changed => absurd rfl changed, fun _ => ⟨v, rfl⟩,
        fun _ falls => absurd falls (lt_irrefl _)⟩
  | irqEn v =>
    refine ⟨fun _ => ⟨v, rfl⟩, ?_⟩
    rcases exec_irqEn_ev h with ev | ev <;> rw [ev]
    · exact ⟨fun changed => absurd rfl changed, fun changed => absurd rfl changed, fun _ falls => absurd falls (lt_irrefl _)⟩
    · exact ⟨fun changed => absurd rfl changed, fun changed => absurd rfl changed, fun _ falls => absurd falls (lt_irrefl _)⟩
  | clearLoss =>
    rcases exec_clearLoss_ev h with ev | ev <;> rw [ev]
    · exact ⟨fun changed => absurd rfl changed, fun changed => absurd rfl changed, fun changed => absurd rfl changed, fun _ _ => rfl⟩
    · exact ⟨fun changed => absurd rfl changed, fun changed => absurd rfl changed, fun changed => absurd rfl changed, fun _ _ => rfl⟩
  | _ => exact absurd rfl other

/-! ### The timer and the dials -/

/-- The timer's settings and its deferred flags. -/
def Timer.kept (t : Timer) : Timing × Timing × Vector Bool 32 := (t.ordinary, t.urgent, t.deferred)

theorem Moves.timerKept (h : Moves w s t) (calm : ¬w.stirring) : t.timer.kept = s.timer.kept := by
  refine h.induct_calm (fun u => u.timer.kept = s.timer.kept) calm (fun a b step same => ?_) (fun _ _ same _ => ?_) rfl
  · rcases step.beside with ⟨_, _, _, -, -, rfl⟩ | ⟨_, -, rfl⟩ | ⟨-, timer, -⟩
    · exact same
    · exact same
    · rw [timer, same]
  · rw [timer_of_beside same]
    exact id

theorem takeOwed_kept (s : State) : (takeOwed s).timer.kept = s.timer.kept ∧ (takeOwed s).dials = s.dials := by
  have moves := (takeOwed_changes (w := undialedRow) (s := s) trivial False.elim).moves
  exact ⟨moves.timerKept id, moves.dials id⟩

/-- The rows that write the timer and the dials, each its own part. -/
structure OwnDials (c : Instr) (s t : State) : Prop where
  timing : t.timer.ordinary ≠ s.timer.ordinary ∨ t.timer.urgent ≠ s.timer.urgent → c = .setTiming
  owed : ∀ n : CtxNo, t.timer.owed[n] ≠ s.timer.owed[n] → c = .tick ∨ c = .stop ∨ c = .expiryDecision n
  deferred : t.timer.deferred ≠ s.timer.deferred → c = .tick ∨ c = .stop
  reserve : t.pool.reserve ≠ s.pool.reserve → c = .setReserve
  rotation : t.rotation ≠ s.rotation → c = .admissionEvent
  rstn : t.pins.rstnLow ≠ s.pins.rstnLow → c = .leaveReset

/-- A row that writes neither, or the part named. -/
theorem OwnDials.of_kept
    (timing : c ≠ .setTiming → t.timer.ordinary = s.timer.ordinary ∧ t.timer.urgent = s.timer.urgent)
    (owed : ∀ n : CtxNo, c ≠ .tick → c ≠ .stop → c ≠ .expiryDecision n → t.timer.owed[n] = s.timer.owed[n])
    (deferred : c ≠ .tick → c ≠ .stop → t.timer.deferred = s.timer.deferred)
    (reserve : c ≠ .setReserve → t.pool.reserve = s.pool.reserve) (rotation : c ≠ .admissionEvent → t.rotation = s.rotation)
    (rstn : c ≠ .leaveReset → t.pins.rstnLow = s.pins.rstnLow) : OwnDials c s t where
  timing changed := by
    by_contra other
    obtain ⟨ordinary, urgent⟩ := timing other
    rcases changed with changed | changed
    · exact changed ordinary
    · exact changed urgent
  owed n changed := by
    by_contra other
    obtain ⟨tick, stop, decision⟩ : c ≠ .tick ∧ c ≠ .stop ∧ c ≠ .expiryDecision n := by simpa using other
    exact changed (owed n tick stop decision)
  deferred changed := by
    by_contra other
    obtain ⟨tick, stop⟩ : c ≠ .tick ∧ c ≠ .stop := by simpa using other
    exact changed (deferred tick stop)
  reserve changed := by_contra fun other => changed (reserve other)
  rotation changed := by_contra fun other => changed (rotation other)
  rstn changed := by_contra fun other => changed (rstn other)

theorem OwnDials.of_same (timer : t.timer = s.timer) (dials : t.dials = s.dials) : OwnDials c s t :=
  .of_kept (fun _ => by rw [timer]; exact ⟨rfl, rfl⟩) (fun _ _ _ _ => by rw [timer]) (fun _ _ => by rw [timer])
    (fun _ => congrArg Dials.reserve dials) (fun _ => congrArg Dials.rotation dials) fun _ => congrArg Dials.rstnLow dials

theorem serveLine_timer (l : LineNo) (s : State) : (serveLine l s).timer = s.timer ∧
    (serveLine l s).dials = { s.dials with rotation := l } := by
  have admitted := (admitFrame_changes (w := untimedRow) (s := { s with rotation := l }) False.elim
    ⟨trivial, fun _ _ _ => trivial⟩ l
    ((s.line l).buffers.headD [])).moves
  exact ⟨admitted.timer id id, admitted.dials id⟩

theorem Timer.withSettings_flags (t : Timer) (cls : MsgClass) (v : Timing) :
    (t.withSettings cls v).owed = t.owed ∧ (t.withSettings cls v).deferred = t.deferred := by
  cases cls
  · exact ⟨rfl, rfl⟩
  · exact ⟨rfl, rfl⟩

theorem tickInRun_settings (s : State) : (tickInRun s).dials = s.dials ∧
    (tickInRun s).timer.ordinary = s.timer.ordinary ∧ (tickInRun s).timer.urgent = s.timer.urgent := by
  rw [tickInRun_frame]
  simp [State.dials, tickInRun]

theorem exec_tick_ownDials (h : exec .tick s = .next t) : OwnDials .tick s t := by
  rcases awake_next h with ⟨-, rfl⟩ | ⟨-, rfl⟩
  · exact .of_same rfl rfl
  split
  · obtain ⟨kept, dials⟩ := takeOwed_kept s
    generalize takeOwed s = u at kept dials ⊢
    obtain ⟨dials', ordinary, urgent⟩ := tickInRun_settings u
    have same := dials'.trans dials
    exact .of_kept (fun _ => ⟨ordinary.trans (congrArg Prod.fst kept), urgent.trans (congrArg (fun k => k.2.1) kept)⟩)
      (fun _ tick => absurd rfl tick) (fun tick => absurd rfl tick) (fun _ => congrArg Dials.reserve same)
      (fun _ => congrArg Dials.rotation same) fun _ => congrArg Dials.rstnLow same
  · exact .of_same rfl rfl

theorem exec_expiryDecision_ownDials {n : CtxNo} (h : exec (.expiryDecision n) s = .next t) :
    OwnDials (.expiryDecision n) s t := by
  have dials := exec_dials h nofun rfl
  rcases awake_next h with ⟨-, rfl⟩ | ⟨-, rfl⟩
  · exact .of_same rfl rfl
  revert dials
  split
  · intro dials
    refine .of_kept (fun _ => ?_) (fun m _ _ other => ?_) (fun _ _ => ?_) (fun _ => congrArg Dials.reserve dials)
      (fun _ => congrArg Dials.rotation dials) fun _ => congrArg Dials.rstnLow dials
    · rw [takeDecision_timer]
      exact ⟨rfl, rfl⟩
    · rw [takeDecision_timer]
      refine Vector.getElem_set_ne n.isLt m.isLt fun same => other ?_
      rw [Fin.ext same]
    · rw [takeDecision_timer]
  · exact fun _ => .of_same rfl rfl

theorem exec_stop_ownDials (h : exec .stop s = .next t) : OwnDials .stop s t := by
  rcases hostCommand_next h with ⟨-, rfl⟩ | ⟨-, -, rfl⟩ | ⟨-, rfl⟩
  · exact .of_same rfl rfl
  · exact .of_same rfl rfl
  unfold doStop
  split
  · exact .of_same rfl rfl
  · have beside := ((((s.accept HostCommand.stop.code).withMode .stopping).discardBuffers.freezeTimers).wait .stop).stopIfDone_beside
    have timer := timer_of_beside beside
    have dials := dials_of_beside beside
    exact .of_kept (fun _ => by rw [timer]; exact ⟨rfl, rfl⟩) (fun _ _ stop => absurd rfl stop) (fun _ stop => absurd rfl stop)
      (fun _ => congrArg Dials.reserve dials) (fun _ => congrArg Dials.rotation dials) fun _ => congrArg Dials.rstnLow dials

theorem exec_ownDials (h : exec c s = .next t) (noReset : c ≠ .hardwareReset) : OwnDials c s t := by
  by_cases still : stirs c = false ∧ decides c = false
  · exact .of_same (exec_timer h noReset still.1 still.2) (exec_dials h noReset still.1)
  cases c with
  | tick => exact exec_tick_ownDials h
  | expiryDecision n => exact exec_expiryDecision_ownDials h
  | stop => exact exec_stop_ownDials h
  | admissionEvent =>
    rcases awake_next h with ⟨-, rfl⟩ | ⟨-, rfl⟩
    · exact .of_same rfl rfl
    split
    · split
      · rename_i l served
        obtain ⟨timer, dials⟩ := serveLine_timer l s
        exact .of_kept (fun _ => by rw [timer]; exact ⟨rfl, rfl⟩) (fun _ _ _ _ => by rw [timer]) (fun _ _ => by rw [timer])
          (fun _ => congrArg Dials.reserve dials) (fun other => absurd rfl other) fun _ => congrArg Dials.rstnLow dials
      · exact .of_same rfl rfl
    · exact .of_same rfl rfl
  | setTiming =>
    rcases hostCommand_next h with ⟨-, rfl⟩ | ⟨-, -, rfl⟩ | ⟨-, rfl⟩
    · exact .of_same rfl rfl
    · exact .of_same rfl rfl
    unfold doSetTiming
    split
    · exact .of_same rfl rfl
    · rename_i cls v args
      obtain ⟨owed, deferred⟩ := s.timer.withSettings_flags cls v
      exact .of_kept (fun other => absurd rfl other) (fun n _ _ _ => congrArg (fun f : Vector Bool 32 => f[n]) owed) (fun _ _ => deferred)
        (fun _ => rfl) (fun _ => rfl) fun _ => rfl
  | setReserve =>
    rcases hostCommand_next h with ⟨-, rfl⟩ | ⟨-, -, rfl⟩ | ⟨-, rfl⟩
    · exact .of_same rfl rfl
    · exact .of_same rfl rfl
    unfold doSetReserve
    split
    · exact .of_same rfl rfl
    · exact .of_kept (fun _ => ⟨rfl, rfl⟩) (fun _ _ _ _ => rfl) (fun _ _ => rfl) (fun other => absurd rfl other)
        (fun _ => rfl) fun _ => rfl
  | leaveReset =>
    cases h
    exact .of_kept (fun _ => ⟨rfl, rfl⟩) (fun _ _ _ _ => rfl) (fun _ _ => rfl) (fun _ => rfl) (fun _ => rfl)
      fun other => absurd rfl other
  | _ => exact absurd ⟨rfl, rfl⟩ still

/-! ### The head record -/

theorem joinIfWhole_readout (n : CtxNo) (s : State) : (joinIfWhole n s).readout = s.readout := by
  unfold joinIfWhole
  split <;> rfl

theorem Change.head (h : Change w s t) (still : ¬w.claiming) : t.readout.head = s.readout.head := by
  cases h with
  | names n seg => exact congrArg Readout.head (joinIfWhole_readout n _)
  | stores n seg => exact congrArg Readout.head (joinIfWhole_readout n _)
  | frees n => exact congrArg Readout.head (s.freeCtx_readout n)
  | loses n r held port =>
    rcases port with ⟨-, claiming⟩ | rfl
    · exact absurd claiming still
    · rfl
  | ends n => exact congrArg Readout.head (s.freeCtx_readout n)
  | requests n => rw [State.requestStop_frame]
  | claims n rest port queue claiming => exact absurd claiming still
  | releases lost claiming => exact absurd claiming still
  | _ => rfl

/-- The warrant of a row that claims and releases nothing. -/
def unclaimingRow : Warrant := ⟨False, False, True, True, True, False, True, True, True, fun _ _ => True⟩

theorem exec_head (h : exec c s = .next t) (noReset : c ≠ .hardwareReset) (still : claims c = false) :
    t.readout.head = s.readout.head := by
  have moves : Moves unclaimingRow s t :=
    exec_moves h noReset False.elim False.elim (fun _ => trivial) (fun _ => trivial) (fun _ => trivial)
      (fun claims => by simp [still] at claims) (fun _ => trivial) (fun _ => trivial) fun _ => ⟨trivial, fun _ _ _ => trivial⟩
  exact moves.induct (fun u => u.readout.head = s.readout.head) (fun _ _ step same => (step.head id).trans same)
    (fun _ _ records same => (congrArg (fun r => r.readout.head) records).trans same) rfl

/-! ### Mode and lines -/

theorem ModeCase.own (h : ModeCase c s t) (changed : t.cmd.mode ≠ s.cmd.mode) :
    c = .start ∨ c = .stop ∨ c = .stopCompletion ∨ c = .cellCompletion ∨ ∃ l, c = .frameEnd l ∨ c = .abortEnd l := by
  cases h with
  | same mode => exact absurd mode changed
  | started start => exact .inl start
  | stopping stop => exact .inr (.inl stop)
  | stopped row => exact .inr (.inr row)

theorem exec_lineSettings (h : exec c s = .next t) (noReset : c ≠ .hardwareReset) (other : c ≠ .setLine) (l : LineNo) :
    (t.line l).divisor = (s.line l).divisor ∧ (t.line l).threshold = (s.line l).threshold :=
  (exec_linesStep h noReset l).induct (fun u => u.divisor = (s.line l).divisor ∧ u.threshold = (s.line l).threshold)
    (fun _ _ step ⟨divisor, threshold⟩ => by
      obtain ⟨sameDivisor, sameThreshold⟩ := step.settings other
      exact ⟨sameDivisor.trans divisor, sameThreshold.trans threshold⟩) ⟨rfl, rfl⟩

theorem exec_lineState (h : exec c s = .next t) (noReset : c ≠ .hardwareReset) (l : LineNo) (other : ¬switchesLine c l) :
    (t.line l).state = (s.line l).state :=
  (exec_linesStep h noReset l).induct (fun u => u.state = (s.line l).state)
    (fun _ _ step same => (step.state other).trans same) rfl

/-- Settles O49: each row's changes avoid the parts that the other rows own. -/
theorem onlyItsCommandChangesIt : Obligations.OnlyItsCommandChangesIt := by
  unfold Obligations.OnlyItsCommandChangesIt
  intro c s t h noReset
  obtain ⟨irqEn, mask0, mask1, loss⟩ := exec_ownEvents h noReset
  obtain ⟨args, station, learn⟩ := exec_settings h noReset
  have dials := exec_ownDials h noReset
  refine ⟨irqEn, mask0, mask1, fun capacity => loss ⟨capacity.events, capacity.loss⟩, args, station, learn, dials.timing,
    fun n => ⟨dials.owed n, fun changed => dials.deferred fun same => changed (by rw [same])⟩, dials.reserve, fun l changed => ?_,
    dials.rotation, fun changed => ?_, dials.rstn, (exec_mode h noReset).own, fun l changed => ?_⟩
  · by_contra other
    obtain ⟨divisor, threshold⟩ := exec_lineSettings h noReset other l
    rcases changed with changed | changed
    · exact changed divisor
    · exact changed threshold
  · cases claimed : claims c with
    | false => exact absurd (exec_head h noReset claimed) changed
    | true =>
      cases c with
      | msgHead0 => exact .inl rfl
      | release => exact .inr rfl
      | _ => cases claimed
  · by_contra other
    exact changed (exec_lineState h noReset l other)

end Own

end Sys2Proof.Machine
end

