-- ==== Sys2Proof/Proofs/AdmissionCommutes.lean ====
section
/-! SUPPORT. The admission of a frame reads and writes nothing of the waiting buffers or of the queue of commands: it commutes with
changes of them (spec 03 R47, R48; logs 2, 13). -/

namespace Sys2Proof.Machine

/-- A change of lines that leaves what handing over reads, and that a frame placed in a queue passes through. -/
structure Inert (g : Vector LineUnit 4 → Vector LineUnit 4) : Prop where
  state : ∀ (v : Vector LineUnit 4) (l : LineNo), ((g v)[l]).state = (v[l]).state
  tx : ∀ (v : Vector LineUnit 4) (l : LineNo), ((g v)[l]).tx = (v[l]).tx
  queue : ∀ (v : Vector LineUnit 4) (l : LineNo), ((g v)[l]).queue = (v[l]).queue
  place : ∀ (v : Vector LineUnit 4) (l : LineNo) (queue : List CtrlFrame),
    g (v.set l { v[l] with queue := queue }) = (g v).set l { (g v)[l] with queue := queue }

theorem Inert.id : Inert id := ⟨fun _ _ => rfl, fun _ _ => rfl, fun _ _ => rfl, fun _ _ _ => rfl⟩

/-- The state with its lines changed, and another queue of commands. -/
def State.mapped (s : State) (g : Vector LineUnit 4 → Vector LineUnit 4) (q : List Instr) : State :=
  { s with lines := g s.lines, pending := q }

section Mapped

variable {s : State} {g : Vector LineUnit 4 → Vector LineUnit 4} {q : List Instr}

/-! ## What is read depends on neither -/

@[simp] theorem State.mapped_ctx (n : CtxNo) : (s.mapped g q).ctx n = s.ctx n := rfl
@[simp] theorem State.mapped_source (k : SlotNo) : (s.mapped g q).source k = s.source k := rfl
@[simp] theorem State.mapped_findSource (a : Byte) : (s.mapped g q).findSource a = s.findSource a := rfl
@[simp] theorem State.mapped_lookupKey (a : Byte) (m : MsgNo) : (s.mapped g q).lookupKey a m = s.lookupKey a m := rfl
@[simp] theorem State.mapped_lowestFree : (s.mapped g q).lowestFree = s.lowestFree := rfl
@[simp] theorem State.mapped_lowestUnused : (s.mapped g q).lowestUnused = s.lowestUnused := rfl
@[simp] theorem State.mapped_slotCandidate : (s.mapped g q).slotCandidate = s.slotCandidate := rfl
@[simp] theorem State.mapped_ageList : (s.mapped g q).ageList = s.ageList := rfl

/-! ## Operations -/

/-- A choice that they do not decide. -/
theorem ite_mapped {p p' : Prop} [Decidable p] [Decidable p'] (same : p' ↔ p) {yes no yes' no' : State}
    (if_yes : p → yes' = yes.mapped g q) (if_no : ¬p → no' = no.mapped g q) :
    (if p' then yes' else no') = (if p then yes else no).mapped g q := by
  by_cases h : p
  · rw [if_pos h, if_pos (same.2 h), if_yes h]
  · rw [if_neg h, if_neg (mt same.1 h), if_no h]

section Outputs

variable (inert : Inert g)

include inert

theorem handOver_mapped (f : CtrlFrame) (requested : LineNo) (mask : LineMask) :
    (s.mapped g q).handOver f requested mask = (s.handOver f requested mask).mapped g q := by
  have on (l : LineNo) : (s.mapped g q).lineOn l = s.lineOn l :=
    congrArg (fun st : LineState => st == .on) (inert.state s.lines l)
  have line : (s.mapped g q).txLine requested mask = s.txLine requested mask := by simp only [State.txLine, on]
  unfold State.handOver
  rw [line]
  split
  · rfl
  · rename_i l _
    have inFlight : ((s.mapped g q).line l).inFlight = (s.line l).inFlight :=
      congrArg (fun tx : TxState => if tx = .sending then 1 else 0) (inert.tx s.lines l)
    have queue : ((s.mapped g q).line l).queue = (s.line l).queue := inert.queue s.lines l
    rw [inFlight, queue]
    split
    · rename_i placed _
      exact congrArg (fun v => ({ s with lines := v, pending := q } : State)) (inert.place s.lines l placed).symm
    · rfl

theorem refuseCtx_mapped (r : Ctx) (reason : Reason) : (s.mapped g q).refuseCtx r reason = (s.refuseCtx r reason).mapped g q :=
  handOver_mapped inert _ _ _

end Outputs

theorem post_mapped (e : EventRec) : (s.mapped g q).post e = (s.post e).mapped g q := rfl

theorem setCtx_mapped (n : CtxNo) (r : Ctx) : (s.mapped g q).setCtx n r = (s.setCtx n r).mapped g q := rfl

theorem lowerOpen_mapped (a : Byte) : (s.mapped g q).lowerOpen a = (s.lowerOpen a).mapped g q := by
  unfold State.lowerOpen
  rw [State.mapped_findSource]
  split <;> rfl

/-- A record freed, but for its source's count. -/
def State.released (s : State) (n : CtxNo) : State :=
  { s with
    pool := { s.pool with freeList := s.pool.freeList ++ (s.ctx n).chain }
    ageList := s.ageList.erase n
    checker := { s.checker with queue := s.checker.queue.erase n }
    delivery := s.delivery.erase n }

theorem freeCtx_mapped (n : CtxNo) : (s.mapped g q).freeCtx n = (s.freeCtx n).mapped g q :=
  congrArg (fun t : State => t.setCtx n .cleared) (lowerOpen_mapped (s := s.released n) (s.ctx n).source)

/-! ### Admission -/

theorem joinIfWhole_mapped (n : CtxNo) : joinIfWhole n (s.mapped g q) = (joinIfWhole n s).mapped g q := by
  unfold joinIfWhole
  exact ite_mapped .rfl (fun _ => rfl) fun _ => rfl

theorem allocateAndStore_mapped (n : CtxNo) (seg : Segment) :
    allocateAndStore n seg (s.mapped g q) = (allocateAndStore n seg s).mapped g q := rfl

theorem storedDuplicate_mapped (n : CtxNo) (seg : Segment) :
    storedDuplicate n seg (s.mapped g q) = (storedDuplicate n seg s).mapped g q := by
  unfold storedDuplicate
  dsimp only
  refine ite_mapped .rfl (fun _ => ?_) fun _ => rfl
  rw [State.mapped_ctx, setCtx_mapped, post_mapped, joinIfWhole_mapped]

section Admission

variable (inert : Inert g)

include inert

theorem evict_mapped (cause : EvictCause) (l : LineNo) (n : CtxNo) :
    evict cause l n (s.mapped g q) = (evict cause l n s).mapped g q := by
  unfold evict
  dsimp only
  rw [refuseCtx_mapped inert, post_mapped, freeCtx_mapped, State.mapped_ctx]

theorem evictForCells_mapped (k : Nat) (l : LineNo) (records : List CtxNo) (s : State) :
    evictForCells k l records (s.mapped g q) = (evictForCells k l records s).mapped g q := by
  induction records generalizing s with
  | nil => rfl
  | cons n rest ih =>
    rw [evictForCells, evictForCells]
    refine ite_mapped .rfl (fun _ => rfl) fun _ => ?_
    rw [← ih]
    refine congrArg _ (ite_mapped .rfl (fun _ => ?_) fun _ => rfl)
    exact evict_mapped inert _ _ _

theorem storeSegment_mapped (n : CtxNo) (seg : Segment) : storeSegment n seg (s.mapped g q) = (storeSegment n seg s).mapped g q := by
  unfold storeSegment
  dsimp only
  rw [State.mapped_ctx]
  cases (s.ctx n).cls with
  | urgent =>
    dsimp only
    rw [State.mapped_ageList, evictForCells_mapped inert, allocateAndStore_mapped, joinIfWhole_mapped]
  | ordinary =>
    dsimp only
    rw [allocateAndStore_mapped, joinIfWhole_mapped]

theorem storeInto_mapped (n : CtxNo) (seg : Segment) : storeInto n seg (s.mapped g q) = (storeInto n seg s).mapped g q := by
  unfold storeInto
  dsimp only
  rw [State.mapped_ctx]
  split
  · rfl
  · split
    · exact ite_mapped .rfl (fun _ => storedDuplicate_mapped n seg) fun _ => rfl
    · exact ite_mapped .rfl (fun _ => storeSegment_mapped inert n seg) fun _ => rfl

theorem refuseAndPost_mapped (seg : Segment) (reason : Reason) :
    refuseAndPost seg reason (s.mapped g q) = (refuseAndPost seg reason s).mapped g q := by
  rw [refuseAndPost, refuseSegment, handOver_mapped inert]
  rfl

theorem refuseForCells_mapped (seg : Segment) : refuseForCells seg (s.mapped g q) = (refuseForCells seg s).mapped g q := by
  rw [refuseForCells, refuseSegment, handOver_mapped inert]
  rfl

theorem openAt_mapped (n : CtxNo) (k : SlotNo) (cls : MsgClass) (seg : Segment) :
    openAt n k cls seg (s.mapped g q) = (openAt n k cls seg s).mapped g q :=
  storeSegment_mapped inert (s := (s.openedFor n k cls seg).post (segmentEvent .ctxOpened seg (some n) (numAt cls.code 0))) n seg

theorem openContext_mapped (k : SlotNo) (cls : MsgClass) (seg : Segment) :
    openContext k cls seg (s.mapped g q) = (openContext k cls seg s).mapped g q := by
  unfold openContext
  dsimp only
  refine ite_mapped .rfl (fun _ => refuseAndPost_mapped inert _ _) fun _ => ?_
  rw [State.mapped_lowestFree]
  split
  · exact ite_mapped .rfl (fun _ => openAt_mapped inert _ _ _ _) fun _ => refuseForCells_mapped inert _
  · cases cls with
    | ordinary => exact refuseAndPost_mapped inert _ _
    | urgent =>
      dsimp only
      rw [State.mapped_slotCandidate]
      split
      · exact refuseAndPost_mapped inert _ _
      · refine ite_mapped .rfl (fun _ => ?_) fun _ => refuseForCells_mapped inert _
        rw [evict_mapped inert, openAt_mapped inert]

theorem answerFromHistory_mapped (k : SlotNo) (h : HistRec) (seg : Segment) (n : Option CtxNo) :
    answerFromHistory k h seg n (s.mapped g q) = (answerFromHistory k h seg n s).mapped g q := by
  unfold answerFromHistory
  refine ite_mapped .rfl (fun _ => ?_) fun _ => rfl
  dsimp only
  rw [handOver_mapped inert]
  rfl

theorem resolveElsewhere_mapped (k : SlotNo) (cls : MsgClass) (seg : Segment) (n : Option CtxNo) :
    resolveElsewhere k cls seg n (s.mapped g q) = (resolveElsewhere k cls seg n s).mapped g q := by
  unfold resolveElsewhere
  rw [State.mapped_source]
  split
  · exact answerFromHistory_mapped inert _ _ _ _
  · split
    · rfl
    · exact openContext_mapped inert _ _ _

theorem resolveKey_mapped (k : SlotNo) (cls : MsgClass) (seg : Segment) :
    resolveKey k cls seg (s.mapped g q) = (resolveKey k cls seg s).mapped g q := by
  unfold resolveKey
  rw [State.mapped_lookupKey]
  split
  · exact ite_mapped .rfl (fun _ => storeInto_mapped inert _ _) fun _ => resolveElsewhere_mapped inert _ _ _ _
  · exact resolveElsewhere_mapped inert _ _ _ _

theorem admitFrom_mapped (k : SlotNo) (seg : Segment) : admitFrom k seg (s.mapped g q) = (admitFrom k seg s).mapped g q := by
  unfold admitFrom
  exact ite_mapped .rfl (fun _ => refuseAndPost_mapped inert _ _) fun _ => resolveKey_mapped inert _ _ _

theorem checkSource_mapped (seg : Segment) : checkSource seg (s.mapped g q) = (checkSource seg s).mapped g q := by
  unfold checkSource
  rw [State.mapped_findSource]
  split
  · rw [State.mapped_source]
    split
    · rfl
    · exact refuseAndPost_mapped inert _ _
    · exact admitFrom_mapped inert _ _
    · rfl
  · refine ite_mapped .rfl (fun _ => ?_) fun _ => rfl
    rw [State.mapped_lowestUnused]
    split
    · exact admitFrom_mapped inert (s := (s.setSource _ _).post _) _ _
    · rfl

theorem admitFrame_mapped (l : LineNo) (content : List Byte) :
    admitFrame l content (s.mapped g q) = (admitFrame l content s).mapped g q := by
  unfold admitFrame
  refine ite_mapped .rfl (fun _ => rfl) fun _ => ite_mapped .rfl (fun _ => rfl) fun _ => ?_
  split
  · rfl
  · exact checkSource_mapped inert _

end Admission

end Mapped

/-! ## The buffer served -/

section Served

variable {s : State} {l : LineNo} {content : List Byte}

/-- The lines with the oldest buffer of one of them empty. -/
def emptyOldestOf (l : LineNo) (v : Vector LineUnit 4) : Vector LineUnit 4 :=
  v.set l { v[l] with buffers := (v[l]).buffers.tail }

theorem getElem_emptyOldestOf (l m : LineNo) (v : Vector LineUnit 4) :
    (emptyOldestOf l v)[m] = { v[m] with buffers := if m = l then (v[m]).buffers.tail else (v[m]).buffers } := by
  by_cases here : m = l
  · subst here
    simp [emptyOldestOf]
  · rw [if_neg here]
    exact Vector.getElem_set_ne _ _ fun same => here (Fin.ext same.symm)

theorem inert_emptyOldestOf (l : LineNo) : Inert (emptyOldestOf l) := by
  refine ⟨fun v m => ?_, fun v m => ?_, fun v m => ?_, fun v m queue => ?_⟩
  · rw [getElem_emptyOldestOf]
  · rw [getElem_emptyOldestOf]
  · rw [getElem_emptyOldestOf]
  · by_cases here : m = l
    · subst here
      simp [emptyOldestOf, Vector.set_set]
    · have outer : (v.set m { v[m] with queue := queue })[l] = v[l] :=
        Vector.getElem_set_ne _ _ fun same => here (Fin.ext same)
      have inner : (v.set l { v[l] with buffers := (v[l]).buffers.tail })[m] = v[m] :=
        Vector.getElem_set_ne _ _ fun same => here (Fin.ext same.symm)
      unfold emptyOldestOf
      rw [outer, inner]
      exact Vector.set_comm _ _ fun same => here (Fin.ext same)

/-- Admission leaves the queue of commands. -/
theorem admitFrame_pending (l : LineNo) (content : List Byte) (s : State) : (admitFrame l content s).pending = s.pending := by
  have same := congrArg State.pending (admitFrame_mapped (s := s) (q := s.pending) .id l content)
  exact same

/-- A served frame's outputs land in the state in which its buffer is empty already. -/
theorem serveLine_eq (l : LineNo) (s : State) :
    serveLine l s = admitFrame l ((s.line l).buffers.headD []) (s.afterServing l) := by
  have admitted := admitFrame_mapped (s := { s with rotation := l }) (q := s.pending) (inert_emptyOldestOf l) l
    ((s.line l).buffers.headD [])
  have pending := admitFrame_pending l ((s.line l).buffers.headD []) { s with rotation := l }
  have empties (u : State) : u.emptyOldest l = u.mapped (emptyOldestOf l) u.pending := rfl
  rw [serveLine, empties, pending]
  exact admitted.symm

end Served

end Sys2Proof.Machine
end

