-- ==== Sys2Proof/Proofs/QueueIgnored.lean ====
section
/-! SUPPORT. What waits in the queue of commands changes nothing of what a command does, and no command touches it (logs 2, 7, 8, 13,
19). -/

namespace Sys2Proof.Machine

/-- The state with another queue. -/
def State.queued (s : State) (q : List Instr) : State := { s with pending := q }

section Queue

variable {s : State} {q : List Instr}

/-! ## What is read does not depend on the queue -/

@[simp] theorem State.queued_ctx (n : CtxNo) : (s.queued q).ctx n = s.ctx n := rfl
@[simp] theorem State.queued_source (k : SlotNo) : (s.queued q).source k = s.source k := rfl
@[simp] theorem State.queued_line (l : LineNo) : (s.queued q).line l = s.line l := rfl
@[simp] theorem State.queued_arg (i : ArgNo) : (s.queued q).arg i = s.arg i := rfl
@[simp] theorem State.queued_findSource (a : Byte) : (s.queued q).findSource a = s.findSource a := rfl
@[simp] theorem State.queued_lookupKey (a : Byte) (m : MsgNo) : (s.queued q).lookupKey a m = s.lookupKey a m := rfl
@[simp] theorem State.queued_txLine (l : LineNo) (m : LineMask) : (s.queued q).txLine l m = s.txLine l m := rfl
@[simp] theorem State.queued_evictable (n : CtxNo) : (s.queued q).evictable n = s.evictable n := rfl
@[simp] theorem State.queued_requestPasses (c : MsgClass) (k : Nat) : (s.queued q).requestPasses c k = s.requestPasses c k := rfl
@[simp] theorem State.queued_candidatePasses (n : CtxNo) (k : Nat) : (s.queued q).candidatePasses n k = s.candidatePasses n k := rfl
@[simp] theorem State.queued_answeredCtx (n : Option CtxNo) : (s.queued q).answeredCtx n = s.answeredCtx n := rfl
@[simp] theorem State.queued_recordsOf (a : Byte) (keep : CtxNo → Bool) : (s.queued q).recordsOf a keep = s.recordsOf a keep := rfl
@[simp] theorem State.queued_checkedOf (a : Byte) : (s.queued q).checkedOf a = s.checkedOf a := rfl
@[simp] theorem State.queued_readWord (a : RegAddr) : (s.queued q).readWord a = s.readWord a := rfl
@[simp] theorem State.queued_lowestFree : (s.queued q).lowestFree = s.lowestFree := rfl
@[simp] theorem State.queued_lowestUnused : (s.queued q).lowestUnused = s.lowestUnused := rfl
@[simp] theorem State.queued_slotCandidate : (s.queued q).slotCandidate = s.slotCandidate := rfl
@[simp] theorem State.queued_servedLine : (s.queued q).servedLine = s.servedLine := rfl
@[simp] theorem State.queued_freeCount : (s.queued q).freeCount = s.freeCount := rfl
@[simp] theorem State.queued_underCheck : (s.queued q).underCheck = s.underCheck := rfl
@[simp] theorem State.queued_txAllIdle : (s.queued q).txAllIdle = s.txAllIdle := rfl
@[simp] theorem State.queued_poolWords : (s.queued q).poolWords = s.poolWords := rfl
@[simp] theorem State.queued_ctxs : (s.queued q).ctxs = s.ctxs := rfl
@[simp] theorem State.queued_ageList : (s.queued q).ageList = s.ageList := rfl
@[simp] theorem State.queued_pool : (s.queued q).pool = s.pool := rfl
@[simp] theorem State.queued_rotation : (s.queued q).rotation = s.rotation := rfl
@[simp] theorem State.queued_sources : (s.queued q).sources = s.sources := rfl
@[simp] theorem State.queued_timer : (s.queued q).timer = s.timer := rfl
@[simp] theorem State.queued_checker : (s.queued q).checker = s.checker := rfl
@[simp] theorem State.queued_delivery : (s.queued q).delivery = s.delivery := rfl
@[simp] theorem State.queued_lines : (s.queued q).lines = s.lines := rfl
@[simp] theorem State.queued_readout : (s.queued q).readout = s.readout := rfl
@[simp] theorem State.queued_cmd : (s.queued q).cmd = s.cmd := rfl
@[simp] theorem State.queued_ev : (s.queued q).ev = s.ev := rfl
@[simp] theorem State.queued_pins : (s.queued q).pins = s.pins := rfl
@[simp] theorem State.queued_cutSeq : (s.queued q).cutSeq = s.cutSeq := rfl

/-! ## Operations -/

/-- A choice that the queue does not decide. -/
theorem ite_queued {p p' : Prop} [Decidable p] [Decidable p'] (same : p' ↔ p) {yes no yes' no' : State}
    (if_yes : p → yes' = yes.queued q) (if_no : ¬p → no' = no.queued q) :
    (if p' then yes' else no') = (if p then yes else no).queued q :=
  ite_mapped (g := id) same if_yes if_no

theorem handOver_queued (f : CtrlFrame) (requested : LineNo) (mask : LineMask) :
    (s.queued q).handOver f requested mask = (s.handOver f requested mask).queued q := handOver_mapped .id f requested mask

theorem post_queued (e : EventRec) : (s.queued q).post e = (s.post e).queued q := rfl

theorem setCtx_queued (n : CtxNo) (r : Ctx) : (s.queued q).setCtx n r = (s.setCtx n r).queued q := rfl

theorem engineIdle_queued : (s.queued q).engineIdle = s.engineIdle.queued q := rfl

theorem finish_queued (c : HostCommand) (words : Vector Word 6) : (s.queued q).finish c words = (s.finish c words).queued q := rfl

theorem wait_queued (v : Waiting) : (s.queued q).wait v = (s.wait v).queued q := rfl

theorem refuseCtx_queued (r : Ctx) (reason : Reason) : (s.queued q).refuseCtx r reason = (s.refuseCtx r reason).queued q :=
  handOver_queued _ _ _

theorem freeCtx_queued (n : CtxNo) : (s.queued q).freeCtx n = (s.freeCtx n).queued q := freeCtx_mapped (g := id) n

theorem loseHeld_queued (n : CtxNo) (cause : LossCause) : (s.queued q).loseHeld n cause = (s.loseHeld n cause).queued q := by
  unfold State.loseHeld
  exact ite_queued .rfl (fun _ => rfl) fun _ => rfl

theorem freeByCommand_queued (n : CtxNo) (cause : LossCause) :
    (s.queued q).freeByCommand n cause = (s.freeByCommand n cause).queued q := by
  rw [State.freeByCommand, loseHeld_queued, freeCtx_queued, State.freeByCommand]

theorem requestStop_queued (n : CtxNo) : (s.queued q).requestStop n = (s.requestStop n).queued q := by
  unfold State.requestStop
  rw [State.queued_checker]
  split <;> rfl

theorem stopIfDone_queued : (s.queued q).stopIfDone = s.stopIfDone.queued q := by
  unfold State.stopIfDone
  exact ite_queued .rfl (fun _ => rfl) fun _ => rfl

theorem foldl_queued {α : Type} {op : State → α → State} (each : ∀ (s : State) a, op (s.queued q) a = (op s a).queued q)
    (l : List α) (s : State) : l.foldl op (s.queued q) = (l.foldl op s).queued q := by
  induction l generalizing s with
  | nil => rfl
  | cons a rest ih => rw [List.foldl_cons, each, ih, List.foldl_cons]

/-! ### Admission -/

theorem serveLine_queued (l : LineNo) : serveLine l (s.queued q) = (serveLine l s).queued q :=
  congrArg (fun t : State => t.emptyOldest l) (admitFrame_mapped (s := { s with rotation := l }) .id l _)

/-! ### Timer -/

theorem sendGap_queued (n : CtxNo) : sendGap n (s.queued q) = (sendGap n s).queued q := by
  unfold sendGap
  dsimp only
  rw [State.queued_ctx, handOver_queued, setCtx_queued, post_queued]

theorem expire_queued (n : CtxNo) (cause : ExpiryCause) : expire n cause (s.queued q) = (expire n cause s).queued q := by
  unfold expire
  dsimp only
  rw [State.queued_ctx, refuseCtx_queued, post_queued, freeCtx_queued]

theorem decideExpiry_queued (n : CtxNo) : decideExpiry n (s.queued q) = (decideExpiry n s).queued q := by
  unfold decideExpiry
  dsimp only
  refine ite_queued .rfl (fun _ => rfl) fun _ => ite_queued .rfl (fun _ => expire_queued _ _) fun _ =>
    ite_queued .rfl (fun _ => ?_) fun _ => rfl
  exact ite_queued .rfl (fun _ => sendGap_queued _) fun _ => expire_queued _ _

theorem takeDecision_queued (n : CtxNo) : takeDecision n (s.queued q) = (takeDecision n s).queued q := by
  unfold takeDecision
  exact ite_queued .rfl (fun _ => decideExpiry_queued (s := s.settleDecision n) n) fun _ => rfl

theorem takeOwed_queued : takeOwed (s.queued q) = (takeOwed s).queued q :=
  foldl_queued (fun _ n => takeDecision_queued n) _ s

theorem tickInRun_queued : tickInRun (s.queued q) = (tickInRun s).queued q := rfl

/-! ### Lines -/

theorem dropFrame_queued (l : LineNo) (reason : LineReason) : dropFrame l reason (s.queued q) = (dropFrame l reason s).queued q := by
  unfold dropFrame
  exact ite_queued .rfl (fun _ => rfl) fun _ => rfl

theorem goodFrame_queued (l : LineNo) (content : List Byte) :
    goodFrame l content (s.queued q) = (goodFrame l content s).queued q := by
  unfold goodFrame
  exact ite_queued .rfl (fun _ => rfl) fun _ => ite_queued .rfl (fun _ => rfl) fun _ => rfl

theorem receiveByte_queued (l : LineNo) (b : Byte) (good : Bool) :
    receiveByte l b good (s.queued q) = (receiveByte l b good s).queued q := by
  unfold receiveByte
  dsimp only
  rw [State.queued_line]
  split
  · rfl
  · exact dropFrame_queued (s := s.setLine l _) l _
  · exact goodFrame_queued (s := s.setLine l _) l _

theorem closeLine_queued (l : LineNo) : closeLine l (s.queued q) = (closeLine l s).queued q := by
  unfold closeLine
  exact ite_queued .rfl (fun _ => rfl) fun _ => rfl

theorem completeLineOff_queued (l : LineNo) : completeLineOff l (s.queued q) = (completeLineOff l s).queued q := by
  unfold completeLineOff
  exact ite_queued .rfl (fun _ => rfl) fun _ => rfl

/-! ### The check engine -/

theorem pushHistory_queued (a : Byte) (m : MsgNo) : (s.queued q).pushHistory a m = (s.pushHistory a m).queued q := by
  unfold State.pushHistory
  rw [State.queued_findSource]
  split <;> rfl

theorem endMatch_queued (n : CtxNo) : endMatch n (s.queued q) = (endMatch n s).queued q := by
  have moved : (s.queued q).matched n = (s.matched n).queued q := by
    have pushed := congrArg State.sources (pushHistory_queued (s := s) (q := q) (s.ctx n).source (s.ctx n).msgno)
    simp only [State.matched, State.queued_ctx, pushed]
    rfl
  rw [endMatch_eq, endMatch_eq, moved, handOver_queued]
  rfl

theorem endMismatch_queued (n : CtxNo) : endMismatch n (s.queued q) = (endMismatch n s).queued q := by
  unfold endMismatch
  dsimp only
  rw [State.queued_ctx, refuseCtx_queued, post_queued, freeCtx_queued, engineIdle_queued]

theorem abortOutputs_queued (n : CtxNo) (r : Ctx) (notify : Bool) :
    abortOutputs n r notify (s.queued q) = (abortOutputs n r notify s).queued q := by
  unfold abortOutputs
  cases notify with
  | false => rfl
  | true => exact congrArg (fun t : State => t.post _) (refuseCtx_queued r .aborted)

theorem dropSource_queued (a : Byte) : (s.queued q).dropSource a = (s.dropSource a).queued q := by
  unfold State.dropSource
  rw [State.queued_findSource]
  split <;> rfl

theorem completeStopped_queued (r : Ctx) : completeStopped r (s.queued q) = (completeStopped r s).queued q := by
  unfold completeStopped
  rw [State.queued_cmd]
  split
  · rfl
  · rw [dropSource_queued, finish_queued]
  · rfl
  all_goals rfl

theorem stopOutputs_queued (n : CtxNo) : stopOutputs n (s.queued q) = (stopOutputs n s).queued q := by
  unfold stopOutputs
  rw [State.queued_cmd]
  split
  · exact abortOutputs_queued _ _ _
  all_goals rfl

theorem engineStop_queued (n : CtxNo) : engineStop n (s.queued q) = (engineStop n s).queued q := by
  unfold engineStop
  rw [stopOutputs_queued, freeCtx_queued, engineIdle_queued, completeStopped_queued, State.queued_ctx]

theorem checkCell_queued (n : CtxNo) (crc : Word32) (v : Walk) : checkCell n crc v (s.queued q) = (checkCell n crc v s).queued q := by
  unfold checkCell
  dsimp only
  rw [State.queued_ctx]
  split
  · rfl
  · refine ite_queued .rfl (fun _ => ?_) fun _ => ?_
    · rw [endMatch_queued, stopIfDone_queued]
    · rw [endMismatch_queued, stopIfDone_queued]

/-! ### Commands -/

theorem doSrcAdd_queued : doSrcAdd (s.queued q) = (doSrcAdd s).queued q := by
  unfold doSrcAdd
  have args : srcAddArgs (s.queued q) = srcAddArgs s := rfl
  rw [args]
  split
  · rfl
  · rw [State.queued_findSource]
    split
    · rfl
    · rw [State.queued_lowestUnused]
      split <;> rfl

theorem suspendSource_queued (k : SlotNo) : suspendSource k (s.queued q) = (suspendSource k s).queued q := by
  have each (s : State) (n : CtxNo) : suspendCtx n (s.queued q) = (suspendCtx n s).queued q := by
    rw [suspendCtx, refuseCtx_queued, freeCtx_queued, State.queued_ctx, suspendCtx]
  exact congrArg (fun t : State => t.finish _ _) (foldl_queued each _ (s.setSource k _))

theorem doSrcSuspend_queued : doSrcSuspend (s.queued q) = (doSrcSuspend s).queued q := by
  unfold doSrcSuspend
  rw [State.queued_arg]
  split
  · rfl
  · rw [State.queued_findSource]
    split
    · rfl
    · exact ite_queued .rfl (fun _ => suspendSource_queued _) fun _ => rfl

theorem doSrcResume_queued : doSrcResume (s.queued q) = (doSrcResume s).queued q := by
  unfold doSrcResume
  rw [State.queued_arg]
  split
  · rfl
  · rw [State.queued_findSource]
    split
    · rfl
    · exact ite_queued .rfl (fun _ => rfl) fun _ => rfl

theorem freeAll_queued (records : List CtxNo) (cause : LossCause) (s : State) :
    freeAll records cause (s.queued q) = (freeAll records cause s).queued q :=
  foldl_queued (fun _ n => freeByCommand_queued n cause) records s

theorem emptied_queued (k : SlotNo) : (s.queued q).emptied k = (s.emptied k).queued q :=
  freeAll_queued _ _ (s.setSource k _)

theorem removeSource_queued (k : SlotNo) : removeSource k (s.queued q) = (removeSource k s).queued q := by
  cases checked : s.checkedOf (s.source k).address with
  | none => rw [removeSource_unchecked checked, removeSource_unchecked (s := s.queued q) checked, emptied_queued]; rfl
  | some n =>
    rw [removeSource_checked checked, removeSource_checked (s := s.queued q) checked, emptied_queued, requestStop_queued]
    rfl

theorem doSrcRemove_queued : doSrcRemove (s.queued q) = (doSrcRemove s).queued q := by
  unfold doSrcRemove
  rw [State.queued_arg]
  split
  · rfl
  · rw [State.queued_findSource]
    split
    · rfl
    · exact removeSource_queued _

theorem doCtxAbort_queued : doCtxAbort (s.queued q) = (doCtxAbort s).queued q := by
  unfold doCtxAbort
  have args : ctxAbortArgs (s.queued q) = ctxAbortArgs s := rfl
  rw [args]
  split
  · rfl
  · refine ite_queued .rfl (fun _ => rfl) fun _ => ite_queued .rfl (fun _ => ?_) fun _ => ?_
    · rw [requestStop_queued, wait_queued]
    · unfold abortNow
      dsimp only
      rw [State.queued_ctx, abortOutputs_queued, freeByCommand_queued, finish_queued]

theorem doRelease_queued : doRelease (s.queued q) = (doRelease s).queued q := by
  unfold doRelease
  rw [State.queued_readout]
  split
  · rw [freeCtx_queued]
    rfl
  · rfl
  · rfl

theorem doFlush_queued : doFlush (s.queued q) = (doFlush s).queued q := by
  have freed := freeAll_queued (q := q) ((List.finRange 32).filter fun n => (s.ctx n).state != .free && s.underCheck != some n)
    .flush s
  unfold doFlush
  dsimp only
  rw [State.queued_underCheck]
  split
  · exact congrArg (fun t : State => t.finish _ _) freed
  · rw [← wait_queued, ← requestStop_queued]
    exact congrArg (fun t : State => (t.requestStop _).wait _) freed

theorem doSetStation_queued : doSetStation (s.queued q) = (doSetStation s).queued q := by
  unfold doSetStation
  rw [State.queued_arg]
  split
  · rfl
  · exact ite_queued .rfl (fun _ => rfl) fun _ => rfl

theorem doSetLearn_queued : doSetLearn (s.queued q) = (doSetLearn s).queued q := by
  unfold doSetLearn
  rw [State.queued_arg]
  split <;> rfl

theorem doSetTiming_queued : doSetTiming (s.queued q) = (doSetTiming s).queued q := by
  unfold doSetTiming
  have args : timingArgs (s.queued q) = timingArgs s := rfl
  rw [args]
  split <;> rfl

theorem doSetReserve_queued : doSetReserve (s.queued q) = (doSetReserve s).queued q := by
  unfold doSetReserve
  rw [State.queued_arg]
  split <;> rfl

theorem doSetLine_queued : doSetLine (s.queued q) = (doSetLine s).queued q := by
  unfold doSetLine
  have args : setLineArgs (s.queued q) = setLineArgs s := rfl
  rw [args]
  split
  · rfl
  · exact ite_queued .rfl (fun _ => rfl) fun _ => rfl

theorem doLineOn_queued : doLineOn (s.queued q) = (doLineOn s).queued q := by
  unfold doLineOn
  rw [State.queued_arg]
  split
  · rfl
  · rw [State.queued_line]
    split <;> rfl

theorem doLineOff_queued : doLineOff (s.queued q) = (doLineOff s).queued q := by
  unfold doLineOff
  rw [State.queued_arg]
  split
  · rfl
  · rw [State.queued_line]
    split
    · exact closeLine_queued (s := (s.setLine _ _).flushLine _) _
    · exact closeLine_queued _
    · rfl
    · rfl

theorem doStart_queued : doStart (s.queued q) = (doStart s).queued q := by
  unfold doStart
  exact ite_queued .rfl (fun _ => rfl) fun _ => ite_queued .rfl (fun _ => rfl) fun _ => rfl

theorem doStop_queued : doStop (s.queued q) = (doStop s).queued q := by
  unfold doStop
  refine ite_queued .rfl (fun _ => rfl) fun _ => ?_
  exact stopIfDone_queued (s := ((s.withMode .stopping).discardBuffers.freezeTimers).wait .stop)

theorem doQueryCtx_queued : doQueryCtx (s.queued q) = (doQueryCtx s).queued q := by
  unfold doQueryCtx
  have args : queryCtxArgs (s.queued q) = queryCtxArgs s := rfl
  rw [args]
  split <;> rfl

theorem doQuerySrc_queued : doQuerySrc (s.queued q) = (doQuerySrc s).queued q := by
  unfold doQuerySrc
  rw [State.queued_arg]
  split
  · rfl
  · rw [State.queued_findSource]
    split <;> rfl

/-! ### Host reads -/

theorem head0Effect_queued : head0Effect (s.queued q) = (head0Effect s).queued q := by
  unfold head0Effect
  rw [State.queued_readout]
  split
  · rw [State.queued_delivery]
    split <;> rfl
  · rfl
  · rfl

theorem dataEffect_queued : dataEffect (s.queued q) = (dataEffect s).queued q := by
  unfold dataEffect
  rw [State.queued_readout]
  split
  · exact ite_queued .rfl (fun _ => rfl) fun _ => ite_queued .rfl (fun _ => rfl) fun _ => rfl
  · rfl
  · rfl

theorem popEffect_queued : popEffect (s.queued q) = (popEffect s).queued q := by
  unfold popEffect
  rw [State.queued_ev]
  split <;> rfl

/-! ## Rows -/

variable {t : State} {f : State → State}

theorem awake_queued (h : awake s f = .next t) (same : ∀ s : State, f (s.queued q) = (f s).queued q) :
    awake (s.queued q) f = .next (t.queued q) := by
  rcases awake_next h with ⟨low, rfl⟩ | ⟨high, rfl⟩
  · exact awake_asleep _ _ low
  · rw [awake_eq (s.queued q) _ high, same]

theorem hostCommand_queued {c : HostCommand} (h : hostCommand c f s = .next t)
    (same : ∀ s : State, f (s.queued q) = (f s).queued q) : hostCommand c f (s.queued q) = .next (t.queued q) := by
  refine awake_queued h fun s => ?_
  unfold cmdWrite
  rw [State.queued_cmd]
  split
  · rfl
  · exact same (s.accept c.code)

theorem hostRead_queued {a : RegAddr} (h : hostRead a f s = .next t) (same : ∀ s : State, f (s.queued q) = (f s).queued q) :
    hostRead a f (s.queued q) = .next (t.queued q) := by
  cases h
  unfold hostRead
  rw [State.queued_pins, State.queued_readWord]
  cases s.pins.rstnLow with
  | true => rfl
  | false => simp only [same]; rfl

theorem ticked_queued (s : State) :
    (if (s.queued q).cmd.mode = .run then tickInRun (takeOwed (s.queued q)) else s.queued q) =
      (if s.cmd.mode = .run then tickInRun (takeOwed s) else s).queued q := by
  rw [takeOwed_queued]
  generalize takeOwed s = u
  exact ite_queued .rfl (fun _ => tickInRun_queued) fun _ => rfl

/-- Every row does the same whatever waits in the queue. -/
theorem exec_queued {c : Instr} (h : exec c s = .next t) : exec c (s.queued q) = .next (t.queued q) := by
  cases c with
  | hardwareReset =>
    cases h
    rfl
  | leaveReset =>
    cases h
    rfl
  | tick =>
    rw [exec, execTick] at h ⊢
    exact awake_queued h ticked_queued
  | expiryDecision n =>
    rw [exec, execExpiryDecision] at h ⊢
    refine awake_queued h fun s => ?_
    exact ite_queued .rfl (fun _ => takeDecision_queued n) fun _ => rfl
  | byteReception l b good =>
    rw [exec, execByteReception] at h ⊢
    refine awake_queued h fun s => ?_
    exact ite_queued .rfl (fun _ => receiveByte_queued l b good) fun _ => rfl
  | admissionEvent =>
    rw [exec, execAdmissionEvent] at h ⊢
    refine awake_queued h fun s => ?_
    refine ite_queued .rfl (fun _ => ?_) fun _ => rfl
    rw [State.queued_servedLine]
    split
    · exact serveLine_queued _
    · rfl
  | takeHead =>
    rw [exec, execTakeHead] at h ⊢
    refine awake_queued h fun s => ?_
    exact ite_queued .rfl (fun _ => rfl) fun _ => rfl
  | cellCompletion =>
    change execCellCompletion s = .next t at h
    change execCellCompletion (s.queued q) = _
    unfold execCellCompletion at h ⊢
    refine awake_queued h fun s => ?_
    rw [State.queued_checker]
    split
    · rfl
    · split
      · rfl
      · exact checkCell_queued _ _ _
      · exact engineStop_queued _
  | frameStart l =>
    change execFrameStart l s = .next t at h
    change execFrameStart l (s.queued q) = _
    unfold execFrameStart at h ⊢
    refine awake_queued h fun s => ?_
    rw [State.queued_line]
    split
    · rfl
    · exact ite_queued .rfl (fun _ => rfl) fun _ => rfl
  | frameEnd l =>
    rw [exec, execFrameEnd] at h ⊢
    refine awake_queued h fun s => ?_
    exact ite_queued .rfl (fun _ => stopIfDone_queued (s := s.setLine l _)) fun _ => rfl
  | abortEnd l =>
    rw [exec, execAbortEnd] at h ⊢
    refine awake_queued h fun s => ?_
    refine ite_queued .rfl (fun _ => ite_queued .rfl (fun _ => ?_) fun _ => ?_) fun _ => rfl
    · rw [← stopIfDone_queued, ← completeLineOff_queued]
      rfl
    · exact stopIfDone_queued (s := s.setLine l _)
  | stopCompletion => exact awake_queued h fun s => stopIfDone_queued
  | msgHead0 => exact hostRead_queued h fun s => head0Effect_queued
  | data => exact hostRead_queued h fun s => dataEffect_queued
  | evtPop => exact hostRead_queued h fun s => popEffect_queued
  | cmdResult => exact hostRead_queued (f := fun s => { s with cmd := { s.cmd with done := false } }) h fun s => rfl
  | evtMaskWrite r w =>
    rw [exec, execEvtMaskWrite] at h ⊢
    exact awake_queued h fun s => ite_queued .rfl (fun _ => rfl) fun _ => rfl
  | irqEn w =>
    rw [exec, execIrqEn] at h ⊢
    exact awake_queued h fun s => rfl
  | cmdArg i w =>
    rw [exec, execCmdArg] at h ⊢
    exact awake_queued h fun s => rfl
  | ignoredWrite a w =>
    have same := execIgnoredWrite_eq (w := w) h
    have wf := wf_of_exec_next h
    subst same
    rw [exec, execIgnoredWrite, if_neg (by simpa [Instr.wf] using wf)]
  | badCommand w =>
    have unnamed : namesCommand w = false := by simpa [Instr.wf] using wf_of_exec_next h
    rw [exec_badCommand unnamed] at h ⊢
    refine awake_queued h fun s => ?_
    unfold cmdWrite
    rw [State.queued_cmd]
    split <;> rfl
  | setStation => exact hostCommand_queued h fun s => doSetStation_queued
  | setLearn => exact hostCommand_queued h fun s => doSetLearn_queued
  | setTiming => exact hostCommand_queued h fun s => doSetTiming_queued
  | setReserve => exact hostCommand_queued h fun s => doSetReserve_queued
  | setLine => exact hostCommand_queued h fun s => doSetLine_queued
  | lineOn => exact hostCommand_queued h fun s => doLineOn_queued
  | lineOff => exact hostCommand_queued h fun s => doLineOff_queued
  | srcAdd => exact hostCommand_queued h fun s => doSrcAdd_queued
  | srcSuspend => exact hostCommand_queued h fun s => doSrcSuspend_queued
  | srcResume => exact hostCommand_queued h fun s => doSrcResume_queued
  | srcRemove => exact hostCommand_queued h fun s => doSrcRemove_queued
  | ctxAbort => exact hostCommand_queued h fun s => doCtxAbort_queued
  | release => exact hostCommand_queued h fun s => doRelease_queued
  | flush => exact hostCommand_queued h fun s => doFlush_queued
  | start => exact hostCommand_queued h fun s => doStart_queued
  | stop => exact hostCommand_queued h fun s => doStop_queued
  | queryCtx => exact hostCommand_queued h fun s => doQueryCtx_queued
  | querySrc => exact hostCommand_queued h fun s => doQuerySrc_queued
  | queryPool => exact hostCommand_queued h fun s => rfl
  | clearLoss => exact hostCommand_queued h fun s => rfl
  | rxdReturnToMark l =>
    rw [exec, execRxdReturnToMark] at h ⊢
    refine awake_queued h fun s => ?_
    exact ite_queued .rfl (fun _ => rfl) fun _ => rfl

/-- So no row touches the queue: the state's own queue is one of those it ignores. -/
theorem exec_pending {c : Instr} (h : exec c s = .next t) : t.pending = s.pending := by
  have kept := exec_queued (q := s.pending) h
  have same : s.queued s.pending = s := rfl
  rw [same, h] at kept
  injection kept with kept
  exact (congrArg State.pending kept).trans rfl

/-! ## Which terms complete -/

theorem exec_completes {c : Instr} (wf : c.wf = true) (s : State) : ∃ t, exec c s = .next t := by
  cases c with
  | badCommand w =>
    rw [exec_badCommand (by simpa [Instr.wf] using wf)]
    exact ⟨_, rfl⟩
  | ignoredWrite a w => exact ⟨s, if_neg (by simpa [Instr.wf] using wf)⟩
  | _ => exact ⟨_, rfl⟩

theorem exec_refuses {c : Instr} (illFormed : c.wf = false) (s : State) : ∃ m, exec c s = .refused (.illFormed m) := by
  cases c with
  | badCommand w => exact ⟨_, if_pos (by simpa [Instr.wf] using illFormed)⟩
  | ignoredWrite a w => exact ⟨_, if_pos (by simpa [Instr.wf] using illFormed)⟩
  | _ => cases illFormed

/-! ## Events whose condition does not hold -/

/-- A row asleep or without effect answers the same state. -/
theorem awake_id (same : f s = s) : awake s f = .next s := by
  cases low : s.pins.rstnLow with
  | true => exact awake_asleep s f low
  | false => rw [awake_eq s f low, same]

theorem mem_arbiterOrder : ∀ pointer l : LineNo, l ∈ arbiterOrder pointer := by
  decide

theorem State.servedLine_none : s.servedLine = none ↔ ∀ l, (s.line l).buffers = [] := by
  simp [State.servedLine, List.find?_eq_none, mem_arbiterOrder]

theorem exec_admissionEvent_id (untaken : s.cmd.mode ≠ .run ∨ ∀ l, (s.line l).buffers = []) :
    exec .admissionEvent s = .next s := by
  refine awake_id ?_
  split
  · rename_i run
    rcases untaken with mode | none
    · exact absurd run mode
    · rw [State.servedLine_none.2 none]
  · rfl

theorem exec_takeHead_id (untaken : s.checker.engine ≠ .idle ∨ s.cmd.mode ≠ .run ∨ s.checker.queue = []) :
    exec .takeHead s = .next s := by
  refine awake_id (if_neg ?_)
  rintro ⟨idle, run, waiting⟩
  rcases untaken with engine | mode | none
  · exact engine idle
  · exact mode run
  · exact waiting none

theorem exec_cellCompletion_id (idle : s.checker.engine = .idle) : exec .cellCompletion s = .next s := by
  change execCellCompletion s = _
  unfold execCellCompletion
  refine awake_id ?_
  rw [idle]
  split <;> rfl

theorem exec_stopCompletion_id
    (untaken : ¬(s.cmd.mode = .stopping ∧ s.cmd.state = .busy .stop ∧ s.checker.engine = .idle ∧ ∀ l, (s.line l).tx = .idle)) :
    exec .stopCompletion s = .next s := by
  refine awake_id ?_
  rcases s.stopIfDone_cases with ⟨stopping, busy, idle, tx, -⟩ | ⟨-, h⟩
  · exact absurd ⟨stopping, busy, idle, tx⟩ untaken
  · exact h

theorem exec_expiryDecision_id {n : CtxNo} (untaken : s.cmd.mode ≠ .run ∨ s.timer.owed[n] = false) :
    exec (.expiryDecision n) s = .next s := by
  refine awake_id ?_
  split
  · rename_i run
    rcases untaken with mode | settled
    · exact absurd run mode
    · exact takeDecision_settled settled
  · rfl

theorem exec_frameStart_id {l : LineNo}
    (untaken : (s.line l).queue = [] ∨ (s.line l).tx ≠ .idle ∨ (s.line l).state ≠ .on ∨ s.cmd.mode ≠ .run) :
    exec (.frameStart l) s = .next s := by
  change execFrameStart l s = _
  unfold execFrameStart
  refine awake_id ?_
  split
  · rfl
  · rename_i f rest queue
    refine if_neg ?_
    rintro ⟨idle, on, run⟩
    rcases untaken with none | tx | state | mode
    · simp [none] at queue
    · exact tx idle
    · exact state on
    · exact mode run

theorem exec_frameEnd_id {l : LineNo} (other : (s.line l).tx ≠ .sending) : exec (.frameEnd l) s = .next s :=
  awake_id (if_neg other)

theorem exec_abortEnd_id {l : LineNo} (other : (s.line l).tx ≠ .aborting) : exec (.abortEnd l) s = .next s :=
  awake_id (if_neg other)

theorem exec_byteReception_id {l : LineNo} (deaf : (s.line l).state ≠ .on ∨ (s.line l).awaitMark = true) (b : Byte)
    (good : Bool) : exec (.byteReception l b good) s = .next s := by
  refine awake_id (if_neg ?_)
  rintro ⟨on, seeks⟩
  rcases deaf with state | waits
  · exact state on
  · simp [waits] at seeks

theorem exec_rxdReturnToMark_id {l : LineNo} (other : (s.line l).state ≠ .on) : exec (.rxdReturnToMark l) s = .next s :=
  awake_id (if_neg other)

/-- Settles O2: a row's definition fails on the two ill-formed terms alone; each event is guarded by its condition; and every operation
commutes with a change of the queue. -/
theorem commandsCompleteWithoutTheQueue : Obligations.CommandsCompleteWithoutTheQueue := by
  unfold Obligations.CommandsCompleteWithoutTheQueue
  refine ⟨fun c s => ⟨fun wf => exec_completes wf s, fun illFormed => exec_refuses illFormed s⟩, fun s => ?_, fun c s t h => ?_⟩
  · exact ⟨exec_admissionEvent_id, exec_takeHead_id, exec_cellCompletion_id, exec_stopCompletion_id,
      fun n => exec_expiryDecision_id, fun l => ⟨exec_frameStart_id, exec_frameEnd_id, exec_abortEnd_id,
        fun deaf b good => exec_byteReception_id deaf b good, exec_rxdReturnToMark_id⟩⟩
  · exact ⟨exec_pending h, fun q => exec_queued h⟩

end Queue

end Sys2Proof.Machine
end

