-- ==== Sys2Proof/Proofs/ReceiversTransmitters.lean ====
section
/-! SUPPORT. The receivers and the transmitters: what a byte does, how a frame ends, and what stands on the wire (spec 06 R103, R110 to
R115, 07 R120 to R133). -/

namespace Sys2Proof.Machine

/-! ## The receiver's table -/

section Receiver

variable {a : List Byte} {b : Byte} {good : Bool}

theorem rxByte_frame_close (a : List Byte) : rxByte .frame a 0xD5 true = closeFrame a := rfl

theorem rxByte_frame_content (delim : b ≠ 0xD5) (esc : b ≠ 0xD6) : rxByte .frame a b true = appendContent a b := by
  change (if b = 0xD5 then closeFrame a else if b = 0xD6 then .stay .escape a else appendContent a b) = _
  rw [if_neg delim, if_neg esc]

theorem rxByte_escape (a : List Byte) (b : Byte) :
    rxByte .escape a b true =
      if b = 0x55 ∨ b = 0x56 then appendContent a (b ^^^ 0x80) else if b = 0xD5 then .drop .aborted else .drop .escape := rfl

theorem rxByte_escape_content (data : b = 0x55 ∨ b = 0x56) : rxByte .escape a b true = appendContent a (b ^^^ 0x80) :=
  (rxByte_escape a b).trans (if_pos data)

theorem appendContent_room (room : a.length < 141) : appendContent a b = .stay .frame (a ++ [b]) := if_pos room

theorem appendContent_full (full : 141 ≤ a.length) : appendContent a b = .drop .overlength := by
  have noRoom : ¬a.length < Config.maxContent := by
    change ¬a.length < 141
    omega
  exact if_neg noRoom

theorem closeFrame_whole (whole : 10 ≤ a.length) :
    closeFrame a = if passesFrameCheck a then .good a else .drop .check := by
  have filled : a.length ≠ 0 := by omega
  have legal : ¬a.length < Config.minContent := by change ¬a.length < 10; omega
  rw [closeFrame, if_neg filled, if_neg legal]

/-- Settles O6: each row of the table from the branch of the receiver's definition that it names. -/
theorem receiverTable : Obligations.ReceiverTable := by
  unfold Obligations.ReceiverTable
  intro a b good
  refine ⟨?_, ⟨rfl, rfl⟩, fun empty => if_pos empty, fun some short => ?_, fun whole => closeFrame_whole whole, rfl,
    fun delim esc room => ?_, fun delim esc full => ?_, fun room => ⟨appendContent_room room, appendContent_room room⟩,
    fun full => ⟨appendContent_full full, appendContent_full full⟩, rfl, fun first second delim => ?_⟩
  · simp [rxByte, Config.DELIM]
  · have filled : a.length ≠ 0 := by omega
    have runt : a.length < Config.minContent := by change a.length < 10; omega
    rw [rxByte_frame_close, closeFrame, if_neg filled, if_pos runt]
  · rw [rxByte_frame_content delim esc, appendContent_room room]
  · rw [rxByte_frame_content delim esc, appendContent_full full]
  · rw [rxByte_escape, if_neg (not_or.2 ⟨first, second⟩), if_neg delim]

/-- Only a byte with a good stop bit ends a good frame. -/
theorem stopGood_of_good {rx : RxState} {content : List Byte} (whole : rxByte rx a b good = .good content) : good = true := by
  cases good with
  | true => rfl
  | false => cases rx <;> cases whole

end Receiver

/-! ## Reading what framing sends -/

section Framing

variable {a : List Byte} {b : Byte}

theorem rxRun_cons_stay {rx rx' : RxState} {a' : List Byte} (byte : rxByte rx a b true = .stay rx' a') (tail : List Byte) :
    rxRun rx a (b :: tail) = rxRun rx' a' tail := by
  rw [rxRun, byte]

/-- The line bytes of one content byte append it. -/
theorem rxRun_stuffByte (room : a.length < 141) (b : Byte) (tail : List Byte) :
    rxRun .frame a (stuffByte b ++ tail) = rxRun .frame (a ++ [b]) tail := by
  unfold stuffByte
  split
  · rename_i special
    rw [List.cons_append, List.cons_append, List.nil_append, rxRun_cons_stay (rx' := .escape) (a' := a) rfl,
      rxRun_cons_stay (rx' := .frame) (a' := a ++ [b])]
    have data : b ^^^ 0x80 = 0x55 ∨ b ^^^ 0x80 = 0x56 := by
      rcases special with rfl | rfl
      · exact .inl rfl
      · exact .inr rfl
    rw [rxByte_escape_content data, appendContent_room room, BitVec.xor_assoc, BitVec.xor_self, BitVec.xor_zero]
  · rename_i plain
    obtain ⟨delim, esc⟩ := not_or.1 plain
    rw [List.singleton_append, rxRun_cons_stay (rx' := .frame) (a' := a ++ [b])]
    rw [rxByte_frame_content delim esc, appendContent_room room]

theorem rxRun_stuff (content tail : List Byte) (room : a.length + content.length ≤ 141) :
    rxRun .frame a (stuff content ++ tail) = rxRun .frame (a ++ content) tail := by
  induction content generalizing a with
  | nil => rw [List.append_nil]; rfl
  | cons b rest ih =>
    rw [List.length_cons] at room
    have one : (a ++ [b]).length + rest.length ≤ 141 := by
      rw [List.length_append, List.length_singleton]
      omega
    rw [stuff, List.flatMap_cons, List.append_assoc, rxRun_stuffByte (by omega)]
    refine (ih one).trans ?_
    rw [List.append_assoc, List.singleton_append]

/-- Settles O11: the run over the line bytes reads the content back byte by byte, and the closing delimiter finds it good. -/
theorem receiverReadsWhatFramingSends : Obligations.ReceiverReadsWhatFramingSends := by
  unfold Obligations.ReceiverReadsWhatFramingSends
  intro rest body long short
  have length : (withFrameCheck body).length = body.length + 2 := by simp [withFrameCheck]
  have opened : rxRun .hunt [] (frameOnLine (withFrameCheck body) ++ rest) =
      rxRun .frame [] (stuff (withFrameCheck body) ++ (0xD5 :: rest)) := by
    rw [frameOnLine, List.cons_append, List.append_assoc]
    exact rxRun_cons_stay rfl _
  rw [opened, rxRun_stuff _ _ (by rw [length]; simp; omega), List.nil_append, rxRun, rxByte_frame_close,
    closeFrame_whole (by omega), passesFrameCheck_withFrameCheck]
  rfl

end Framing

/-! ## A byte at a line -/

section Bytes

variable {s : State} {l : LineNo} {b : Byte} {good : Bool}

theorem exec_byteReception_eq (hrstn : s.pins.rstnLow = false) (on : (s.line l).state = .on)
    (seeks : (s.line l).awaitMark = false) : exec (.byteReception l b good) s = .next (receiveByte l b good s) := by
  have row : exec (.byteReception l b good) s = execByteReception l b good s := rfl
  rw [row, execByteReception, awake_eq _ _ hrstn, if_pos ⟨on, seeks⟩]

theorem receiveByte_stay {rx : RxState} {a : List Byte}
    (byte : rxByte (s.line l).rx (s.line l).assembly b good = .stay rx a) :
    receiveByte l b good s = s.setLine l { s.line l with rx := rx, assembly := a, awaitMark := !good } := by
  unfold receiveByte
  dsimp only
  rw [byte]
  dsimp only
  rw [State.line_setLine_same, State.setLine_setLine]

theorem receiveByte_drop {reason : LineReason}
    (byte : rxByte (s.line l).rx (s.line l).assembly b good = .drop reason) :
    receiveByte l b good s = dropFrame l reason (s.setLine l { s.line l with awaitMark := !good }) := by
  unfold receiveByte
  dsimp only
  rw [byte]

theorem receiveByte_good {content : List Byte}
    (byte : rxByte (s.line l).rx (s.line l).assembly b good = .good content) :
    receiveByte l b good s = goodFrame l content (s.setLine l { s.line l with awaitMark := !good }) := by
  unfold receiveByte
  dsimp only
  rw [byte]

/-- Settles O7: the reception's three outcomes, and the guards that leave a deaf line's state. -/
theorem bytesMoveOnlyTheirReceiver : Obligations.BytesMoveOnlyTheirReceiver := by
  unfold Obligations.BytesMoveOnlyTheirReceiver
  intro s l b good hrstn
  refine ⟨fun on seeks rx a byte => ?_, fun deaf => exec_byteReception_id deaf b good, fun on => ?_, exec_rxdReturnToMark_id⟩
  · rw [exec_byteReception_eq hrstn on seeks, receiveByte_stay byte]
    rfl
  · have row : exec (.rxdReturnToMark l) s = execRxdReturnToMark l s := rfl
    rw [row, execRxdReturnToMark, awake_eq _ _ hrstn, if_pos on]
    rfl

/-! ### Frames that end without delivery -/

theorem numAt_zero (n : Nat) : numAt n 0 = BitVec.ofNat 16 n := BitVec.shiftLeft_zero _

theorem lineErrorDetail_eq (reason : LineReason) (count : Nat) :
    lineErrorDetail reason count = BitVec.ofNat 16 (reason.code + 256 * count) := by
  have fits : reason.code < 2 ^ 8 := by cases reason <;> decide
  rw [lineErrorDetail, numAt_zero, ofNat_or_numAt fits]
  rfl

/-- The line with its frame dropped. -/
def LineUnit.dropped (u : LineUnit) (reason : LineReason) (mark : Bool) : LineUnit :=
  { u with rx := .hunt, assembly := [], badCount := nextBadCount reason u.badCount, awaitMark := mark }

theorem dropFrame_counted {reason : LineReason} {mark : Bool} (u : LineUnit)
    (kept : ¬(reason ≠ .aborted ∧ u.threshold ≠ 0 ∧ nextBadCount reason u.badCount = u.threshold)) :
    dropFrame l reason (s.setLine l { u with awaitMark := mark }) =
      (s.setLine l (u.dropped reason mark)).post (lineErrorEvent l reason (nextBadCount reason u.badCount)) := by
  unfold dropFrame
  dsimp only
  rw [State.line_setLine_same, State.setLine_setLine, if_neg kept]
  rfl

theorem dropFrame_faults {reason : LineReason} {mark : Bool} (u : LineUnit)
    (rises : reason ≠ .aborted ∧ u.threshold ≠ 0 ∧ nextBadCount reason u.badCount = u.threshold) :
    dropFrame l reason (s.setLine l { u with awaitMark := mark }) =
      faultLine l reason ((s.setLine l (u.dropped reason mark)).post
        (lineErrorEvent l reason (nextBadCount reason u.badCount))) := by
  unfold dropFrame
  dsimp only
  rw [State.line_setLine_same, State.setLine_setLine, if_pos rises]
  rfl

/-- The fault of a line whose error event stands already in the queue. -/
theorem faultLine_post (u : LineUnit) (e : EventRec) (reason : LineReason) :
    faultLine l reason ((s.setLine l u).post e) =
      (State.post
        { s with
          lines := s.lines.set l
            { u with
              state := .faulted, rx := .hunt, assembly := [], awaitMark := false, queue := []
              tx := if u.tx = .sending then .aborting else u.tx
              wire := if u.tx = .sending then abortOnLine u.wire s.cutSeq else u.wire }
          cutSeq := s.cutSeq + 1 } e).post (lineFaultEvent l reason) := by
  have stopped : ((s.setLine l u).post e).setLine l { (((s.setLine l u).post e).line l).rxStopped with state := .faulted } =
      (s.setLine l { u.rxStopped with state := .faulted }).post e := by
    rw [show ((s.setLine l u).post e).line l = u from State.line_setLine_same _ _ _]
    exact congrArg (State.post · e) (State.setLine_setLine _ _ _ _)
  rw [faultLine, stopped, State.flushLine_eq,
    show ((s.setLine l { u.rxStopped with state := .faulted }).post e).line l = { u.rxStopped with state := .faulted } from
      State.line_setLine_same _ _ _]
  refine congrArg (State.post · _) (congrArg (fun v => State.post { s with lines := v, cutSeq := s.cutSeq + 1 } e) ?_)
  exact Vector.set_set ..

/-- Settles O8: the frame dropped and counted, then the fault where the count rises to the threshold. -/
theorem badFrameCountedAndFaults : Obligations.BadFrameCountedAndFaults := by
  unfold Obligations.BadFrameCountedAndFaults
  intro s l b good reason hrstn on seeks byte
  dsimp only
  rw [exec_byteReception_eq hrstn on seeks, receiveByte_drop byte, ← lineErrorDetail_eq]
  refine ⟨fun kept => ?_, fun bad threshold count => ?_⟩
  · rw [dropFrame_counted]
    · rfl
    · rintro ⟨bad, threshold, count⟩
      rcases kept with aborted | none | below
      · exact bad aborted
      · exact threshold none
      · exact below count
  · rw [dropFrame_faults _ ⟨bad, threshold, count⟩, faultLine_post, lineFaultEvent, numAt_zero]
    rfl

/-- Settles O9: the buffer, the overrun and the discard are the three branches of a good frame on a line that stays ready. -/
theorem goodFramePlacedOrLost : Obligations.GoodFramePlacedOrLost := by
  unfold Obligations.GoodFramePlacedOrLost
  intro s l b good content hrstn on seeks byte
  dsimp only
  have ready : s.setLine l { s.line l with awaitMark := !true } = s := by
    rw [Bool.not_true, ← seeks]
    exact State.setLine_self _ _
  rw [exec_byteReception_eq hrstn on seeks, receiveByte_good byte, stopGood_of_good byte, ready]
  refine ⟨fun mode => ?_, fun mode room => ?_, fun mode full => ?_⟩
  · rw [goodFrame, if_pos mode]
    rfl
  · rw [goodFrame, if_neg (not_not_intro mode)]
    exact congrArg Host.Outcome.next (if_pos room)
  · have noRoom : ¬(s.line l).buffers.length < Config.frameBuffers := by
      change ¬(s.line l).buffers.length < 2
      omega
    rw [goodFrame, if_neg (not_not_intro mode)]
    exact congrArg Host.Outcome.next (if_neg noRoom)

end Bytes

/-! ## The transmitters -/

section Transmitters

variable {s : State} {l : LineNo}

theorem length_stuff (content : List Byte) :
    (stuff content).length = content.length + (content.filter fun b => b = 0xD5 ∨ b = 0xD6).length := by
  induction content with
  | nil => rfl
  | cons b rest ih =>
    rw [stuff, List.flatMap_cons, List.length_append, ← stuff, ih, List.length_cons, List.filter_cons]
    by_cases special : b = 0xD5 ∨ b = 0xD6
    · rw [show stuffByte b = [0xD6, b ^^^ 0x80] from if_pos special, if_pos (decide_eq_true special)]
      simp only [List.length_cons, List.length_nil]
      omega
    · rw [show stuffByte b = [b] from if_neg special, if_neg (by simpa using special), List.length_singleton]
      omega

theorem length_frameOnLine (content : List Byte) :
    (frameOnLine content).length = content.length + (content.filter fun b => b = 0xD5 ∨ b = 0xD6).length + 2 := by
  rw [frameOnLine, List.length_cons, List.length_append, List.length_singleton, length_stuff]

theorem abortOnLine_mem {wire : List Byte} (seq : Nat) (some : wire ≠ []) : ∃ b ∈ wire, abortOnLine wire seq = [b, 0xD6, 0xD5] := by
  have inside : Config.cutPosition seq % wire.length < wire.length := Nat.mod_lt _ (List.length_pos_iff.2 some)
  refine ⟨wire[Config.cutPosition seq % wire.length], List.getElem_mem inside, ?_⟩
  rw [abortOnLine, List.getElem?_eq_getElem inside]
  rfl

/-- The end of a stop, stated from the fields it reads. -/
theorem State.stopIfDone_eq_afterEnd (t : State) : t.stopIfDone = t.afterEnd := by
  have idle : t.txAllIdle = true ↔ ∀ l, (t.line l).tx = .idle := by simp [State.txAllIdle]
  unfold State.stopIfDone State.afterEnd
  simp only [idle]
  rfl

theorem State.stopIfDone_of_not_stopping (t : State) (other : t.cmd.state ≠ .busy .stop) : t.stopIfDone = t :=
  if_neg fun ⟨_, busy, _⟩ => other busy

theorem exec_frameEnd_eq (hrstn : s.pins.rstnLow = false) (sending : (s.line l).tx = .sending) :
    exec (.frameEnd l) s =
      .next (s.setLine l { s.line l with queue := (s.line l).queue.tail, tx := .idle, wire := [] }).afterEnd := by
  change execFrameEnd l s = _
  rw [execFrameEnd, awake_eq _ _ hrstn, if_pos sending, State.stopIfDone_eq_afterEnd]

theorem exec_abortEnd_closing (hrstn : s.pins.rstnLow = false) (aborting : (s.line l).tx = .aborting)
    (closing : (s.line l).state = .closing) (busy : s.cmd.state = .busy (.lineOff l)) :
    exec (.abortEnd l) s =
      .next ((s.setLine l { s.line l with state := .off, tx := .idle, wire := [] }).finish .lineOff noWords) := by
  change execAbortEnd l s = _
  rw [execAbortEnd, awake_eq _ _ hrstn, if_pos aborting]
  dsimp only
  have ends (t : State) (kept : t.cmd = s.cmd) : completeLineOff l t = t.finish .lineOff noWords := if_pos (kept ▸ busy)
  have ended (t : State) : (t.finish .lineOff noWords).stopIfDone = t.finish .lineOff noWords :=
    State.stopIfDone_of_not_stopping _ nofun
  rw [if_pos closing, ends (s.setLine l _) rfl, ended]

theorem exec_abortEnd_open (hrstn : s.pins.rstnLow = false) (aborting : (s.line l).tx = .aborting)
    (open' : (s.line l).state ≠ .closing) :
    exec (.abortEnd l) s = .next (s.setLine l { s.line l with tx := .idle, wire := [] }).afterEnd := by
  change execAbortEnd l s = _
  rw [execAbortEnd, awake_eq _ _ hrstn, if_pos aborting]
  dsimp only
  rw [if_neg open', State.stopIfDone_eq_afterEnd]

/-- Settles O12: the line bytes by induction on the content, then the three steps of a transmitter and the guards that leave the
state. -/
theorem transmittersSendAndAbort : Obligations.TransmittersSendAndAbort := by
  unfold Obligations.TransmittersSendAndAbort
  refine ⟨⟨fun content => ⟨rfl, length_frameOnLine content⟩, fun wire seq => abortOnLine_mem seq⟩,
    fun s l hrstn => ⟨fun f rest queue idle on run => exec_frameStart_sends hrstn run on idle queue, exec_frameStart_id,
      exec_frameEnd_eq hrstn⟩,
    fun s l hrstn aborting => ⟨exec_abortEnd_closing hrstn aborting, fun open' => exec_abortEnd_open hrstn aborting ?_⟩⟩
  rcases open' with faulted | on
  · rw [faulted]
    nofun
  · rw [on]
    nofun

end Transmitters

end Sys2Proof.Machine
end

