-- ==== Sys2Proof/Proofs/FramesAndEvents.lean ====
section
/-! SUPPORT. Handing a control frame to the transmitters, what control frames hold, and events (spec 04 R78, R79, 06 R101 to R109,
10 R173 to R180). -/

namespace Sys2Proof.Machine

/-! ## The first element of a sorted list that satisfies a test -/

section Sorted

variable {α : Type} {R : α → α → Prop} {l : List α} {p : α → Bool} {a : α}

theorem find?_eq_of_pairwise (sorted : l.Pairwise R) (mem : a ∈ l) (sat : p a = true)
    (first : ∀ b, R b a → p b = false) : l.find? p = some a := by
  induction l with
  | nil => cases mem
  | cons b rest ih =>
    obtain ⟨before, sorted⟩ := List.pairwise_cons.1 sorted
    rcases List.mem_cons.1 mem with rfl | later
    · exact List.find?_cons_of_pos sat
    · rw [List.find?_cons_of_neg (by simp [first b (before a later)])]
      exact ih sorted later

/-- The last element that satisfies a test. -/
theorem getLast?_filter_eq_of_pairwise (sorted : l.Pairwise R) (mem : a ∈ l) (sat : p a = true)
    (last : ∀ b, R a b → p b = false) : (l.filter p).getLast? = some a := by
  rw [List.getLast?_eq_head?_reverse, ← List.filter_reverse, List.head?_filter]
  exact find?_eq_of_pairwise (List.pairwise_reverse.2 sorted) (List.mem_reverse.2 mem) sat last

end Sorted

/-! ## The choice of line -/

section TxLine

variable {s : State} {requested l : LineNo} {mask : LineMask}

theorem State.lineOn_iff : s.lineOn l = true ↔ (s.line l).state = .on := by simp [State.lineOn]

theorem State.lineOn_false : s.lineOn l = false ↔ (s.line l).state ≠ .on := by rw [← Bool.not_eq_true, State.lineOn_iff]

theorem find?_finRange_none {n : Nat} {p : Fin n → Bool} (unsat : ∀ i, p i = false) : (List.finRange n).find? p = none :=
  List.find?_eq_none.2 fun i _ => by simp [unsat i]

theorem find?_finRange_some {n : Nat} {p : Fin n → Bool} {i : Fin n} (sat : p i = true) (first : ∀ j, j < i → p j = false) :
    (List.finRange n).find? p = some i :=
  find?_eq_of_pairwise (List.pairwise_lt_finRange n) (List.mem_finRange i) sat first

theorem State.txLine_requested (on : (s.line requested).state = .on) : s.txLine requested mask = some requested :=
  if_pos (State.lineOn_iff.2 on)

theorem State.txLine_mask (other : (s.line requested).state ≠ .on) (inMask : mask.getLsbD l.val = true)
    (on : (s.line l).state = .on) (first : ∀ m : LineNo, m < l → mask.getLsbD m.val = true → (s.line m).state ≠ .on) :
    s.txLine requested mask = some l := by
  have found : (List.finRange 4).find? (fun l => mask.getLsbD l.val && s.lineOn l) = some l := by
    refine find?_finRange_some ?_ fun m lower => ?_
    · rw [inMask, State.lineOn_iff.2 on]
      rfl
    · cases masked : mask.getLsbD m.val with
      | false => rfl
      | true => exact State.lineOn_false.2 (first m lower masked)
  rw [State.txLine, if_neg (by rwa [State.lineOn_iff]), found]
  rfl

theorem find?_mask_none (off : ∀ m : LineNo, mask.getLsbD m.val = true → (s.line m).state ≠ .on) :
    (List.finRange 4).find? (fun l => mask.getLsbD l.val && s.lineOn l) = none := by
  refine find?_finRange_none fun m => ?_
  cases masked : mask.getLsbD m.val with
  | false => rfl
  | true => exact State.lineOn_false.2 (off m masked)

theorem State.txLine_lowest (off : ∀ m : LineNo, mask.getLsbD m.val = true → (s.line m).state ≠ .on)
    (other : (s.line requested).state ≠ .on) (on : (s.line l).state = .on)
    (first : ∀ m : LineNo, m < l → (s.line m).state ≠ .on) : s.txLine requested mask = some l := by
  have found : (List.finRange 4).find? (fun l => s.lineOn l) = some l :=
    find?_finRange_some (State.lineOn_iff.2 on) fun m lower => State.lineOn_false.2 (first m lower)
  rw [State.txLine, if_neg (by rwa [State.lineOn_iff]), find?_mask_none off, found]
  rfl

theorem State.txLine_none (off : ∀ l, (s.line l).state ≠ .on) : s.txLine requested mask = none := by
  have found : (List.finRange 4).find? (fun l => s.lineOn l) = none :=
    find?_finRange_none fun m => State.lineOn_false.2 (off m)
  rw [State.txLine, if_neg (by rw [State.lineOn_iff]; exact off requested), find?_mask_none fun m _ => off m, found]
  rfl

end TxLine

/-! ## Placing a frame in a queue -/

section Placing

variable {f g : CtrlFrame} {queue : List CtrlFrame} {i k : Nat}

theorem replaceGap_eq (found : queue[i]? = some g) (gap : g.isGapFor f.dest f.msgno = true)
    (first : ∀ j < i, ∀ e, queue[j]? = some e → e.isGapFor f.dest f.msgno = false) :
    replaceGap f queue = some (queue.set i f) := by
  induction queue generalizing i with
  | nil => cases found
  | cons e rest ih =>
    cases i with
    | zero =>
      cases found
      rw [replaceGap, if_pos gap]
      rfl
    | succ i =>
      have later : replaceGap f rest = some (rest.set i f) :=
        ih found fun j lower => first (j + 1) (Nat.succ_lt_succ lower)
      rw [replaceGap, if_neg (by simp [first 0 i.succ_pos e rfl]), later]
      rfl

theorem replaceGap_eq_none (unsat : ∀ e ∈ queue, e.isGapFor f.dest f.msgno = false) : replaceGap f queue = none := by
  induction queue with
  | nil => rfl
  | cons e rest ih =>
    rw [replaceGap, if_neg (by simp [unsat e List.mem_cons_self]), ih fun e later => unsat e (List.mem_cons_of_mem _ later)]
    rfl

/-- The frame is a GAP that replaces entry `i` of a queue whose first `k` entries are on the wire. -/
def CtrlFrame.Replaces (f : CtrlFrame) (k : Nat) (queue : List CtrlFrame) (i : Nat) : Prop :=
  (∃ tail reference missing, f.body = .gap tail reference missing) ∧ k ≤ i ∧
    ∃ g, queue[i]? = some g ∧ g.isGapFor f.dest f.msgno = true

/-- The frame is a RECEIPT that a waiting entry repeats. -/
def CtrlFrame.Repeats (f : CtrlFrame) (k : Nat) (queue : List CtrlFrame) : Prop :=
  (∃ length count, f.body = .receipt length count) ∧ f ∈ queue.drop k

theorem take_append_set_drop (long : k ≤ i) (bound : k ≤ queue.length) :
    queue.take k ++ (queue.drop k).set (i - k) f = queue.set i f := by
  conv_rhs => rw [← List.take_append_drop k queue]
  rw [List.set_append_right _ _ (by rw [List.length_take_of_le bound]; exact long), List.length_take_of_le bound]

theorem placeFrame_replaces (replaces : f.Replaces k queue i) (first : ∀ j < i, ¬f.Replaces k queue j) :
    placeFrame f k queue = some (queue.set i f) := by
  obtain ⟨⟨tail, reference, missing, body⟩, waits, g, found, gap⟩ := replaces
  have inside : i < queue.length := (List.getElem?_eq_some_iff.1 found).1
  have waiting : replaceGap f (queue.drop k) = some ((queue.drop k).set (i - k) f) := by
    refine replaceGap_eq (g := g) (by rw [List.getElem?_drop, Nat.add_sub_cancel' waits]; exact found) gap
      fun j lower e there => ?_
    rw [List.getElem?_drop] at there
    by_contra isGap
    exact first (k + j) (by omega)
      ⟨⟨tail, reference, missing, body⟩, Nat.le_add_right k j, e, there, by simpa using isGap⟩
  simp only [placeFrame, body, waiting]
  rw [take_append_set_drop waits (by omega)]

theorem placeFrame_repeats (repeats : f.Repeats k queue) : placeFrame f k queue = some queue := by
  obtain ⟨⟨length, count, body⟩, waiting⟩ := repeats
  simp only [placeFrame, body]
  exact if_pos waiting

theorem placeFrame_append (new : ∀ i, ¬f.Replaces k queue i) (single : ¬f.Repeats k queue) :
    placeFrame f k queue = appendFrame f queue := by
  cases body : f.body with
  | gap tail reference missing =>
    have ungapped : replaceGap f (queue.drop k) = none := by
      refine replaceGap_eq_none fun e waiting => ?_
      obtain ⟨j, there⟩ := List.getElem?_of_mem waiting
      rw [List.getElem?_drop] at there
      by_contra isGap
      exact new (k + j) ⟨⟨tail, reference, missing, body⟩, Nat.le_add_right k j, e, there, by simpa using isGap⟩
    simp only [placeFrame, body, ungapped]
  | receipt length count =>
    simp only [placeFrame, body]
    exact if_neg fun waiting => single ⟨⟨length, count, body⟩, waiting⟩
  | refusal reason index => simp only [placeFrame, body]

variable {s : State} {requested l : LineNo} {mask : LineMask}

theorem State.handOver_placed {out : List CtrlFrame} (line : s.txLine requested mask = some l)
    (placed : placeFrame f (s.line l).inFlight (s.line l).queue = some out) :
    s.handOver f requested mask = s.setLine l { s.line l with queue := out } := by
  rw [State.handOver, line]
  simp only [placed]

theorem State.handOver_unplaced (line : s.txLine requested mask = some l)
    (full : placeFrame f (s.line l).inFlight (s.line l).queue = none) :
    s.handOver f requested mask = s.post (txDropped (some l) true f) := by
  rw [State.handOver, line]
  simp only [full]

theorem State.handOver_noLine (noLine : s.txLine requested mask = none) :
    s.handOver f requested mask = s.post (txDropped none false f) := by
  rw [State.handOver, noLine]

theorem txDropped_eq (line : Option LineNo) (queueFull : Bool) :
    txDropped line queueFull f =
      ⟨.txDropped, line, none, some f.dest, some f.msgno,
        (if queueFull then 2 else 1) ||| (f.body.kindByte.setWidth 16 <<< 8)⟩ := by
  cases queueFull <;> rfl

/-- Settles O14: the choice of the line by its three searches, then the placing by its three cases. -/
theorem handOverPlacesTheFrame : Obligations.HandOverPlacesTheFrame := by
  unfold Obligations.HandOverPlacesTheFrame
  refine ⟨fun s requested mask => ⟨State.txLine_requested, fun l => State.txLine_mask, fun l => State.txLine_lowest,
    State.txLine_none⟩, fun s f requested mask => ⟨fun noLine => ?_, fun l line => ?_⟩⟩
  · rw [State.handOver_noLine noLine, txDropped_eq]
    rfl
  · refine ⟨fun i replaced first => State.handOver_placed line (placeFrame_replaces replaced first), fun receipt waiting => ?_,
      fun new single room => ?_, fun new single full => ?_⟩
    · rw [State.handOver_placed line (placeFrame_repeats ⟨receipt, waiting⟩)]
      exact State.setLine_self _ _
    · rw [State.handOver_placed line ((placeFrame_append new single).trans (if_pos room))]
    · have noRoom : ¬(s.line l).queue.length < Config.txQueueCap := by
        change ¬(s.line l).queue.length < 8
        omega
      rw [State.handOver_unplaced line ((placeFrame_append new single).trans (if_neg noRoom)), txDropped_eq]
      rfl

end Placing

/-! ## What control frames hold -/

section Contents

theorem hiByte_setWidth (msgno : MsgNo) : hiByte (msgno.setWidth 16) = (msgno >>> 8).setWidth 8 := by
  unfold hiByte
  apply BitVec.eq_of_toNat_eq
  have bound := msgno.isLt
  simp only [BitVec.toNat_setWidth, BitVec.toNat_ushiftRight]
  omega

theorem loByte_setWidth (msgno : MsgNo) : loByte (msgno.setWidth 16) = msgno.setWidth 8 := by
  unfold loByte
  apply BitVec.eq_of_toNat_eq
  have bound := msgno.isLt
  simp only [BitVec.toNat_setWidth]
  omega

theorem hiByte_ofNat (n : Nat) : hiByte (BitVec.ofNat 16 n) = BitVec.ofNat 8 (n / 256) := by
  unfold hiByte
  apply BitVec.eq_of_toNat_eq
  simp only [BitVec.toNat_setWidth, BitVec.toNat_ushiftRight, BitVec.toNat_ofNat, Nat.shiftRight_eq_div_pow]
  omega

theorem loByte_ofNat (n : Nat) : loByte (BitVec.ofNat 16 n) = BitVec.ofNat 8 n := by
  unfold loByte
  apply BitVec.eq_of_toNat_eq
  simp only [BitVec.toNat_setWidth, BitVec.toNat_ofNat]
  omega

/-- The common header of a control frame. -/
theorem CtrlFrame.headed_eq (f : CtrlFrame) (station : Byte) :
    f.headed station =
      [f.body.kindByte, station, f.dest, (f.msgno >>> 8).setWidth 8 ||| (if f.body.tailFlag then 0x10 else 0),
        f.msgno.setWidth 8] ++ f.body.bytes := by
  rw [CtrlFrame.headed, hiByte_setWidth, loByte_setWidth]

/-- Bits set one after another in a word. -/
theorem getLsbD_foldl_or {α : Type} {w : Nat} (p : α → Prop) [DecidablePred p] (bit : α → Nat) (l : List α) (acc : BitVec w)
    (j : Nat) :
    (l.foldl (fun (acc : BitVec w) i => if p i then acc ||| (1 <<< bit i) else acc) acc).getLsbD j = true ↔
      acc.getLsbD j = true ∨ j < w ∧ ∃ i ∈ l, p i ∧ bit i = j := by
  induction l generalizing acc with
  | nil => simp
  | cons a rest ih =>
    have first : (if p a then acc ||| (1 <<< bit a) else acc).getLsbD j = true ↔
        acc.getLsbD j = true ∨ j < w ∧ p a ∧ bit a = j := by
      by_cases set : p a
      · rw [if_pos set, BitVec.getLsbD_or, BitVec.natCast_eq_ofNat, BitVec.getLsbD_ofNat, Nat.one_shiftLeft,
          Nat.testBit_two_pow]
        simp [set]
      · simp [set]
    rw [List.foldl_cons, ih, first]
    simp only [List.mem_cons, exists_eq_or_imp]
    tauto

theorem mapByte_getLsbD (missing : List SegIndex) (k j : Nat) (bound : j < 8) :
    (mapByte missing k).getLsbD j = missing.any fun i => i.val == 8 * k + j := by
  rw [Bool.eq_iff_iff, mapByte, getLsbD_foldl_or]
  simp [bound]

/-- The map of the missing indices. -/
theorem missingMap_getLsbD (missing : List SegIndex) (i : SegIndex) :
    (((List.range 8).map (mapByte missing)).getD (i.val / 8) 0).getLsbD (i.val % 8) = decide (i ∈ missing) := by
  have inside : i.val / 8 < 8 := by omega
  rw [List.getD_eq_getElem?_getD, List.getElem?_map, List.getElem?_range inside, Option.map_some, Option.getD_some,
    mapByte_getLsbD _ _ _ (Nat.mod_lt _ (by omega)), Nat.div_add_mod, Bool.eq_iff_iff, List.any_eq_true, decide_eq_true_eq]
  simp only [beq_iff_eq, Fin.val_inj]
  exact ⟨fun ⟨j, mem, same⟩ => same ▸ mem, fun mem => ⟨i, mem, rfl⟩⟩

variable {r : Ctx}

theorem Ctx.mem_missingUpTo (reference i : SegIndex) : i ∈ r.missingUpTo reference ↔ i ≤ reference ∧ r.slots[i] = none := by
  simp [Ctx.missingUpTo]

theorem Ctx.highestPresent_eq {high : SegIndex} (present : (r.slots[high]).isSome = true)
    (above : ∀ i : SegIndex, high < i → r.slots[i] = none) : r.highestPresent = high := by
  have last := getLast?_filter_eq_of_pairwise (p := fun i : SegIndex => (r.slots[i]).isSome) (List.pairwise_lt_finRange 64)
    (List.mem_finRange high) present fun i higher => by simp only [above i higher, Option.isSome_none]
  rw [Ctx.highestPresent, last]
  rfl

/-- Settles O13: the header once for the three kinds of frame, the map bit by bit, and the reference index of a GAP by whether the
last index is known. -/
theorem controlFramesBuilt : Obligations.ControlFramesBuilt := by
  unfold Obligations.ControlFramesBuilt
  refine ⟨fun station dest msgno => ⟨fun length count => ?_, fun reason index => ?_, fun tail reference missing => ?_,
    fun content => rfl⟩, fun r => ⟨fun last known => ?_, fun unknown high present above => ?_⟩⟩
  · rw [CtrlFrame.content, CtrlFrame.headed_eq]
    simp only [CtrlBody.bytes, hiByte_ofNat, loByte_ofNat, CtrlBody.tailFlag]
    simp [CtrlBody.kindByte]
  · rw [CtrlFrame.content, CtrlFrame.headed_eq]
    simp [CtrlBody.bytes, CtrlBody.kindByte, CtrlBody.tailFlag]
  · refine ⟨(List.range 8).map (mapByte missing), rfl, missingMap_getLsbD missing, ?_⟩
    rw [CtrlFrame.content, CtrlFrame.headed_eq]
    rfl
  · exact ⟨r.missingUpTo last, by rw [Ctx.gapBody, known], Ctx.mem_missingUpTo last⟩
  · refine ⟨r.missingUpTo high, ?_, Ctx.mem_missingUpTo high⟩
    simp only [Ctx.gapBody, unknown, Ctx.highestPresent_eq present above]

end Contents

/-! ## Events -/

section Events

variable {s : State} {e : EventRec}

theorem State.post_masked (masked : s.ev.masks e.kind = true) : s.post e = s := by
  rw [State.post, EventBlock.post, if_pos masked]

theorem State.post_room (unmasked : s.ev.masks e.kind = false) (room : s.ev.queue.length < 64) :
    s.post e = { s with ev := { s.ev with queue := s.ev.queue ++ [e] } } := by
  have fits : s.ev.queue.length < Config.eventQueueCap := room
  rw [State.post, EventBlock.post, if_neg (by simp [unmasked]), if_pos fits]

theorem State.post_full (unmasked : s.ev.masks e.kind = false) (full : 64 ≤ s.ev.queue.length) :
    s.post e = { s with ev := { s.ev with overflow := true, loss := min 255 (s.ev.loss + 1) } } := by
  have noRoom : ¬s.ev.queue.length < Config.eventQueueCap := by
    change ¬s.ev.queue.length < 64
    omega
  rw [State.post, EventBlock.post, if_neg (by simp [unmasked]), if_neg noRoom]

theorem State.irqAsserted_iff (s : State) :
    s.irqAsserted = true ↔ s.pins.rstnLow = false ∧
      ((s.ev.queue ≠ [] ∧ s.ev.irqEn.getLsbD 0 = true) ∨ (s.delivery ≠ [] ∧ s.ev.irqEn.getLsbD 1 = true) ∨
        (s.cmd.done = true ∧ s.ev.irqEn.getLsbD 2 = true)) := by
  simp [State.irqAsserted, State.evtHolds, State.dlvHolds, State.cmdHolds, or_assoc]

/-- Settles O15: posting by the mask and the room, and the interrupt output from its three sources. -/
theorem eventsPostedAndIrqn : Obligations.EventsPostedAndIrqn := by
  unfold Obligations.EventsPostedAndIrqn
  exact ⟨fun s e => ⟨State.post_masked, State.post_room, State.post_full⟩, State.irqAsserted_iff⟩

end Events

end Sys2Proof.Machine
end

