-- ==== Sys2Proof/Proofs/TicksAndDecisions.lean ====
section
/-! SUPPORT. Ticks and expiry decisions, case by case (spec 04 R72 to R81). -/

namespace Sys2Proof.Machine

variable {s : State} {n : CtxNo}

/-! ## A decision by the tests on its record -/

section Decide

theorem gapSentDetail_eq (retries : Nat) (tail : Bool) :
    gapSentDetail retries tail = BitVec.ofNat 16 retries ||| (if tail then 0x10 else 0) := by
  rw [gapSentDetail, numAt_zero]
  cases tail <;> rfl

theorem Ctx.gapBody_tailFlag (r : Ctx) : r.gapBody.tailFlag = r.lastIndex.isNone := by
  unfold Ctx.gapBody
  cases r.lastIndex <;> rfl

theorem expiredDetail_eq (cause : ExpiryCause) (starved : Bool) :
    expiredDetail cause starved =
      match cause with
      | .idle => if starved then 2 else 0
      | .lifetime => if starved then 3 else 1 := by
  cases cause <;> cases starved <;> rfl

theorem sendGap_eq (n : CtxNo) (s : State) :
    sendGap n s =
      ((s.handOver ⟨(s.ctx n).source, (s.ctx n).msgno, (s.ctx n).gapBody⟩ (s.ctx n).replyLine (s.ctx n).lineMask).setCtx n
          { s.ctx n with retries := (s.ctx n).retries + 1, idle := 0 }).post
        ⟨.gapSent, some (s.ctx n).replyLine, some n, some (s.ctx n).source, some (s.ctx n).msgno,
          BitVec.ofNat 16 ((s.ctx n).retries + 1) ||| (if (s.ctx n).lastIndex.isNone then 0x10 else 0)⟩ := by
  rw [← Ctx.gapBody_tailFlag, ← gapSentDetail_eq]
  rfl

theorem expire_eq (n : CtxNo) (cause : ExpiryCause) (s : State) :
    expire n cause s =
      ((s.handOver ((s.ctx n).refusal .timeout) (s.ctx n).replyLine (s.ctx n).lineMask).post
        ⟨.ctxExpired, some (s.ctx n).replyLine, some n, some (s.ctx n).source, some (s.ctx n).msgno,
          expiredDetail cause (s.ctx n).starved⟩).freeCtx n := rfl

theorem decideExpiry_other (other : (s.ctx n).state ≠ .collecting) : decideExpiry n s = s := if_pos other

theorem decideExpiry_collecting (collecting : (s.ctx n).state = .collecting) :
    decideExpiry n s =
      if (s.timer.settings (s.ctx n).cls).lifetime * 100 ≤ (s.ctx n).lifetime then expire n .lifetime s
      else if (s.timer.settings (s.ctx n).cls).gap ≤ (s.ctx n).idle then
        (if (s.ctx n).retries < (s.timer.settings (s.ctx n).cls).retryLimit then sendGap n s else expire n .idle s)
      else s := if_neg (not_not_intro collecting)

theorem exec_expiryDecision_eq (hrstn : s.pins.rstnLow = false) (run : s.cmd.mode = .run) :
    exec (.expiryDecision n) s = .next (takeDecision n s) := by
  change execExpiryDecision n s = _
  rw [execExpiryDecision, awake_eq _ _ hrstn, if_pos run]

/-- Settles O5: the owed decision by the tests in their order. -/
theorem expiryDecisionDecides : Obligations.ExpiryDecisionDecides := by
  unfold Obligations.ExpiryDecisionDecides
  intro s n hrstn run owed
  dsimp only
  rw [exec_expiryDecision_eq hrstn run, takeDecision_owed owed]
  have settings (c : MsgClass) : (s.settleDecision n).timer.settings c = s.timer.settings c := rfl
  have ctx : (s.settleDecision n).ctx n = s.ctx n := rfl
  have decide := decideExpiry_collecting (s := s.settleDecision n) (n := n)
  rw [settings, ctx] at decide
  refine ⟨fun other => ?_, fun collecting old => ?_, fun collecting young idle more => ?_, fun collecting young idle last => ?_,
    fun collecting young fresh => ?_⟩
  · rw [decideExpiry_other (s := s.settleDecision n) other]
    rfl
  · rw [decide collecting, if_pos old, expire_eq, expiredDetail_eq]
    rfl
  · rw [decide collecting, if_neg (Nat.not_le.2 young), if_pos idle, if_pos more, sendGap_eq]
    rfl
  · rw [decide collecting, if_neg (Nat.not_le.2 young), if_pos idle, if_neg (Nat.not_lt.2 last), expire_eq, expiredDetail_eq]
    rfl
  · rw [decide collecting, if_neg (Nat.not_le.2 young), if_neg (Nat.not_le.2 fresh)]
    rfl

end Decide

/-! ## A tick -/

section Tick

theorem tickInRun_owed_iff (s : State) (n : CtxNo) :
    (tickInRun s).timer.owed[n] = true ↔
      ((tickInRun s).ctx n).state = .collecting ∧
        ((s.timer.settings ((tickInRun s).ctx n).cls).gap ≤ ((tickInRun s).ctx n).idle ∨
          (s.timer.settings ((tickInRun s).ctx n).cls).lifetime * 100 ≤ ((tickInRun s).ctx n).lifetime ∨
          (s.timer.deferred[n] = true ∧ (s.ctx n).lifetime ≠ 0)) := by
  have state : (s.ctx n).ticked.state = (s.ctx n).state := by
    unfold Ctx.ticked
    split <;> rfl
  rw [tickInRun_owed, tickInRun_ctx]
  simp only [Ctx.due, Ctx.awaitsDeferred, state, Bool.or_eq_true, Bool.and_eq_true, beq_iff_eq, decide_eq_true_iff,
    bne_iff_ne]
  rw [Timing.lifetimeMs]
  tauto

/-- A decision taken before its turn is the one that the sweep of the owed decisions begins with. -/
theorem takeOwed_takeDecision (first : ∀ m : CtxNo, m < n → s.timer.owed[m] = false) :
    takeOwed (takeDecision n s) = takeOwed s := by
  have settles (m : CtxNo) : (takeDecision n s).timer.owed[m] = if m = n then false else s.timer.owed[m] := by
    rw [takeDecision_timer]
    exact State.settleDecision_owed s n m
  have sweep (l : List CtxNo) (sorted : l.Pairwise (· < ·)) (mem : n ∈ l) :
      l.foldl (fun t n => takeDecision n t) (takeDecision n s) = l.foldl (fun t n => takeDecision n t) s := by
    induction l with
    | nil => cases mem
    | cons m rest ih =>
      obtain ⟨before, sorted⟩ := List.pairwise_cons.1 sorted
      rw [List.foldl_cons, List.foldl_cons]
      rcases List.mem_cons.1 mem with rfl | later
      · rw [takeDecision_settled (s := takeDecision n s) (by rw [settles, if_pos rfl])]
      · have lower := first m (before n later)
        have kept : (takeDecision n s).timer.owed[m] = false := by
          rw [settles, if_neg (before n later).ne]
          exact lower
        rw [takeDecision_settled kept, takeDecision_settled lower]
        exact ih sorted later
  exact sweep _ (List.pairwise_lt_finRange 32) (List.mem_finRange n)

theorem decideExpiry_pins (n : CtxNo) (s : State) : (decideExpiry n s).pins = s.pins := by
  rcases decideExpiry_cases n s with h | ⟨-, h⟩ | ⟨-, cause, h⟩ <;> rw [h]
  · rw [sendGap, State.handOver_frame]
    rfl
  · rw [expire, State.freeCtx_frame, State.refuseCtx_frame]
    rfl

theorem takeDecision_pins (n : CtxNo) (s : State) : (takeDecision n s).pins = s.pins := by
  unfold takeDecision
  split
  · exact decideExpiry_pins n (s.settleDecision n)
  · rfl

theorem exec_tick_eq (hrstn : s.pins.rstnLow = false) (run : s.cmd.mode = .run) :
    exec .tick s = .next (tickInRun (takeOwed s)) :=
  (awake_eq s _ hrstn).trans (congrArg Host.Outcome.next (if_pos run))

theorem exec_tick_id (still : s.cmd.mode ≠ .run) : exec .tick s = .next s := awake_id (if_neg still)

/-- Settles O4: the tick on a state that owes nothing, the first owed decision of the sweep, and the guards outside RUN. -/
theorem tickAdvancesCollectingRecords : Obligations.TickAdvancesCollectingRecords := by
  unfold Obligations.TickAdvancesCollectingRecords
  intro s hrstn
  refine ⟨fun run settled => ⟨tickInRun s, exec_tick_settled hrstn run settled, tickInRun_ctx s, tickInRun_owed_iff s, rfl⟩,
    fun run n owed first => ⟨takeDecision n s, exec_expiryDecision_eq hrstn run, ?_⟩,
    fun still => ⟨exec_tick_id still, fun n => exec_expiryDecision_id (.inl still)⟩⟩
  have awake : (takeDecision n s).pins.rstnLow = false := by rw [takeDecision_pins, hrstn]
  have running : (takeDecision n s).cmd.mode = .run := by rw [takeDecision_cmd, run]
  rw [exec_tick_eq hrstn run, exec_tick_eq awake running, takeOwed_takeDecision first]

end Tick

end Sys2Proof.Machine
end

