-- ==== Sys2Proof/Proofs/ChecksAndClaims.lean ====
section
/-! SUPPORT. Freeing a record, the check of a message, the stop of the engine, and the claim of a message (spec 01 R26, 05 R86 to R99,
08 R139). -/

namespace Sys2Proof.Machine

variable {s : State} {n : CtxNo} {rest : List CtxNo} {crc : Word32} {w : Walk}

/-! ## Freeing -/

section Freeing

theorem State.freeCtx_found {k : SlotNo} (found : s.findSource (s.ctx n).source = some k) :
    s.freeCtx n =
      { s with
        ctxs := s.ctxs.set n Ctx.cleared
        ageList := s.ageList.erase n
        pool := { s.pool with freeList := s.pool.freeList ++ (s.ctx n).chain }
        checker := { s.checker with queue := s.checker.queue.erase n }
        delivery := s.delivery.erase n
        sources := s.sources.set k { s.source k with openCount := (s.source k).openCount - 1 } } := by
  have lowered : (s.released n).lowerOpen (s.ctx n).source =
      (s.released n).setSource k { s.source k with openCount := (s.source k).openCount - 1 } := by
    rw [State.lowerOpen, show (s.released n).findSource (s.ctx n).source = some k from found]
    rfl
  exact congrArg (fun t : State => t.setCtx n .cleared) lowered

theorem State.freeCtx_unfound (unfound : s.findSource (s.ctx n).source = none) :
    s.freeCtx n =
      { s with
        ctxs := s.ctxs.set n Ctx.cleared
        ageList := s.ageList.erase n
        pool := { s.pool with freeList := s.pool.freeList ++ (s.ctx n).chain }
        checker := { s.checker with queue := s.checker.queue.erase n }
        delivery := s.delivery.erase n } := by
  have lowered : (s.released n).lowerOpen (s.ctx n).source = s.released n := by
    rw [State.lowerOpen, show (s.released n).findSource (s.ctx n).source = none from unfound]
  exact congrArg (fun t : State => t.setCtx n .cleared) lowered

/-- Settles O26: by whether the record's source has an entry. -/
theorem freeingReturnsTheRecord : Obligations.FreeingReturnsTheRecord := by
  unfold Obligations.FreeingReturnsTheRecord
  exact fun s n => ⟨fun k => State.freeCtx_found, State.freeCtx_unfound⟩

theorem State.freeCtx_checker (s : State) (n : CtxNo) :
    (s.freeCtx n).checker = { s.checker with queue := s.checker.queue.erase n } := by rw [State.freeCtx_frame]

/-- The engine IDLE behind the head of the Check Queue that left. -/
theorem State.freeCtx_engineIdle (queue : s.checker.queue = n :: rest) :
    (s.freeCtx n).engineIdle = { s.freeCtx n with checker := ⟨rest, .idle⟩ } := by
  rw [State.engineIdle, State.freeCtx_checker, queue, List.erase_cons_head]

end Freeing

/-! ## The check -/

section Check

/-- Settles O28: the engine takes the head, its guards leave the state, and a cell that is not the last is folded in. -/
theorem checkBeginsAndWalks : Obligations.CheckBeginsAndWalks := by
  unfold Obligations.CheckBeginsAndWalks
  intro s hrstn
  refine ⟨fun idle run waiting => exec_takeHead_begins hrstn run idle waiting, exec_takeHead_id,
    fun n rest crc w next queue engine walks => ?_⟩
  rw [exec_cellCompletion_checking hrstn queue engine, checkCell]
  simp only [walks]

/-- An urgent record behind the last urgent entry, an ordinary one at the tail. -/
theorem deliveryInsert_eq {cls : CtxNo → MsgClass} {urgents ordinaries : List CtxNo}
    (urgent : ∀ m ∈ urgents, cls m = .urgent) (ordinary : ∀ m ∈ ordinaries, cls m = .ordinary) (n : CtxNo) :
    deliveryInsert cls (urgents ++ ordinaries) n =
      if cls n = .urgent then urgents ++ n :: ordinaries else urgents ++ ordinaries ++ [n] := by
  have isUrgent : ∀ m ∈ urgents, (cls m == .urgent) = true := fun m mem => by simp [urgent m mem]
  have front : ordinaries.takeWhile (fun m => cls m == .urgent) = [] ∧
      ordinaries.dropWhile (fun m => cls m == .urgent) = ordinaries := by
    cases ordinaries with
    | nil => exact ⟨rfl, rfl⟩
    | cons m tail => simp [ordinary m List.mem_cons_self]
  obtain ⟨taken, dropped⟩ := front
  unfold deliveryInsert
  cases cls n with
  | urgent =>
    rw [if_pos rfl, List.takeWhile_append_of_pos isUrgent, List.dropWhile_append_of_pos isUrgent, taken, dropped,
      List.append_nil]
  | ordinary => rw [if_neg nofun]

theorem checkEvent_eq (kind : EventKind) (n : CtxNo) (r : Ctx) :
    checkEvent kind n r =
      ⟨kind, some r.replyLine, some n, some r.source, some r.msgno, if r.cls = .urgent then 1 else 0⟩ := by
  unfold checkEvent
  cases r.cls <;> rfl

/-- A match of a record whose source has an entry. -/
theorem endMatch_found {k : SlotNo} {urgents ordinaries : List CtxNo} (queue : s.checker.queue = n :: rest)
    (found : s.findSource (s.ctx n).source = some k) (delivery : s.delivery = urgents ++ ordinaries)
    (urgent : ∀ m ∈ urgents, (s.ctx m).cls = .urgent) (ordinary : ∀ m ∈ ordinaries, (s.ctx m).cls = .ordinary) :
    endMatch n s =
      State.post
        { s.handOver (matchReceipt (s.ctx n)) (s.ctx n).replyLine (s.ctx n).lineMask with
          ctxs := s.ctxs.set n { s.ctx n with state := .ready }
          checker := ⟨rest, .idle⟩
          delivery := if (s.ctx n).cls = .urgent then urgents ++ n :: ordinaries else urgents ++ ordinaries ++ [n]
          sources := s.sources.set k ((s.source k).pushHistory (s.ctx n).msgno) }
        (checkEvent .msgReady n (s.ctx n)) := by
  have pushed : (s.pushHistory (s.ctx n).source (s.ctx n).msgno).sources =
      s.sources.set k ((s.source k).pushHistory (s.ctx n).msgno) := by
    rw [State.pushHistory, found]
    rfl
  have matched : s.matched n =
      { s with
        ctxs := s.ctxs.set n { s.ctx n with state := .ready }
        checker := ⟨rest, .idle⟩
        delivery := if (s.ctx n).cls = .urgent then urgents ++ n :: ordinaries else urgents ++ ordinaries ++ [n]
        sources := s.sources.set k ((s.source k).pushHistory (s.ctx n).msgno) } := by
    rw [State.matched, pushed, queue, List.erase_cons_head, delivery,
      deliveryInsert_eq (cls := fun m => (s.ctx m).cls) urgent ordinary]
  obtain ⟨lines, ev⟩ := State.handOver_congr (s := s) (t := s.matched n) rfl rfl (matchReceipt (s.ctx n))
    (s.ctx n).replyLine (s.ctx n).lineMask
  rw [endMatch_eq, State.handOver_frame, lines, ev, matched, State.handOver_frame s]

theorem endMismatch_eq (queue : s.checker.queue = n :: rest) :
    endMismatch n s =
      { ((s.handOver ((s.ctx n).refusal .check) (s.ctx n).replyLine (s.ctx n).lineMask).post
          (checkEvent .checkFailed n (s.ctx n))).freeCtx n with
        checker := ⟨rest, .idle⟩ } := by
  have kept : ((s.refuseCtx (s.ctx n) .check).post (checkEvent .checkFailed n (s.ctx n))).checker.queue = n :: rest := by
    rw [← queue]
    simp [State.refuseCtx]
  exact State.freeCtx_engineIdle kept

/-- Settles O30: the last cell's fold compared, then the match or the mismatch and the stop that may wait for it. -/
theorem checkEnds : Obligations.CheckEnds := by
  unfold Obligations.CheckEnds
  intro s n rest crc w hrstn queue engine ends
  dsimp only
  rw [exec_cellCompletion_checking hrstn queue engine]
  refine ⟨fun k urgents ordinaries equal found delivery urgent ordinary => ?_, fun differs => ?_⟩
  · rw [checkCell_match ends equal, State.stopIfDone_eq_afterEnd, endMatch_found queue found delivery urgent ordinary,
      checkEvent_eq]
    rfl
  · rw [checkCell_mismatch ends differs, State.stopIfDone_eq_afterEnd, endMismatch_eq queue, checkEvent_eq]

end Check

/-! ## The engine's stop -/

section Stop

variable {t : State}

theorem State.finish_eq (kept : t.cmd = s.cmd) (c : HostCommand) (words : Vector Word 6) :
    t.finish c words = { t with cmd := s.cmd.ended c.code words } := by
  rw [State.finish, State.complete, kept]
  rfl

theorem exec_cellCompletion_stops (hrstn : s.pins.rstnLow = false) (queue : s.checker.queue = n :: rest)
    (engine : s.checker.engine = .stopPending crc w) :
    exec .cellCompletion s = .next (completeStopped (s.ctx n) (s.engineStopped n)) := by
  change execCellCompletion s = _
  rw [execCellCompletion, awake_eq _ _ hrstn, queue]
  simp only [engine, engineStop_eq]

theorem abortedDetail_eq (st : CtxState) (notify : Bool) :
    abortedDetail st notify = BitVec.ofNat 16 (st.code + if notify then 16 else 0) := by
  have fits : st.code < 2 ^ 4 := by cases st <;> decide
  rw [abortedDetail, numAt_zero, ofNat_or_flagAt fits]
  cases notify <;> rfl

theorem oneWord_eq (n : Nat) : oneWord n = #v[BitVec.ofNat 16 n, 0, 0, 0, 0, 0] := by rw [oneWord, numAt_zero]

theorem abortWords_eq (r : Ctx) :
    abortWords r = #v[r.source.setWidth 16, r.msgno.setWidth 16, BitVec.ofNat 16 r.state.code, 0, 0, 0] := by
  rw [abortWords, numAt_zero]

/-- The engine stopped behind no outputs. -/
theorem State.engineStopped_silent (silent : stopOutputs n s = s) (queue : s.checker.queue = n :: rest) :
    s.engineStopped n = { s.freeCtx n with checker := ⟨rest, .idle⟩ } := by
  rw [State.engineStopped, silent, State.freeCtx_engineIdle queue]

theorem State.engineStopped_ctxAbort {m : CtxNo} {notify : Bool} (busy : s.cmd.state = .busy (.ctxAbort m notify))
    (queue : s.checker.queue = n :: rest) :
    s.engineStopped n =
      { ((if notify then s.handOver ((s.ctx n).refusal .aborted) (s.ctx n).replyLine (s.ctx n).lineMask else s).post
          ⟨.ctxAborted, none, some n, some (s.ctx n).source, some (s.ctx n).msgno,
            BitVec.ofNat 16 ((s.ctx n).state.code + if notify then 16 else 0)⟩).freeCtx n with
        checker := ⟨rest, .idle⟩ } := by
  have outputs : stopOutputs n s = abortOutputs n (s.ctx n) notify s := by rw [stopOutputs, busy]
  have kept : (abortOutputs n (s.ctx n) notify s).checker.queue = n :: rest := by
    rw [← queue, ← outputs, stopOutputs_frame]
  rw [State.engineStopped, outputs, State.freeCtx_engineIdle kept, abortOutputs, ctxAbortedEvent, abortedDetail_eq]
  rfl

theorem State.findSource_engineStopped (s : State) (n : CtxNo) (a : Byte) :
    (s.engineStopped n).findSource a = s.findSource a :=
  State.findSource_congr (fun k => (source_engineStopped_alike s n k).1) (fun k => (source_engineStopped_alike s n k).2) a

/-- Settles O31: the freeing behind the outputs of the command that waits, then that command's completion. -/
theorem engineStopCompletesTheCommand : Obligations.EngineStopCompletesTheCommand := by
  unfold Obligations.EngineStopCompletesTheCommand
  intro s n rest crc w hrstn queue engine
  dsimp only
  rw [exec_cellCompletion_stops hrstn queue engine]
  have kept := State.engineStopped_cmd s n
  refine ⟨fun m notify busy => ?_, fun a freed k busy found => ?_, fun freed busy => ?_⟩
  · have completes : completeStopped (s.ctx n) (s.engineStopped n) = (s.engineStopped n).finish .ctxAbort (abortWords (s.ctx n)) := by
      rw [completeStopped, kept, busy]
    rw [completes, State.finish_eq kept, State.engineStopped_ctxAbort busy queue, abortWords_eq]
    rfl
  · have completes : completeStopped (s.ctx n) (s.engineStopped n) =
        ((s.engineStopped n).dropSource a).finish .srcRemove (oneWord (freed + 1)) := by
      rw [completeStopped, kept, busy]
    have dropped : (s.engineStopped n).dropSource a = (s.engineStopped n).setSource k .cleared := by
      rw [State.dropSource, State.findSource_engineStopped, found]
    rw [completes, dropped, State.finish_eq (t := (s.engineStopped n).setSource k .cleared) kept,
      State.engineStopped_silent (by rw [stopOutputs, busy]) queue, oneWord_eq]
    rfl
  · have completes : completeStopped (s.ctx n) (s.engineStopped n) = (s.engineStopped n).finish .flush (oneWord (freed + 1)) := by
      rw [completeStopped, kept, busy]
    rw [completes, State.finish_eq kept, State.engineStopped_silent (by rw [stopOutputs, busy]) queue, oneWord_eq]
    rfl

end Stop

/-! ## The claim of a message -/

section Head

theorem headWord_eq (valid lost : Bool) (cls : MsgClass) (n : CtxNo) :
    headWord valid lost cls n =
      BitVec.ofNat 16 (valid.toNat + 2 * lost.toNat + 4 * (if cls = .urgent then 1 else 0) + 256 * n.val) := by
  have code : cls.code = if cls = .urgent then 1 else 0 := by cases cls <;> rfl
  have one := Bool.toNat_le valid
  have two := Bool.toNat_le lost
  have class_le : (if cls = .urgent then 1 else 0) ≤ 1 := by split <;> omega
  have first : flagAt valid 0 = BitVec.ofNat 16 valid.toNat := by rw [flagAt_eq_numAt, numAt_zero]
  rw [headWord, first, code, ofNat_or_flagAt (by omega), ofNat_or_numAt (by omega), ofNat_or_numAt (by omega)]
  rfl

theorem exec_msgHead0_eq (hrstn : s.pins.rstnLow = false) :
    exec .msgHead0 s =
      .next { head0Effect s with pins := { (head0Effect s).pins with dataOut := some s.head0Word } } :=
  hostRead_eq 0x10 head0Effect s hrstn

/-- A read that claims nothing returns its word alone. -/
theorem exec_msgHead0_unclaimed {word : Word} (hrstn : s.pins.rstnLow = false) (effect : head0Effect s = s)
    (value : s.head0Word = word) : exec .msgHead0 s = .next { s with pins := { s.pins with dataOut := some word } } := by
  rw [exec_msgHead0_eq hrstn, effect, value]

/-- With an urgent message in the queue the head is urgent. -/
theorem DeliveryOrder.head_urgent (order : DeliveryOrder s) (queue : s.delivery = n :: rest)
    (urgent : ∃ m ∈ s.delivery, (s.ctx m).cls = .urgent) : (s.ctx n).cls = .urgent := by
  rw [DeliveryOrder, queue] at order
  rw [queue] at urgent
  obtain ⟨m, mem, cls⟩ := urgent
  rcases List.mem_cons.1 mem with rfl | later
  · exact cls
  · exact (List.pairwise_cons.1 order).1 m later cls

/-- Settles O32: the claim of the head of the delivery queue, and the reads that claim nothing. -/
theorem readOfMsgHead0 : Obligations.ReadOfMsgHead0 := by
  unfold Obligations.ReadOfMsgHead0
  intro s hrstn
  dsimp only
  refine ⟨fun n rest port queue => ⟨?_, fun empty => ?_, fun order => order.head_urgent queue⟩, fun port empty => ?_,
    fun n w port => ?_, fun port => ?_⟩
  · have effect : head0Effect s = claim n rest s := by simp only [head0Effect, port, queue]
    have value : s.head0Word = headWord true false (s.ctx n).cls n := by simp only [State.head0Word, port, queue]
    rw [exec_msgHead0_eq hrstn, effect, value, headWord_eq]
    rfl
  · rw [empty]
    rfl
  · exact exec_msgHead0_unclaimed hrstn (by simp only [head0Effect, port, empty]) (by simp only [State.head0Word, port, empty])
  · refine exec_msgHead0_unclaimed hrstn (by simp only [head0Effect, port]) ?_
    simp only [State.head0Word, port, headWord_eq]
    rfl
  · refine exec_msgHead0_unclaimed hrstn (by simp only [head0Effect, port]) ?_
    simp only [State.head0Word, port, headWord_eq]
    rfl

end Head

end Sys2Proof.Machine
end

