-- ==== Sys2Proof/Proofs/Registers.lean ====
section
/-! SUPPORT. The registers: what each read returns, which row a write or a read is, and the codes of their fields (spec 11 11.3 to
11.7). -/

namespace Sys2Proof.Machine

variable {s : State}

/-! ## Words as sums of their fields -/

section Words

theorem flagAt_zero (b : Bool) : flagAt b 0 = BitVec.ofNat 16 b.toNat := by rw [flagAt_eq_numAt, numAt_zero]

theorem setWidth_shift_eq_numAt (b : Byte) (k : Nat) : (b.setWidth 16 <<< k : Word) = numAt b.toNat k := by
  rw [numAt, BitVec.ofNat_toNat]

theorem toNat_eq_ite (b : Bool) : b.toNat = if b then 1 else 0 := by cases b <;> rfl

theorem statusWord_cmd (c : CommandUnit) :
    c.statusWord =
      BitVec.ofNat 16 (c.state.isBusy.toNat + 2 * c.mode.code + 8 * c.refused.toNat + 16 * c.done.toNat +
        256 * c.lastAccepted.toNat) := by
  have busy := c.state.isBusy.toNat_le
  have refused := c.refused.toNat_le
  have done := c.done.toNat_le
  have mode : c.mode.code ≤ 2 := by cases c.mode <;> decide
  rw [CommandUnit.statusWord, flagAt_zero, setWidth_shift_eq_numAt, ofNat_or_numAt (by omega), ofNat_or_flagAt (by omega),
    ofNat_or_flagAt (by omega), ofNat_or_numAt (by omega)]
  rfl

theorem resultWord_cmd (c : CommandUnit) :
    c.resultWord = BitVec.ofNat 16 (c.lastResult.code + 256 * c.lastCompleted.toNat) := by
  have code : c.lastResult.code < 2 ^ 8 := by cases c.lastResult <;> decide
  rw [CommandUnit.resultWord, numAt_zero, setWidth_shift_eq_numAt, ofNat_or_numAt code]
  rfl

theorem statusWord_line (u : LineUnit) (bad : u.badCount ≤ 15) :
    u.statusWord = BitVec.ofNat 16 (u.state.code + 4 * u.tx.code + 16 * u.badCount + 256 * u.buffers.length) := by
  have state : u.state.code ≤ 3 := by cases u.state <;> decide
  have tx : u.tx.code ≤ 2 := by cases u.tx <;> decide
  rw [LineUnit.statusWord, numAt_zero, ofNat_or_numAt (by omega), ofNat_or_numAt (by omega), ofNat_or_numAt (by omega)]
  rfl

theorem statusWord_events (ev : EventBlock) (queue : ev.queue.length ≤ 64) :
    ev.statusWord = BitVec.ofNat 16 (ev.queue.length + 128 * ev.overflow.toNat + 256 * ev.loss) := by
  have overflow := ev.overflow.toNat_le
  rw [EventBlock.statusWord, numAt_zero, ofNat_or_flagAt (by omega), ofNat_or_numAt (by omega)]
  rfl

theorem irqStatusWord_eq (s : State) :
    s.irqStatusWord =
      BitVec.ofNat 16 (s.evtHolds.toNat + 2 * s.dlvHolds.toNat + 4 * s.cmdHolds.toNat + 8 * s.irqAsserted.toNat) := by
  have evt := s.evtHolds.toNat_le
  have dlv := s.dlvHolds.toNat_le
  have cmd := s.cmdHolds.toNat_le
  rw [State.irqStatusWord, flagAt_zero, ofNat_or_flagAt (by omega), ofNat_or_flagAt (by omega), ofNat_or_flagAt (by omega)]
  rfl

end Words

/-! ## Reads -/

section Reads

theorem toList_getD {α : Type} {n : Nat} (v : Vector α n) (i : Fin n) (d : α) : v.toList.getD i.val d = v[i] := by
  simp [List.getD_eq_getElem?_getD]

theorem readWord_arg (s : State) (i : ArgNo) : s.readWord (BitVec.ofNat 7 (2 + i.val)) = s.arg i := by
  have listed : s.readWord (BitVec.ofNat 7 (2 + i.val)) = s.cmd.args.toList.getD i.val 0 := by
    fin_cases i <;> rfl
  exact listed.trans (toList_getD s.cmd.args i 0)

theorem readWord_result (s : State) (i : ArgNo) : s.readWord (BitVec.ofNat 7 (8 + i.val)) = s.cmd.results[i] := by
  have listed : s.readWord (BitVec.ofNat 7 (8 + i.val)) = s.cmd.results.toList.getD i.val 0 := by
    fin_cases i <;> rfl
  exact listed.trans (toList_getD s.cmd.results i 0)

theorem readWord_line (s : State) (l : LineNo) : s.readWord (BitVec.ofNat 7 (0x30 + l.val)) = (s.line l).statusWord := by
  have listed : s.readWord (BitVec.ofNat 7 (0x30 + l.val)) = (s.lines.map LineUnit.statusWord).toList.getD l.val 0 := by
    rw [Vector.toList_map]
    fin_cases l <;> rfl
  rw [listed, toList_getD]
  simp [State.line]

/-- None of the tests that find a register finds an unassigned address. -/
theorem unassigned_unread : ∀ a : RegAddr,
    a = 0x0E ∨ a = 0x0F ∨ (0x16 ≤ a ∧ a ≤ 0x1F) ∨ a = 0x27 ∨ (0x2A ≤ a ∧ a ≤ 0x2F) ∨ 0x34 ≤ a →
    (a ∉ [0x00, 0x01, 0x10, 0x11, 0x12, 0x13, 0x14, 0x15, 0x20, 0x21, 0x22, 0x23, 0x24, 0x25, 0x26, 0x28, 0x29]) ∧
      ¬(0x02 ≤ a ∧ a ≤ 0x07) ∧ ¬(0x08 ≤ a ∧ a ≤ 0x0D) ∧ ¬(0x30 ≤ a ∧ a ≤ 0x33) := by
  decide +kernel

theorem readWord_unassigned {a : RegAddr}
    (unassigned : a = 0x0E ∨ a = 0x0F ∨ (0x16 ≤ a ∧ a ≤ 0x1F) ∨ a = 0x27 ∨ (0x2A ≤ a ∧ a ≤ 0x2F) ∨ 0x34 ≤ a) :
    s.readWord a = 0 := by
  obtain ⟨single, args, results, lines⟩ := unassigned_unread a unassigned
  simp only [List.mem_cons, List.not_mem_nil, or_false, not_or] at single
  simp only [State.readWord, single, args, results, lines, if_false]

/-! ## Rows -/

theorem unwritable : ∀ a : RegAddr, a ∉ [0x00, 0x02, 0x03, 0x04, 0x05, 0x06, 0x07, 0x25, 0x26, 0x28] →
    writableAddr a = false ∧ a.toNat ∉ [0x00, 0x02, 0x03, 0x04, 0x05, 0x06, 0x07, 0x25, 0x26, 0x28] := by
  decide +kernel

theorem rowOfWrite_ignored {a : RegAddr} (unlisted : a ∉ [0x00, 0x02, 0x03, 0x04, 0x05, 0x06, 0x07, 0x25, 0x26, 0x28])
    (w : Word) : rowOfWrite a w = .ignoredWrite a w := by
  obtain ⟨-, number⟩ := unwritable a unlisted
  simp only [List.mem_cons, List.not_mem_nil, or_false, not_or] at number
  unfold rowOfWrite
  split <;> simp_all

theorem rowOfWrite_arg (i : ArgNo) (w : Word) : rowOfWrite (BitVec.ofNat 7 (2 + i.val)) w = .cmdArg i w := by
  fin_cases i <;> rfl

theorem rowOfWrite_wf (a : RegAddr) (w : Word) : (rowOfWrite a w).wf = true := by
  by_cases listed : a ∈ [0x00, 0x02, 0x03, 0x04, 0x05, 0x06, 0x07, 0x25, 0x26, 0x28]
  · simp only [List.mem_cons, List.not_mem_nil, or_false] at listed
    rcases listed with rfl | rfl | rfl | rfl | rfl | rfl | rfl | rfl | rfl | rfl
    · exact rowOfCmdWord_wf w
    all_goals rfl
  · rw [rowOfWrite_ignored listed, Instr.wf, (unwritable a listed).1]
    rfl

theorem exec_ignoredWrite {a : RegAddr} (unlisted : a ∉ [0x00, 0x02, 0x03, 0x04, 0x05, 0x06, 0x07, 0x25, 0x26, 0x28])
    (w : Word) (s : State) : exec (.ignoredWrite a w) s = .next s := by
  have row : exec (.ignoredWrite a w) s = execIgnoredWrite a w s := rfl
  rw [row, execIgnoredWrite, if_neg (by simp [(unwritable a unlisted).1])]

theorem exec_cmdArg_eq (hrstn : s.pins.rstnLow = false) (i : ArgNo) (w : Word) :
    exec (.cmdArg i w) s = .next { s with cmd := { s.cmd with args := s.cmd.args.set i w } } :=
  awake_eq s (fun s => { s with cmd := { s.cmd with args := s.cmd.args.set i w } }) hrstn

theorem exec_cmdResult_eq (hrstn : s.pins.rstnLow = false) :
    exec .cmdResult s =
      .next
        { s with
          cmd := { s.cmd with done := false }
          pins :=
            { s.pins with
              dataOut := some (BitVec.ofNat 16 (s.cmd.lastResult.code + 256 * s.cmd.lastCompleted.toNat)) } } := by
  rw [← resultWord_cmd]
  exact hostRead_eq 0x01 (fun s => { s with cmd := { s.cmd with done := false } }) s hrstn

theorem rowOfRead_plain : ∀ a : RegAddr, a ∉ [0x01, 0x10, 0x14, 0x20] → rowOfRead a = none := by
  decide +kernel

/-- Settles O35: the three rows, each register's word, the rows that writes and reads name, and the codes by evaluation. -/
theorem registersReadAndWritten : Obligations.RegistersReadAndWritten := by
  unfold Obligations.RegistersReadAndWritten
  refine ⟨fun s => ⟨exec_cmdResult_eq, fun hrstn i w => ⟨_, exec_cmdArg_eq hrstn i w, rfl, ?_⟩,
      fun a w unlisted => exec_ignoredWrite unlisted w s⟩, fun s => ?_,
    fun w => ⟨fun i => rowOfWrite_arg i w, rfl, rfl, rfl, fun a unlisted => rowOfWrite_ignored unlisted w,
      fun a => rowOfWrite_wf a w⟩,
    ⟨rfl, rfl, rfl, rfl, rowOfRead_plain⟩, rfl, rfl, rfl, rfl, rfl, rfl, rfl, fun _ _ _ _ _ _ _ => ⟨rfl, rfl, rfl⟩⟩
  · rw [readWord_arg, State.arg]
    simp
  · dsimp only
    simp only [← toNat_eq_ite]
    refine ⟨?_, fun i => ⟨readWord_arg s i, readWord_result s i⟩, ?_, ?_, numAt_zero _, numAt_zero _, fun queue loss => ?_,
      irqStatusWord_eq s, fun l bad buffers => ?_, fun a => readWord_unassigned⟩
    · refine (statusWord_cmd s.cmd).trans ?_
      cases s.cmd.state <;> cases s.cmd.mode <;> rfl
    · exact (BitVec.ofNat_toNat 16 s.readout.head.source).symm
    · exact (BitVec.ofNat_toNat 16 s.readout.head.msgno).symm
    · exact statusWord_events s.ev queue
    · rw [readWord_line, statusWord_line _ bad]
      cases (s.line l).state <;> cases (s.line l).tx <;> rfl

end Reads

end Sys2Proof.Machine
end

