-- ==== Sys2Proof/Proofs/CommandAnswers.lean ====
section
/-! SUPPORT. The arguments of the commands, how a command ends with another result than OK, and the commands that replace a setting
(spec 09 R151 to R168, 9.4). -/

namespace Sys2Proof.Machine

variable {s t : State}

/-! ## Arguments -/

section Arguments

variable {w : Word} {lo hi : Nat}

theorem natArg_in (low : lo ≤ w.toNat) (high : w.toNat ≤ hi) : natArg lo hi w = some w.toNat := if_pos ⟨low, high⟩

theorem natArg_out (out : w.toNat < lo ∨ hi < w.toNat) : natArg lo hi w = none := if_neg (by omega)

theorem addressArg_in (low : 1 ≤ w.toNat) (high : w.toNat ≤ 254) : addressArg w = some (w.setWidth 8) := by
  rw [addressArg, natArg_in low high, Option.map_some]

theorem addressArg_out (out : w.toNat = 0 ∨ 254 < w.toNat) : addressArg w = none := by
  rw [addressArg, natArg_out (by omega), Option.map_none]

theorem boolArg_in (range : w.toNat ≤ 1) : boolArg w = some (decide (w.toNat = 1)) := by
  rw [boolArg, natArg_in (Nat.zero_le _) range, Option.map_some]
  rfl

theorem boolArg_out (out : 1 < w.toNat) : boolArg w = none := by
  rw [boolArg, natArg_out (.inr out), Option.map_none]

theorem classArg_zero (zero : w.toNat = 0) : classArg w = some .ordinary := by
  rw [classArg, boolArg_in (by omega), zero]
  rfl

theorem classArg_one (one : w.toNat = 1) : classArg w = some .urgent := by
  rw [classArg, boolArg_in (by omega), one]
  rfl

theorem classArg_out (out : 1 < w.toNat) : classArg w = none := by rw [classArg, boolArg_out out, Option.map_none]

theorem lineArg_in {l : LineNo} (names : w.toNat = l.val) : lineArg w = some l := by
  rw [lineArg, dif_pos (by omega)]
  exact congrArg some (Fin.ext names)

theorem lineArg_out (out : 3 < w.toNat) : lineArg w = none := dif_neg (by omega)

theorem ctxArg_in {n : CtxNo} (names : w.toNat = n.val) : ctxArg w = some n := by
  rw [ctxArg, dif_pos (by omega)]
  exact congrArg some (Fin.ext names)

theorem ctxArg_out (out : 31 < w.toNat) : ctxArg w = none := dif_neg (by omega)

theorem indexArg_in {i : SegIndex} (names : w.toNat = i.val) : indexArg w = some i := by
  rw [indexArg, dif_pos (by omega)]
  exact congrArg some (Fin.ext names)

theorem indexArg_out (out : 63 < w.toNat) : indexArg w = none := dif_neg (by omega)

theorem timingArgs_in {cls : MsgClass} (class' : classArg (s.arg 0) = some cls) (gap : 1 ≤ (s.arg 1).toNat)
    (gap' : (s.arg 1).toNat ≤ 1023) (retries : (s.arg 2).toNat ≤ 7) (lifetime : 1 ≤ (s.arg 3).toNat)
    (lifetime' : (s.arg 3).toNat ≤ 255) :
    timingArgs s = some (cls, ⟨(s.arg 1).toNat, (s.arg 2).toNat, (s.arg 3).toNat⟩) := by
  simp [timingArgs, class', natArg_in gap gap', natArg_in (Nat.zero_le _) retries, natArg_in lifetime lifetime']

theorem timingArgs_out (out : 1 < (s.arg 0).toNat ∨ (s.arg 1).toNat = 0 ∨ 1023 < (s.arg 1).toNat ∨ 7 < (s.arg 2).toNat ∨
    (s.arg 3).toNat = 0 ∨ 255 < (s.arg 3).toNat) : timingArgs s = none := by
  rcases out with cls | gap | gap | retries | lifetime | lifetime
  · simp [timingArgs, classArg_out cls]
  · simp [timingArgs, natArg_out (lo := 1) (hi := 1023) (.inl (by omega : (s.arg 1).toNat < 1))]
  · simp [timingArgs, natArg_out (lo := 1) (.inr gap)]
  · simp [timingArgs, natArg_out (lo := 0) (.inr retries)]
  · simp [timingArgs, natArg_out (lo := 1) (hi := 255) (.inl (by omega : (s.arg 3).toNat < 1))]
  · simp [timingArgs, natArg_out (lo := 1) (.inr lifetime)]

theorem setLineArgs_in {l : LineNo} (line : (s.arg 0).toNat = l.val) (divisor : 8 ≤ (s.arg 1).toNat)
    (threshold : (s.arg 2).toNat ≤ 15) : setLineArgs s = some (l, (s.arg 1).toNat, (s.arg 2).toNat) := by
  have word : (s.arg 1).toNat ≤ 65535 := by omega
  simp [setLineArgs, lineArg_in line, natArg_in divisor word, natArg_in (Nat.zero_le _) threshold]

theorem setLineArgs_out (out : 3 < (s.arg 0).toNat ∨ (s.arg 1).toNat < 8 ∨ 15 < (s.arg 2).toNat) : setLineArgs s = none := by
  rcases out with line | divisor | threshold
  · simp [setLineArgs, lineArg_out line]
  · simp [setLineArgs, natArg_out (lo := 8) (hi := 65535) (.inl divisor)]
  · simp [setLineArgs, natArg_out (lo := 0) (.inr threshold)]

theorem srcAddArgs_in (address : 1 ≤ (s.arg 0).toNat) (address' : (s.arg 0).toNat ≤ 254) (segs : 1 ≤ (s.arg 1).toNat)
    (segs' : (s.arg 1).toNat ≤ 64) (open' : 1 ≤ (s.arg 2).toNat) (open'' : (s.arg 2).toNat ≤ 8)
    (urgent : (s.arg 3).toNat ≤ 1) :
    srcAddArgs s =
      some ⟨.enabled, (s.arg 0).setWidth 8, (s.arg 1).toNat, (s.arg 2).toNat, decide ((s.arg 3).toNat = 1), 0, []⟩ := by
  simp [srcAddArgs, addressArg_in address address', natArg_in segs segs', natArg_in open' open'', boolArg_in urgent]

theorem srcAddArgs_out (out : ((s.arg 0).toNat = 0 ∨ 254 < (s.arg 0).toNat) ∨ (s.arg 1).toNat = 0 ∨ 64 < (s.arg 1).toNat ∨
    (s.arg 2).toNat = 0 ∨ 8 < (s.arg 2).toNat ∨ 1 < (s.arg 3).toNat) : srcAddArgs s = none := by
  rcases out with address | segs | segs | opens | opens | urgent
  · simp [srcAddArgs, addressArg_out address]
  · simp [srcAddArgs, natArg_out (lo := 1) (hi := 64) (.inl (by omega : (s.arg 1).toNat < 1))]
  · simp [srcAddArgs, natArg_out (lo := 1) (.inr segs)]
  · simp [srcAddArgs, natArg_out (lo := 1) (hi := 8) (.inl (by omega : (s.arg 2).toNat < 1))]
  · simp [srcAddArgs, natArg_out (lo := 1) (.inr opens)]
  · simp [srcAddArgs, boolArg_out urgent]

theorem ctxAbortArgs_in {n : CtxNo} (context : (s.arg 0).toNat = n.val) (notify : (s.arg 1).toNat ≤ 1) :
    ctxAbortArgs s = some (n, decide ((s.arg 1).toNat = 1)) := by
  simp [ctxAbortArgs, ctxArg_in context, boolArg_in notify]

theorem ctxAbortArgs_out (out : 31 < (s.arg 0).toNat ∨ 1 < (s.arg 1).toNat) : ctxAbortArgs s = none := by
  rcases out with context | notify
  · simp [ctxAbortArgs, ctxArg_out context]
  · simp [ctxAbortArgs, boolArg_out notify]

theorem queryCtxArgs_view {n : CtxNo} (context : (s.arg 0).toNat = n.val) (view : (s.arg 1).toNat < 4) :
    queryCtxArgs s = some (n, (s.arg 1).toNat, 0) := by
  have range : (s.arg 1).toNat ≤ 4 := by omega
  have other : (s.arg 1).toNat ≠ 4 := by omega
  simp [queryCtxArgs, ctxArg_in context, natArg_in (Nat.zero_le _) range, other]

theorem queryCtxArgs_slot {n : CtxNo} {i : SegIndex} (context : (s.arg 0).toNat = n.val) (view : (s.arg 1).toNat = 4)
    (index : (s.arg 2).toNat = i.val) : queryCtxArgs s = some (n, 4, i) := by
  have range : (s.arg 1).toNat ≤ 4 := by omega
  simp [queryCtxArgs, ctxArg_in context, natArg_in (Nat.zero_le _) range, view, indexArg_in index]

theorem queryCtxArgs_out (out : 31 < (s.arg 0).toNat ∨ 4 < (s.arg 1).toNat ∨ (s.arg 1).toNat = 4 ∧ 63 < (s.arg 2).toNat) :
    queryCtxArgs s = none := by
  rcases out with context | view | ⟨view, index⟩
  · simp [queryCtxArgs, ctxArg_out context]
  · simp [queryCtxArgs, natArg_out (lo := 0) (.inr view)]
  · have range : (s.arg 1).toNat ≤ 4 := by omega
    simp [queryCtxArgs, natArg_in (Nat.zero_le _) range, view, indexArg_out index]

end Arguments

/-! ## How a command is answered -/

section Resolves

/-- What a command makes of the state that accepted it: a failure that writes the unit alone, an OK, or a wait. -/
inductive Resolves (c : HostCommand) (s : State) : State → Prop
  | fails (r : Result) : Resolves c s (s.fail c r)
  | finishes (u : State) (words : Vector Word 6) : Resolves c s (u.finish c words)
  | waits (u : State) (w : Waiting) : Resolves c s (u.wait w)

theorem doSetStation_resolves (s : State) : Resolves .setStation s (doSetStation s) := by
  unfold doSetStation
  split
  · exact .fails _
  · split
    · exact .finishes _ _
    · exact .fails _

theorem doSetLearn_resolves (s : State) : Resolves .setLearn s (doSetLearn s) := by
  unfold doSetLearn
  split
  · exact .fails _
  · exact .finishes _ _

theorem doSetTiming_resolves (s : State) : Resolves .setTiming s (doSetTiming s) := by
  unfold doSetTiming
  split
  · exact .fails _
  · exact .finishes _ _

theorem doSetReserve_resolves (s : State) : Resolves .setReserve s (doSetReserve s) := by
  unfold doSetReserve
  split
  · exact .fails _
  · exact .finishes _ _

theorem doSetLine_resolves (s : State) : Resolves .setLine s (doSetLine s) := by
  unfold doSetLine
  split
  · exact .fails _
  · split
    · exact .finishes _ _
    · exact .fails _

theorem doLineOn_resolves (s : State) : Resolves .lineOn s (doLineOn s) := by
  unfold doLineOn
  split
  · exact .fails _
  · split
    · exact .finishes _ _
    · exact .finishes _ _
    · exact .fails _
    · exact .fails _

theorem closeLine_resolves (l : LineNo) (u : State) : Resolves .lineOff s (closeLine l u) := by
  unfold closeLine
  split
  · exact .finishes _ _
  · exact .waits _ _

theorem doLineOff_resolves (s : State) : Resolves .lineOff s (doLineOff s) := by
  unfold doLineOff
  split
  · exact .fails _
  · split
    · exact closeLine_resolves _ _
    · exact closeLine_resolves _ _
    · exact .finishes _ _
    · exact .waits _ _

theorem doSrcAdd_resolves (s : State) : Resolves .srcAdd s (doSrcAdd s) := by
  unfold doSrcAdd
  split
  · exact .fails _
  · split
    · exact .fails _
    · split
      · exact .fails _
      · exact .finishes _ _

theorem doSrcSuspend_resolves (s : State) : Resolves .srcSuspend s (doSrcSuspend s) := by
  unfold doSrcSuspend
  split
  · exact .fails _
  · split
    · exact .fails _
    · split
      · exact .finishes _ _
      · exact .finishes _ _

theorem doSrcResume_resolves (s : State) : Resolves .srcResume s (doSrcResume s) := by
  unfold doSrcResume
  split
  · exact .fails _
  · split
    · exact .fails _
    · split
      · exact .finishes _ _
      · exact .finishes _ _

theorem doSrcRemove_resolves (s : State) : Resolves .srcRemove s (doSrcRemove s) := by
  unfold doSrcRemove
  split
  · exact .fails _
  · split
    · exact .fails _
    · unfold removeSource
      dsimp only
      split
      · exact .finishes _ _
      · exact .waits _ _

theorem doCtxAbort_resolves (s : State) : Resolves .ctxAbort s (doCtxAbort s) := by
  unfold doCtxAbort
  split
  · exact .fails _
  · split
    · exact .fails _
    · split
      · exact .waits _ _
      · exact .finishes _ _

theorem doRelease_resolves (s : State) : Resolves .release s (doRelease s) := by
  unfold doRelease
  split
  · exact .finishes _ _
  · exact .finishes _ _
  · exact .fails _

theorem doFlush_resolves (s : State) : Resolves .flush s (doFlush s) := by
  unfold doFlush
  dsimp only
  split
  · exact .finishes _ _
  · exact .waits _ _

theorem doStart_resolves (s : State) : Resolves .start s (doStart s) := by
  unfold doStart
  split
  · exact .fails _
  · split
    · exact .fails _
    · exact .finishes _ _

theorem doStop_resolves (s : State) : Resolves .stop s (doStop s) := by
  unfold doStop
  split
  · exact .fails _
  · unfold State.stopIfDone
    split
    · exact .finishes _ _
    · exact .waits _ _

theorem doQueryCtx_resolves (s : State) : Resolves .queryCtx s (doQueryCtx s) := by
  unfold doQueryCtx
  split
  · exact .fails _
  · exact .finishes _ _

theorem doQuerySrc_resolves (s : State) : Resolves .querySrc s (doQuerySrc s) := by
  unfold doQuerySrc
  split
  · exact .fails _
  · split
    · exact .fails _
    · exact .finishes _ _

/-- Each row with a code is the command of that code, or BAD_COMMAND. -/
theorem resolves_of_cmdCode {c : Instr} {code : Byte} (named : c.cmdCode = some code) :
    (∃ w, c = .badCommand w) ∨ ∃ (command : HostCommand) (f : State → State),
      command.code = code ∧ (∀ s, exec c s = hostCommand command f s) ∧ ∀ s, Resolves command s (f s) := by
  cases c with
  | badCommand w => exact .inl ⟨w, rfl⟩
  | setStation => cases named; exact .inr ⟨_, _, rfl, fun _ => rfl, doSetStation_resolves⟩
  | setLearn => cases named; exact .inr ⟨_, _, rfl, fun _ => rfl, doSetLearn_resolves⟩
  | setTiming => cases named; exact .inr ⟨_, _, rfl, fun _ => rfl, doSetTiming_resolves⟩
  | setReserve => cases named; exact .inr ⟨_, _, rfl, fun _ => rfl, doSetReserve_resolves⟩
  | setLine => cases named; exact .inr ⟨_, _, rfl, fun _ => rfl, doSetLine_resolves⟩
  | lineOn => cases named; exact .inr ⟨_, _, rfl, fun _ => rfl, doLineOn_resolves⟩
  | lineOff => cases named; exact .inr ⟨_, _, rfl, fun _ => rfl, doLineOff_resolves⟩
  | srcAdd => cases named; exact .inr ⟨_, _, rfl, fun _ => rfl, doSrcAdd_resolves⟩
  | srcRemove => cases named; exact .inr ⟨_, _, rfl, fun _ => rfl, doSrcRemove_resolves⟩
  | srcSuspend => cases named; exact .inr ⟨_, _, rfl, fun _ => rfl, doSrcSuspend_resolves⟩
  | srcResume => cases named; exact .inr ⟨_, _, rfl, fun _ => rfl, doSrcResume_resolves⟩
  | ctxAbort => cases named; exact .inr ⟨_, _, rfl, fun _ => rfl, doCtxAbort_resolves⟩
  | release => cases named; exact .inr ⟨_, _, rfl, fun _ => rfl, doRelease_resolves⟩
  | flush => cases named; exact .inr ⟨_, _, rfl, fun _ => rfl, doFlush_resolves⟩
  | start => cases named; exact .inr ⟨_, _, rfl, fun _ => rfl, doStart_resolves⟩
  | stop => cases named; exact .inr ⟨_, _, rfl, fun _ => rfl, doStop_resolves⟩
  | queryCtx => cases named; exact .inr ⟨_, _, rfl, fun _ => rfl, doQueryCtx_resolves⟩
  | querySrc => cases named; exact .inr ⟨_, _, rfl, fun _ => rfl, doQuerySrc_resolves⟩
  | queryPool => cases named; exact .inr ⟨_, _, rfl, fun _ => rfl, fun _ => .finishes _ _⟩
  | clearLoss => cases named; exact .inr ⟨_, _, rfl, fun _ => rfl, fun _ => .finishes _ _⟩
  | _ => cases named

/-- A command that ends with another result than OK writes the unit alone (spec 09 R154). -/
theorem exec_failed {c : Instr} {code : Byte} (named : c.cmdCode = some code) (accepts : s.accepts)
    (h : exec c s = .next t) (ended : t.cmd.state = .idle) (failed : t.cmd.lastResult ≠ .ok) :
    t = { s with cmd := s.cmd.completed code t.cmd.lastResult (Vector.replicate 6 0) } := by
  rcases resolves_of_cmdCode named with ⟨w, rfl⟩ | ⟨command, f, rfl, row, resolves⟩
  · cases named
    have unnamed : namesCommand w = false := by simpa [Instr.wf] using wf_of_exec_next h
    rw [exec_badCommand_accepts unnamed accepts] at h
    cases h
    rfl
  · rw [row, hostCommand_accepts _ _ accepts] at h
    injection h with h
    have answer := resolves (s.accept command.code)
    rw [h] at answer
    cases answer with
    | fails r => rfl
    | finishes u words => exact absurd rfl failed
    | waits u w => cases ended

end Resolves

/-! ## Failures -/

section Failures

theorem hostCommand_fails {c : HostCommand} {f : State → State} {r : Result} (accepts : s.accepts)
    (fails : f (s.accept c.code) = (s.accept c.code).fail c r) :
    hostCommand c f s = .next { s with cmd := s.cmd.completed c.code r (Vector.replicate 6 0) } := by
  rw [hostCommand_accepts _ _ accepts, fails]
  rfl

theorem doSetStation_badArgument (bad : addressArg (s.arg 0) = none) : doSetStation s = s.fail .setStation .badArgument := by
  rw [doSetStation, bad]

theorem doSetStation_wrongMode {a : Byte} (address : addressArg (s.arg 0) = some a) (mode : s.cmd.mode ≠ .config) :
    doSetStation s = s.fail .setStation .wrongMode := by
  rw [doSetStation, address]
  exact if_neg mode

theorem doSetLearn_badArgument (bad : boolArg (s.arg 0) = none) : doSetLearn s = s.fail .setLearn .badArgument := by
  rw [doSetLearn, bad]

theorem doSetTiming_badArgument (bad : timingArgs s = none) : doSetTiming s = s.fail .setTiming .badArgument := by
  rw [doSetTiming, bad]

theorem doSetReserve_badArgument (bad : natArg 0 512 (s.arg 0) = none) :
    doSetReserve s = s.fail .setReserve .badArgument := by
  rw [doSetReserve, bad]

theorem doSetLine_badArgument (bad : setLineArgs s = none) : doSetLine s = s.fail .setLine .badArgument := by
  rw [doSetLine, bad]

theorem doSetLine_lineState {l : LineNo} {d k : Nat} (args : setLineArgs s = some (l, d, k)) (off : (s.line l).state ≠ .off) :
    doSetLine s = s.fail .setLine .lineState := by
  rw [doSetLine, args]
  exact if_neg off

theorem doLineOn_badArgument (bad : lineArg (s.arg 0) = none) : doLineOn s = s.fail .lineOn .badArgument := by
  rw [doLineOn, bad]

theorem doLineOn_lineState {l : LineNo} (line : lineArg (s.arg 0) = some l)
    (busy : (s.line l).state = .on ∨ (s.line l).state = .closing) : doLineOn s = s.fail .lineOn .lineState := by
  rcases busy with state | state <;> simp only [doLineOn, line, state]

theorem doLineOff_badArgument (bad : lineArg (s.arg 0) = none) : doLineOff s = s.fail .lineOff .badArgument := by
  rw [doLineOff, bad]

theorem doSrcAdd_badArgument (bad : srcAddArgs s = none) : doSrcAdd s = s.fail .srcAdd .badArgument := by
  rw [doSrcAdd, bad]

theorem doSrcAdd_sourceExists {e : SourceEntry} (args : srcAddArgs s = some e) (known : s.findSource e.address ≠ none) :
    doSrcAdd s = s.fail .srcAdd .sourceExists := by
  obtain ⟨k, found⟩ := Option.ne_none_iff_exists'.1 known
  simp only [doSrcAdd, args, found]

theorem doSrcAdd_tableFull {e : SourceEntry} (args : srcAddArgs s = some e) (unknown : s.findSource e.address = none)
    (full : s.lowestUnused = none) : doSrcAdd s = s.fail .srcAdd .tableFull := by
  simp only [doSrcAdd, args, unknown, full]

theorem doSrcRemove_badArgument (bad : addressArg (s.arg 0) = none) : doSrcRemove s = s.fail .srcRemove .badArgument := by
  rw [doSrcRemove, bad]

theorem doSrcSuspend_badArgument (bad : addressArg (s.arg 0) = none) : doSrcSuspend s = s.fail .srcSuspend .badArgument := by
  rw [doSrcSuspend, bad]

theorem doSrcResume_badArgument (bad : addressArg (s.arg 0) = none) : doSrcResume s = s.fail .srcResume .badArgument := by
  rw [doSrcResume, bad]

theorem doQuerySrc_badArgument (bad : addressArg (s.arg 0) = none) : doQuerySrc s = s.fail .querySrc .badArgument := by
  rw [doQuerySrc, bad]

section Unknown

variable {a : Byte} (address : addressArg (s.arg 0) = some a) (unknown : s.findSource a = none)

include address unknown

theorem doSrcRemove_noSuchSource : doSrcRemove s = s.fail .srcRemove .noSuchSource := by
  simp only [doSrcRemove, address, unknown]

theorem doSrcSuspend_noSuchSource : doSrcSuspend s = s.fail .srcSuspend .noSuchSource := by
  simp only [doSrcSuspend, address, unknown]

theorem doSrcResume_noSuchSource : doSrcResume s = s.fail .srcResume .noSuchSource := by
  simp only [doSrcResume, address, unknown]

theorem doQuerySrc_noSuchSource : doQuerySrc s = s.fail .querySrc .noSuchSource := by
  simp only [doQuerySrc, address, unknown]

end Unknown

theorem doCtxAbort_badArgument (bad : ctxAbortArgs s = none) : doCtxAbort s = s.fail .ctxAbort .badArgument := by
  rw [doCtxAbort, bad]

theorem doCtxAbort_noSuchContext {n : CtxNo} {notify : Bool} (args : ctxAbortArgs s = some (n, notify))
    (free : (s.ctx n).state = .free) : doCtxAbort s = s.fail .ctxAbort .noSuchContext := by
  rw [doCtxAbort, args]
  exact if_pos free

theorem doRelease_notHeld (port : s.readout.port = .none) : doRelease s = s.fail .release .notHeld := by
  rw [doRelease, port]

theorem doStop_wrongMode (mode : s.cmd.mode ≠ .run) : doStop s = s.fail .stop .wrongMode := if_pos mode

theorem doQueryCtx_badArgument (bad : queryCtxArgs s = none) : doQueryCtx s = s.fail .queryCtx .badArgument := by
  rw [doQueryCtx, bad]

/-- Settles O39: every command resolves in one of three ways, and each failure by the test that finds it. -/
theorem failedChecksChangeOnlyTheUnit : Obligations.FailedChecksChangeOnlyTheUnit := by
  unfold Obligations.FailedChecksChangeOnlyTheUnit
  refine ⟨fun c s t code => exec_failed, fun s accepts => ?_⟩
  dsimp only
  have address (good : ¬((s.arg 0).toNat = 0 ∨ 254 < (s.arg 0).toNat)) : addressArg (s.arg 0) = some ((s.arg 0).setWidth 8) :=
    addressArg_in (by omega) (by omega)
  refine ⟨fun bad => ?_, fun bad => ?_, fun bad => ?_, fun bad => ?_, fun bad => ?_, fun bad => ⟨?_, ?_⟩, fun bad => ?_,
    fun bad => ?_, fun bad => ?_, fun good mode => ?_, fun mode => ?_, fun mode => ?_, fun good unknown => ?_,
    fun good segs segs' opens opens' urgent => ⟨fun known => ?_, fun unknown full => ?_⟩, fun n context notify free => ?_,
    fun port => ?_, fun l line => ⟨fun divisor threshold off => ?_, fun busy => ?_⟩⟩
  · have none := addressArg_out bad
    exact ⟨hostCommand_fails accepts (doSetStation_badArgument none),
      hostCommand_fails accepts (doSrcAdd_badArgument (srcAddArgs_out (.inl bad))),
      hostCommand_fails accepts (doSrcRemove_badArgument none), hostCommand_fails accepts (doSrcSuspend_badArgument none),
      hostCommand_fails accepts (doSrcResume_badArgument none), hostCommand_fails accepts (doQuerySrc_badArgument none)⟩
  · exact hostCommand_fails accepts (doSetLearn_badArgument (boolArg_out bad))
  · exact hostCommand_fails accepts (doSetTiming_badArgument (timingArgs_out bad))
  · exact hostCommand_fails accepts (doSetReserve_badArgument (natArg_out (.inr bad)))
  · exact hostCommand_fails accepts (doSetLine_badArgument (setLineArgs_out bad))
  · exact hostCommand_fails accepts (doLineOn_badArgument (lineArg_out bad))
  · exact hostCommand_fails accepts (doLineOff_badArgument (lineArg_out bad))
  · exact hostCommand_fails accepts (doSrcAdd_badArgument (srcAddArgs_out (.inr bad)))
  · exact hostCommand_fails accepts (doCtxAbort_badArgument (ctxAbortArgs_out bad))
  · exact hostCommand_fails accepts (doQueryCtx_badArgument (queryCtxArgs_out bad))
  · exact hostCommand_fails accepts (doSetStation_wrongMode (address good) mode)
  · exact exec_start_outsideConfig accepts mode
  · exact hostCommand_fails accepts (doStop_wrongMode mode)
  · exact ⟨hostCommand_fails accepts (doSrcRemove_noSuchSource (address good) unknown),
      hostCommand_fails accepts (doSrcSuspend_noSuchSource (address good) unknown),
      hostCommand_fails accepts (doSrcResume_noSuchSource (address good) unknown),
      hostCommand_fails accepts (doQuerySrc_noSuchSource (address good) unknown)⟩
  · have low : 1 ≤ (s.arg 0).toNat := by omega
    have high : (s.arg 0).toNat ≤ 254 := by omega
    exact hostCommand_fails accepts
      (doSrcAdd_sourceExists (srcAddArgs_in low high segs segs' opens opens' urgent) known)
  · have low : 1 ≤ (s.arg 0).toNat := by omega
    have high : (s.arg 0).toNat ≤ 254 := by omega
    exact hostCommand_fails accepts
      (doSrcAdd_tableFull (srcAddArgs_in low high segs segs' opens opens' urgent) unknown
        (State.lowestUnused_none.2 full))
  · exact hostCommand_fails accepts (doCtxAbort_noSuchContext (ctxAbortArgs_in context notify) free)
  · exact hostCommand_fails accepts (doRelease_notHeld port)
  · exact hostCommand_fails accepts (doSetLine_lineState (setLineArgs_in line divisor threshold) off)
  · exact hostCommand_fails accepts (doLineOn_lineState (lineArg_in line) busy)

end Failures

/-! ## Settings -/

section Settings

theorem hostCommand_carries {c : HostCommand} {f : State → State} (accepts : s.accepts) (carried : f (s.accept c.code) = t) :
    hostCommand c f s = .next t := by
  rw [hostCommand_accepts _ _ accepts, carried]

theorem doSetStation_eq {a : Byte} (address : addressArg (s.arg 0) = some a) (mode : s.cmd.mode = .config) :
    doSetStation s = State.finish { s with cmd := { s.cmd with station := a } } .setStation noWords := by
  rw [doSetStation, address]
  exact if_pos mode

theorem doSetLearn_eq {on : Bool} (arg : boolArg (s.arg 0) = some on) :
    doSetLearn s = State.finish { s with cmd := { s.cmd with learn := on } } .setLearn noWords := by
  rw [doSetLearn, arg]

theorem doSetTiming_eq {cls : MsgClass} {v : Timing} (args : timingArgs s = some (cls, v)) :
    doSetTiming s = State.finish { s with timer := s.timer.withSettings cls v } .setTiming noWords := by
  rw [doSetTiming, args]

theorem doSetReserve_eq {v : Nat} (arg : natArg 0 512 (s.arg 0) = some v) :
    doSetReserve s = State.finish { s with pool := { s.pool with reserve := v } } .setReserve noWords := by
  rw [doSetReserve, arg]

theorem doSetLine_eq {l : LineNo} {d k : Nat} (args : setLineArgs s = some (l, d, k)) (off : (s.line l).state = .off) :
    doSetLine s = (s.setLine l { s.line l with divisor := d, threshold := k }).finish .setLine noWords := by
  rw [doSetLine, args]
  exact if_pos off

/-- Settles O40: each setting's arguments, then its completion. -/
theorem settingsReplaced : Obligations.SettingsReplaced := by
  unfold Obligations.SettingsReplaced
  intro s accepts
  dsimp only
  refine ⟨fun mode low high => ?_, fun range => ?_, fun gap gap' retries life life' => ⟨fun zero => ?_, fun one => ?_⟩,
    fun range => ?_, fun l line divisor threshold off => ?_, ?_⟩
  · rw [BitVec.ofNat_toNat]
    exact hostCommand_carries accepts (doSetStation_eq (addressArg_in low high) mode)
  · exact hostCommand_carries accepts (doSetLearn_eq (boolArg_in range))
  · exact hostCommand_carries accepts (doSetTiming_eq (timingArgs_in (s := s.accept 0x03) (classArg_zero zero) gap gap' retries life life'))
  · exact hostCommand_carries accepts (doSetTiming_eq (timingArgs_in (s := s.accept 0x03) (classArg_one one) gap gap' retries life life'))
  · exact hostCommand_carries accepts (doSetReserve_eq (natArg_in (Nat.zero_le _) range))
  · exact hostCommand_carries accepts (doSetLine_eq (setLineArgs_in line divisor threshold) off)
  · exact hostCommand_accepts .clearLoss doClearLoss accepts

end Settings

end Sys2Proof.Machine
end

