-- ==== Sys2Proof/Proofs/StopAndLines.lean ====
section
/-! SUPPORT. STOP and what ends it, the line commands, CTX_ABORT, RELEASE (spec 09 R158, R159, R165 to R168, 07 R116, R117, 08
R145). -/

namespace Sys2Proof.Machine

variable {s t : State}

/-! ## The operations below read and write no part of the command unit -/

section Unit

variable {n : CtxNo} {c : CommandUnit}

/-- The state with its command unit replaced. -/
def State.withUnit (s : State) (c : CommandUnit) : State := { s with cmd := c }

theorem State.accept_eq_withUnit (s : State) (code : Byte) : s.accept code = s.withUnit (s.accept code).cmd := rfl

theorem State.handOver_withUnit (f : CtrlFrame) (requested : LineNo) (mask : LineMask) :
    (s.withUnit c).handOver f requested mask = (s.handOver f requested mask).withUnit c := by
  obtain ⟨lines, ev⟩ := State.handOver_congr (s := s) (t := s.withUnit c) rfl rfl f requested mask
  rw [State.handOver_frame, lines, ev, State.handOver_frame s]
  rfl

theorem State.freeCtx_withUnit : (s.withUnit c).freeCtx n = (s.freeCtx n).withUnit c := by
  cases found : s.findSource (s.ctx n).source with
  | some k => rw [State.freeCtx_found (s := s.withUnit c) found, State.freeCtx_found found]; rfl
  | none => rw [State.freeCtx_unfound (s := s.withUnit c) found, State.freeCtx_unfound found]; rfl

theorem State.loseHeld_withUnit (cause : LossCause) : (s.withUnit c).loseHeld n cause = (s.loseHeld n cause).withUnit c :=
  (apply_ite (fun u : State => u.withUnit c) ((s.ctx n).state = .delivering)
    (State.post { s with readout := { s.readout with port := .lost, remaining := 0 } } (readoutLostEvent n (s.ctx n) cause))
    s).symm

theorem State.freeByCommand_withUnit (cause : LossCause) :
    (s.withUnit c).freeByCommand n cause = (s.freeByCommand n cause).withUnit c := by
  rw [State.freeByCommand, State.loseHeld_withUnit, State.freeCtx_withUnit, State.freeByCommand]

theorem abortOutputs_withUnit (r : Ctx) (notify : Bool) :
    abortOutputs n r notify (s.withUnit c) = (abortOutputs n r notify s).withUnit c := by
  cases notify with
  | false => rfl
  | true => exact congrArg (State.post · _) (State.handOver_withUnit _ _ _)

/-- A completion of what the state that accepted the command became. -/
theorem State.finish_withUnit (u : State) (c : HostCommand) (words : Vector Word 6) :
    (u.withUnit (s.accept c.code).cmd).finish c words = { u with cmd := s.cmd.completed c.code .ok words } := rfl

end Unit

/-! ## STOP -/

section Stop

/-- The engine and every transmitter are IDLE. -/
def State.quiet (s : State) : Prop := s.checker.engine = .idle ∧ ∀ l, (s.line l).tx = .idle

theorem State.stopIfDone_quiet (mode : s.cmd.mode = .stopping) (busy : s.cmd.state = .busy .stop) (quiet : s.quiet) :
    s.stopIfDone = { s with cmd := { s.cmd.ended 0x21 noWords with mode := .config } } := by
  rcases s.stopIfDone_cases with ⟨-, -, -, -, h⟩ | ⟨other, -⟩
  · exact h
  · exact absurd ⟨mode, busy, quiet⟩ other

theorem State.stopIfDone_unquiet (unquiet : ¬s.quiet) : s.stopIfDone = s := by
  rcases s.stopIfDone_cases with ⟨-, -, engine, tx, -⟩ | ⟨-, h⟩
  · exact absurd ⟨engine, tx⟩ unquiet
  · exact h

/-- The state in which STOP winds down: nothing waits in a buffer, and the decisions still owed are deferred. -/
def State.windingDown (s : State) : State := s.discardBuffers.freezeTimers

theorem State.windingDown_quiet : s.windingDown.quiet ↔ s.quiet := by
  have tx (l : LineNo) : (s.windingDown.line l).tx = (s.line l).tx := by
    simp [State.windingDown, State.freezeTimers, State.discardBuffers, State.line]
  simp only [State.quiet, tx]
  rfl

theorem doStop_eq (run : s.cmd.mode = .run) :
    doStop s = (s.windingDown.withUnit { s.cmd with mode := .stopping, state := .busy .stop }).stopIfDone :=
  if_neg (not_not_intro run)

/-- An event that may end what STOP waits for: it leaves the unit, and then STOP completes if it can; or it leaves the unit with the
engine at work. -/
def EndsStop (s t : State) : Prop :=
  (∃ u : State, u.cmd = s.cmd ∧ t = u.stopIfDone) ∨ t.cmd = s.cmd ∧ t.checker.engine ≠ .idle

theorem checkCell_endsStop (n : CtxNo) (crc : Word32) (w : Walk) : EndsStop s (checkCell n crc w s) := by
  unfold checkCell
  dsimp only
  split
  · exact .inr ⟨rfl, nofun⟩
  · split
    · exact .inl ⟨_, endMatch_cmd s n, rfl⟩
    · exact .inl ⟨_, endMismatch_cmd s n, rfl⟩

theorem exec_cellCompletion_endsStop (h : exec .cellCompletion s = .next t) (checks : ¬s.stopPends) :
    t = s ∨ EndsStop s t := by
  change execCellCompletion s = .next t at h
  unfold execCellCompletion at h
  rcases awake_next h with ⟨-, rfl⟩ | ⟨-, rfl⟩
  · exact .inl rfl
  · split
    · exact .inl rfl
    · split
      · exact .inl rfl
      · exact .inr (checkCell_endsStop _ _ _)
      · rename_i crc w pends
        exact absurd ⟨crc, w, pends⟩ checks

theorem exec_frameEnd_endsStop {l : LineNo} (h : exec (.frameEnd l) s = .next t) : t = s ∨ EndsStop s t := by
  rcases awake_next h with ⟨-, rfl⟩ | ⟨-, rfl⟩
  · exact .inl rfl
  · split
    · exact .inr (.inl ⟨s.setLine l _, rfl, rfl⟩)
    · exact .inl rfl

theorem exec_abortEnd_endsStop {l : LineNo} (h : exec (.abortEnd l) s = .next t) (busy : s.cmd.state = .busy .stop) :
    t = s ∨ EndsStop s t := by
  have other (u : State) (same : u.cmd = s.cmd) : completeLineOff l u = u := if_neg (by simp [same, busy])
  rcases awake_next h with ⟨-, rfl⟩ | ⟨-, rfl⟩
  · exact .inl rfl
  · split
    · dsimp only
      split
      · exact .inr (.inl ⟨s.setLine l _, rfl, by rw [other (s.setLine l _) rfl]⟩)
      · exact .inr (.inl ⟨s.setLine l _, rfl, rfl⟩)
    · exact .inl rfl

/-- While STOPPING, STOP completes in the event that leaves the engine and every transmitter IDLE, and waits otherwise. -/
theorem EndsStop.unit (ends : EndsStop s t) (mode : s.cmd.mode = .stopping) (busy : s.cmd.state = .busy .stop) :
    (t.quiet → t.cmd = { s.cmd.ended 0x21 (Vector.replicate 6 0) with mode := .config }) ∧ (¬t.quiet → t.cmd = s.cmd) := by
  rcases ends with ⟨u, same, rfl⟩ | ⟨same, works⟩
  · by_cases quiet : u.quiet
    · rw [State.stopIfDone_quiet (same ▸ mode) (same ▸ busy) quiet, same]
      exact ⟨fun _ => rfl, fun unquiet => absurd quiet unquiet⟩
    · rw [State.stopIfDone_unquiet quiet]
      exact ⟨fun other => absurd other quiet, fun _ => same⟩
  · exact ⟨fun ⟨idle, _⟩ => absurd idle works, fun _ => same⟩

/-- Settles O42: STOP itself by whether anything is in flight, then the events that may end it. -/
theorem stopWindsDown : Obligations.StopWindsDown := by
  unfold Obligations.StopWindsDown
  refine ⟨fun s accepts run => ?_, fun s t c inv hrstn mode row h moved => ?_, fun s hrstn mode busy engine tx => ?_⟩
  · dsimp only
    have carried := hostCommand_carries accepts (doStop_eq (s := s.accept HostCommand.stop.code) run)
    refine ⟨fun quiet => ?_, fun unquiet => ?_⟩
    · have down : ((s.accept HostCommand.stop.code).windingDown.withUnit
          { (s.accept HostCommand.stop.code).cmd with mode := .stopping, state := .busy .stop }).quiet :=
        (State.windingDown_quiet (s := s)).2 quiet
      rw [State.stopIfDone_quiet rfl rfl down] at carried
      exact carried
    · have down : ¬((s.accept HostCommand.stop.code).windingDown.withUnit
          { (s.accept HostCommand.stop.code).cmd with mode := .stopping, state := .busy .stop }).quiet :=
        fun quiet => unquiet ((State.windingDown_quiet (s := s)).1 quiet)
      rw [State.stopIfDone_unquiet down] at carried
      exact carried
  · have busy := inv.stopping.1 mode
    refine EndsStop.unit (Or.resolve_left ?_ moved) mode busy
    rcases row with rfl | ⟨l, rfl | rfl⟩
    · refine exec_cellCompletion_endsStop h fun pends => ?_
      rcases inv.stopPending.1 pends with ⟨_, _, other⟩ | ⟨_, _, other⟩ | ⟨_, other⟩ <;> simp [busy] at other
    · exact exec_frameEnd_endsStop h
    · exact exec_abortEnd_endsStop h busy
  · exact (awake_eq s _ hrstn).trans (congrArg Host.Outcome.next (State.stopIfDone_quiet mode busy ⟨engine, tx⟩))

end Stop

/-! ## The line commands -/

section Lines

variable {l : LineNo} {v : LineUnit}

theorem doLineOn_eq (line : lineArg (s.arg 0) = some l) (off : (s.line l).state = .off ∨ (s.line l).state = .faulted) :
    doLineOn s = (s.setLine l (s.line l).broughtOn).finish .lineOn noWords := by
  rcases off with state | state <;> simp only [doLineOn, line, state]

theorem closeLine_idle (idle : (s.line l).tx = .idle) :
    closeLine l s = (s.setLine l { s.line l with state := .off }).finish .lineOff noWords := if_pos idle

theorem closeLine_waits (works : (s.line l).tx ≠ .idle) :
    closeLine l s = (s.setLine l { s.line l with state := .closing }).wait (.lineOff l) := if_neg works

theorem doLineOff_on (line : lineArg (s.arg 0) = some l) (on : (s.line l).state = .on) :
    doLineOff s = closeLine l ((s.setLine l (s.line l).rxStopped).flushLine l) := by
  simp only [doLineOff, line, on]

theorem doLineOff_faulted (line : lineArg (s.arg 0) = some l) (faulted : (s.line l).state = .faulted) :
    doLineOff s = closeLine l s := by
  simp only [doLineOff, line, faulted]

theorem doLineOff_off (line : lineArg (s.arg 0) = some l) (off : (s.line l).state = .off) :
    doLineOff s = s.finish .lineOff noWords := by
  simp only [doLineOff, line, off]

theorem doLineOff_closing (line : lineArg (s.arg 0) = some l) (closing : (s.line l).state = .closing) :
    doLineOff s = s.wait (.lineOff l) := by
  simp only [doLineOff, line, closing]

/-- The line written, then its queue flushed. -/
theorem State.flushLine_setLine (v : LineUnit) :
    (s.setLine l v).flushLine l = { s.setLine l (v.flushed s.cutSeq) with cutSeq := s.cutSeq + 1 } := by
  rw [State.flushLine, State.line_setLine_same, State.setLine_setLine]
  rfl

theorem State.line_cut (k : Nat) : State.line { s.setLine l v with cutSeq := k } l = v := State.line_setLine_same s l v

theorem State.setLine_cut (u : LineUnit) (k : Nat) :
    State.setLine { s.setLine l v with cutSeq := k } l u = { s.setLine l u with cutSeq := k } :=
  congrArg (fun t : State => { t with cutSeq := k }) (State.setLine_setLine s l v u)

/-- LINE_OFF of an ON line whose receiver stopped and whose queue was flushed. -/
theorem closeLine_flushed_idle (idle : (v.flushed s.cutSeq).tx = .idle) :
    closeLine l ((s.setLine l v).flushLine l) =
      State.finish { s.setLine l { v.flushed s.cutSeq with state := .off } with cutSeq := s.cutSeq + 1 } .lineOff noWords := by
  rw [State.flushLine_setLine, closeLine_idle (by rw [State.line_cut]; exact idle), State.line_cut, State.setLine_cut]

theorem closeLine_flushed_waits (works : (v.flushed s.cutSeq).tx ≠ .idle) :
    closeLine l ((s.setLine l v).flushLine l) =
      State.wait { s.setLine l { v.flushed s.cutSeq with state := .closing } with cutSeq := s.cutSeq + 1 } (.lineOff l) := by
  rw [State.flushLine_setLine, closeLine_waits (by rw [State.line_cut]; exact works), State.line_cut, State.setLine_cut]

theorem LineUnit.flushed_idle (idle : v.tx = .idle) (seq : Nat) : v.flushed seq = { v with queue := [] } := by
  simp only [LineUnit.flushed, idle]

theorem LineUnit.flushed_sending (sending : v.tx = .sending) (seq : Nat) :
    v.flushed seq = { v with queue := [], tx := .aborting, wire := abortOnLine v.wire seq } := by
  simp only [LineUnit.flushed, sending]

theorem LineUnit.flushed_aborting (aborting : v.tx = .aborting) (seq : Nat) : v.flushed seq = { v with queue := [] } := by
  simp only [LineUnit.flushed, aborting]

theorem doLineOff_on_idle (line : lineArg (s.arg 0) = some l) (on : (s.line l).state = .on) (idle : (s.line l).tx = .idle) :
    doLineOff s =
      State.finish
        { s.setLine l { (s.line l).rxStopped with queue := [], state := .off } with cutSeq := s.cutSeq + 1 }
        .lineOff noWords := by
  have flushed := LineUnit.flushed_idle (v := (s.line l).rxStopped) idle s.cutSeq
  rw [doLineOff_on line on, closeLine_flushed_idle (by rw [flushed]; exact idle), flushed]

theorem doLineOff_on_sending (line : lineArg (s.arg 0) = some l) (on : (s.line l).state = .on)
    (sending : (s.line l).tx = .sending) :
    doLineOff s =
      State.wait
        { s.setLine l
            { (s.line l).rxStopped with
              queue := [], state := .closing, tx := .aborting, wire := abortOnLine (s.line l).wire s.cutSeq } with
          cutSeq := s.cutSeq + 1 }
        (.lineOff l) := by
  have flushed := LineUnit.flushed_sending (v := (s.line l).rxStopped) sending s.cutSeq
  rw [doLineOff_on line on, closeLine_flushed_waits (by rw [flushed]; nofun), flushed]
  rfl

theorem doLineOff_on_aborting (line : lineArg (s.arg 0) = some l) (on : (s.line l).state = .on)
    (aborting : (s.line l).tx = .aborting) :
    doLineOff s =
      State.wait
        { s.setLine l { (s.line l).rxStopped with queue := [], state := .closing } with cutSeq := s.cutSeq + 1 }
        (.lineOff l) := by
  have flushed := LineUnit.flushed_aborting (v := (s.line l).rxStopped) aborting s.cutSeq
  have works : ((s.line l).rxStopped.flushed s.cutSeq).tx ≠ .idle := by
    rw [flushed]
    exact fun idle => by cases aborting.symm.trans idle
  rw [doLineOff_on line on, closeLine_flushed_waits works, flushed]

/-- Settles O43: LINE_ON and LINE_OFF by the line's state, and by its transmitter's where that matters. -/
theorem linesTurnedOnAndOff : Obligations.LinesTurnedOnAndOff := by
  unfold Obligations.LinesTurnedOnAndOff
  intro s l accepts names
  dsimp only
  have line := lineArg_in names
  exact ⟨fun off => hostCommand_carries accepts (doLineOn_eq (s := s.accept 0x08) line off),
    fun busy => hostCommand_fails accepts (doLineOn_lineState (s := s.accept 0x08) line busy),
    fun off => hostCommand_carries accepts (doLineOff_off (s := s.accept 0x09) line off),
    fun closing => hostCommand_carries accepts (doLineOff_closing (s := s.accept 0x09) line closing),
    fun on tx => hostCommand_carries accepts (doLineOff_on_idle (s := s.accept 0x09) line on tx),
    fun on tx => hostCommand_carries accepts (doLineOff_on_sending (s := s.accept 0x09) line on tx),
    fun on tx => hostCommand_carries accepts (doLineOff_on_aborting (s := s.accept 0x09) line on tx),
    fun faulted tx => hostCommand_carries accepts ((doLineOff_faulted (s := s.accept 0x09) line faulted).trans (closeLine_idle tx)),
    fun faulted tx => hostCommand_carries accepts
      ((doLineOff_faulted (s := s.accept 0x09) line faulted).trans (closeLine_waits fun idle => by cases tx.symm.trans idle))⟩

end Lines

/-! ## CTX_ABORT and RELEASE -/

section Contexts

variable {n : CtxNo} {notify : Bool}

theorem State.requestStop_checking {crc : Word32} {w : Walk} (engine : s.checker.engine = .checking crc w) :
    s.requestStop n =
      { s with
        ctxs := s.ctxs.set n { s.ctx n with abortPending := true }
        checker := { s.checker with engine := .stopPending crc w } } := by
  simp only [State.requestStop, engine]
  rfl

theorem doCtxAbort_now (args : ctxAbortArgs s = some (n, notify)) (used : (s.ctx n).state ≠ .free)
    (unchecked : s.underCheck ≠ some n) : doCtxAbort s = abortNow n notify s := by
  rw [doCtxAbort, args]
  exact (if_neg used).trans (if_neg unchecked)

theorem doCtxAbort_waits (args : ctxAbortArgs s = some (n, notify)) (used : (s.ctx n).state ≠ .free)
    (checked : s.underCheck = some n) : doCtxAbort s = (s.requestStop n).wait (.ctxAbort n notify) := by
  rw [doCtxAbort, args]
  exact (if_neg used).trans (if_pos checked)

theorem abortNow_withUnit {c : CommandUnit} :
    abortNow n notify (s.withUnit c) =
      (((abortOutputs n (s.ctx n) notify s).freeByCommand n .abort).withUnit c).finish .ctxAbort (abortWords (s.ctx n)) := by
  have ctx : (s.withUnit c).ctx n = s.ctx n := rfl
  unfold abortNow
  dsimp only
  rw [ctx, abortOutputs_withUnit, State.freeByCommand_withUnit]

/-- CTX_ABORT of a record that is not under check, from the state before the command was accepted. -/
theorem exec_ctxAbort_now (accepts : s.accepts) (context : (s.arg 0).toNat = n.val) (range : (s.arg 1).toNat ≤ 1)
    (used : (s.ctx n).state ≠ .free) (unchecked : s.underCheck ≠ some n) :
    exec .ctxAbort s =
      .next
        { (abortOutputs n (s.ctx n) (decide ((s.arg 1).toNat = 1)) s).freeByCommand n .abort with
          cmd := s.cmd.completed 0x18 .ok (abortWords (s.ctx n)) } := by
  have args := ctxAbortArgs_in (s := s.accept 0x18) context range
  refine hostCommand_carries accepts ((doCtxAbort_now args used unchecked).trans ?_)
  exact abortNow_withUnit.trans (State.finish_withUnit _ .ctxAbort _)

/-- CTX_ABORT's outputs, with their event's detail. -/
theorem abortOutputs_eq (n : CtxNo) (r : Ctx) (notify : Bool) (s : State) :
    abortOutputs n r notify s =
      (if notify then s.handOver (r.refusal .aborted) r.replyLine r.lineMask else s).post
        ⟨.ctxAborted, none, some n, some r.source, some r.msgno, BitVec.ofNat 16 (r.state.code + if notify then 16 else 0)⟩ := by
  rw [← abortedDetail_eq]
  rfl

/-- Freeing by CTX_ABORT a record that no readout holds. -/
theorem abortOutputs_freeByCommand_unheld (unheld : (s.ctx n).state ≠ .delivering) :
    (abortOutputs n (s.ctx n) notify s).freeByCommand n .abort = (abortOutputs n (s.ctx n) notify s).freeCtx n := by
  have ctx : (abortOutputs n (s.ctx n) notify s).ctx n = s.ctx n := State.ctx_congr (by rw [abortOutputs_frame]) n
  rw [State.freeByCommand, State.loseHeld, ctx, if_neg unheld]

theorem abortOutputs_freeByCommand_held (held : (s.ctx n).state = .delivering) :
    (abortOutputs n (s.ctx n) notify s).freeByCommand n .abort =
      (State.post
          { abortOutputs n (s.ctx n) notify s with readout := { s.readout with port := .lost, remaining := 0 } }
          ⟨.readoutLost, none, some n, some (s.ctx n).source, some (s.ctx n).msgno, 1⟩).freeCtx n := by
  have ctx : (abortOutputs n (s.ctx n) notify s).ctx n = s.ctx n := State.ctx_congr (by rw [abortOutputs_frame]) n
  have readout : (abortOutputs n (s.ctx n) notify s).readout = s.readout := by rw [abortOutputs_frame]
  rw [State.freeByCommand, State.loseHeld, ctx, if_pos held, readout]
  rfl

theorem doRelease_held {w : Walk} (port : s.readout.port = .held n w) :
    doRelease s = State.finish { s.freeCtx n with readout := .cleared } .release noWords := by
  rw [doRelease, port]

theorem doRelease_lost (port : s.readout.port = .lost) :
    doRelease s = State.finish { s with readout := .cleared } .release noWords := by
  rw [doRelease, port]

/-- Settles O46: CTX_ABORT by whether the record is under check and whether the readout holds it; RELEASE by the port. -/
theorem contextAbortedOrReleased : Obligations.ContextAbortedOrReleased := by
  unfold Obligations.ContextAbortedOrReleased
  refine ⟨fun s n accepts context range used => ?_, fun s accepts => ⟨fun n w port => ?_,
    fun port => hostCommand_carries accepts (doRelease_lost (s := s.accept 0x19) port),
    fun port => hostCommand_fails accepts (doRelease_notHeld (s := s.accept 0x19) port)⟩⟩
  · dsimp only
    rw [← abortOutputs_eq, ← abortWords_eq]
    refine ⟨fun unchecked unheld => ?_, fun unchecked held => ?_, fun crc w checked engine => ?_⟩
    · rw [exec_ctxAbort_now accepts context range used unchecked, abortOutputs_freeByCommand_unheld unheld]
    · rw [exec_ctxAbort_now accepts context range used unchecked, abortOutputs_freeByCommand_held held]
    · have args := ctxAbortArgs_in (s := s.accept 0x18) context range
      refine hostCommand_carries accepts ((doCtxAbort_waits args used checked).trans ?_)
      rw [State.requestStop_checking (s := s.accept 0x18) engine]
      rfl
  · refine hostCommand_carries accepts ((doRelease_held (s := s.accept 0x19) port).trans ?_)
    rw [s.accept_eq_withUnit, State.freeCtx_withUnit]
    rfl

end Contexts

end Sys2Proof.Machine
end

