-- ==== Sys2Proof/Proofs/Queries.lean ====
section
/-! SUPPORT. The words that the queries report (spec 09 R169 to R171, 11 11.4). -/

namespace Sys2Proof.Machine

variable {s : State} {r : Ctx}

/-! ## The views of a record -/

section Views

theorem identityWords_eq (r : Ctx) :
    r.identityWords =
      #v[BitVec.ofNat 16 (r.state.code + 16 * r.cls.code), r.source.setWidth 16, r.msgno.setWidth 16,
        BitVec.ofNat 16 (match r.lastIndex with | some i => 32768 + i.val | none => 0), BitVec.ofNat 16 r.presentCount,
        BitVec.ofNat 16 r.byteCount] := by
  have state : r.state.code < 2 ^ 4 := by cases r.state <;> decide
  have last : numAt ((r.lastIndex.map Fin.val).getD 0) 0 ||| flagAt r.lastIndex.isSome 15 =
      BitVec.ofNat 16 (match r.lastIndex with | some i => 32768 + i.val | none => 0) := by
    cases r.lastIndex with
    | none => rfl
    | some i =>
      have fits : i.val < 2 ^ 15 := by omega
      change numAt i.val 0 ||| flagAt true 15 = BitVec.ofNat 16 (32768 + i.val)
      rw [numAt_zero, ofNat_or_flagAt fits, Nat.add_comm]
      rfl
  rw [Ctx.identityWords, last]
  simp only [numAt_zero, ofNat_or_numAt state]
  rfl

theorem chainWords_eq (r : Ctx) :
    r.chainWords =
      #v[(r.checkWord.getD 0).setWidth 16, (r.checkWord.getD 0 >>> 16).setWidth 16, BitVec.ofNat 16 (r.chain.headD 0),
        BitVec.ofNat 16 (r.chain.getLastD 0), BitVec.ofNat 16 r.chain.length,
        BitVec.ofNat 16 (r.replyLine.val + 16 * r.lineMask.toNat)] := by
  have line : r.replyLine.val < 2 ^ 4 := by omega
  have mask : (r.lineMask.setWidth 16 <<< 4 : Word) = numAt r.lineMask.toNat 4 := by rw [numAt, BitVec.ofNat_toNat]
  rw [Ctx.chainWords, mask]
  simp only [numAt_zero, ofNat_or_numAt line, List.headD_eq_head?_getD, List.getLastD_eq_getLast?]
  rfl

theorem timerWords_eq (r : Ctx) :
    r.timerWords =
      #v[BitVec.ofNat 16 r.idle, BitVec.ofNat 16 r.lifetime, BitVec.ofNat 16 r.retries, BitVec.ofNat 16 r.dupCount,
        BitVec.ofNat 16 (r.starved.toNat + 2 * r.abortPending.toNat), 0] := by
  have starved : r.starved.toNat < 2 ^ 1 := by have := r.starved.toNat_le; omega
  rw [Ctx.timerWords]
  simp only [numAt_zero, flagAt_zero, ofNat_or_flagAt starved]
  rfl

theorem mapWord_getLsbD (r : Ctx) (k j : Nat) (bound : j < 16) :
    (r.mapWord k).getLsbD j = true ↔ ∃ i : SegIndex, (i.val / 16 = k ∧ (r.slots[i]).isSome) ∧ i.val % 16 = j := by
  rw [Ctx.mapWord, getLsbD_foldl_or]
  simp [bound]

theorem mapWords_getLsbD (r : Ctx) (i : SegIndex) :
    ([r.mapWord 0, r.mapWord 1, r.mapWord 2, r.mapWord 3].getD (i.val / 16) 0).getLsbD (i.val % 16) = (r.slots[i]).isSome := by
  have word : [r.mapWord 0, r.mapWord 1, r.mapWord 2, r.mapWord 3].getD (i.val / 16) 0 = r.mapWord (i.val / 16) := by
    have inside : i.val / 16 < 4 := by omega
    interval_cases i.val / 16 <;> rfl
  rw [word, Bool.eq_iff_iff, mapWord_getLsbD _ _ _ (Nat.mod_lt _ (by omega))]
  constructor
  · rintro ⟨m, ⟨word, present⟩, bit⟩
    have same : m = i := Fin.ext (by omega)
    exact same ▸ present
  · exact fun present => ⟨i, ⟨rfl, present⟩, rfl⟩

theorem slotWords_eq (r : Ctx) (i : SegIndex) :
    r.slotWords i =
      match r.slots[i] with
      | some sl =>
        #v[1, BitVec.ofNat 16 sl.length, BitVec.ofNat 16 sl.first, BitVec.ofNat 16 sl.cells, BitVec.ofNat 16 sl.line.val, 0]
      | none => Vector.replicate 6 0 := by
  unfold Ctx.slotWords
  cases r.slots[i] with
  | none => rfl
  | some sl => simp only [numAt_zero]

end Views

/-! ## The words of an entry -/

section Entry

theorem historyWord_eq (e : SourceEntry) (j : Nat) :
    e.historyWord j =
      match e.history[j]? with
      | some h => BitVec.ofNat 16 (h.msgno.toNat + 4096 * h.credit)
      | none => 0 := by
  unfold SourceEntry.historyWord
  cases e.history[j]? with
  | none => rfl
  | some h =>
    have fits : h.msgno.toNat < 2 ^ 12 := h.msgno.isLt
    dsimp only
    rw [← BitVec.ofNat_toNat, ofNat_or_numAt fits]
    rfl

theorem queryWords_eq (e : SourceEntry) (segs : e.maxSegs ≤ 64) (limit : e.openLimit ≤ 8) :
    e.queryWords =
      #v[BitVec.ofNat 16 (e.state.code + 16 * e.urgentOk.toNat + 256 * e.history.length),
        BitVec.ofNat 16 (e.maxSegs + 256 * e.openLimit + 4096 * e.openCount), e.historyWord 0, e.historyWord 1,
        e.historyWord 2, e.historyWord 3] := by
  have state : e.state.code < 2 ^ 4 := by cases e.state <;> decide
  have urgent := e.urgentOk.toNat_le
  have first : e.state.code + 2 ^ 4 * e.urgentOk.toNat < 2 ^ 8 := by omega
  have second : e.maxSegs < 2 ^ 8 := by omega
  have third : e.maxSegs + 2 ^ 8 * e.openLimit < 2 ^ 12 := by omega
  rw [SourceEntry.queryWords]
  simp only [numAt_zero, ofNat_or_flagAt state, ofNat_or_numAt first, ofNat_or_numAt second, ofNat_or_numAt third]
  rfl

end Entry

/-! ## The queries -/

section Queries

theorem doQueryCtx_eq {n : CtxNo} {view : Nat} {i : SegIndex} (args : queryCtxArgs s = some (n, view, i)) :
    doQueryCtx s = s.finish .queryCtx ((s.ctx n).viewWords view i) := by
  rw [doQueryCtx, args]

theorem doQuerySrc_eq {a : Byte} {k : SlotNo} (address : addressArg (s.arg 0) = some a) (found : s.findSource a = some k) :
    doQuerySrc s = s.finish .querySrc (s.source k).queryWords := by
  simp only [doQuerySrc, address, found]

theorem exec_queryCtx_view {n : CtxNo} {words : Vector Word 6} (accepts : s.accepts) (context : (s.arg 0).toNat = n.val)
    {view : Nat} (names : (s.arg 1).toNat = view) (below : view < 4) (reports : (s.ctx n).viewWords view 0 = words) :
    exec .queryCtx s = .next { s with cmd := s.cmd.completed 0x28 .ok words } := by
  subst names reports
  exact hostCommand_carries accepts (doQueryCtx_eq (queryCtxArgs_view (s := s.accept 0x28) context below))

theorem exec_queryCtx_slot {n : CtxNo} {i : SegIndex} {words : Vector Word 6} (accepts : s.accepts)
    (context : (s.arg 0).toNat = n.val) (view : (s.arg 1).toNat = 4) (index : (s.arg 2).toNat = i.val)
    (reports : (s.ctx n).slotWords i = words) :
    exec .queryCtx s = .next { s with cmd := s.cmd.completed 0x28 .ok words } := by
  subst reports
  exact hostCommand_carries accepts (doQueryCtx_eq (queryCtxArgs_slot (s := s.accept 0x28) context view index))

theorem exec_querySrc_eq {k : SlotNo} {words : Vector Word 6} (accepts : s.accepts) (low : 1 ≤ (s.arg 0).toNat)
    (high : (s.arg 0).toNat ≤ 254) (found : s.findSource ((s.arg 0).setWidth 8) = some k)
    (reports : (s.source k).queryWords = words) :
    exec .querySrc s = .next { s with cmd := s.cmd.completed 0x29 .ok words } := by
  subst reports
  exact hostCommand_carries accepts (doQuerySrc_eq (s := s.accept 0x29) (addressArg_in low high) found)

theorem exec_queryPool_eq {words : Vector Word 6} (accepts : s.accepts) (reports : s.poolWords = words) :
    exec .queryPool s = .next { s with cmd := s.cmd.completed 0x2A .ok words } := by
  subst reports
  exact hostCommand_accepts .queryPool doQueryPool accepts

/-- Settles O48: each view's words, the entry's words where its fields fit theirs, and the counts of the pool. -/
theorem queriesReport : Obligations.QueriesReport := by
  unfold Obligations.QueriesReport
  intro s accepts
  dsimp only
  simp only [← toNat_eq_ite]
  refine ⟨fun n context => ⟨fun view => ?_, fun view => ?_, fun view => ?_, fun view => ?_, fun i view index => ?_⟩,
    fun k low high found segs limit opens count => ?_, ?_⟩
  · refine exec_queryCtx_view accepts context view (by omega) ((identityWords_eq (s.ctx n)).trans ?_)
    cases (s.ctx n).lastIndex <;> rfl
  · exact exec_queryCtx_view accepts context view (by omega) (chainWords_eq (s.ctx n))
  · exact exec_queryCtx_view accepts context view (by omega) (timerWords_eq (s.ctx n))
  · exact ⟨_, _, _, _, exec_queryCtx_view accepts context view (by omega) rfl, mapWords_getLsbD (s.ctx n)⟩
  · refine exec_queryCtx_slot accepts context view index ((slotWords_eq (s.ctx n) i).trans ?_)
    cases (s.ctx n).slots[i] <;> rfl
  · rw [BitVec.ofNat_toNat] at found
    refine exec_querySrc_eq accepts low high found ((queryWords_eq _ segs limit).trans ?_)
    simp only [historyWord_eq] <;> rfl
  · exact exec_queryPool_eq accepts (by simp only [State.poolWords, numAt_zero, State.freeRecords])

end Queries

end Sys2Proof.Machine
end

