-- ==== Sys2Proof/Proofs/RecordLists.lean ====
section
/-! SUPPORT. Freeing a list of records in one event: SRC_SUSPEND, SRC_REMOVE, FLUSH (spec 01 R26 to R29, 03 R62, R63, 09 R163, R164,
R167). -/

namespace Sys2Proof.Machine

variable {s t u : State} {n : CtxNo} {k : SlotNo} {records : List CtxNo}

/-! ## The collections and the cells -/

section Freed

/-- No record stands twice in one collection. -/
structure SingleEntries (s : State) : Prop where
  age : s.ageList.Nodup
  check : s.checker.queue.Nodup
  delivery : s.delivery.Nodup

theorem CollectionsInv.singleEntries (inv : CollectionsInv s) : SingleEntries s :=
  ⟨inv.ageNodup, inv.checkNodup, inv.deliveryNodup⟩

/-- What freeing a list of records makes of the records, the collections and the cells. -/
structure Freed (s : State) (records : List CtxNo) (t : State) : Prop where
  ctx : ∀ m, t.ctx m = if m ∈ records then Ctx.cleared else s.ctx m
  age : t.ageList = s.ageList.filter fun n => n ∉ records
  pool : t.pool = { s.pool with freeList := s.pool.freeList ++ records.flatMap fun n => (s.ctx n).chain }
  queue : t.checker.queue = s.checker.queue.filter fun n => n ∉ records
  engine : t.checker.engine = s.checker.engine
  delivery : t.delivery = s.delivery.filter fun n => n ∉ records

theorem Freed.nil (s : State) : Freed s [] s := by
  refine ⟨fun m => by simp, ?_, ?_, ?_, rfl, ?_⟩ <;> simp

theorem Freed.singleEntries (freed : Freed s records t) (single : SingleEntries s) : SingleEntries t :=
  ⟨freed.age ▸ single.age.filter _, freed.queue ▸ single.check.filter _, freed.delivery ▸ single.delivery.filter _⟩

/-- A freeing of one record, then of others. -/
theorem Freed.cons (first : Freed s [n] u) (rest : Freed u records t) (new : n ∉ records) : Freed s (n :: records) t := by
  have chains : records.flatMap (fun m => (u.ctx m).chain) = records.flatMap fun m => (s.ctx m).chain := by
    refine List.flatMap_congr fun m mem => ?_
    have other : m ≠ n := fun same => new (same ▸ mem)
    rw [first.ctx, if_neg (by simpa using other)]
  have both (l : List CtxNo) :
      (l.filter fun m => m ∉ [n]).filter (fun m => m ∉ records) = l.filter fun m => m ∉ n :: records := by
    rw [List.filter_filter]
    refine List.filter_congr fun m _ => ?_
    simp [Bool.and_comm]
  refine ⟨fun m => ?_, ?_, ?_, ?_, rest.engine.trans first.engine, ?_⟩
  · rw [rest.ctx, first.ctx]
    by_cases here : m = n <;> simp [here]
  · rw [rest.age, first.age, both]
  · rw [rest.pool, first.pool, chains]
    simp
  · rw [rest.queue, first.queue, both]
  · rw [rest.delivery, first.delivery, both]

theorem Freed.foldl {free : CtxNo → State → State} (one : ∀ n u, SingleEntries u → Freed u [n] (free n u))
    (nodup : records.Nodup) (single : SingleEntries s) : Freed s records (records.foldl (fun u n => free n u) s) := by
  induction records generalizing s with
  | nil => exact .nil s
  | cons n rest ih =>
    obtain ⟨new, nodup⟩ := List.nodup_cons.1 nodup
    have first := one n s single
    exact first.cons (ih nodup (first.singleEntries single)) new

theorem freeCtx_freed (n : CtxNo) (single : SingleEntries s) : Freed s [n] (s.freeCtx n) := by
  have without {l : List CtxNo} (nodup : l.Nodup) : l.erase n = l.filter fun m => m ∉ [n] := by
    rw [nodup.erase_eq_filter]
    refine List.filter_congr fun m _ => ?_
    rw [Bool.eq_iff_iff]
    simp
  rw [State.freeCtx_eq]
  refine ⟨fun m => ?_, without single.age, ?_, without single.check, rfl, without single.delivery⟩
  · simp only [List.mem_singleton]
    exact s.ctx_setCtx n m Ctx.cleared
  · simp

theorem freeByCommand_freed (n : CtxNo) (cause : LossCause) (single : SingleEntries s) :
    Freed s [n] (s.freeByCommand n cause) := by
  have freed := freeCtx_freed n single
  by_cases held : (s.ctx n).state = .delivering
  · rw [State.freeByCommand_held held]
    exact ⟨freed.ctx, freed.age, freed.pool, freed.queue, freed.engine, freed.delivery⟩
  · rw [State.freeByCommand_unheld held]
    exact freed

theorem freeAll_freed (nodup : records.Nodup) (cause : LossCause) (single : SingleEntries s) :
    Freed s records (freeAll records cause s) :=
  Freed.foldl (fun n _ => freeByCommand_freed n cause) nodup single

theorem suspendCtx_freed (n : CtxNo) (single : SingleEntries s) : Freed s [n] (suspendCtx n s) := by
  have refused : SingleEntries (s.refuseCtx (s.ctx n) .suspended) := by
    rw [State.refuseCtx_frame]
    exact ⟨single.age, single.check, single.delivery⟩
  have freed := freeCtx_freed n refused
  rw [State.refuseCtx_frame] at freed
  rw [suspendCtx, State.refuseCtx_frame]
  exact ⟨freed.ctx, freed.age, freed.pool, freed.queue, freed.engine, freed.delivery⟩

theorem suspendAll_freed (nodup : records.Nodup) (single : SingleEntries s) :
    Freed s records (records.foldl (fun u n => suspendCtx n u) s) :=
  Freed.foldl (fun n _ => suspendCtx_freed n) nodup single

end Freed

/-! ## The open count of the one source -/

section Counts

theorem freeCtx_sources (found : s.findSource (s.ctx n).source = some k) :
    (s.freeCtx n).sources = s.sources.set k { s.source k with openCount := (s.source k).openCount - 1 } := by
  rw [State.freeCtx_found found]

/-- Freeing a list of records of one source, one after another, lowers that entry's open count by their number. -/
theorem sources_foldl {free : CtxNo → State → State}
    (ctx : ∀ n u m, (free n u).ctx m = if m = n then Ctx.cleared else u.ctx m)
    (sources : ∀ n u, (free n u).sources = (u.freeCtx n).sources)
    (nodup : records.Nodup) (found : ∀ n ∈ records, s.findSource (s.ctx n).source = some k) :
    (records.foldl (fun u n => free n u) s).sources =
      s.sources.set k { s.source k with openCount := (s.source k).openCount - records.length } := by
  induction records generalizing s with
  | nil => exact (Vector.set_getElem_self ..).symm
  | cons n rest ih =>
    obtain ⟨new, nodup⟩ := List.nodup_cons.1 nodup
    have lowered : (free n s).sources = s.sources.set k { s.source k with openCount := (s.source k).openCount - 1 } :=
      (sources n s).trans (freeCtx_sources (found n List.mem_cons_self))
    have entry (j : SlotNo) : (free n s).source j = (s.freeCtx n).source j := State.source_congr (sources n s) j
    have here : (free n s).source k = { s.source k with openCount := (s.source k).openCount - 1 } := by
      rw [entry, State.source_freeCtx, if_pos (found n List.mem_cons_self)]
    have find (a : Byte) : (free n s).findSource a = s.findSource a :=
      State.findSource_congr (fun j => by rw [entry, State.source_freeCtx]) (fun j => by rw [entry, State.source_freeCtx]) a
    rw [List.foldl_cons, ih nodup fun m mem => ?_]
    · rw [lowered, here, Vector.set_set, List.length_cons, Nat.sub_sub, Nat.add_comm 1]
    · rw [ctx, if_neg fun same : m = n => new (same ▸ mem), find]
      exact found m (List.mem_cons_of_mem _ mem)

theorem freeByCommand_sources (s : State) (n : CtxNo) (cause : LossCause) :
    (s.freeByCommand n cause).sources = (s.freeCtx n).sources := by
  by_cases held : (s.ctx n).state = .delivering
  · rw [State.freeByCommand_held held]
    rfl
  · rw [State.freeByCommand_unheld held]

theorem freeAll_sources (cause : LossCause) (nodup : records.Nodup)
    (found : ∀ n ∈ records, s.findSource (s.ctx n).source = some k) :
    (freeAll records cause s).sources =
      s.sources.set k { s.source k with openCount := (s.source k).openCount - records.length } :=
  sources_foldl (free := fun n u => u.freeByCommand n cause) (fun n u m => ctx_freeByCommand u n m cause)
    (fun n u => freeByCommand_sources u n cause) nodup found

theorem suspendCtx_sources (n : CtxNo) (s : State) : (suspendCtx n s).sources = (s.freeCtx n).sources := by
  rw [suspendCtx, State.freeCtx_eq, State.freeCtx_eq (s := s)]
  simp only [State.refuseCtx, State.ctx_handOver]
  exact State.lowerOpen_congr (by simp) _

theorem suspendAll_sources (nodup : records.Nodup) (found : ∀ n ∈ records, s.findSource (s.ctx n).source = some k) :
    (records.foldl (fun u n => suspendCtx n u) s).sources =
      s.sources.set k { s.source k with openCount := (s.source k).openCount - records.length } :=
  sources_foldl (free := suspendCtx) (fun n u m => ctx_suspendCtx u n m) suspendCtx_sources nodup found

end Counts

/-! ## The readout port -/

section Port

theorem freeAll_append (before after : List CtxNo) (cause : LossCause) (s : State) :
    freeAll (before ++ after) cause s = freeAll after cause (freeAll before cause s) := List.foldl_append

theorem freeAll_unheld (unheld : ∀ n ∈ records, (s.ctx n).state ≠ .delivering) (cause : LossCause) :
    (freeAll records cause s).readout = s.readout ∧ (freeAll records cause s).ev = s.ev := by
  induction records generalizing s with
  | nil => exact ⟨rfl, rfl⟩
  | cons n rest ih =>
    have first : s.freeByCommand n cause = s.freeCtx n := State.freeByCommand_unheld (unheld n List.mem_cons_self) cause
    have kept : ∀ m ∈ rest, ((s.freeCtx n).ctx m).state ≠ .delivering := fun m mem => by
      rw [State.ctx_freeCtx]
      split
      · nofun
      · exact unheld m (List.mem_cons_of_mem _ mem)
    obtain ⟨readout, ev⟩ := ih kept
    have step : freeAll (n :: rest) cause s = freeAll rest cause (s.freeCtx n) := by rw [← first]; rfl
    rw [step, readout, ev, State.freeCtx_eq]
    exact ⟨rfl, rfl⟩

/-- A list with the one held record: the port is LOST, and READOUT_LOST is posted. -/
theorem freeAll_held (held : (s.ctx n).state = .delivering) (only : ∀ m, (s.ctx m).state = .delivering → m = n)
    (nodup : records.Nodup) (mem : n ∈ records) (cause : LossCause) :
    (freeAll records cause s).readout = { s.readout with port := .lost, remaining := 0 } ∧
      (freeAll records cause s).ev = s.ev.post (readoutLostEvent n (s.ctx n) cause) := by
  obtain ⟨before, after, rfl⟩ := List.append_of_mem mem
  have apart := List.nodup_append.1 nodup
  have newBefore : n ∉ before := fun mem => apart.2.2 n mem n List.mem_cons_self rfl
  obtain ⟨readout, ev⟩ := freeAll_unheld (s := s) (records := before)
    (fun m mem delivering => newBefore (only m delivering ▸ mem)) cause
  have ctx (m : CtxNo) := ctx_freeAll s before cause m
  have here : (freeAll before cause s).ctx n = s.ctx n := by rw [ctx, if_neg newBefore]
  have freed := State.freeByCommand_held (s := freeAll before cause s) (n := n) (by rw [here]; exact held) cause
  have later := freeAll_unheld (s := (freeAll before cause s).freeByCommand n cause) (records := after) (fun m mem => ?_) cause
  · rw [freeAll_append]
    change (freeAll after cause ((freeAll before cause s).freeByCommand n cause)).readout = _ ∧
      (freeAll after cause ((freeAll before cause s).freeByCommand n cause)).ev = _
    rw [later.1, later.2, freed, here, readout]
    refine ⟨rfl, ?_⟩
    rw [← ev]
    change ((freeAll before cause s).freeCtx n).ev.post _ = _
    rw [State.freeCtx_ev]
  · rw [ctx_freeByCommand, ctx]
    split
    · nofun
    · rename_i other
      split
      · nofun
      · exact fun delivering => other (only m delivering)

theorem freeAll_lines (records : List CtxNo) (cause : LossCause) (s : State) :
    (freeAll records cause s).lines = s.lines ∧ (freeAll records cause s).timer = s.timer := by
  refine freeAll_induct (fun t => t.lines = s.lines ∧ t.timer = s.timer) records cause (fun t n _ kept => ?_) s ⟨rfl, rfl⟩
  by_cases held : (t.ctx n).state = .delivering
  · rw [State.freeByCommand_held held, State.freeCtx_eq]
    exact kept
  · rw [State.freeByCommand_unheld held, State.freeCtx_eq]
    exact kept

end Port

end Sys2Proof.Machine
end

