-- ==== Sys2Proof/Proofs/SuspendSources.lean ====
section
/-! SUPPORT. The commands on sources, and FLUSH (spec 03 R61 to R63, 09 R163, R164, R167). -/

namespace Sys2Proof.Machine

variable {s t u : State} {n : CtxNo} {k : SlotNo} {a : Byte} {records : List CtxNo}

/-! ## SRC_ADD and SRC_RESUME -/

section Add

theorem State.lowestUnused_eq (unused : (s.source k).state = .unused) (first : ∀ j, j < k → (s.source j).state ≠ .unused) :
    s.lowestUnused = some k :=
  find?_finRange_some (by simp [unused]) fun j lower => by simp [first j lower]

theorem doSrcAdd_eq {e : SourceEntry} (args : srcAddArgs s = some e) (unknown : s.findSource e.address = none)
    (lowest : s.lowestUnused = some k) : doSrcAdd s = (s.setSource k e).finish .srcAdd (oneWord k.val) := by
  simp only [doSrcAdd, args, unknown, lowest]

theorem doSrcResume_suspended (address : addressArg (s.arg 0) = some a) (found : s.findSource a = some k)
    (suspended : (s.source k).state = .suspended) :
    doSrcResume s = (s.setSource k { s.source k with state := .enabled }).finish .srcResume noWords := by
  simp only [doSrcResume, address, found, suspended, if_true]

theorem doSrcResume_other (address : addressArg (s.arg 0) = some a) (found : s.findSource a = some k)
    (other : (s.source k).state ≠ .suspended) : doSrcResume s = s.finish .srcResume noWords := by
  simp only [doSrcResume, address, found]
  exact if_neg other

end Add

/-! ## SRC_SUSPEND -/

section Suspend

/-- An entry marked, in use before and after, is found as before. -/
theorem State.findSource_marked {st : SourceState} (before : (s.source k).state ≠ .unused) (after : st ≠ .unused) (a : Byte) :
    (s.setSource k { s.source k with state := st }).findSource a = s.findSource a := by
  have same (j : SlotNo) : (((s.setSource k { s.source k with state := st }).source j).state != .unused &&
      ((s.setSource k { s.source k with state := st }).source j).address == a) =
      ((s.source j).state != .unused && (s.source j).address == a) := by
    rw [State.source_setSource]
    split
    · rename_i here
      subst here
      rw [bne_iff_ne.2 before]
      exact congrArg (· && _) (bne_iff_ne.2 after)
    · rfl
  simp only [State.findSource, same]

/-- A suspension writes these parts and no other. -/
def SuspendsIn (s t : State) : Prop :=
  t = { s with
    ctxs := t.ctxs, ageList := t.ageList, pool := t.pool, sources := t.sources, checker := t.checker
    delivery := t.delivery, lines := t.lines, ev := t.ev }

theorem SuspendsIn.trans (first : SuspendsIn s u) (rest : SuspendsIn u t) : SuspendsIn s t := by
  unfold SuspendsIn at first rest
  rw [first] at rest
  exact rest

theorem suspendCtx_suspendsIn (n : CtxNo) (s : State) : SuspendsIn s (suspendCtx n s) := by
  unfold SuspendsIn
  rw [suspendCtx, State.freeCtx_eq, State.refuseCtx_frame]

theorem suspendAll_suspendsIn (records : List CtxNo) (s : State) :
    SuspendsIn s (records.foldl (fun u n => suspendCtx n u) s) := by
  induction records generalizing s with
  | nil => rfl
  | cons n rest ih => exact (suspendCtx_suspendsIn n s).trans (ih _)

/-- The refusals of a suspension are handed over one after another: the freeings between them touch neither lines nor events. -/
theorem suspendAll_refusals (nodup : records.Nodup) (ctx : ∀ n ∈ records, u.ctx n = s.ctx n) (lines : u.lines = t.lines)
    (ev : u.ev = t.ev) :
    (records.foldl (fun u n => suspendCtx n u) u).lines =
        (records.foldl (fun v n => v.handOver ((s.ctx n).refusal .suspended) (s.ctx n).replyLine (s.ctx n).lineMask) t).lines ∧
      (records.foldl (fun u n => suspendCtx n u) u).ev =
        (records.foldl (fun v n => v.handOver ((s.ctx n).refusal .suspended) (s.ctx n).replyLine (s.ctx n).lineMask) t).ev := by
  induction records generalizing u t with
  | nil => exact ⟨lines, ev⟩
  | cons n rest ih =>
    obtain ⟨new, nodup⟩ := List.nodup_cons.1 nodup
    have same := State.handOver_congr (s := t) (t := u) lines ev ((s.ctx n).refusal .suspended) (s.ctx n).replyLine
      (s.ctx n).lineMask
    have step : suspendCtx n u =
        (u.handOver ((s.ctx n).refusal .suspended) (s.ctx n).replyLine (s.ctx n).lineMask).freeCtx n := by
      rw [← ctx n List.mem_cons_self]
      rfl
    refine ih nodup (fun m mem => ?_) ?_ ?_
    · rw [ctx_suspendCtx, if_neg fun here : m = n => new (here ▸ mem)]
      exact ctx m (List.mem_cons_of_mem _ mem)
    · dsimp only
      rw [step, State.freeCtx_eq]
      exact same.1
    · dsimp only
      rw [step, State.freeCtx_eq]
      exact same.2

theorem doSrcSuspend_enabled (address : addressArg (s.arg 0) = some a) (found : s.findSource a = some k)
    (enabled : (s.source k).state = .enabled) : doSrcSuspend s = suspendSource k s := by
  simp only [doSrcSuspend, address, found, enabled, if_true]

theorem doSrcSuspend_other (address : addressArg (s.arg 0) = some a) (found : s.findSource a = some k)
    (other : (s.source k).state ≠ .enabled) : doSrcSuspend s = s.finish .srcSuspend noWords := by
  simp only [doSrcSuspend, address, found]
  exact if_neg other

/-- The COLLECTING records of a source. -/
def State.collectingOf (s : State) (a : Byte) : List CtxNo :=
  (List.finRange 32).filter fun n => (s.ctx n).state == .collecting && (s.ctx n).source == a

theorem State.mem_collectingOf : n ∈ s.collectingOf a ↔ (s.ctx n).state = .collecting ∧ (s.ctx n).source = a := by
  simp [State.collectingOf]

theorem State.collectingOf_nodup (s : State) (a : Byte) : (s.collectingOf a).Nodup := (List.nodup_finRange 32).filter _

theorem State.recordsOf_collecting (s : State) (a : Byte) :
    s.recordsOf a (fun n => (s.ctx n).state == .collecting) = s.collectingOf a := by
  refine List.filter_congr fun n _ => ?_
  dsimp only
  cases (s.ctx n).state <;> cases (s.ctx n).source == a <;> rfl

/-- An ENABLED entry suspended: its records freed, their refusals handed over, its count lowered. -/
theorem suspendAll_eq {v : State} (inv : CollectionsInv s) (found : s.findSource a = some k) (lines : v.lines = s.lines)
    (ev : v.ev = s.ev) :
    let freed := s.collectingOf a
    let marked := s.setSource k { s.source k with state := .suspended }
    let t := freed.foldl (fun u n => suspendCtx n u) marked
    let refusals := freed.foldl
      (fun u n => u.handOver ((s.ctx n).refusal .suspended) (s.ctx n).replyLine (s.ctx n).lineMask) v
    (∀ n, t.ctx n = if n ∈ freed then Ctx.cleared else s.ctx n) ∧
      t =
        { s with
          ctxs := t.ctxs
          ageList := s.ageList.filter fun n => n ∉ freed
          pool := { s.pool with freeList := s.pool.freeList ++ freed.flatMap fun n => (s.ctx n).chain }
          sources := s.sources.set k
            { s.source k with state := .suspended, openCount := (s.source k).openCount - freed.length }
          lines := refusals.lines
          ev := refusals.ev } := by
  intro freed marked t refusals
  have used := (State.findSource_some found).1
  have single : SingleEntries marked := ⟨inv.ageNodup, inv.checkNodup, inv.deliveryNodup⟩
  have nodup : freed.Nodup := s.collectingOf_nodup a
  have part : Freed marked freed t := suspendAll_freed nodup single
  have collecting : ∀ n ∈ freed, (s.ctx n).state = .collecting := fun n mem => (State.mem_collectingOf.1 mem).1
  have queue : t.checker = s.checker := by
    have kept : t.checker.queue = s.checker.queue := by
      refine part.queue.trans (List.filter_eq_self.2 fun n mem => ?_)
      have verifying := (inv.checkHolds n).1 mem
      simp only [decide_eq_true_eq]
      exact fun there => by simp [collecting n there] at verifying
    have engine : t.checker.engine = s.checker.engine := part.engine
    rw [← show (⟨t.checker.queue, t.checker.engine⟩ : Checker) = t.checker from rfl, kept, engine]
  have delivery : t.delivery = s.delivery := by
    refine part.delivery.trans (List.filter_eq_self.2 fun n mem => ?_)
    have ready := (inv.deliveryHolds n).1 mem
    simp only [decide_eq_true_eq]
    exact fun there => by simp [collecting n there] at ready
  have sources : t.sources = s.sources.set k
      { s.source k with state := .suspended, openCount := (s.source k).openCount - freed.length } := by
    refine (suspendAll_sources (k := k) nodup fun n mem => ?_).trans ?_
    · refine (State.findSource_marked (st := .suspended) used nofun _).trans ?_
      rw [State.ctx_setSource, (State.mem_collectingOf.1 mem).2, found]
    · rw [State.source_setSource_same]
      exact Vector.set_set ..
  obtain ⟨lines, ev⟩ := suspendAll_refusals (s := s) (u := marked) (t := v) nodup (fun n _ => s.ctx_setSource _ _ _)
    lines.symm ev.symm
  refine ⟨fun n => ?_, ?_⟩
  · rw [part.ctx, State.ctx_setSource]
  · have whole : SuspendsIn marked t := suspendAll_suspendsIn freed marked
    unfold SuspendsIn at whole
    rw [queue, delivery, sources, part.age, part.pool, lines, ev] at whole
    exact whole

/-- Settles O44: the arguments of each command, then its completion. -/
theorem sourcesAddedSuspendedResumed : Obligations.SourcesAddedSuspendedResumed := by
  unfold Obligations.SourcesAddedSuspendedResumed
  refine ⟨fun s accepts => ?_, fun s k inv accepts low high => ?_⟩
  · intro a address low high
    have arg : addressArg (s.arg 0) = some address := by
      rw [addressArg_in low high, ← BitVec.ofNat_toNat]
    refine ⟨fun k segs segs' opens opens' urgent unknown unused first => ?_, fun k found =>
      ⟨fun suspended => hostCommand_carries accepts (doSrcResume_suspended (s := s.accept 0x13) arg found suspended),
        fun enabled => ?_⟩⟩
    · have args := srcAddArgs_in (s := s.accept 0x10) low high segs segs' opens opens' urgent
      rw [← BitVec.ofNat_toNat] at args
      have carried := hostCommand_carries (c := .srcAdd) accepts
        (doSrcAdd_eq args unknown (State.lowestUnused_eq (s := s.accept 0x10) unused first))
      rw [oneWord_eq] at carried
      exact carried
    · have other : (s.source k).state ≠ .suspended := by rw [enabled]; nofun
      exact hostCommand_carries accepts (doSrcResume_other (s := s.accept 0x13) arg found other)
  · intro address found
    have arg : addressArg (s.arg 0) = some address := by
      rw [addressArg_in low high, ← BitVec.ofNat_toNat]
    refine ⟨fun enabled => ?_, fun suspended => ?_⟩
    · have accepted : CollectionsInv (s.accept 0x12) := .of_records (s := s) rfl inv
      obtain ⟨ctx, whole⟩ := suspendAll_eq (s := s.accept 0x12) (v := s) accepted found rfl rfl
      have carried := hostCommand_carries (c := .srcSuspend) accepts
        (doSrcSuspend_enabled (s := s.accept 0x12) arg found enabled)
      have records : (s.accept 0x12).recordsOf ((s.accept 0x12).source k).address
          (fun n => ((s.accept 0x12).ctx n).state == .collecting) = s.collectingOf address := by
        rw [State.recordsOf_collecting, (State.findSource_some (s := s.accept 0x12) found).2]
        rfl
      refine ⟨_, carried, ?_, ?_⟩
      · unfold suspendSource
        dsimp only
        rw [records]
        exact ctx
      · unfold suspendSource
        dsimp only
        rw [records, oneWord_eq]
        exact congrArg (fun u => State.finish u .srcSuspend _) whole
    · have other : (s.source k).state ≠ .enabled := by rw [suspended]; nofun
      exact hostCommand_carries accepts (doSrcSuspend_other (s := s.accept 0x12) arg found other)

end Suspend

end Sys2Proof.Machine
end

