-- ==== Sys2Proof/Proofs/RemoveAndFlush.lean ====
section
/-! SUPPORT. SRC_REMOVE and FLUSH (spec 01 R29, 03 R63, 09 R164, R167). -/

namespace Sys2Proof.Machine

variable {s t u : State} {n : CtxNo} {k : SlotNo} {a : Byte} {records : List CtxNo}

/-! ## The readout port when a list of records is freed -/

section Port

/-- The held record is the one DELIVERING (spec 08 R139). -/
theorem CollectionsInv.delivering_held (inv : CollectionsInv s) {w : Walk} (port : s.readout.port = .held n w) (m : CtxNo) :
    (s.ctx m).state = .delivering ↔ m = n := by
  rw [← inv.portHolds m, port]
  exact ⟨fun ⟨_, held⟩ => by cases held; rfl, fun same => ⟨w, same ▸ rfl⟩⟩

/-- What freeing a list of records makes of the port and the events. -/
theorem freeAll_port (inv : CollectionsInv s) (nodup : records.Nodup) (cause : LossCause) :
    (∀ n w, s.readout.port = .held n w → n ∈ records →
        (freeAll records cause s).readout = { s.readout with port := .lost, remaining := 0 } ∧
          (freeAll records cause s).ev = s.ev.post (readoutLostEvent n (s.ctx n) cause)) ∧
      ((∀ n w, s.readout.port = .held n w → n ∉ records) →
        (freeAll records cause s).readout = s.readout ∧ (freeAll records cause s).ev = s.ev) := by
  refine ⟨fun n w port mem => ?_, fun unheld => freeAll_unheld (fun n mem delivering => ?_) cause⟩
  · exact freeAll_held ((inv.delivering_held port n).2 rfl) (fun m => (inv.delivering_held port m).1) nodup mem cause
  · obtain ⟨w, port⟩ := (inv.portHolds n).2 delivering
    exact unheld n w port mem

end Port

/-! ## SRC_REMOVE -/

section Remove

theorem CollectionsInv.marked (inv : CollectionsInv s) (e : SourceEntry) : CollectionsInv (s.setSource k e) :=
  ⟨inv.ageNodup, inv.ageHolds, inv.checkNodup, inv.checkHolds, inv.deliveryNodup, inv.deliveryHolds, inv.portHolds,
    inv.checkedExists, inv.freeIsCleared⟩

theorem emptied_freed (inv : CollectionsInv s) (k : SlotNo) :
    Freed (s.setSource k { s.source k with state := .removing }) (s.heldUnchecked (s.source k).address) (s.emptied k) :=
  freeAll_freed (s.recordsOf_nodup _ _) .remove (inv.marked _).singleEntries

theorem emptied_sources (found : s.findSource a = some k) :
    (s.emptied k).sources =
      s.sources.set k
        { s.source k with state := .removing, openCount := (s.source k).openCount - (s.heldUnchecked a).length } := by
  obtain ⟨used, address⟩ := State.findSource_some found
  have nodup : (s.heldUnchecked a).Nodup := s.recordsOf_nodup a _
  rw [State.emptied, address, freeAll_sources (k := k) .remove nodup fun n mem => ?_]
  · rw [State.source_setSource_same]
    exact Vector.set_set ..
  · refine (State.findSource_marked (st := .removing) used nofun _).trans ?_
    rw [State.ctx_setSource, (State.mem_heldUnchecked.1 mem).2.1, found]

/-- What a removal frees at once, in the collections, the cells, the lines and the port. -/
theorem emptied_gone (inv : CollectionsInv s) (found : s.findSource a = some k) :
    let freed := s.heldUnchecked a
    let t := s.emptied k
    t.ageList = s.ageList.filter (fun n => n ∉ freed) ∧ t.delivery = s.delivery.filter (fun n => n ∉ freed) ∧
      t.checker.queue = s.checker.queue.filter (fun n => n ∉ freed) ∧
      t.pool = { s.pool with freeList := s.pool.freeList ++ freed.flatMap fun n => (s.ctx n).chain } ∧
      t.lines = s.lines ∧
      (∀ n w, s.readout.port = .held n w → n ∈ freed →
        t.readout = { s.readout with port := .lost, remaining := 0 } ∧
          t.ev = s.ev.post ⟨.readoutLost, none, some n, some a, some (s.ctx n).msgno, 2⟩) ∧
      ((∀ n w, s.readout.port = .held n w → n ∉ freed) → t.readout = s.readout ∧ t.ev = s.ev) := by
  intro freed t
  obtain ⟨-, address⟩ := State.findSource_some found
  have part := emptied_freed inv k
  obtain ⟨held, unheld⟩ := freeAll_port (inv.marked (k := k) { s.source k with state := .removing })
    (s.recordsOf_nodup (s.source k).address fun n => s.underCheck != some n) .remove
  rw [address] at part held unheld
  have whole : t = freeAll freed .remove (s.setSource k { s.source k with state := .removing }) := by
    change s.emptied k = _
    rw [State.emptied, address]
  refine ⟨part.age, part.delivery, part.queue, part.pool, ?_, fun n w port mem => ?_, fun other => ?_⟩
  · rw [whole, (freeAll_lines ..).1]
    rfl
  · obtain ⟨readout, ev⟩ := held n w port mem
    rw [whole]
    refine ⟨readout, ev.trans ?_⟩
    rw [readoutLostEvent, State.ctx_setSource, (State.mem_heldUnchecked.1 mem).2.1]
    rfl
  · rw [whole]
    exact unheld other

theorem State.finish_cmd_eq {c : HostCommand} (kept : u.cmd = (s.accept c.code).cmd) (words : Vector Word 6) :
    (u.finish c words).cmd = s.cmd.completed c.code .ok words := by
  rw [State.finish, State.complete, kept]
  rfl

theorem State.wait_cmd_eq {code : Byte} (kept : u.cmd = (s.accept code).cmd) (w : Waiting) :
    (u.wait w).cmd = s.cmd.waiting code w := by
  rw [State.wait, kept]
  rfl

theorem doSrcRemove_eq (address : addressArg (s.arg 0) = some a) (found : s.findSource a = some k) :
    doSrcRemove s = removeSource k s := by
  simp only [doSrcRemove, address, found]

/-- Settles O45: what the removal frees at once, then its completion, or its wait for the engine's stop. -/
theorem sourceRemoved : Obligations.SourceRemoved := by
  unfold Obligations.SourceRemoved
  intro s k inv accepts low high address found freed gone
  have arg : addressArg (s.arg 0) = some address := by rw [addressArg_in low high, ← BitVec.ofNat_toNat]
  have carried := hostCommand_carries (c := .srcRemove) accepts (doSrcRemove_eq (s := s.accept 0x11) arg found)
  have accepted : CollectionsInv (s.accept 0x11) := .of_records (s := s) rfl inv
  have emptied := emptied_gone (s := s.accept 0x11) accepted found
  have holds : ((s.accept 0x11).source k).address = address := (State.findSource_some found).2
  have part := emptied_freed accepted k
  rw [holds] at part
  have sources := emptied_sources (s := s.accept 0x11) found
  refine ⟨fun unchecked => ?_, fun n crc w checked source engine => ?_⟩
  · have none : (s.accept 0x11).checkedOf ((s.accept 0x11).source k).address = none := by
      rw [holds]
      exact State.checkedOf_none.2 unchecked
    rw [removeSource_unchecked none, holds, oneWord_eq] at carried
    refine ⟨_, carried, emptied, part.ctx, ?_, part.engine, ?_⟩
    · change (((s.accept 0x11).emptied k).sources.set k .cleared : Vector SourceEntry 64) = _
      rw [sources]
      exact Vector.set_set ..
    · exact State.finish_cmd_eq (c := .srcRemove) (State.emptied_cmd k) _
  · have some : (s.accept 0x11).checkedOf ((s.accept 0x11).source k).address = some n := by
      rw [holds]
      exact State.checkedOf_some.2 ⟨checked, source⟩
    have works : ((s.accept 0x11).emptied k).checker.engine = .checking crc w := part.engine.trans engine
    rw [removeSource_checked some, holds, State.requestStop_checking works] at carried
    refine ⟨_, carried, emptied, fun m => ?_, sources, rfl, ?_⟩
    · change ((((s.accept 0x11).emptied k).setCtx n _).ctx m : Ctx) = _
      have unfreed : n ∉ freed := fun mem => (State.mem_heldUnchecked (s := s).1 mem).2.2 checked
      have here : ((s.accept 0x11).emptied k).ctx n = s.ctx n := (part.ctx n).trans (if_neg unfreed)
      rw [State.ctx_setCtx, here]
      exact if_congr Iff.rfl rfl (part.ctx m)
    · exact State.wait_cmd_eq (State.emptied_cmd k) _

end Remove

/-! ## FLUSH -/

section Flush

/-- The records that FLUSH frees at once: all in use but the one under check (spec 01 R29). -/
def State.allUnchecked (s : State) : List CtxNo :=
  (List.finRange 32).filter fun n => (s.ctx n).state != .free && s.underCheck != some n

theorem State.mem_allUnchecked : n ∈ s.allUnchecked ↔ (s.ctx n).state ≠ .free ∧ s.underCheck ≠ some n := by
  simp [State.allUnchecked]

theorem State.allUnchecked_nodup (s : State) : s.allUnchecked.Nodup := (List.nodup_finRange 32).filter _

/-- The table with every record freed but the one under check. -/
def State.flushed (s : State) : State := freeAll s.allUnchecked .flush s

theorem doFlush_eq (unchecked : s.underCheck = none) :
    doFlush s = s.flushed.finish .flush (oneWord s.allUnchecked.length) := by
  simp only [doFlush, unchecked]
  rw [State.flushed, State.allUnchecked, unchecked]

theorem doFlush_waits (checked : s.underCheck = some n) :
    doFlush s = (s.flushed.requestStop n).wait (.flush s.allUnchecked.length) := by
  simp only [doFlush, checked]
  rw [State.flushed, State.allUnchecked, checked]

theorem flushed_freed (inv : CollectionsInv s) : Freed s s.allUnchecked s.flushed :=
  freeAll_freed s.allUnchecked_nodup .flush inv.singleEntries

theorem flushed_ctx (inv : CollectionsInv s) (m : CtxNo) :
    s.flushed.ctx m = if s.underCheck = some m then s.ctx m else Ctx.cleared := by
  rw [(flushed_freed inv).ctx]
  by_cases checked : s.underCheck = some m
  · rw [if_pos checked, if_neg fun mem => (State.mem_allUnchecked.1 mem).2 checked]
  · rw [if_neg checked]
    by_cases free : (s.ctx m).state = .free
    · rw [if_neg fun mem => (State.mem_allUnchecked.1 mem).1 free, inv.freeIsCleared m free]
    · rw [if_pos (State.mem_allUnchecked.2 ⟨free, checked⟩)]

/-- What FLUSH frees at once, in the collections, the cells, the lines, the timers, the table and the port. -/
theorem flushed_gone (inv : CollectionsInv s) :
    let freed := s.allUnchecked
    let t := s.flushed
    t.ageList = [] ∧ t.delivery = [] ∧ t.checker.queue = s.checker.queue.filter (fun n => s.underCheck = some n) ∧
      t.pool = { s.pool with freeList := s.pool.freeList ++ freed.flatMap fun n => (s.ctx n).chain } ∧
      t.lines = s.lines ∧ t.timer = s.timer ∧
      (∀ k, t.source k = { s.source k with openCount := (t.source k).openCount }) ∧
      (∀ n w, s.readout.port = .held n w →
        t.readout = { s.readout with port := .lost, remaining := 0 } ∧
          t.ev = s.ev.post ⟨.readoutLost, none, some n, some (s.ctx n).source, some (s.ctx n).msgno, 3⟩) ∧
      ((∀ n w, s.readout.port ≠ .held n w) → t.readout = s.readout ∧ t.ev = s.ev) := by
  intro freed t
  have part : Freed s freed t := flushed_freed inv
  have lines := freeAll_lines s.allUnchecked .flush s
  obtain ⟨held, unheld⟩ := freeAll_port inv s.allUnchecked_nodup .flush
  have unverified {m : CtxNo} (used : (s.ctx m).state ≠ .free) (other : (s.ctx m).state ≠ .verifying) : m ∈ freed :=
    State.mem_allUnchecked.2 ⟨used, inv.underCheck_ne other⟩
  refine ⟨part.age.trans (List.filter_eq_nil_iff.2 fun m mem => ?_), part.delivery.trans (List.filter_eq_nil_iff.2 fun m mem => ?_),
    part.queue.trans (List.filter_congr fun m mem => ?_), part.pool, lines.1, lines.2, source_freeAll s s.allUnchecked .flush,
    fun n w port => ?_, fun other => unheld fun n w port => absurd port (other n w)⟩
  · have collecting := (inv.ageHolds m).1 mem
    simpa using unverified (by simp [collecting]) (by simp [collecting])
  · have ready := (inv.deliveryHolds m).1 mem
    simpa using unverified (by simp [ready]) (by simp [ready])
  · have verifying := (inv.checkHolds m).1 mem
    refine decide_eq_decide.2 ?_
    rw [State.mem_allUnchecked, verifying]
    simp
  · have delivering := (inv.delivering_held port n).2 rfl
    exact held n w port (unverified (by simp [delivering]) (by simp [delivering]))

/-- The open counts after FLUSH are the numbers of the records left. -/
theorem exec_flush_counts (h : exec .flush s = .next t) (inv : CollectionsInv s) (sources : SourcesInv s) (k : SlotNo) :
    (t.source k).openCount = if (t.source k).state = .unused then 0 else (t.heldBy (t.source k).address).length := by
  obtain ⟨-, table⟩ := exec_table h ⟨inv, sources⟩
  split
  · rename_i unused
    rw [table.unusedCleared k unused]
    rfl
  · rename_i inUse
    exact table.counts k inUse

theorem heldBy_length_of_none (none : ∀ m, (t.ctx m).state = .free) (a : Byte) : (t.heldBy a).length = 0 := by
  rw [List.length_eq_zero_iff, List.eq_nil_iff_forall_not_mem]
  exact fun m mem => (State.mem_heldBy.1 mem).1 (none m)

theorem heldBy_length_of_one (one : ∀ m, (t.ctx m).state ≠ .free ↔ m = n) (a : Byte) :
    (t.heldBy a).length = if a = (t.ctx n).source then 1 else 0 := by
  split
  · rename_i same
    have held : t.heldBy a = [n] := by
      refine State.heldBy_eq_singleton.2 fun m => ?_
      rw [one]
      exact ⟨And.left, fun here => ⟨here, here ▸ same.symm⟩⟩
    rw [held, List.length_singleton]
  · rename_i other
    rw [List.length_eq_zero_iff, List.eq_nil_iff_forall_not_mem]
    intro m mem
    obtain ⟨used, source⟩ := State.mem_heldBy.1 mem
    exact other ((one m).1 used ▸ source.symm)

/-- Settles O47: what FLUSH frees at once, then its completion, or its wait for the engine's stop. -/
theorem tableFlushed : Obligations.TableFlushed := by
  unfold Obligations.TableFlushed
  intro s inv accepts freed gone
  have accepted : CollectionsInv (s.accept 0x1A) := .of_records (s := s) rfl inv
  have emptied := flushed_gone accepted
  have part := flushed_freed accepted
  have cmd : (s.accept 0x1A).flushed.cmd = (s.accept 0x1A).cmd := by simp [State.flushed]
  refine ⟨fun unchecked => ?_, fun n crc w checked engine => ?_⟩
  · have row : exec .flush s = .next ((s.accept 0x1A).flushed.finish .flush (oneWord freed.length)) :=
      hostCommand_carries accepts (doFlush_eq unchecked)
    have ctx (m : CtxNo) : ((s.accept 0x1A).flushed.finish .flush (oneWord freed.length)).ctx m = Ctx.cleared :=
      (flushed_ctx accepted m).trans (if_neg (by rw [show (s.accept 0x1A).underCheck = none from unchecked]; nofun))
    refine ⟨_, row, emptied, ctx, fun sources k => ?_, part.engine, ?_⟩
    · rw [exec_flush_counts row inv sources k, heldBy_length_of_none (fun m => by rw [ctx m]; rfl), ite_self]
    · rw [oneWord_eq]
      exact State.finish_cmd_eq (c := .flush) cmd _
  · have works : (s.accept 0x1A).flushed.checker.engine = .checking crc w := part.engine.trans engine
    have row : exec .flush s = .next (((s.accept 0x1A).flushed.requestStop n).wait (.flush freed.length)) :=
      hostCommand_carries accepts (doFlush_waits checked)
    rw [State.requestStop_checking works] at row
    have here : (s.accept 0x1A).flushed.ctx n = s.ctx n := (flushed_ctx accepted n).trans (if_pos checked)
    have ctx (m : CtxNo) :
        ((s.accept 0x1A).flushed.setCtx n { (s.accept 0x1A).flushed.ctx n with abortPending := true }).ctx m =
          if m = n then { s.ctx n with abortPending := true } else Ctx.cleared := by
      rw [State.ctx_setCtx, here]
      split
      · rfl
      · rename_i other
        refine (flushed_ctx accepted m).trans (if_neg fun here => other ?_)
        exact Option.some.inj (here.symm.trans checked)
    have verifying := inv.state_underCheck checked
    refine ⟨_, row, emptied, ctx, fun sources k => ?_, rfl, State.wait_cmd_eq cmd _⟩
    rw [exec_flush_counts row inv sources k, heldBy_length_of_one (n := n) fun m => ?_]
    · have kept := source_freeAll (s.accept 0x1A) (s.accept 0x1A).allUnchecked .flush k
      change (if ((s.accept 0x1A).flushed.source k).state = .unused then 0 else
        if ((s.accept 0x1A).flushed.source k).address =
          (((s.accept 0x1A).flushed.setCtx n { (s.accept 0x1A).flushed.ctx n with abortPending := true }).ctx n).source
        then 1 else 0) = _
      rw [ctx n, if_pos rfl, State.flushed, kept]
      change (if (s.source k).state = .unused then 0 else if (s.source k).address = (s.ctx n).source then 1 else 0) = _
      by_cases unused : (s.source k).state = .unused <;> simp [unused]
    · change (((s.accept 0x1A).flushed.setCtx n { (s.accept 0x1A).flushed.ctx n with abortPending := true }).ctx m).state ≠ .free ↔ _
      rw [ctx m]
      split
      · rename_i same
        exact iff_of_true (by simp [verifying]) same
      · rename_i other
        exact iff_of_false (fun used => used rfl) other

end Flush

end Sys2Proof.Machine
end

