-- ==== Sys2Proof/Proofs/ArbiterAndFrames.lean ====
section
/-! SUPPORT. The arbiter, the frame's checks and the source's: one admission event served from a line, as equations (spec 03 R47 to
R54, R65; 11 11.1). -/

namespace Sys2Proof.Machine

/-! ## The arbiter -/

section Arbiter

/-- The lines with the waiting frames that a table names. -/
def withBuffers (waiting : LineNo → List (List Byte)) (v : Vector LineUnit 4) : Vector LineUnit 4 :=
  Vector.ofFn fun m => { v[m] with buffers := waiting m }

variable {s : State} {l : LineNo} {content : List Byte}

theorem getElem_withBuffers (waiting : LineNo → List (List Byte)) (v : Vector LineUnit 4) (m : LineNo) :
    (withBuffers waiting v)[m] = { v[m] with buffers := waiting m } := by
  simp [withBuffers]

theorem inert_withBuffers (waiting : LineNo → List (List Byte)) : Inert (withBuffers waiting) := by
  refine ⟨fun v m => ?_, fun v m => ?_, fun v m => ?_, fun v m queue => ?_⟩
  · rw [getElem_withBuffers]
  · rw [getElem_withBuffers]
  · rw [getElem_withBuffers]
  · refine Vector.ext fun i hi => ?_
    by_cases here : m.val = i
    · subst here
      simp [withBuffers]
    · simp [withBuffers, Vector.getElem_set_ne, here]

theorem withBuffers_self (v : Vector LineUnit 4) : withBuffers (fun m => (v[m]).buffers) v = v :=
  Vector.ext fun i hi => by simp [withBuffers]

/-- Admission of a frame leaves every waiting frame. -/
theorem admitFrame_buffers (l : LineNo) (content : List Byte) (s : State) (m : LineNo) :
    ((admitFrame l content s).line m).buffers = (s.line m).buffers := by
  have same : s.mapped (withBuffers fun m => (s.line m).buffers) s.pending = s :=
    congrArg (fun v => ({ s with lines := v } : State)) (withBuffers_self s.lines)
  have admitted := admitFrame_mapped (s := s) (q := s.pending) (inert_withBuffers fun m => (s.line m).buffers) l content
  rw [same] at admitted
  have line := congrArg (fun t : State => (t.line m).buffers) admitted
  have kept := congrArg LineUnit.buffers
    (getElem_withBuffers (fun m => (s.line m).buffers) (admitFrame l content s).lines m)
  exact line.trans kept

theorem State.line_afterServing (s : State) (l m : LineNo) :
    (s.afterServing l).line m = { s.line m with buffers := if m = l then (s.line m).buffers.tail else (s.line m).buffers } :=
  getElem_emptyOldestOf l m s.lines

/-- One event serves one frame: its outputs land behind the emptied buffer. -/
theorem Serves.admits (h : Serves s l content) : exec .admissionEvent s = .next (admitFrame l content (s.afterServing l)) := by
  obtain ⟨awakened, run, served, oldest⟩ := h
  have head : (s.line l).buffers.headD [] = content := by rw [List.headD_eq_head?_getD, oldest, Option.getD_some]
  change execAdmissionEvent s = _
  rw [execAdmissionEvent, awake_eq s _ awakened, if_pos run, served, ← head, ← serveLine_eq]

theorem admitFrame_rotation (l m : LineNo) (content : List Byte) (s : State) :
    (admitFrame l content (s.afterServing m)).rotation = m :=
  congrArg Dials.rotation ((admitFrame_changes (w := untimedRow) (s := s.afterServing m) False.elim
    ⟨trivial, fun _ _ _ => trivial⟩ l content).moves.dials id)

/-- The first line with a waiting frame, looked for from the one after the pointer. -/
theorem State.servedLine_eq {d : Nat} (least : 1 ≤ d) (most : d ≤ 4)
    (waiting : (s.line (s.rotation + Fin.ofNat 4 d)).buffers ≠ [])
    (first : ∀ e : Nat, 1 ≤ e → e < d → (s.line (s.rotation + Fin.ofNat 4 e)).buffers = []) :
    s.servedLine = some (s.rotation + Fin.ofNat 4 d) := by
  have order : arbiterOrder s.rotation = (List.range 4).map fun e => s.rotation + Fin.ofNat 4 (e + 1) := by
    generalize s.rotation = pointer
    revert pointer
    decide
  have found : (List.range 4).find? ((fun l => !(s.line l).buffers.isEmpty) ∘ fun e => s.rotation + Fin.ofNat 4 (e + 1)) =
      some (d - 1) := by
    refine List.find?_range_eq_some.2 ⟨?_, List.mem_range.2 (by omega), fun e below => ?_⟩
    · simpa [Nat.sub_add_cancel least] using waiting
    · simpa using first (e + 1) (by omega) (by omega)
  rw [State.servedLine, order, List.find?_map, found, Option.map_some, Nat.sub_add_cancel least]

/-- Settles O16: the arbiter looks round from the line after its pointer; admission itself leaves every waiting frame. -/
theorem arbiterRotates : Obligations.ArbiterRotates := by
  unfold Obligations.ArbiterRotates
  refine fun s awakened => ⟨fun d least most run waiting first => ?_, exec_admissionEvent_id⟩
  have serves : Serves s (s.rotation + Fin.ofNat 4 d) ((s.line (s.rotation + Fin.ofNat 4 d)).buffers.head waiting) :=
    ⟨awakened, run, State.servedLine_eq least most waiting first, List.head?_eq_some_head waiting⟩
  refine ⟨_, serves.admits, admitFrame_rotation _ _ _ _, fun m => ?_⟩
  rw [admitFrame_buffers, State.line_afterServing]

end Arbiter

end Sys2Proof.Machine
end

