-- ==== Sys2Proof/Proofs/HeaderFields.lean ====
section
/-! SUPPORT. The header tests and the segment's fields, in numbers (spec 03 R50 to R52; 11 11.1). -/

namespace Sys2Proof.Machine

/-! ## Bits of header bytes -/

theorem getLsbD_eq_div_mod (b : Byte) (i : Nat) : b.getLsbD i = decide (b.toNat / 2 ^ i % 2 = 1) :=
  Nat.testBit_eq_decide_div_mod_eq

/-- Bits 7 and 6 clear: the byte is below 64. -/
theorem highBits_iff (b : Byte) : (b.getLsbD 7 || b.getLsbD 6) = true ↔ 64 ≤ b.toNat := by
  have bound := b.isLt
  rw [Bool.or_eq_true, getLsbD_eq_div_mod, getLsbD_eq_div_mod, decide_eq_true_iff, decide_eq_true_iff]
  omega

theorem lastFlag_iff (b : Byte) : b.getLsbD 4 = true ↔ b.toNat / 16 % 2 = 1 := by
  rw [getLsbD_eq_div_mod, decide_eq_true_iff]
  norm_num

theorem urgentFlag_iff (b : Byte) : b.getLsbD 5 = true ↔ b.toNat / 32 % 2 = 1 := by
  rw [getLsbD_eq_div_mod, decide_eq_true_iff]
  norm_num

theorem validAddress_iff (b : Byte) : validAddress b = true ↔ 1 ≤ b.toNat ∧ b.toNat ≤ 254 := by
  have bound := b.isLt
  have zero : b = 0 ↔ b.toNat = 0 := BitVec.toNat_inj.symm
  have ones : b = 0xFF ↔ b.toNat = 255 := BitVec.toNat_inj.symm
  rw [validAddress, Bool.and_eq_true, bne_iff_ne, bne_iff_ne, ne_eq, ne_eq, zero, ones]
  omega

/-! ## Fields -/

theorem toNat_append_eq {m n : Nat} (x : BitVec m) (y : BitVec n) : (x ++ y).toNat = 2 ^ n * x.toNat + y.toNat := by
  rw [BitVec.toNat_append, ← Nat.shiftLeft_add_eq_or_of_lt y.isLt, Nat.shiftLeft_eq, Nat.mul_comm]

theorem fieldMsgno_toNat (hi lo : Byte) : (fieldMsgno hi lo).toNat = 256 * (hi.toNat % 16) + lo.toNat := by
  rw [fieldMsgno, toNat_append_eq, BitVec.toNat_setWidth]
  norm_num

theorem fieldMsgno_eq_ofNat (hi lo : Byte) : fieldMsgno hi lo = BitVec.ofNat 12 (256 * (hi.toNat % 16) + lo.toNat) := by
  rw [← fieldMsgno_toNat, BitVec.ofNat_toNat, BitVec.setWidth_eq]

theorem payloadOffset_eq (b : Byte) : payloadOffset (b.getLsbD 4) = 7 + if b.toNat / 16 % 2 = 1 then 4 else 0 := by
  simp only [payloadOffset, lastFlag_iff]
  split
  · rfl
  · rfl

/-! ## The header tests in order -/

section Header

variable {content : List Byte}

theorem headerFault_eq (content : List Byte) :
    headerFault content =
      if ¬(1 ≤ (byteAt content 2).toNat ∧ (byteAt content 2).toNat ≤ 254) then some .source
      else if 64 ≤ (byteAt content 3).toNat then some .flags
      else if 64 ≤ (byteAt content 5).toNat then some .index
      else if (byteAt content 6).toNat < 1 ∨ 128 < (byteAt content 6).toNat then some .length
      else if content.length ≠
          7 + (if (byteAt content 3).toNat / 16 % 2 = 1 then 4 else 0) + (byteAt content 6).toNat + 2 then some .size
      else none := by
  unfold headerFault
  simp only [highBits_iff, payloadOffset_eq, ← validAddress_iff, Bool.not_eq_true, Bool.not_eq_eq_eq_not, Bool.not_true]

theorem headerFault_none_iff :
    headerFault content = none ↔
      1 ≤ (byteAt content 2).toNat ∧ (byteAt content 2).toNat ≤ 254 ∧ (byteAt content 3).toNat < 64 ∧
        (byteAt content 5).toNat < 64 ∧ 1 ≤ (byteAt content 6).toNat ∧ (byteAt content 6).toNat ≤ 128 ∧
        content.length =
          7 + (if (byteAt content 3).toNat / 16 % 2 = 1 then 4 else 0) + (byteAt content 6).toNat + 2 := by
  rw [headerFault_eq]
  simp only [ite_eq_right_iff, reduceCtorEq, imp_false, ite_eq_iff, and_false, false_or]
  omega

theorem parseSegment_fields (l : LineNo) (header : headerFault content = none) :
    let seg := parseSegment l content
    let b (k : Nat) : Nat := (byteAt content k).toNat
    seg.msgno.toNat = 256 * (b 3 % 16) + b 4 ∧ (seg.last = true ↔ b 3 / 16 % 2 = 1) ∧ (seg.urg = true ↔ b 3 / 32 % 2 = 1) ∧
      seg.index.val = b 5 ∧ seg.checkWord.toNat = b 7 + 256 * b 8 + 65536 * b 9 + 16777216 * b 10 := by
  obtain ⟨-, -, -, index, -⟩ := headerFault_none_iff.1 header
  refine ⟨fieldMsgno_toNat _ _, lastFlag_iff _, urgentFlag_iff _, ?_, ?_⟩
  · exact (BitVec.toNat_setWidth _ _).trans (Nat.mod_eq_of_lt index)
  · change (byteAt content 10 ++ byteAt content 9 ++ byteAt content 8 ++ byteAt content 7).toNat = _
    rw [toNat_append_eq, toNat_append_eq, toNat_append_eq]
    dsimp only
    omega

theorem parseSegment_payload_eq (l : LineNo) (content : List Byte) :
    (parseSegment l content).payload =
      (content.drop (7 + if (byteAt content 3).toNat / 16 % 2 = 1 then 4 else 0)).take (byteAt content 6).toNat := by
  rw [← payloadOffset_eq]
  rfl

theorem parseSegment_payload (l : LineNo) (header : headerFault content = none) :
    let seg := parseSegment l content
    let b (k : Nat) : Nat := (byteAt content k).toNat
    seg.payload.length = b 6 ∧
      ∀ j < b 6, seg.payload[j]? = content[(if b 3 / 16 % 2 = 1 then 11 else 7) + j]? := by
  obtain ⟨-, -, -, -, -, -, size⟩ := headerFault_none_iff.1 header
  dsimp only
  rw [parseSegment_payload_eq]
  refine ⟨?_, fun j inside => ?_⟩
  · rw [List.length_take, List.length_drop]
    omega
  · rw [List.getElem?_take_of_lt inside, List.getElem?_drop]
    split
    · rfl
    · rfl

/-! ## A frame dropped -/

theorem malformedEvent_eq (l : LineNo) (content : List Byte) (fault : HeaderFault) :
    malformedEvent l content fault =
      ⟨.malformed, some l, none,
        if 1 ≤ (byteAt content 2).toNat ∧ (byteAt content 2).toNat ≤ 254 then some (byteAt content 2) else none,
        some (BitVec.ofNat 12 (256 * ((byteAt content 3).toNat % 16) + (byteAt content 4).toNat)),
        BitVec.ofNat 16 fault.code⟩ := by
  simp only [malformedEvent, validAddress_iff, fieldMsgno_eq_ofNat, numAt_zero]

variable {s : State} {l : LineNo}

theorem Serves.exec_unexpected (h : Serves s l content) (kind : (byteAt content 0).toNat ≠ 0xA1) :
    exec .admissionEvent s =
      .next ((s.afterServing l).post ⟨.unexpectedKind, some l, none, none, none, BitVec.ofNat 16 (byteAt content 0).toNat⟩) := by
  have other : byteAt content 0 ≠ Config.segmentKind := fun same => kind (congrArg BitVec.toNat same)
  rw [h.admits, admitFrame, if_pos other, frameEvent, ← BitVec.ofNat_toNat]

theorem Serves.exec_foreign (h : Serves s l content) (kind : (byteAt content 0).toNat = 0xA1)
    (station : byteAt content 1 ≠ s.cmd.station) :
    exec .admissionEvent s =
      .next ((s.afterServing l).post ⟨.foreign, some l, none, none, none, BitVec.ofNat 16 (byteAt content 1).toNat⟩) := by
  have same : byteAt content 0 = Config.segmentKind := BitVec.eq_of_toNat_eq kind
  have away : byteAt content 1 ≠ (s.afterServing l).cmd.station := station
  rw [h.admits, admitFrame, if_neg (not_not_intro same), if_pos away, frameEvent, ← BitVec.ofNat_toNat]

theorem Serves.exec_malformed (h : Serves s l content) (kind : (byteAt content 0).toNat = 0xA1)
    (station : byteAt content 1 = s.cmd.station) {fault : HeaderFault} (header : headerFault content = some fault) :
    exec .admissionEvent s = .next ((s.afterServing l).post (malformedEvent l content fault)) := by
  have same : byteAt content 0 = Config.segmentKind := BitVec.eq_of_toNat_eq kind
  have own : byteAt content 1 = (s.afterServing l).cmd.station := station
  rw [h.admits, admitFrame, if_neg (not_not_intro same), if_neg (not_not_intro own), header]

/-- Settles O17: the tests in order, each header byte as a number. -/
theorem admissionDropsUnfitFrames : Obligations.AdmissionDropsUnfitFrames := by
  unfold Obligations.AdmissionDropsUnfitFrames
  dsimp only
  refine ⟨fun s l content h => ⟨h.exec_unexpected, h.exec_foreign, fun kind station => ?_⟩, fun l content => ?_⟩
  · have drops (fault : HeaderFault) (header : headerFault content = some fault) :=
      h.exec_malformed kind station header
    simp only [malformedEvent_eq] at drops
    refine ⟨fun address => ?_, fun low high flags => ?_, fun low high flags index => ?_, fun low high flags index length => ?_,
      fun low high flags index short long size => ?_⟩
    · have bad : ¬(1 ≤ (byteAt content 2).toNat ∧ (byteAt content 2).toNat ≤ 254) := by omega
      have dropped := drops .source (by rw [headerFault_eq, if_pos bad])
      rwa [if_neg bad] at dropped
    all_goals have address : 1 ≤ (byteAt content 2).toNat ∧ (byteAt content 2).toNat ≤ 254 := ⟨low, high⟩
    all_goals simp only [if_pos address] at drops
    · exact drops .flags (by rw [headerFault_eq, if_neg (not_not_intro address), if_pos flags])
    · exact drops .index (by
        rw [headerFault_eq, if_neg (not_not_intro address), if_neg (by omega), if_pos index])
    · exact drops .length (by
        rw [headerFault_eq, if_neg (not_not_intro address), if_neg (by omega), if_neg (by omega), if_pos (by omega)])
    · exact drops .size (by
        rw [headerFault_eq, if_neg (not_not_intro address), if_neg (by omega), if_neg (by omega), if_neg (by omega),
          if_pos size])
  · refine ⟨headerFault_none_iff, fun header => ?_⟩
    obtain ⟨msgno, last, urgent, index, checkWord⟩ := parseSegment_fields l header
    obtain ⟨length, payload⟩ := parseSegment_payload l header
    exact ⟨rfl, rfl, msgno, last, urgent, index, rfl, fun _ => checkWord, length, payload⟩

end Header

end Sys2Proof.Machine
end

