-- ==== Sys2Proof/Proofs/SourceCheck.lean ====
section
/-! SUPPORT. Admission from the source check on (spec 03 R49, R53, R54, R65; 12 R186; log 20). -/

namespace Sys2Proof.Machine

section Sources

variable {s t : State} {l : LineNo} {content : List Byte} {seg : Segment} {k : SlotNo}

theorem Passes.line (h : Passes s content l seg) : seg.line = l := by rw [h.segment]; rfl

theorem Passes.fits (h : Passes s content l seg) : seg.Fits := h.segment ▸ parseSegment_fits h.header

/-- Frames of the receiving station that pass the first checks go on to the source check. -/
theorem Passes.admitFrame (h : Passes s content l seg) (station : t.cmd.station = s.cmd.station) :
    admitFrame l content t = checkSource seg t := by
  have kind : byteAt content 0 = Config.segmentKind := h.kind
  have own : byteAt content 1 = t.cmd.station := h.station.trans station.symm
  rw [Machine.admitFrame, if_neg (not_not_intro kind), if_neg (not_not_intro own), h.header, h.segment]

theorem Serves.checks (h : Serves s l content) (passes : Passes s content l seg) :
    exec .admissionEvent s = .next (checkSource seg (s.afterServing l)) := by
  rw [h.admits, passes.admitFrame (t := s.afterServing l) rfl]

/-! ## Branches of the source check -/

theorem checkSource_unknown (unknown : s.findSource seg.source = none) (off : s.cmd.learn = false) :
    checkSource seg s = s.post (segmentEvent .unknownSource seg none (numAt 1 0)) := by
  simp only [checkSource, unknown, off, Bool.false_eq_true, if_false]

theorem checkSource_tableFull (unknown : s.findSource seg.source = none) (learn : s.cmd.learn = true)
    (full : s.lowestUnused = none) : checkSource seg s = s.post (segmentEvent .unknownSource seg none (numAt 2 0)) := by
  simp only [checkSource, unknown, learn, if_true, full]

theorem checkSource_learns (unknown : s.findSource seg.source = none) (learn : s.cmd.learn = true)
    (lowest : s.lowestUnused = some k) :
    checkSource seg s =
      admitFrom k seg ((s.setSource k (.learned seg.source)).post (segmentEvent .sourceLearned seg none (numAt k.val 0))) := by
  simp only [checkSource, unknown, learn, if_true, lowest]

theorem checkSource_removing (found : s.findSource seg.source = some k) (removing : (s.source k).state = .removing) :
    checkSource seg s = s := by
  simp only [checkSource, found, removing]

theorem checkSource_suspended (found : s.findSource seg.source = some k) (suspended : (s.source k).state = .suspended) :
    checkSource seg s = refuseAndPost seg .suspended s := by
  simp only [checkSource, found, suspended]

theorem checkSource_enabled (found : s.findSource seg.source = some k) (enabled : (s.source k).state = .enabled) :
    checkSource seg s = admitFrom k seg s := by
  simp only [checkSource, found, enabled]

theorem admitFrom_tooLong (index : (s.source k).maxSegs ≤ seg.index.val) : admitFrom k seg s = refuseAndPost seg .tooLong s :=
  if_pos index

theorem admitFrom_fits (index : seg.index.val < (s.source k).maxSegs) :
    admitFrom k seg s = resolveKey k (effectiveClass (s.source k) seg) seg s :=
  if_neg (Nat.not_le_of_lt index)

/-! ## What the outputs are -/

theorem segmentEvent_eq (kind : EventKind) (line : seg.line = l) (n : Option CtxNo) (detail : Word) :
    segmentEvent kind seg n detail = ⟨kind, some l, n, some seg.source, some seg.msgno, detail⟩ := by
  rw [← line]
  rfl

theorem refuseAndPost_eq (line : seg.line = l) (reason : Reason) (s : State) :
    refuseAndPost seg reason s =
      (s.handOver (seg.refusal reason) l 0).post
        ⟨.refused, some l, none, some seg.source, some seg.msgno, BitVec.ofNat 16 reason.code⟩ := by
  rw [refuseAndPost, segmentEvent_eq _ line, numAt_zero, ← line]
  rfl

/-- A learned entry is the one that holds its address. -/
theorem State.findSource_learned (unknown : s.findSource seg.source = none) :
    (s.setSource k (.learned seg.source)).findSource seg.source = some k := by
  cases found : (s.setSource k (.learned seg.source)).findSource seg.source with
  | none =>
    have unheld := State.findSource_none.1 found k
    rw [State.source_setSource_same] at unheld
    exact absurd rfl (unheld nofun)
  | some j =>
    obtain ⟨used, address⟩ := State.findSource_some found
    rw [State.source_setSource] at used address
    by_cases here : j = k
    · rw [here]
    · rw [if_neg here] at used address
      exact absurd address (State.findSource_none.1 unknown j used)

/-! ## With nothing ENABLED -/

/-- A state with the records, their cells and the source table of another. -/
structure KeepsTables (s t : State) : Prop where
  ctxs : t.ctxs = s.ctxs
  ageList : t.ageList = s.ageList
  pool : t.pool = s.pool
  sources : t.sources = s.sources

theorem KeepsTables.post (e : EventRec) : KeepsTables s (s.post e) := ⟨rfl, rfl, rfl, rfl⟩

theorem checkSource_keepsTables (none : ∀ k, (s.source k).state ≠ .enabled) (off : s.cmd.learn = false) (seg : Segment) :
    KeepsTables s (checkSource seg s) := by
  cases found : s.findSource seg.source with
  | none =>
    rw [checkSource_unknown found off]
    exact .post _
  | some k =>
    cases entry : (s.source k).state with
    | unused => exact absurd entry (State.findSource_some found).1
    | enabled => exact absurd entry (none k)
    | suspended =>
      rw [checkSource_suspended found entry, refuseAndPost_eq rfl]
      exact ⟨State.handOver_ctxs .., State.handOver_ageList .., State.handOver_pool .., State.handOver_sources ..⟩
    | removing =>
      rw [checkSource_removing found entry]
      exact ⟨rfl, rfl, rfl, rfl⟩

theorem admitFrame_keepsTables (none : ∀ k, (s.source k).state ≠ .enabled) (off : s.cmd.learn = false) (l : LineNo)
    (content : List Byte) : KeepsTables s (admitFrame l content s) := by
  unfold Machine.admitFrame
  split
  · exact .post _
  · split
    · exact .post _
    · split
      · exact .post _
      · exact checkSource_keepsTables none off _

/-- An admission event serves a frame, or has no effect. -/
theorem serves_or_exec_id (s : State) :
    (∃ l content, Serves s l content) ∨ exec .admissionEvent s = .next s := by
  cases low : s.pins.rstnLow with
  | true => exact .inr (awake_asleep s _ low)
  | false =>
    by_cases run : s.cmd.mode = .run
    · cases served : s.servedLine with
      | none => exact .inr (exec_admissionEvent_id (.inr (State.servedLine_none.1 served)))
      | some l =>
        cases oldest : (s.line l).buffers with
        | nil =>
          have waiting := List.find?_some served
          simp [oldest] at waiting
        | cons content rest => exact .inl ⟨l, content, low, run, served, by rw [oldest]; rfl⟩
    · exact .inr (exec_admissionEvent_id (.inl run))

/-- Settles O18: the branches of the source check. -/
theorem sourceCheckedAtAdmission : Obligations.SourceCheckedAtAdmission := by
  unfold Obligations.SourceCheckedAtAdmission
  dsimp only
  refine ⟨fun s l content seg h passes => ?_, fun s none off => ?_, fun s l content seg k h passes unknown learn unused first => ?_⟩
  · rw [h.checks passes]
    refine ⟨fun unknown off => ?_, fun unknown learn full => ?_, fun k found => ⟨fun removing => ?_, fun suspended => ?_,
      fun enabled index => ?_⟩⟩
    · rw [checkSource_unknown (s := s.afterServing l) unknown off, segmentEvent_eq _ passes.line]
      rfl
    · have none := State.lowestUnused_none (s := s.afterServing l).2 full
      rw [checkSource_tableFull (s := s.afterServing l) unknown learn none, segmentEvent_eq _ passes.line]
      rfl
    · rw [checkSource_removing (s := s.afterServing l) found removing]
    · rw [checkSource_suspended (s := s.afterServing l) found suspended, refuseAndPost_eq passes.line]
      rfl
    · rw [checkSource_enabled (s := s.afterServing l) found enabled, admitFrom_tooLong (s := s.afterServing l) index,
        refuseAndPost_eq passes.line]
      rfl
  · rcases serves_or_exec_id s with ⟨l, content, h⟩ | same
    · have kept := admitFrame_keepsTables (s := s.afterServing l) none off l content
      exact ⟨_, h.admits, kept.ctxs, kept.ageList, kept.pool, kept.sources⟩
    · exact ⟨s, same, rfl, rfl, rfl, rfl⟩
  · have lowest : (s.afterServing l).lowestUnused = some k := State.lowestUnused_eq (s := s.afterServing l) unused first
    rw [← numAt_zero, ← segmentEvent_eq .sourceLearned passes.line none, h.checks passes,
      checkSource_learns (s := s.afterServing l) unknown learn lowest]
    generalize segmentEvent .sourceLearned seg none (numAt k.val 0) = learned
    have serves : Serves ((s.setSource k (.learned seg.source)).post learned) l content := ⟨h.awake, h.run, h.line, h.oldest⟩
    have found := State.findSource_learned (s := s.afterServing l) (k := k) unknown
    have entry : (((s.afterServing l).setSource k (.learned seg.source)).source k).state = .enabled := by
      rw [State.source_setSource_same]
      rfl
    have again : Passes ((s.setSource k (.learned seg.source)).post learned) content l seg :=
      ⟨passes.kind, passes.station, passes.header, passes.segment⟩
    refine Eq.trans ?_ (serves.checks again).symm
    exact congrArg Host.Outcome.next (checkSource_enabled
      (s := ((s.afterServing l).setSource k (.learned seg.source)).post learned) found entry).symm

end Sources

end Sys2Proof.Machine
end

