-- ==== Sys2Proof/Proofs/KeyResolution.lean ====
section
/-! SUPPORT. Key resolution: answers from history and late copies; a segment of a COLLECTING record: conflicts, copies and starved
segments (spec 01 R15 to R20, 03 R56 to R58). -/

namespace Sys2Proof.Machine

section Resolution

variable {s t : State} {l : LineNo} {content : List Byte} {seg : Segment} {k : SlotNo} {n : CtxNo}

/-- A segment that passes every check is resolved in the state its outputs land in. -/
theorem Serves.resolves (h : Serves s l content) (passes : Passes s content l seg) (admitted : Admitted s k seg) :
    exec .admissionEvent s =
      .next (resolveKey k (effectiveClass (s.source k) seg) seg (s.afterServing l)) := by
  rw [h.checks passes, checkSource_enabled (s := s.afterServing l) admitted.entry admitted.enabled,
    admitFrom_fits (s := s.afterServing l) admitted.index]
  rfl

/-! ## Where no COLLECTING record holds the key -/

theorem resolveKey_elsewhere (cls : MsgClass)
    (other : ∀ n, s.lookupKey seg.source seg.msgno = some n → (s.ctx n).state ≠ .collecting) :
    resolveKey k cls seg s = resolveElsewhere k cls seg (s.lookupKey seg.source seg.msgno) s := by
  unfold resolveKey
  split
  · rename_i n held
    rw [if_neg (other n held), held]
  · rename_i unheld
    rw [unheld]

theorem resolveElsewhere_known {h : HistRec} (cls : MsgClass) (known : (s.source k).findHistory seg.msgno = some h)
    (held : Option CtxNo) : resolveElsewhere k cls seg held s = answerFromHistory k h seg held s := by
  simp only [resolveElsewhere, known]

theorem resolveElsewhere_late (cls : MsgClass) (unseen : (s.source k).findHistory seg.msgno = none) (n : CtxNo) :
    resolveElsewhere k cls seg (some n) s = s.post (segmentEvent .dupDropped seg (some n) (numAt DupKind.late.code 0)) := by
  rw [resolveElsewhere, unseen]

theorem resolveElsewhere_opens (cls : MsgClass) (unseen : (s.source k).findHistory seg.msgno = none) :
    resolveElsewhere k cls seg none s = openContext k cls seg s := by
  rw [resolveElsewhere, unseen]

theorem answerFromHistory_answered {h : HistRec} (credit : 0 < h.credit) (held : Option CtxNo) :
    answerFromHistory k h seg held s =
      ((s.handOver (historyReceipt seg) seg.line 0).setSource k ((s.source k).spendCredit seg.msgno)).post
        (segmentEvent .dupDropped seg (s.answeredCtx held) (numAt DupKind.answered.code 0)) := by
  rw [answerFromHistory, if_pos credit]
  dsimp only
  rw [State.source_handOver]

theorem answerFromHistory_silent {h : HistRec} (spent : h.credit = 0) (held : Option CtxNo) :
    answerFromHistory k h seg held s =
      s.post (segmentEvent .dupDropped seg (s.answeredCtx held) (numAt DupKind.silent.code 0)) := by
  rw [answerFromHistory, if_neg (by omega)]

/-- Only a READY or DELIVERING record is named. -/
theorem State.answeredCtx_some {held : Option CtxNo} :
    s.answeredCtx held = some n ↔ held = some n ∧ ((s.ctx n).state = .ready ∨ (s.ctx n).state = .delivering) := by
  simp [State.answeredCtx, Option.filter_eq_some_iff]

/-- Settles O25: the two answers of the history, then the late copy. -/
theorem historyAnswersAndLateCopies : Obligations.HistoryAnswersAndLateCopies := by
  unfold Obligations.HistoryAnswersAndLateCopies
  dsimp only
  intro s l content seg k h passes admitted other
  have resolved := h.resolves passes admitted
  rw [resolveKey_elsewhere (s := s.afterServing l) _ other] at resolved
  rw [resolved]
  refine ⟨fun r known => ⟨s.answeredCtx (s.lookupKey seg.source seg.msgno), fun n => State.answeredCtx_some, fun credit => ?_,
    fun spent => ?_⟩, fun n unseen held => ?_⟩
  · rw [resolveElsewhere_known (s := s.afterServing l) _ known, answerFromHistory_answered credit,
      segmentEvent_eq _ passes.line, passes.line]
    rfl
  · rw [resolveElsewhere_known (s := s.afterServing l) _ known, answerFromHistory_silent spent,
      segmentEvent_eq _ passes.line]
    rfl
  · have late : (s.afterServing l).lookupKey seg.source seg.msgno = some n := held
    rw [late, resolveElsewhere_late (s := s.afterServing l) _ unseen, segmentEvent_eq _ passes.line]
    rfl

/-! ## A COLLECTING record holds the key -/

theorem resolveKey_stores (cls : MsgClass) (held : s.lookupKey seg.source seg.msgno = some n)
    (collecting : (s.ctx n).state = .collecting) : resolveKey k cls seg s = storeInto n seg s := by
  simp only [resolveKey, held, collecting, if_true]

theorem Serves.storesInto (h : Serves s l content) (passes : Passes s content l seg) (admitted : Admitted s k seg)
    (held : s.lookupKey seg.source seg.msgno = some n) (collecting : (s.ctx n).state = .collecting) :
    exec .admissionEvent s = .next (storeInto n seg (s.afterServing l)) := by
  rw [h.resolves passes admitted, resolveKey_stores (s := s.afterServing l) _ held collecting]

theorem lastConflict_other {r : Ctx} {last : SegIndex} (known : r.lastIndex = some last) (flag : seg.last = true)
    (other : seg.index ≠ last) : r.lastConflict seg = some .last := by
  simp [Ctx.lastConflict, known, flag, other]

theorem lastConflict_beyond {r : Ctx} {last : SegIndex} (known : r.lastIndex = some last) (flag : seg.last = false)
    (beyond : last ≤ seg.index) : r.lastConflict seg = some .beyondLast := by
  simp [Ctx.lastConflict, known, flag, beyond]

theorem lastConflict_below {r : Ctx} {i : SegIndex} (unknown : r.lastIndex = none) (flag : seg.last = true)
    (below : seg.index < i) (present : (r.slots[i]).isSome) : r.lastConflict seg = some .beyondLast := by
  have any : ∃ i : SegIndex, seg.index < i ∧ ¬r.slots[i] = none := ⟨i, below, Option.isSome_iff_ne_none.1 present⟩
  simpa [Ctx.lastConflict, unknown, flag] using any

theorem storeInto_conflicts {kind : ConflictKind} (fails : (s.ctx n).lastConflict seg = some kind) :
    storeInto n seg s = conflict n seg kind s := by
  simp only [storeInto, fails]

theorem storeInto_differs {sl : Slot} (passes : (s.ctx n).lastConflict seg = none)
    (stored : (s.ctx n).slots[seg.index] = some sl) (differs : sl.length ≠ seg.length) :
    storeInto n seg s = conflict n seg .length s := by
  simp only [storeInto, passes, stored, if_neg differs]

theorem storeInto_copy {sl : Slot} (passes : (s.ctx n).lastConflict seg = none)
    (stored : (s.ctx n).slots[seg.index] = some sl) (same : sl.length = seg.length) :
    storeInto n seg s = storedDuplicate n seg s := by
  simp only [storeInto, passes, stored, if_pos same]

theorem storeInto_passes (passes : (s.ctx n).lastConflict seg = none) (absent : (s.ctx n).slots[seg.index] = none)
    (room : s.requestPasses (s.ctx n).cls (cellsFor seg.length) = true) : storeInto n seg s = storeSegment n seg s := by
  simp only [storeInto, passes, absent, if_pos room]

theorem storeInto_starves (passes : (s.ctx n).lastConflict seg = none) (absent : (s.ctx n).slots[seg.index] = none)
    (short : s.requestPasses (s.ctx n).cls (cellsFor seg.length) = false) : storeInto n seg s = starve n seg s := by
  simp only [storeInto, passes, absent, short, Bool.false_eq_true, if_false]

/-! ## Copies -/

/-- The event that a stored copy posts. -/
def storedEvent (n : CtxNo) (seg : Segment) : EventRec := segmentEvent .dupDropped seg (some n) (numAt DupKind.stored.code 0)

theorem storedDuplicate_counts (known : seg.last = false ∨ (s.ctx n).lastIndex.isSome) :
    storedDuplicate n seg s =
      (s.setCtx n { s.ctx n with dupCount := min 255 ((s.ctx n).dupCount + 1) }).post (storedEvent n seg) := by
  have other : ¬(seg.last = true ∧ (s.ctx n).lastIndex = none) := by
    rintro ⟨flag, unknown⟩
    simp [flag, unknown] at known
  simp only [storedDuplicate, Ctx.duplicated, if_neg other, storedEvent]

/-- The record of which a copy told the end. -/
def Ctx.told (r : Ctx) (seg : Segment) : Ctx :=
  { r with dupCount := min 255 (r.dupCount + 1), lastIndex := some seg.index, checkWord := some seg.checkWord }

theorem storedDuplicate_tells (flag : seg.last = true) (unknown : (s.ctx n).lastIndex = none) :
    storedDuplicate n seg s = (joinIfWhole n (s.setCtx n ((s.ctx n).told seg))).post (storedEvent n seg) := by
  simp only [storedDuplicate, Ctx.duplicated, flag, unknown, and_self, if_true, joinIfWhole_post]
  rfl

theorem joinIfWhole_part {r : Ctx} (part : r.whole = false) : joinIfWhole n (s.setCtx n r) = s.setCtx n r := by
  refine if_neg ?_
  rw [State.ctx_setCtx_same, part]
  exact Bool.false_ne_true

theorem joinIfWhole_whole {r : Ctx} (whole : r.whole = true) :
    joinIfWhole n (s.setCtx n r) =
      { s.setCtx n { r with state := .verifying } with
        ageList := s.ageList.erase n
        checker := { s.checker with queue := s.checker.queue ++ [n] } } := by
  unfold joinIfWhole
  rw [State.ctx_setCtx_same, if_pos whole]
  unfold State.setCtx
  simp only [Vector.set_set]

theorem Ctx.told_whole (r : Ctx) (seg : Segment) : (r.told seg).whole = (r.presentCount == seg.index.val + 1) := rfl

/-- Settles O22: the tests of a segment for a COLLECTING record in their order. -/
theorem conflictsAndDuplicates : Obligations.ConflictsAndDuplicates := by
  unfold Obligations.ConflictsAndDuplicates
  dsimp only
  intro s l content seg k n h passes admitted held collecting
  have event (kind : EventKind) (detail : Word) := segmentEvent_eq kind passes.line (some n) detail
  rw [h.storesInto passes admitted held collecting]
  refine ⟨fun last known flag other => ?_, fun last known flag beyond => ?_, fun i unknown flag below present => ?_,
    fun sl tests stored => ⟨fun differs => ?_, fun same known => ?_, fun same flag unknown => ⟨fun part => ?_, fun whole => ?_⟩⟩⟩
  · rw [storeInto_conflicts (s := s.afterServing l) (lastConflict_other known flag other), conflict, event]
    rfl
  · rw [storeInto_conflicts (s := s.afterServing l) (lastConflict_beyond known flag beyond), conflict, event]
    rfl
  · rw [storeInto_conflicts (s := s.afterServing l) (lastConflict_below unknown flag below present), conflict, event]
    rfl
  · rw [storeInto_differs (s := s.afterServing l) (lastConflict_none.2 tests) stored differs, conflict, event]
    rfl
  · rw [storeInto_copy (s := s.afterServing l) (lastConflict_none.2 tests) stored same,
      storedDuplicate_counts (s := s.afterServing l) known, storedEvent, event]
    rfl
  · have whole : (((s.afterServing l).ctx n).told seg).whole = false := (Ctx.told_whole _ _).trans (beq_false_of_ne part)
    rw [storeInto_copy (s := s.afterServing l) (lastConflict_none.2 tests) stored same,
      storedDuplicate_tells (s := s.afterServing l) flag unknown, joinIfWhole_part whole, storedEvent, event]
    rfl
  · have whole : (((s.afterServing l).ctx n).told seg).whole = true := (Ctx.told_whole _ _).trans (beq_iff_eq.2 whole)
    rw [storeInto_copy (s := s.afterServing l) (lastConflict_none.2 tests) stored same,
      storedDuplicate_tells (s := s.afterServing l) flag unknown, joinIfWhole_whole whole, storedEvent, event]
    rfl

end Resolution

end Sys2Proof.Machine
end

