-- ==== Sys2Proof/Proofs/OpensAndStores.lean ====
section
/-! SUPPORT. Requests for cells and open requests that fail, and the store of a segment where no eviction is needed (spec 01 R9 to R20,
02 R35 to R43). -/

namespace Sys2Proof.Machine

section Requests

variable {s t : State} {l : LineNo} {content : List Byte} {seg : Segment} {k : SlotNo} {n v : CtxNo}

/-! ## Open requests, test by test -/

theorem Serves.opens (h : Serves s l content) (passes : Passes s content l seg) (admitted : Admitted s k seg)
    (unheld : s.lookupKey seg.source seg.msgno = none) (unseen : (s.source k).findHistory seg.msgno = none) :
    exec .admissionEvent s = .next (openContext k (effectiveClass (s.source k) seg) seg (s.afterServing l)) := by
  have unheld' : (s.afterServing l).lookupKey seg.source seg.msgno = none := unheld
  rw [h.resolves passes admitted, resolveKey_elsewhere (s := s.afterServing l) _ (by simp [unheld']), unheld',
    resolveElsewhere_opens (s := s.afterServing l) _ unseen]

theorem openContext_limit (cls : MsgClass) (limit : (s.source k).openLimit ≤ (s.source k).openCount) :
    openContext k cls seg s = refuseAndPost seg .busy s := if_pos limit

theorem openContext_opens {cls : MsgClass} (limit : (s.source k).openCount < (s.source k).openLimit)
    (free : s.lowestFree = some n) (room : s.requestPasses cls (cellsFor seg.length) = true) :
    openContext k cls seg s = openAt n k cls seg s := by
  simp only [openContext, if_neg (Nat.not_le_of_lt limit), free, if_pos room]

theorem openContext_short {cls : MsgClass} (limit : (s.source k).openCount < (s.source k).openLimit)
    (free : s.lowestFree = some n) (short : s.requestPasses cls (cellsFor seg.length) = false) :
    openContext k cls seg s = refuseForCells seg s := by
  simp only [openContext, if_neg (Nat.not_le_of_lt limit), free, short, Bool.false_eq_true, if_false]

theorem openContext_noRecord {cls : MsgClass} (limit : (s.source k).openCount < (s.source k).openLimit)
    (used : s.lowestFree = none) (spared : cls = .ordinary ∨ s.slotCandidate = none) :
    openContext k cls seg s = refuseAndPost seg .busy s := by
  simp only [openContext, if_neg (Nat.not_le_of_lt limit), used]
  cases cls with
  | ordinary => rfl
  | urgent => simp only [spared.resolve_left nofun]

theorem openContext_evicts (limit : (s.source k).openCount < (s.source k).openLimit) (used : s.lowestFree = none)
    (candidate : s.slotCandidate = some v) (room : s.candidatePasses v (cellsFor seg.length) = true) :
    openContext k .urgent seg s = openAt v k .urgent seg (evict .slot seg.line v s) := by
  simp only [openContext, if_neg (Nat.not_le_of_lt limit), used, candidate, if_pos room]

theorem openContext_candidateShort (limit : (s.source k).openCount < (s.source k).openLimit) (used : s.lowestFree = none)
    (candidate : s.slotCandidate = some v) (short : s.candidatePasses v (cellsFor seg.length) = false) :
    openContext k .urgent seg s = refuseForCells seg s := by
  simp only [openContext, if_neg (Nat.not_le_of_lt limit), used, candidate, short, Bool.false_eq_true, if_false]

theorem refuseForCells_eq (line : seg.line = l) (s : State) :
    refuseForCells seg s =
      (s.handOver (seg.refusal .busy) l 0).post ⟨.poolShort, some l, none, some seg.source, some seg.msgno, 2⟩ := by
  rw [refuseForCells, segmentEvent_eq _ line, ← line]
  rfl

/-! ## Classes and candidates -/

theorem effectiveClass_eq (e : SourceEntry) (seg : Segment) :
    effectiveClass e seg = if seg.urg = true ∧ e.urgentOk = true then .urgent else .ordinary := by
  simp only [effectiveClass, Bool.and_eq_true]

theorem State.evictable_iff : s.evictable n = true ↔ (s.ctx n).cls = .ordinary := by
  rw [State.evictable, beq_iff_eq]

theorem State.not_evictable_iff : s.evictable n = false ↔ (s.ctx n).cls = .urgent := by
  rw [State.evictable]
  cases (s.ctx n).cls <;> decide

theorem State.slotCandidate_none : s.slotCandidate = none ↔ ∀ n ∈ s.ageList, (s.ctx n).cls = .urgent := by
  simp only [State.slotCandidate, List.find?_eq_none, Bool.not_eq_true, State.not_evictable_iff]

theorem State.slotCandidate_eq {before behind : List CtxNo} (age : s.ageList = before ++ v :: behind)
    (urgent : ∀ n ∈ before, (s.ctx n).cls = .urgent) (ordinary : (s.ctx v).cls = .ordinary) : s.slotCandidate = some v := by
  have skipped : before.find? s.evictable = none := by
    simpa only [List.find?_eq_none, Bool.not_eq_true, State.not_evictable_iff] using urgent
  rw [State.slotCandidate, age, List.find?_append, skipped, Option.none_or,
    List.find?_cons_of_pos (State.evictable_iff.2 ordinary)]

theorem State.candidatePasses_eq {before behind : List CtxNo} (age : s.ageList = before ++ v :: behind) (new : v ∉ before)
    (k : Nat) : s.candidatePasses v k =
      decide (k ≤ s.pool.freeList.length + (s.ctx v).chain.length + s.evictableCells (before ++ behind)) := by
  rw [State.candidatePasses, age, List.erase_append_right _ new, List.erase_cons_head]
  rfl

theorem State.lowestFree_exists (free : ∃ n, (s.ctx n).state = .free) : ∃ n, s.lowestFree = some n := by
  refine Option.ne_none_iff_exists'.1 fun none => ?_
  obtain ⟨n, free⟩ := free
  exact State.lowestFree_none.1 none n free

/-- Settles O20: the tests of an open in their order; a store that its record's class starves. -/
theorem requestsThatFail : Obligations.RequestsThatFail := by
  unfold Obligations.RequestsThatFail
  dsimp only
  refine ⟨fun s l content seg k h passes admitted unheld unseen => ?_,
    fun s l content seg k n h passes admitted held collecting tests absent => ?_⟩
  · rw [h.opens passes admitted unheld unseen, effectiveClass_eq]
    refine ⟨fun limit => ?_, fun limit => ⟨fun used spared => ?_, fun free ordinary short => ?_, fun free urgent short => ?_,
      fun v before behind used urgent age older ordinary new short => ?_⟩⟩
    · rw [openContext_limit (s := s.afterServing l) _ limit, refuseAndPost_eq passes.line]
      rfl
    · rw [openContext_noRecord (s := s.afterServing l) limit (State.lowestFree_none.2 used), refuseAndPost_eq passes.line]
      · rfl
      · exact spared.imp (fun ordinary => if_neg ordinary) State.slotCandidate_none.2
    · obtain ⟨n, free⟩ := State.lowestFree_exists (s := s.afterServing l) free
      rw [if_neg ordinary, openContext_short (s := s.afterServing l) limit free, refuseForCells_eq passes.line]
      exact decide_eq_false (Nat.not_le_of_lt short)
    · obtain ⟨n, free⟩ := State.lowestFree_exists (s := s.afterServing l) free
      rw [if_pos urgent, openContext_short (s := s.afterServing l) limit free, refuseForCells_eq passes.line]
      exact decide_eq_false (Nat.not_le_of_lt short)
    · have candidate : (s.afterServing l).slotCandidate = some v := State.slotCandidate_eq (s := s.afterServing l) age older ordinary
      rw [if_pos urgent, openContext_candidateShort (s := s.afterServing l) limit (State.lowestFree_none.2 used) candidate,
        refuseForCells_eq passes.line]
      rw [State.candidatePasses_eq (s := s.afterServing l) age new]
      exact decide_eq_false (Nat.not_le_of_lt short)
  · have starves (short : (s.afterServing l).requestPasses (s.ctx n).cls (cellsFor seg.length) = false) :=
      storeInto_starves (s := s.afterServing l) (lastConflict_none.2 tests) absent short
    rw [h.storesInto passes admitted held collecting]
    refine ⟨fun ordinary short => ?_, fun urgent short => ?_⟩
    · rw [starves, starve, segmentEvent_eq _ passes.line]
      · rfl
      · rw [ordinary]
        exact decide_eq_false (Nat.not_le_of_lt short)
    · rw [starves, starve, segmentEvent_eq _ passes.line]
      · rfl
      · rw [urgent]
        exact decide_eq_false (Nat.not_le_of_lt short)

/-! ## The store -/

theorem evictForCells_enough {k : Nat} (enough : k ≤ s.freeCount) (l : LineNo) (records : List CtxNo) :
    evictForCells k l records s = s := by
  cases records with
  | nil => rfl
  | cons n rest => exact if_pos enough

theorem storeSegment_enough (enough : cellsFor seg.length ≤ s.freeCount) :
    storeSegment n seg s = joinIfWhole n (allocateAndStore n seg s) := by
  cases cls : (s.ctx n).cls with
  | ordinary => rw [storeSegment_ordinary cls]
  | urgent => rw [storeSegment_urgent cls, evictForCells_enough enough]

/-- The segment makes the record whole (spec 01 R20). -/
def Ctx.wholeWith (r : Ctx) (seg : Segment) : Prop :=
  ∃ i, (if seg.last then some seg.index else r.lastIndex) = some i ∧ r.presentCount = i.val

theorem Ctx.stored_whole (r : Ctx) (seg : Segment) (cells : List Nat) :
    (r.stored seg cells).whole = true ↔ r.wholeWith seg := by
  have last : (r.stored seg cells).lastIndex = if seg.last then some seg.index else r.lastIndex := rfl
  have count : (r.stored seg cells).presentCount = r.presentCount + 1 := rfl
  rw [Ctx.whole, Ctx.wholeWith, last, count]
  cases (if seg.last then some seg.index else r.lastIndex) with
  | none => simp
  | some i => simp

/-- The record with a segment stored in the cells at the head of a free list. -/
def Ctx.storing (r : Ctx) (seg : Segment) (freeList : List Nat) (st : CtxState) : Ctx :=
  { r.stored seg (freeList.take (cellsFor seg.length)) with
    state := st
    slots := r.slots.set seg.index (some ⟨seg.length, freeList.headD 0, cellsFor seg.length, seg.line⟩) }

theorem Ctx.stored_eq_storing (fits : seg.Fits) (r : Ctx) (freeList : List Nat) :
    r.stored seg (freeList.take (cellsFor seg.length)) = r.storing seg freeList r.state := by
  have first : (freeList.take (cellsFor seg.length)).headD 0 = freeList.headD 0 := by
    have some : cellsFor seg.length ≠ 0 := by
      have positive := fits.positive
      unfold cellsFor
      omega
    rw [List.headD_eq_head?_getD, List.headD_eq_head?_getD, List.head?_take, if_neg some]
  rw [Ctx.storing, ← first]
  rfl

/-- The state with a segment stored, and with the parts that a whole message changes. -/
def State.storing (s : State) (n : CtxNo) (seg : Segment) (st : CtxState) (age : List CtxNo) (checker : Checker) : State :=
  { s with
    ctxs := s.ctxs.set n ((s.ctx n).storing seg s.pool.freeList st)
    ageList := age
    pool :=
      { s.pool with
        mem := s.pool.mem.writeCells (s.pool.freeList.take (cellsFor seg.length)) seg.payload
        freeList := s.pool.freeList.drop (cellsFor seg.length) }
    checker := checker }

theorem State.ctx_storing (s : State) (n m : CtxNo) (seg : Segment) (st : CtxState) (age : List CtxNo) (checker : Checker) :
    (s.storing n seg st age checker).ctx m =
      if m = n then (s.ctx n).storing seg s.pool.freeList st else s.ctx m :=
  s.ctx_setCtx n m _

theorem allocateAndStore_whole (fits : seg.Fits) (whole : (s.ctx n).wholeWith seg) :
    joinIfWhole n (allocateAndStore n seg s) =
      s.storing n seg .verifying (s.ageList.erase n) { s.checker with queue := s.checker.queue ++ [n] } := by
  rw [allocateAndStore, joinIfWhole_whole ((Ctx.stored_whole _ _ _).2 whole), Ctx.stored_eq_storing fits]
  rfl

theorem allocateAndStore_part (fits : seg.Fits) (part : ¬(s.ctx n).wholeWith seg) :
    joinIfWhole n (allocateAndStore n seg s) = s.storing n seg (s.ctx n).state s.ageList s.checker := by
  rw [allocateAndStore, joinIfWhole_part (Bool.eq_false_iff.2 (mt (Ctx.stored_whole _ _ _).1 part)),
    Ctx.stored_eq_storing fits]
  rfl

theorem allocateAndStore_stores (fits : seg.Fits) (n : CtxNo) (s : State) :
    StoresInto s n seg (joinIfWhole n (allocateAndStore n seg s)) := by
  have record (st : CtxState) (age : List CtxNo) (checker : Checker) :
      ((s.storing n seg st age checker).ctx n).state = st := by
    rw [State.ctx_storing, if_pos rfl]
    rfl
  by_cases whole : (s.ctx n).wholeWith seg
  · rw [allocateAndStore_whole fits whole]
    unfold StoresInto
    rw [record]
    exact ⟨rfl, fun _ => ⟨rfl, rfl, rfl⟩, fun part => absurd whole part⟩
  · rw [allocateAndStore_part fits whole]
    unfold StoresInto
    rw [record]
    exact ⟨rfl, fun all => absurd all whole, fun _ => ⟨rfl, rfl, rfl⟩⟩

theorem requestPasses_of_enough {cls : MsgClass} (enough : cellsFor seg.length ≤ s.pool.freeList.length)
    (reserve : cls = .ordinary → cellsFor seg.length + s.pool.reserve ≤ s.pool.freeList.length) :
    s.requestPasses cls (cellsFor seg.length) = true := by
  cases cls with
  | ordinary => exact decide_eq_true (reserve rfl)
  | urgent => exact decide_eq_true (Nat.le_add_right_of_le enough)

/-- Settles O21: the request passes, no eviction is needed, and the store follows. -/
theorem segmentStored : Obligations.SegmentStored := by
  unfold Obligations.SegmentStored
  dsimp only
  intro s l content seg k n h passes admitted held collecting tests absent enough reserve
  have room : (s.afterServing l).requestPasses (s.ctx n).cls (cellsFor seg.length) = true :=
    requestPasses_of_enough (s := s.afterServing l) enough reserve
  refine ⟨_, h.storesInto passes admitted held collecting, ?_⟩
  rw [storeInto_passes (s := s.afterServing l) (lastConflict_none.2 tests) absent room,
    storeSegment_enough (s := s.afterServing l) enough]
  exact allocateAndStore_stores passes.fits n _

/-! ## The open -/

theorem Ctx.opened_wholeWith (cls : MsgClass) (seg : Segment) :
    (Ctx.opened cls seg).wholeWith seg ↔ seg.last = true ∧ seg.index = 0 := by
  have unknown : (Ctx.opened cls seg).lastIndex = none := rfl
  have zero : (Ctx.opened cls seg).presentCount = 0 := rfl
  rw [Ctx.wholeWith, unknown, zero]
  cases seg.last with
  | true =>
    refine ⟨?_, fun ⟨_, zero⟩ => ⟨0, congrArg some zero, rfl⟩⟩
    rintro ⟨i, last, zero⟩
    exact ⟨rfl, (Option.some.inj last).trans (Fin.ext zero.symm)⟩
  | false => simp

/-- The record as its first segment leaves it (spec 01 R14, R19). -/
def Ctx.openedWith (cls : MsgClass) (seg : Segment) (freeList : List Nat) (st : CtxState) : Ctx :=
  { Ctx.cleared with
    state := st
    source := seg.source
    msgno := seg.msgno
    cls := cls
    lastIndex := if seg.last then some seg.index else none
    checkWord := if seg.last then some seg.checkWord else none
    slots := (Vector.replicate 64 none).set seg.index (some ⟨seg.length, freeList.headD 0, cellsFor seg.length, seg.line⟩)
    chain := freeList.take (cellsFor seg.length)
    presentCount := 1
    byteCount := seg.length
    replyLine := seg.line
    lineMask := maskWith 0 seg.line }

theorem Ctx.opened_storing (cls : MsgClass) (seg : Segment) (freeList : List Nat) (st : CtxState) :
    (Ctx.opened cls seg).storing seg freeList st = .openedWith cls seg freeList st := by
  simp only [Ctx.storing, Ctx.stored, Ctx.opened, Ctx.cleared, Ctx.openedWith, Nat.zero_add, List.nil_append]

/-- An open, then its store, on top of the parts that a whole message changes. -/
theorem State.opened_storing (s : State) (n : CtxNo) (k : SlotNo) (cls : MsgClass) (seg : Segment) (e : EventRec) (st : CtxState)
    (age : List CtxNo) (checker : Checker) :
    ((s.openedFor n k cls seg).post e).storing n seg st age checker =
      { s with
        ctxs := s.ctxs.set n (.openedWith cls seg s.pool.freeList st)
        ageList := age
        pool :=
          { s.pool with
            mem := s.pool.mem.writeCells (s.pool.freeList.take (cellsFor seg.length)) seg.payload
            freeList := s.pool.freeList.drop (cellsFor seg.length) }
        sources := s.sources.set k { s.source k with openCount := (s.source k).openCount + 1 }
        checker := checker
        ev := s.ev.post e } := by
  have record : ((s.openedFor n k cls seg).post e).ctx n = Ctx.opened cls seg := by
    rw [State.ctx_post, State.ctx_openedFor, if_pos rfl]
  have ctxs : ((s.openedFor n k cls seg).post e).ctxs.set n (.openedWith cls seg s.pool.freeList st) =
      s.ctxs.set n (.openedWith cls seg s.pool.freeList st) := Vector.set_set ..
  unfold State.storing
  rw [record, Ctx.opened_storing]
  rw [← ctxs]
  rfl

/-- Settles O19: the open, then the store of the one segment. -/
theorem openStoresTheFirstSegment : Obligations.OpenStoresTheFirstSegment := by
  unfold Obligations.OpenStoresTheFirstSegment
  dsimp only
  intro s l content seg k n h passes admitted unheld unseen limit free unlisted enough reserve
  obtain rfl := passes.line
  rw [h.opens passes admitted unheld unseen, effectiveClass_eq, ← segmentEvent_eq _ rfl]
  generalize (if seg.urg = true ∧ (s.source k).urgentOk = true then MsgClass.urgent else .ordinary) = cls at reserve ⊢
  have code : numAt cls.code 0 = if cls = .urgent then 1 else 0 := by cases cls <;> rfl
  have room : (s.afterServing seg.line).requestPasses cls (cellsFor seg.length) = true :=
    requestPasses_of_enough (s := s.afterServing seg.line) enough reserve
  rw [openContext_opens (s := s.afterServing seg.line) limit free room, openAt_eq, code]
  generalize segmentEvent .ctxOpened seg (some n) (if cls = .urgent then 1 else 0) = e
  have record : (((s.afterServing seg.line).openedFor n k cls seg).post e).ctx n = Ctx.opened cls seg := by
    rw [State.ctx_post, State.ctx_openedFor, if_pos rfl]
  have whole_iff := Ctx.opened_wholeWith cls seg
  have age : (((s.afterServing seg.line).openedFor n k cls seg).post e).ageList.erase n = s.ageList := by
    change (s.ageList ++ [n]).erase n = _
    rw [List.erase_append_right _ unlisted, List.erase_cons_head, List.append_nil]
  rw [storeSegment_enough (s := ((s.afterServing seg.line).openedFor n k cls seg).post e) enough]
  by_cases whole : seg.last = true ∧ seg.index = 0
  · rw [allocateAndStore_whole passes.fits (by rw [record]; exact whole_iff.2 whole), State.opened_storing]
    simp only [if_pos whole, age]
    rfl
  · rw [allocateAndStore_part passes.fits (by rw [record]; exact mt whole_iff.1 whole), State.opened_storing, record]
    simp only [if_neg whole]
    rfl

end Requests

end Sys2Proof.Machine
end

