-- ==== Sys2Proof/Proofs/UrgentEvictions.lean ====
section
/-! SUPPORT. Urgent requests: the fewest ordinary records evicted in Age List order, then the store (spec 01 R12 to R14, 02 R39 to R44).
-/

namespace Sys2Proof.Machine

section Evictions

variable {s t u : State} {seg : Segment} {l : LineNo} {detail : Word} {victims records : List CtxNo} {n m v : CtxNo} {k : Nat} {j : SlotNo}

/-! ## Records evicted in turn -/

/-- One record evicted, as the statements write it. -/
def State.evictOne (l : LineNo) (detail : Word) (m : CtxNo) (s : State) : State :=
  ((s.handOver ((s.ctx m).refusal .evicted) (s.ctx m).replyLine (s.ctx m).lineMask).post
    ⟨.ctxEvicted, some l, some m, some (s.ctx m).source, some (s.ctx m).msgno, detail⟩).freeCtx m

theorem evict_eq_evictOne (cause : EvictCause) (l : LineNo) (m : CtxNo) (s : State) :
    evict cause l m s = s.evictOne l (BitVec.ofNat 16 cause.code) m := by
  rw [← numAt_zero]
  rfl

theorem State.evicting_cons (l : LineNo) (detail : Word) (m : CtxNo) (rest : List CtxNo) (s : State) :
    s.evicting l detail (m :: rest) = (s.evictOne l detail m).evicting l detail rest := rfl

theorem Freed.of_same (freed : Freed u records t) (ctxs : u.ctxs = s.ctxs) (age : u.ageList = s.ageList)
    (pool : u.pool = s.pool) (checker : u.checker = s.checker) (delivery : u.delivery = s.delivery) : Freed s records t := by
  have ctx (m : CtxNo) : u.ctx m = s.ctx m := State.ctx_congr ctxs m
  refine ⟨fun m => ?_, ?_, ?_, ?_, ?_, ?_⟩
  · rw [freed.ctx, ctx]
  · rw [freed.age, age]
  · simp only [freed.pool, pool, ctx]
  · rw [freed.queue, checker]
  · rw [freed.engine, checker]
  · rw [freed.delivery, delivery]

theorem State.evictOne_freed (m : CtxNo) (single : SingleEntries s) : Freed s [m] (s.evictOne l detail m) := by
  refine (freeCtx_freed m ⟨?_, ?_, ?_⟩).of_same ?_ ?_ ?_ ?_ ?_
  · exact (congrArg List.Nodup (State.handOver_ageList ..)).mpr single.age
  · exact (congrArg (fun c : Checker => c.queue.Nodup) (State.handOver_checker ..)).mpr single.check
  · exact (congrArg List.Nodup (State.handOver_delivery ..)).mpr single.delivery
  · exact State.handOver_ctxs ..
  · exact State.handOver_ageList ..
  · exact State.handOver_pool ..
  · exact State.handOver_checker ..
  · exact State.handOver_delivery ..

theorem State.evicting_freed (nodup : victims.Nodup) (single : SingleEntries s) : Freed s victims (s.evicting l detail victims) :=
  Freed.foldl (free := fun m u => u.evictOne l detail m) (fun m _ => State.evictOne_freed m) nodup single

/-! ## The fewest victims -/

theorem State.ordinaryOf_cons (n : CtxNo) (rest : List CtxNo) :
    s.ordinaryOf (n :: rest) = if s.evictable n = true then n :: s.ordinaryOf rest else s.ordinaryOf rest := List.filter_cons

theorem State.cellsOf_cons (n : CtxNo) (rest : List CtxNo) : s.cellsOf (n :: rest) = (s.ctx n).chain.length + s.cellsOf rest := by
  simp [State.cellsOf]

theorem State.cellsOf_congr (same : ∀ m ∈ records, t.ctx m = s.ctx m) : t.cellsOf records = s.cellsOf records := by
  unfold State.cellsOf
  rw [List.map_congr_left fun m mem => by rw [same m mem]]

theorem State.ordinaryOf_congr (same : ∀ m ∈ records, t.ctx m = s.ctx m) : t.ordinaryOf records = s.ordinaryOf records :=
  List.filter_congr fun m mem => by rw [same m mem]

/-- Eviction for cells is the eviction in turn of a head part of the listed ordinary records: as few as bring the free count to what
is asked, or all of them. -/
theorem evictForCells_eq (k : Nat) (l : LineNo) (nodup : records.Nodup) :
    ∃ victims spared, s.ordinaryOf records = victims ++ spared ∧ evictForCells k l records s = s.evicting l 2 victims ∧
      (spared = [] ∨ k ≤ s.pool.freeList.length + s.cellsOf victims) ∧
      (victims = [] ∨ s.pool.freeList.length + s.cellsOf victims.dropLast < k) := by
  induction records generalizing s with
  | nil => exact ⟨[], [], rfl, rfl, .inl rfl, .inl rfl⟩
  | cons n rest ih =>
    obtain ⟨new, nodup⟩ := List.nodup_cons.1 nodup
    by_cases enough : k ≤ s.freeCount
    · refine ⟨[], s.ordinaryOf (n :: rest), rfl, evictForCells_enough enough l _, .inr ?_, .inl rfl⟩
      exact Nat.le_add_right_of_le enough
    · by_cases ordinary : s.evictable n = true
      · have kept : ∀ m ∈ rest, (evict .cells l n s).ctx m = s.ctx m := fun m mem => by
          rw [ctx_evict, if_neg fun same : m = n => new (same ▸ mem)]
        obtain ⟨victims, spared, split, result, whole, fewest⟩ := ih (s := evict .cells l n s) nodup
        rw [State.ordinaryOf_congr kept] at split
        have among (m : CtxNo) (mem : m ∈ victims) : m ∈ rest :=
          List.mem_of_mem_filter (split ▸ List.mem_append_left spared mem : m ∈ s.ordinaryOf rest)
        have freed : (evict .cells l n s).pool.freeList.length = s.pool.freeList.length + (s.ctx n).chain.length :=
          freeCount_evict s .cells l n
        rw [freed, State.cellsOf_congr fun m mem => kept m (among m mem)] at whole
        rw [freed, State.cellsOf_congr fun m mem => kept m (among m (List.mem_of_mem_dropLast mem))] at fewest
        refine ⟨n :: victims, spared, ?_, ?_, whole.imp_right fun le => ?_, .inr ?_⟩
        · rw [State.ordinaryOf_cons, if_pos ordinary, split, List.cons_append]
        · rw [evictForCells, if_neg enough, if_pos ordinary, result, State.evicting_cons, evict_eq_evictOne]
          rfl
        · rw [State.cellsOf_cons]
          omega
        · rcases fewest with rfl | short
          · simpa [State.cellsOf, State.freeCount] using enough
          · by_cases none : victims = []
            · subst none
              simpa [State.cellsOf, State.freeCount] using enough
            · rw [List.dropLast_cons_of_ne_nil none, State.cellsOf_cons]
              omega
      · obtain ⟨victims, spared, split, result, rest⟩ := ih (s := s) nodup
        refine ⟨victims, spared, ?_, ?_, rest⟩
        · rw [State.ordinaryOf_cons, if_neg ordinary, split]
        · rw [evictForCells, if_neg enough, if_neg ordinary, result]

theorem evictForCells_fewest (l : LineNo) (nodup : s.ageList.Nodup)
    (enough : k ≤ s.pool.freeList.length + s.cellsOf (s.ordinaryOf s.ageList)) :
    ∃ victims, FewestVictims s k victims ∧ evictForCells k l s.ageList s = s.evicting l 2 victims := by
  obtain ⟨victims, spared, split, result, whole, fewest⟩ := evictForCells_eq (s := s) k l nodup
  refine ⟨victims, ⟨⟨spared, split⟩, whole.elim (fun none => ?_) id, fewest⟩, result⟩
  rw [split, none, List.append_nil] at enough
  exact enough

theorem FewestVictims.mem (fewest : FewestVictims s k victims) (mem : m ∈ victims) :
    m ∈ s.ageList ∧ (s.ctx m).cls = .ordinary := by
  obtain ⟨spared, split⟩ := fewest.oldest
  have listed : m ∈ s.ordinaryOf s.ageList := split ▸ List.mem_append_left spared mem
  exact ⟨List.mem_of_mem_filter listed, beq_iff_eq.1 (List.mem_filter.1 listed).2⟩

theorem FewestVictims.nodup (fewest : FewestVictims s k victims) (nodup : s.ageList.Nodup) : victims.Nodup := by
  obtain ⟨spared, split⟩ := fewest.oldest
  have all : (s.ordinaryOf s.ageList).Nodup := nodup.filter _
  rw [split] at all
  exact all.of_append_left

/-! ## The store behind the evictions -/

/-- What a store behind evictions leaves of the records, the cells, the Age List and the entries. -/
structure EvictsAndStores (s : State) (n : CtxNo) (seg : Segment) (victims : List CtxNo) (t : State) : Prop where
  victim : ∀ m ∈ victims, t.ctx m = Ctx.cleared
  other : ∀ m, m ∉ victims → m ≠ n → t.ctx m = s.ctx m
  chain : (t.ctx n).chain =
    (s.ctx n).chain ++ (s.pool.freeList ++ victims.flatMap fun m => (s.ctx m).chain).take (cellsFor seg.length)
  free : t.pool.freeList = (s.pool.freeList ++ victims.flatMap fun m => (s.ctx m).chain).drop (cellsFor seg.length)
  source : (t.ctx n).source = (s.ctx n).source
  msgno : (t.ctx n).msgno = (s.ctx n).msgno
  cls : (t.ctx n).cls = (s.ctx n).cls
  present : (t.ctx n).presentCount = (s.ctx n).presentCount + 1
  age : t.ageList.filter (· ≠ n) = s.ageList.filter fun m => m ≠ n ∧ m ∉ victims

theorem allocateAndStore_storing (fits : seg.Fits) (n : CtxNo) (s : State) :
    ∃ st age checker, joinIfWhole n (allocateAndStore n seg s) = s.storing n seg st age checker ∧
      (age = s.ageList ∨ age = s.ageList.erase n) := by
  by_cases whole : (s.ctx n).wholeWith seg
  · exact ⟨_, _, _, allocateAndStore_whole fits whole, .inr rfl⟩
  · exact ⟨_, _, _, allocateAndStore_part fits whole, .inl rfl⟩

theorem evictsAndStores (fits : seg.Fits) (single : SingleEntries s) (nodup : victims.Nodup) (own : n ∉ victims)
    (l : LineNo) (detail : Word) :
    EvictsAndStores s n seg victims (joinIfWhole n (allocateAndStore n seg (s.evicting l detail victims))) := by
  have freed := State.evicting_freed (l := l) (detail := detail) nodup single
  have here : (s.evicting l detail victims).ctx n = s.ctx n := by rw [freed.ctx, if_neg own]
  obtain ⟨st, age, checker, stored, listed⟩ := allocateAndStore_storing fits n (s.evicting l detail victims)
  rw [stored]
  generalize s.evicting l detail victims = u at freed here listed ⊢
  have record : (u.storing n seg st age checker).ctx n = (s.ctx n).storing seg u.pool.freeList st := by
    rw [State.ctx_storing, if_pos rfl, here]
  have free : u.pool.freeList = s.pool.freeList ++ victims.flatMap fun m => (s.ctx m).chain := by rw [freed.pool]
  refine ⟨fun m mem => ?_, fun m spared other => ?_, ?_, ?_, ?_, ?_, ?_, ?_, ?_⟩
  · rw [State.ctx_storing, if_neg fun same : m = n => own (same ▸ mem), freed.ctx, if_pos mem]
  · rw [State.ctx_storing, if_neg other, freed.ctx, if_neg spared]
  · rw [record, ← free]
    rfl
  · rw [← free]
    rfl
  · rw [record]
    rfl
  · rw [record]
    rfl
  · rw [record]
    rfl
  · rw [record]
    rfl
  · have without : age.filter (· ≠ n) = u.ageList.filter (· ≠ n) := by
      rcases listed with rfl | rfl
      · rfl
      · rw [(freed.singleEntries single).age.erase_eq_filter, List.filter_filter]
        exact List.filter_congr fun m _ => by simp
    change age.filter _ = _
    rw [without, freed.age, List.filter_filter]
    exact List.filter_congr fun m _ => by simp

/-! ## The open counts -/

theorem State.ctx_evictOne (m i : CtxNo) : (s.evictOne l detail m).ctx i = if i = m then Ctx.cleared else s.ctx i := by
  rw [State.evictOne, State.ctx_freeCtx, State.ctx_post, State.ctx_handOver]

theorem State.evictOne_source (m : CtxNo) (j : SlotNo) :
    (s.evictOne l detail m).source j =
      { s.source j with
        openCount := if s.findSource (s.ctx m).source = some j then (s.source j).openCount - 1 else (s.source j).openCount } := by
  have found (a : Byte) : (s.handOver ((s.ctx m).refusal .evicted) (s.ctx m).replyLine (s.ctx m).lineMask).findSource a =
      s.findSource a := State.findSource_congr (fun j => by rw [State.source_handOver]) (fun j => by rw [State.source_handOver]) a
  rw [State.evictOne, State.source_freeCtx, State.ctx_post, State.ctx_handOver, State.source_post, State.source_handOver, ← found]
  rfl

theorem State.evictOne_findSource (m : CtxNo) (a : Byte) : (s.evictOne l detail m).findSource a = s.findSource a :=
  State.findSource_congr (fun j => by rw [State.evictOne_source]) (fun j => by rw [State.evictOne_source]) a

/-- Records of a source. -/
def State.ofSource (s : State) (a : Byte) (records : List CtxNo) : List CtxNo := records.filter fun m => (s.ctx m).source == a

theorem State.ofSource_congr {a : Byte} (same : ∀ m ∈ records, t.ctx m = s.ctx m) : t.ofSource a records = s.ofSource a records :=
  List.filter_congr fun m mem => by rw [same m mem]

/-- Each record evicted lowers its source's open count by one. -/
theorem State.evicting_openCount {a : Byte} (nodup : victims.Nodup)
    (found : ∀ m ∈ victims, s.findSource (s.ctx m).source = some j ↔ (s.ctx m).source = a)
    (enough : (s.ofSource a victims).length ≤ (s.source j).openCount) :
    ((s.evicting l detail victims).source j).openCount + (s.ofSource a victims).length = (s.source j).openCount := by
  induction victims generalizing s with
  | nil => rfl
  | cons m rest ih =>
    obtain ⟨new, nodup⟩ := List.nodup_cons.1 nodup
    have kept : ∀ i ∈ rest, (s.evictOne l detail m).ctx i = s.ctx i := fun i mem => by
      rw [State.ctx_evictOne, if_neg fun same : i = m => new (same ▸ mem)]
    have count : (s.ofSource a (m :: rest)).length = (s.ofSource a rest).length + if (s.ctx m).source = a then 1 else 0 := by
      simp only [State.ofSource, List.filter_cons, beq_iff_eq]
      split
      · rfl
      · rfl
    have lowered : ((s.evictOne l detail m).source j).openCount =
        (s.source j).openCount - if (s.ctx m).source = a then 1 else 0 := by
      rw [State.evictOne_source]
      simp only [found m List.mem_cons_self]
      split
      · rfl
      · rfl
    have same := State.ofSource_congr (a := a) kept
    have later := ih (s := s.evictOne l detail m) nodup
      (fun i mem => by rw [kept i mem, State.evictOne_findSource, found i (List.mem_cons_of_mem _ mem)])
      (by rw [same, lowered]; omega)
    rw [same, lowered] at later
    rw [State.evicting_cons, count]
    omega

/-- A source's open count covers any of its records in use. -/
theorem SourcesInv.ofSource_length (inv : SourcesInv s) (used : (s.source j).state ≠ .unused) (nodup : records.Nodup)
    (inUse : ∀ m ∈ records, (s.ctx m).state ≠ .free) :
    (s.ofSource (s.source j).address records).length ≤ (s.source j).openCount := by
  rw [inv.counts j used]
  refine ((nodup.filter _).subperm fun m mem => ?_).length_le
  obtain ⟨listed, source⟩ := List.mem_filter.1 mem
  exact State.mem_heldBy.2 ⟨inUse m listed, beq_iff_eq.1 source⟩

end Evictions

end Sys2Proof.Machine
end

