-- ==== Sys2Proof/Proofs/UrgentOpens.lean ====
section
/-! SUPPORT. Urgent stores and opens that evict (spec 01 R11 to R14, R19, R22, R27, 02 R39 to R44). -/

namespace Sys2Proof.Machine

section Urgent

variable {s t base : State} {l : LineNo} {seg : Segment} {victims evicted : List CtxNo} {n m v : CtxNo} {j k : SlotNo}

/-- Enough cells to be had: the fewest victims are evicted, and the segment is stored behind them. -/
theorem storeSegment_evicts (urgent : (s.ctx n).cls = .urgent) (nodup : s.ageList.Nodup)
    (enough : cellsFor seg.length ≤ s.pool.freeList.length + s.cellsOf (s.ordinaryOf s.ageList)) :
    ∃ victims, FewestVictims s (cellsFor seg.length) victims ∧
      storeSegment n seg s = joinIfWhole n (allocateAndStore n seg (s.evicting seg.line 2 victims)) := by
  obtain ⟨victims, fewest, evicted⟩ := evictForCells_fewest seg.line nodup enough
  exact ⟨victims, fewest, by rw [storeSegment_urgent urgent, evicted]⟩

theorem allocateAndStore_source (fits : seg.Fits) (n : CtxNo) (s : State) (j : SlotNo) :
    (joinIfWhole n (allocateAndStore n seg s)).source j = s.source j := by
  obtain ⟨st, age, checker, stored, -⟩ := allocateAndStore_storing fits n s
  rw [stored]
  rfl

theorem FewestVictims.not_urgent (fewest : FewestVictims s (cellsFor seg.length) victims) (urgent : (s.ctx n).cls = .urgent) :
    n ∉ victims := fun mem => by
  have ordinary := (fewest.mem mem).2
  rw [urgent] at ordinary
  cases ordinary

theorem CollectionsInv.inUse_of_listed (inv : CollectionsInv s) (listed : m ∈ s.ageList) : (s.ctx m).state ≠ .free := by
  rw [(inv.ageHolds m).1 listed]
  nofun

/-- Settles O23: the fewest victims, what their evictions leave, and the store behind them. -/
theorem urgentStoreEvictsForCells : Obligations.UrgentStoreEvictsForCells := by
  unfold Obligations.UrgentStoreEvictsForCells
  dsimp only
  intro s l content seg k n inv h passes admitted held collecting urgent tests absent short enough
  obtain rfl := passes.line
  have room : (s.afterServing seg.line).requestPasses (s.ctx n).cls (cellsFor seg.length) = true := by
    rw [urgent]
    exact decide_eq_true enough
  obtain ⟨victims, fewest, stored⟩ := storeSegment_evicts (s := s.afterServing seg.line) urgent inv.ageNodup enough
  have own := fewest.not_urgent urgent
  have nodup := fewest.nodup inv.ageNodup
  have single : SingleEntries (s.afterServing seg.line) := ⟨inv.ageNodup, inv.checkNodup, inv.deliveryNodup⟩
  have result := evictsAndStores passes.fits single nodup own seg.line 2
  refine ⟨_, victims, (h.storesInto passes admitted held collecting).trans (congrArg _ ?_),
    ⟨fewest.oldest, fewest.enough, fewest.fewest⟩, allocateAndStore_stores passes.fits n _, result.victim, result.other,
    result.chain, result.free, result.present, result.age, fun sources j used => ?_⟩
  · rw [storeInto_passes (s := s.afterServing seg.line) (lastConflict_none.2 tests) absent room, stored]
  · have inUse (m : CtxNo) (mem : m ∈ victims) : (s.ctx m).state ≠ .free := inv.inUse_of_listed (fewest.mem mem).1
    rw [allocateAndStore_source passes.fits]
    exact State.evicting_openCount (s := s.afterServing seg.line) nodup
      (fun m _ => (sources.table.findSource_iff used _).trans eq_comm) (sources.ofSource_length used nodup inUse)

/-! ## Opens -/

/-- The state in which an urgent open evicts for cells, and what follows: the store, and what it leaves (spec 01 R14, 02 R39 to R44). -/
def OpensUrgent (s base : State) (n : CtxNo) (k : SlotNo) (seg : Segment) (evicted : List CtxNo) (t : State) : Prop :=
  ∃ victims, FewestVictims base (cellsFor seg.length) victims ∧
    StoresInto ((base.openedUrgent n k seg).evicting seg.line 2 victims) n seg t ∧
    (∀ m ∈ victims, t.ctx m = Ctx.cleared) ∧ (∀ m, m ∉ victims → m ≠ n → t.ctx m = s.ctx m) ∧
    (t.ctx n).chain = (base.pool.freeList ++ victims.flatMap fun m => (s.ctx m).chain).take (cellsFor seg.length) ∧
    t.pool.freeList = (base.pool.freeList ++ victims.flatMap fun m => (s.ctx m).chain).drop (cellsFor seg.length) ∧
    (t.ctx n).source = seg.source ∧ (t.ctx n).msgno = seg.msgno ∧ (t.ctx n).cls = .urgent ∧ (t.ctx n).presentCount = 1 ∧
    t.ageList.filter (· ≠ n) = s.ageList.filter (fun m => m ≠ n ∧ m ∉ victims) ∧
    (SourcesInv s → ∀ j, (s.source j).state ≠ .unused →
      (t.source j).openCount + (s.ofSource (s.source j).address (evicted ++ victims)).length =
        (s.source j).openCount + if j = k then 1 else 0)

/-- The state that an urgent open finds, evictions for its record done. -/
structure OpenBase (s base : State) (n : CtxNo) (evicted : List CtxNo) : Prop where
  other : ∀ m, m ≠ n → base.ctx m = s.ctx m
  age : base.ageList = s.ageList.filter (· ≠ n)
  single : SingleEntries base
  evictedOnly : ∀ m ∈ evicted, m = n
  nodup : evicted.Nodup
  inUse : ∀ m ∈ evicted, (s.ctx m).state ≠ .free
  found : ∀ a, base.findSource a = s.findSource a
  address : ∀ j, (base.source j).address = (s.source j).address
  counts : SourcesInv s → ∀ j, (s.source j).state ≠ .unused →
    (base.source j).openCount + (s.ofSource (s.source j).address evicted).length = (s.source j).openCount

theorem State.openedUrgent_eq (s : State) (n : CtxNo) (k : SlotNo) (seg : Segment) :
    s.openedUrgent n k seg =
      (s.openedFor n k .urgent seg).post ⟨.ctxOpened, some seg.line, some n, some seg.source, some seg.msgno, 1⟩ := rfl

theorem State.ctx_openedUrgent_same (s : State) (n : CtxNo) (k : SlotNo) (seg : Segment) :
    (s.openedUrgent n k seg).ctx n = Ctx.opened .urgent seg := by
  rw [State.openedUrgent_eq, State.ctx_post, State.ctx_openedFor, if_pos rfl]

theorem State.ctx_openedUrgent_other (other : m ≠ n) (s : State) (k : SlotNo) (seg : Segment) :
    (s.openedUrgent n k seg).ctx m = s.ctx m := by
  rw [State.openedUrgent_eq, State.ctx_post, State.ctx_openedFor, if_neg other]

theorem State.source_openedUrgent (s : State) (n : CtxNo) (k j : SlotNo) (seg : Segment) :
    (s.openedUrgent n k seg).source j =
      { s.source j with openCount := (s.source j).openCount + if j = k then 1 else 0 } := by
  refine (State.source_setSource (State.setCtx { s with ageList := s.ageList ++ [n] } n (Ctx.opened .urgent seg)) k j _).trans ?_
  by_cases here : j = k
  · subst here
    rw [if_pos rfl, if_pos rfl]
  · rw [if_neg here, if_neg here]
    rfl

theorem State.findSource_openedUrgent (s : State) (n : CtxNo) (k : SlotNo) (seg : Segment) (a : Byte) :
    (s.openedUrgent n k seg).findSource a = s.findSource a :=
  State.findSource_congr (fun j => by rw [State.source_openedUrgent]) (fun j => by rw [State.source_openedUrgent]) a

/-- The opened record is not ordinary: it adds nothing to what eviction may take. -/
theorem State.ordinaryOf_openedUrgent (unlisted : n ∉ s.ageList) (k : SlotNo) (seg : Segment) :
    (s.openedUrgent n k seg).ordinaryOf (s.openedUrgent n k seg).ageList = s.ordinaryOf s.ageList := by
  have older : (s.openedUrgent n k seg).ordinaryOf s.ageList = s.ordinaryOf s.ageList :=
    State.ordinaryOf_congr fun m mem => State.ctx_openedUrgent_other (fun same : m = n => unlisted (same ▸ mem)) s k seg
  have opened : (s.openedUrgent n k seg).ordinaryOf [n] = [] := by
    rw [State.ordinaryOf, List.filter_singleton, State.ctx_openedUrgent_same]
    rfl
  calc (s.openedUrgent n k seg).ordinaryOf (s.openedUrgent n k seg).ageList
    _ = (s.openedUrgent n k seg).ordinaryOf s.ageList ++ (s.openedUrgent n k seg).ordinaryOf [n] := List.filter_append _ _
    _ = s.ordinaryOf s.ageList := by rw [opened, older, List.append_nil]

theorem SingleEntries.openedUrgent (single : SingleEntries s) (unlisted : n ∉ s.ageList) (k : SlotNo) (seg : Segment) :
    SingleEntries (s.openedUrgent n k seg) := by
  refine ⟨?_, single.check, single.delivery⟩
  exact List.nodup_append.2 ⟨single.age, List.nodup_singleton n, fun m mem _ here same =>
    unlisted (List.mem_singleton.1 here ▸ same ▸ mem)⟩

/-- The victims of an open's store, told in the state that the open finds. -/
theorem openAt_evicts (single : SingleEntries s) (unlisted : n ∉ s.ageList) (k : SlotNo)
    (enough : cellsFor seg.length ≤ s.pool.freeList.length + s.cellsOf (s.ordinaryOf s.ageList)) :
    ∃ victims, FewestVictims s (cellsFor seg.length) victims ∧
      openAt n k .urgent seg s =
        joinIfWhole n (allocateAndStore n seg ((s.openedUrgent n k seg).evicting seg.line 2 victims)) := by
  have ordinary := State.ordinaryOf_openedUrgent unlisted k seg
  have cells {records : List CtxNo} (listed : ∀ m ∈ records, m ∈ s.ageList) :
      (s.openedUrgent n k seg).cellsOf records = s.cellsOf records :=
    State.cellsOf_congr fun m mem => State.ctx_openedUrgent_other (fun same : m = n => unlisted (same ▸ listed m mem)) s k seg
  have urgent : ((s.openedUrgent n k seg).ctx n).cls = .urgent := by
    rw [State.ctx_openedUrgent_same]
    rfl
  have enough' : cellsFor seg.length ≤ (s.openedUrgent n k seg).pool.freeList.length +
      (s.openedUrgent n k seg).cellsOf ((s.openedUrgent n k seg).ordinaryOf (s.openedUrgent n k seg).ageList) := by
    rw [ordinary, cells (records := s.ordinaryOf s.ageList) fun m => List.mem_of_mem_filter]
    exact enough
  obtain ⟨victims, fewest, stored⟩ := storeSegment_evicts urgent (single.openedUrgent unlisted k seg).age enough'
  obtain ⟨spared, oldest⟩ := fewest.oldest
  rw [ordinary] at oldest
  have listed (m : CtxNo) (mem : m ∈ victims) : m ∈ s.ageList :=
    List.mem_of_mem_filter (oldest ▸ List.mem_append_left spared mem : m ∈ s.ordinaryOf s.ageList)
  have all := fewest.enough
  have least := fewest.fewest
  rw [cells listed] at all
  rw [cells fun m mem => listed m (List.mem_of_mem_dropLast mem)] at least
  exact ⟨victims, ⟨⟨spared, oldest⟩, all, least⟩, stored⟩

/-- The open counts behind an urgent open and its evictions (spec 03 R64). -/
theorem OpenBase.openCount (found : OpenBase s base n evicted) (inv : CollectionsInv s) (sources : SourcesInv s)
    (used : (s.source j).state ≠ .unused) (listed : ∀ m ∈ victims, m ∈ base.ageList) (nodup : victims.Nodup) (k : SlotNo)
    (seg : Segment) :
    (((base.openedUrgent n k seg).evicting seg.line 2 victims).source j).openCount +
        (s.ofSource (s.source j).address (evicted ++ victims)).length =
      (s.source j).openCount + if j = k then 1 else 0 := by
  have remains (m : CtxNo) (mem : m ∈ victims) : m ∈ s.ageList ∧ m ≠ n := by
    have filtered := listed m mem
    rw [found.age, List.mem_filter] at filtered
    exact ⟨filtered.1, of_decide_eq_true filtered.2⟩
  have inUse (m : CtxNo) (mem : m ∈ evicted ++ victims) : (s.ctx m).state ≠ .free :=
    (List.mem_append.1 mem).elim (found.inUse m) fun mem => inv.inUse_of_listed (remains m mem).1
  have all : (evicted ++ victims).Nodup := List.nodup_append.2 ⟨found.nodup, nodup, fun m out i mem same =>
    (remains i mem).2 (same ▸ found.evictedOnly m out)⟩
  have most := sources.ofSource_length used all inUse
  have counts := found.counts sources j used
  have both : (s.ofSource (s.source j).address (evicted ++ victims)).length =
      (s.ofSource (s.source j).address evicted).length + (s.ofSource (s.source j).address victims).length := by
    rw [State.ofSource, List.filter_append, List.length_append]
    rfl
  have same : (base.openedUrgent n k seg).ofSource (s.source j).address victims = s.ofSource (s.source j).address victims :=
    State.ofSource_congr fun m mem => by
      rw [State.ctx_openedUrgent_other (remains m mem).2, found.other m (remains m mem).2]
  have lowered := State.evicting_openCount (s := base.openedUrgent n k seg) (j := j) (a := (s.source j).address)
    (l := seg.line) (detail := 2) nodup
    (fun m mem => by
      rw [State.findSource_openedUrgent, found.found]
      exact (sources.table.findSource_iff used _).trans eq_comm)
    (by rw [same, State.source_openedUrgent]; dsimp only; omega)
  rw [same, State.source_openedUrgent] at lowered
  dsimp only at lowered
  omega

theorem openAt_opensUrgent (fits : seg.Fits) (inv : CollectionsInv s) (found : OpenBase s base n evicted)
    (enough : cellsFor seg.length ≤ base.pool.freeList.length + base.cellsOf (base.ordinaryOf base.ageList)) (k : SlotNo) :
    OpensUrgent s base n k seg evicted (openAt n k .urgent seg base) := by
  have unlisted : n ∉ base.ageList := by rw [found.age]; simp
  obtain ⟨victims, fewest, stored⟩ := openAt_evicts found.single unlisted k enough
  have listed (m : CtxNo) (mem : m ∈ victims) : m ∈ base.ageList := (fewest.mem mem).1
  have nodup := fewest.nodup found.single.age
  have result := evictsAndStores fits (found.single.openedUrgent unlisted k seg) nodup (fun mem => unlisted (listed n mem))
    seg.line 2
  have record := State.ctx_openedUrgent_same base n k seg
  have before (m : CtxNo) (other : m ≠ n) : (base.openedUrgent n k seg).ctx m = s.ctx m :=
    (State.ctx_openedUrgent_other other base k seg).trans (found.other m other)
  have chains : (victims.flatMap fun m => ((base.openedUrgent n k seg).ctx m).chain) = victims.flatMap fun m => (s.ctx m).chain :=
    List.flatMap_congr fun m mem => by rw [before m fun same => unlisted (same ▸ listed m mem)]
  have chain := result.chain
  have free := result.free
  rw [record, chains] at chain
  rw [chains] at free
  rw [stored]
  refine ⟨victims, fewest, allocateAndStore_stores fits n _, result.victim, fun m spared other => ?_, chain, free,
    result.source.trans (congrArg Ctx.source record), result.msgno.trans (congrArg Ctx.msgno record),
    result.cls.trans (congrArg Ctx.cls record), ?_, ?_, fun sources j used => ?_⟩
  · rw [result.other m spared other, before m other]
  · rw [result.present, record]
    rfl
  · have age : (base.openedUrgent n k seg).ageList = s.ageList.filter (· ≠ n) ++ [n] := by
      rw [← found.age]
      rfl
    have own : [n].filter (fun m => decide (m ≠ n ∧ m ∉ victims)) = [] := by simp
    rw [result.age, age, List.filter_append, own, List.append_nil, List.filter_filter]
    refine List.filter_congr fun m _ => ?_
    by_cases here : m = n <;> simp [here]
  · rw [allocateAndStore_source fits]
    exact found.openCount inv sources used listed nodup k seg

/-- The first candidate evicted: its record is the one to open (spec 01 R12). -/
theorem evictOne_openBase (inv : CollectionsInv s) (listed : v ∈ s.ageList) (l : LineNo) (detail : Word) :
    OpenBase s (s.evictOne l detail v) v [v] := by
  have freed := State.evictOne_freed (l := l) (detail := detail) v inv.singleEntries
  have inUse : ∀ m ∈ [v], (s.ctx m).state ≠ .free := fun m mem =>
    List.mem_singleton.1 mem ▸ inv.inUse_of_listed listed
  refine ⟨fun m other => ?_, ?_, freed.singleEntries inv.singleEntries, fun m => List.mem_singleton.1, List.nodup_singleton v,
    inUse, State.evictOne_findSource v, fun j => ?_, fun sources j used => ?_⟩
  · rw [State.ctx_evictOne, if_neg other]
  · rw [freed.age]
    exact List.filter_congr fun m _ => by simp
  · rw [State.evictOne_source]
  · exact State.evicting_openCount (victims := [v]) (List.nodup_singleton v)
      (fun m _ => (sources.table.findSource_iff used _).trans eq_comm)
      (sources.ofSource_length used (List.nodup_singleton v) inUse)

/-- The cells to be had when the first candidate is evicted (spec 01 R13, 02 R40). -/
theorem evictOne_cells {before behind : List CtxNo} (inv : CollectionsInv s) (age : s.ageList = before ++ v :: behind)
    (l : LineNo) (detail : Word) :
    (s.evictOne l detail v).pool.freeList.length +
        (s.evictOne l detail v).cellsOf ((s.evictOne l detail v).ordinaryOf (s.evictOne l detail v).ageList) =
      s.pool.freeList.length + (s.ctx v).chain.length + s.cellsOf (s.ordinaryOf (before ++ behind)) := by
  have freed := State.evictOne_freed (l := l) (detail := detail) v inv.singleEntries
  have nodup := inv.ageNodup
  rw [age] at nodup
  obtain ⟨new, -⟩ := List.nodup_cons.1 (List.nodup_middle.1 nodup)
  have left : (s.evictOne l detail v).ageList = before ++ behind := by
    have erased : (before ++ v :: behind).erase v = before ++ behind := by
      rw [List.erase_append_right _ fun mem => new (List.mem_append_left _ mem), List.erase_cons_head]
    rw [freed.age, age, ← erased, nodup.erase_eq_filter]
    exact List.filter_congr fun m _ => by rw [Bool.eq_iff_iff]; simp
  have kept (m : CtxNo) (mem : m ∈ before ++ behind) : (s.evictOne l detail v).ctx m = s.ctx m := by
    rw [State.ctx_evictOne, if_neg fun same : m = v => new (same ▸ mem)]
  have free : (s.evictOne l detail v).pool.freeList.length = s.pool.freeList.length + (s.ctx v).chain.length := by
    rw [freed.pool]
    simp
  rw [left, free, State.ordinaryOf_congr kept,
    State.cellsOf_congr (records := s.ordinaryOf (before ++ behind)) fun m mem => kept m (List.mem_of_mem_filter mem)]

/-- Settles O24: the record found FREE, or the first candidate evicted; then one open. -/
theorem urgentOpenEvicts : Obligations.UrgentOpenEvicts := by
  unfold Obligations.UrgentOpenEvicts
  dsimp only
  intro s l content seg k inv h passes admitted unheld unseen limit flag allowed
  obtain rfl := passes.line
  have exec := h.opens passes admitted unheld unseen
  rw [effectiveClass_eq, if_pos ⟨flag, allowed⟩] at exec
  have single : SingleEntries (s.afterServing seg.line) := ⟨inv.ageNodup, inv.checkNodup, inv.deliveryNodup⟩
  refine ⟨fun n free enough => ?_, fun v before behind used age older ordinary enough => ?_⟩
  · have unlisted : n ∉ s.ageList := fun mem => inv.inUse_of_listed mem (State.lowestFree_some free)
    have room : (s.afterServing seg.line).requestPasses .urgent (cellsFor seg.length) = true := decide_eq_true enough
    have found : OpenBase s (s.afterServing seg.line) n [] := by
      refine ⟨fun _ _ => rfl, (List.filter_eq_self.2 fun m mem => ?_).symm, single, nofun, List.nodup_nil, nofun, fun _ => rfl,
        fun _ => rfl, fun _ _ _ => rfl⟩
      exact decide_eq_true fun same => unlisted (same ▸ mem)
    rw [openContext_opens (s := s.afterServing seg.line) limit free room] at exec
    exact ⟨_, exec, openAt_opensUrgent passes.fits inv found enough k⟩
  · have candidate : (s.afterServing seg.line).slotCandidate = some v :=
      State.slotCandidate_eq (s := s.afterServing seg.line) age older ordinary
    have inv' : CollectionsInv (s.afterServing seg.line) :=
      ⟨inv.ageNodup, inv.ageHolds, inv.checkNodup, inv.checkHolds, inv.deliveryNodup, inv.deliveryHolds, inv.portHolds,
        inv.checkedExists, inv.freeIsCleared⟩
    have slot : evict .slot seg.line v (s.afterServing seg.line) = (s.afterServing seg.line).evicting seg.line 1 [v] :=
      evict_eq_evictOne .slot seg.line v _
    have cells := evictOne_cells (s := s.afterServing seg.line) inv' age seg.line 1
    have listed : v ∈ s.ageList := by rw [age]; simp
    have base := evictOne_openBase (s := s.afterServing seg.line) inv' listed seg.line 1
    have nodup := inv.ageNodup
    rw [age] at nodup
    have new : v ∉ before := fun mem => (List.nodup_append.1 nodup).2.2 v mem v List.mem_cons_self rfl
    have room : (s.afterServing seg.line).candidatePasses v (cellsFor seg.length) = true := by
      rw [State.candidatePasses_eq (s := s.afterServing seg.line) age new]
      exact decide_eq_true enough
    rw [openContext_evicts (s := s.afterServing seg.line) limit (State.lowestFree_none.2 used) candidate room, slot]
      at exec
    have sources' (sources : SourcesInv s) : SourcesInv (s.afterServing seg.line) :=
      ⟨sources.unique, sources.present, sources.counts, sources.limits, sources.unusedCleared, sources.removing,
        sources.waiting⟩
    have base' : OpenBase s ((s.afterServing seg.line).evictOne seg.line 1 v) v [v] :=
      ⟨base.other, base.age, base.single, base.evictedOnly, base.nodup, base.inUse, base.found, base.address,
        fun sources => base.counts (sources' sources)⟩
    have opens := openAt_opensUrgent passes.fits inv base' (le_of_le_of_eq enough cells.symm) k
    have one : (s.afterServing seg.line).evictOne seg.line 1 v = (s.afterServing seg.line).evicting seg.line 1 [v] := rfl
    rw [one] at opens
    exact ⟨_, exec, opens⟩

end Urgent

end Sys2Proof.Machine
end

