-- ==== Sys2Proof/Proofs/RecordEffects.lean ====
section
/-! SUPPORT. What the elementary changes do to one record and to the payload bytes; what a record that goes on holding its message
keeps (spec 01 R3, 02 R34, R36; log 4). -/

namespace Sys2Proof.Machine

/-! ## Payload bytes written into cells -/

section Bytes

variable {m : Memory} {cells : List Nat} {bytes : List Byte}

/-- Byte o of the cell at place j of a list of written cells. -/
theorem Memory.read_writeCells (wf : Memory.wf m = true) (nodup : cells.Nodup) {j o : Nat} (inside : j < cells.length)
    (offset : o < 32) :
    (m.writeCells cells bytes).read (cellAddr cells[j] o) =
      if 32 * j + o < bytes.length then bytes.getD (32 * j + o) 0 else m.read (cellAddr cells[j] o) := by
  induction cells generalizing m bytes j with
  | nil => simp at inside
  | cons c rest ih =>
    obtain ⟨new, nodup⟩ := List.nodup_cons.1 nodup
    have first := Memory.wf_writeBytes wf (cellAddr c 0) (bytes.take Config.cellBytes)
    rw [Memory.writeCells]
    cases j with
    | zero =>
      rw [List.getElem_cons_zero, Memory.read_writeCells_other _ _ _ new offset, Memory.read_writeBytes wf]
      simp only [cellAddr, Config.cellBytes, List.length_take]
      by_cases written : o < bytes.length
      · rw [if_pos (by omega), if_pos (by omega), Nat.mul_zero, Nat.zero_add, Nat.add_zero, Nat.add_sub_cancel_left,
          List.getD_eq_getElem?_getD, List.getD_eq_getElem?_getD, List.getElem?_take_of_lt offset]
      · rw [if_neg (by omega), if_neg (by omega)]
    | succ j =>
      have inside : j < rest.length := Nat.lt_of_succ_lt_succ inside
      have other : rest[j] ≠ c := fun same => new (same ▸ List.getElem_mem _)
      have length : (bytes.drop 32).length = bytes.length - 32 := List.length_drop
      have later := ih (bytes := bytes.drop 32) first nodup inside
      rw [length] at later
      refine later.trans ?_
      by_cases written : 32 * (j + 1) + o < bytes.length
      · have place : 32 + (32 * j + o) = 32 * (j + 1) + o := by omega
        have before : 32 * j + o < bytes.length - 32 := by omega
        rw [if_pos written, if_pos before, List.getD_eq_getElem?_getD, List.getD_eq_getElem?_getD, List.getElem?_drop, place]
      · have behind : ¬32 * j + o < bytes.length - 32 := by omega
        rw [if_neg written, if_neg behind]
        refine Memory.read_writeBytes_outside m _ fun within => ?_
        simp only [cellAddr, Config.cellBytes, List.length_take] at within
        omega

end Bytes

/-! ## One record through a change -/

section Records

variable {w : Warrant} {s t u : State} {n m : CtxNo} {r q p : Ctx} {seg : Segment}

/-- A record that goes on with its message, its slots and its chain. -/
structure Ctx.Stands (q p : Ctx) : Prop where
  used : q.state ≠ .free → p.state ≠ .free
  collecting : p.state = .collecting → q.state = .collecting
  source : p.source = q.source
  msgno : p.msgno = q.msgno
  slots : p.slots = q.slots
  chain : p.chain = q.chain

theorem Ctx.Stands.refl (q : Ctx) : q.Stands q := ⟨id, id, rfl, rfl, rfl, rfl⟩

theorem Ctx.Stands.trans (h : r.Stands q) (rest : q.Stands p) : r.Stands p :=
  ⟨rest.used ∘ h.used, h.collecting ∘ rest.collecting, rest.source.trans h.source, rest.msgno.trans h.msgno,
    rest.slots.trans h.slots, rest.chain.trans h.chain⟩

/-- What one change does to one record. -/
inductive Ctx.Effect (w : Warrant) (q : Ctx) : Ctx → Prop
  | stands {p : Ctx} (stands : q.Stands p) : Ctx.Effect w q p
  | clears : Ctx.Effect w q Ctx.cleared
  | stores {p : Ctx} (seg : Segment) (cells : List Nat) (storing : w.storing) (collecting : q.state = .collecting)
      (absent : q.slots[seg.index] = none) (stored : (q.stored seg cells).Stands p) : Ctx.Effect w q p
  | opens (cls : MsgClass) (seg : Segment) (free : q.state = .free) (opening : w.opening seg.source seg.msgno) :
      Ctx.Effect w q (Ctx.opened cls seg)

/-- One record rewritten, the others as they stand. -/
theorem Ctx.Effect.of_set {n : CtxNo} {p : Ctx} (ctxs : ∀ m, t.ctx m = if m = n then p else s.ctx m)
    (here : (s.ctx n).Effect w p) (m : CtxNo) : (s.ctx m).Effect w (t.ctx m) := by
  rw [ctxs]
  split
  · rename_i same
    exact same ▸ here
  · exact .stands (.refl _)

theorem joinIfWhole_stands (s : State) (n m : CtxNo) : (s.ctx m).Stands ((joinIfWhole n s).ctx m) := by
  rcases joinIfWhole_cases s n with ⟨-, h⟩ | ⟨-, h⟩ <;> rw [h]
  · rw [State.ctx_joined]
    split
    · rename_i same
      subst same
      exact ⟨fun _ => nofun, nofun, rfl, rfl, rfl, rfl⟩
    · exact .refl _
  · exact .refl _

theorem Ctx.duplicated_keeps (r : Ctx) (seg : Segment) : r.Stands (r.duplicated seg) := by
  unfold Ctx.duplicated
  dsimp only
  split
  · exact ⟨id, id, rfl, rfl, rfl, rfl⟩
  · exact ⟨id, id, rfl, rfl, rfl, rfl⟩

/-- The record of a segment's store, joined to the Check Queue or not. -/
theorem stored_effect (storing : w.storing) (collecting : (s.ctx n).state = .collecting)
    (absent : (s.ctx n).slots[seg.index] = none) (m : CtxNo) :
    (s.ctx m).Effect w ((joinIfWhole n (allocateAndStore n seg s)).ctx m) := by
  have joined := joinIfWhole_stands (allocateAndStore n seg s) n m
  rw [ctx_allocateAndStore] at joined
  split at joined
  · rename_i same
    subst same
    exact .stores seg _ storing collecting absent joined
  · exact .stands joined

theorem Change.effect (h : Change w s t) (m : CtxNo) : (s.ctx m).Effect w (t.ctx m) := by
  have rewritten {n : CtxNo} {p : Ctx} (ctxs : ∀ m, t.ctx m = if m = n then p else s.ctx m)
      (stands : (s.ctx n).Stands p) : (s.ctx m).Effect w (t.ctx m) := .of_set ctxs (.stands stands) m
  cases h with
  | adjusts ctxs adjust =>
    have a := adjust m
    exact .stands ⟨fun used => a.state ▸ used, fun collecting => a.state ▸ collecting, a.source, a.msgno, a.slots, a.chain⟩
  | names n seg =>
    have joined := joinIfWhole_stands (s.setCtx n ((s.ctx n).duplicated seg)) n m
    rw [State.ctx_setCtx] at joined
    split at joined
    · rename_i same
      subst same
      exact .stands ((Ctx.duplicated_keeps _ seg).trans joined)
    · exact .stands joined
  | stores n seg fits collecting passes absent room storing => exact stored_effect storing collecting absent m
  | opens n k cls seg free unheld enabled address unseen limit opening =>
    exact .of_set (fun m => s.ctx_openedFor n m k cls seg) (.opens cls seg free opening) m
  | frees n => exact .of_set (fun m => s.ctx_freeCtx n m) .clears m
  | loses n r => exact .of_set (t := { s.freeCtx n with readout := r }) (fun m => s.ctx_freeCtx n m) .clears m
  | ends n => exact .of_set (t := (s.freeCtx n).engineIdle) (fun m => s.ctx_freeCtx n m) .clears m
  | confirms n => exact rewritten (s.ctx_matched n) ⟨fun _ => nofun, nofun, rfl, rfl, rfl, rfl⟩
  | requests n => exact rewritten (s.ctx_requestStop n) ⟨id, id, rfl, rfl, rfl, rfl⟩
  | claims n rest => exact rewritten (fun m => ctx_claim s n m rest) ⟨fun _ => nofun, nofun, rfl, rfl, rfl, rfl⟩
  | _ => exact .stands (.refl _)

/-- Payload bytes are written by a store alone, into cells of the free list. -/
theorem Change.mem (h : Change w s t) :
    t.pool.mem = s.pool.mem ∨
      w.storing ∧ ∃ cells bytes, (∀ c ∈ cells, c ∈ s.pool.freeList) ∧ t.pool.mem = s.pool.mem.writeCells cells bytes := by
  cases h with
  | names n seg => exact .inl (by rw [joinIfWhole_pool]; rfl)
  | stores n seg fits collecting passes absent room storing =>
    exact .inr ⟨storing, _, _, fun c mem => List.mem_of_mem_take mem, by rw [joinIfWhole_pool]; rfl⟩
  | frees n => exact .inl (State.freeCtx_mem s n)
  | loses n r => exact .inl (State.freeCtx_mem s n)
  | ends n => exact .inl (State.freeCtx_mem s n)
  | requests n => exact .inl (by rw [State.requestStop_frame])
  | _ => exact .inl rfl

end Records

end Sys2Proof.Machine
end

