-- ==== Sys2Proof/Proofs/StandingMessages.lean ====
section
/-! SUPPORT. A record that holds its message still keeps its slots, its chain and its bytes; one that lost it never holds it again within
a row (spec 01 R3, 02 R36). -/

namespace Sys2Proof.Machine

/-! ## A record against the one it was -/

section Records

variable {w : Warrant} {r q p : Ctx}

/-- The message stands: its key, its present slots, and its chain with what was added behind it. -/
structure Ctx.Remains (r q : Ctx) : Prop where
  used : q.state ≠ .free
  source : q.source = r.source
  msgno : q.msgno = r.msgno
  slots : ∀ i : SegIndex, (r.slots[i]).isSome → q.slots[i] = r.slots[i]
  chain : r.chain <+: q.chain

/-- The message is gone: the record is empty and takes no segment, or holds another key. -/
def Ctx.Leaves (r q : Ctx) : Prop :=
  (q.chain = [] ∧ (∀ i : SegIndex, q.slots[i] = none) ∧ q.state ≠ .collecting) ∨ ¬(q.source = r.source ∧ q.msgno = r.msgno)

theorem Ctx.Remains.refl (used : r.state ≠ .free) : r.Remains r := ⟨used, rfl, rfl, fun _ _ => rfl, List.prefix_rfl⟩

theorem Ctx.Remains.stands (h : r.Remains q) (stands : q.Stands p) : r.Remains p :=
  ⟨stands.used h.used, stands.source.trans h.source, stands.msgno.trans h.msgno,
    fun i present => stands.slots ▸ h.slots i present, stands.chain ▸ h.chain⟩

theorem Ctx.Remains.stored (h : r.Remains q) {seg : Segment} (cells : List Nat) (absent : q.slots[seg.index] = none) :
    r.Remains (q.stored seg cells) := by
  refine ⟨h.used, h.source, h.msgno, fun i present => ?_, h.chain.trans (List.prefix_append _ _)⟩
  have other : i ≠ seg.index := fun same => by
    have kept := h.slots i present
    rw [same, absent] at kept
    simp [same, ← kept] at present
  rw [Ctx.slots_stored, if_neg other]
  exact h.slots i present

theorem Ctx.Leaves.stands (h : r.Leaves q) (stands : q.Stands p) : r.Leaves p := by
  rcases h with ⟨chain, slots, resting⟩ | other
  · exact .inl ⟨stands.chain.trans chain, fun i => stands.slots ▸ slots i, fun collecting => resting (stands.collecting collecting)⟩
  · exact .inr (by rwa [stands.source, stands.msgno])

theorem Ctx.Leaves.cleared (r : Ctx) : r.Leaves Ctx.cleared :=
  .inl ⟨rfl, fun i => by simp [Ctx.cleared], nofun⟩

/-- A record that an effect takes a segment from its message keeps it lost, where no record is opened under its key. -/
theorem Ctx.Leaves.effect (h : r.Leaves q) (effect : q.Effect w p)
    (otherKey : ∀ a m, w.opening a m → ¬(a = r.source ∧ m = r.msgno)) : r.Leaves p := by
  cases effect with
  | stands stands => exact h.stands stands
  | clears => exact .cleared r
  | stores seg cells storing collecting absent stored =>
    rcases h with ⟨-, -, resting⟩ | other
    · exact absurd collecting resting
    · exact .inr (by rwa [stored.source, stored.msgno])
  | opens cls seg free opening => exact .inr (otherKey _ _ opening)

/-- A message that stands, stands behind an effect, or is gone. -/
theorem Ctx.Remains.effect (h : r.Remains q) (effect : q.Effect w p) : r.Remains p ∨ r.Leaves p := by
  cases effect with
  | stands stands => exact .inl (h.stands stands)
  | clears => exact .inr (.cleared r)
  | stores seg cells storing collecting absent stored => exact .inl ((h.stored cells absent).stands stored)
  | opens cls seg free => exact absurd free h.used

end Records

/-! ## The records and their bytes through a row -/

section Rows

variable {w : Warrant} {s t u : State} {n : CtxNo}

/-- Record n holds its message still, its cells' bytes unchanged, or has lost it. -/
def Kept (s u : State) (n : CtxNo) : Prop :=
  ((s.ctx n).Remains (u.ctx n) ∧
      ∀ c ∈ (s.ctx n).chain, ∀ o < 32, u.pool.mem.read (cellAddr c o) = s.pool.mem.read (cellAddr c o)) ∨
    (s.ctx n).Leaves (u.ctx n)

/-- Every record in use is kept, and the cells agree. -/
structure AllKept (s u : State) : Prop where
  pool : PoolInv u
  kept : ∀ n, (s.ctx n).state ≠ .free → Kept s u n

theorem AllKept.refl (inv : PoolInv s) : AllKept s s := ⟨inv, fun _ used => .inl ⟨.refl used, fun _ _ _ _ => rfl⟩⟩

/-- Bytes of a record's own cells stand through every change. -/
theorem Change.ownBytes (h : Change w s t) (inv : PoolInv s) {c o : Nat} (held : c ∈ (s.ctx n).chain) (offset : o < 32) :
    t.pool.mem.read (cellAddr c o) = s.pool.mem.read (cellAddr c o) := by
  rcases h.mem with same | ⟨-, cells, bytes, free, written⟩
  · rw [same]
  · rw [written]
    exact Memory.read_writeCells_other _ _ _ (fun mem => inv.not_mem_freeList held (free c mem)) offset

theorem AllKept.change (h : AllKept s u) (otherKey : ∀ a m, w.opening a m → s.lookupKey a m = none) (step : Change w u t) :
    AllKept s t := by
  refine ⟨step.pool h.pool, fun n used => ?_⟩
  have unheld (a : Byte) (m : MsgNo) (opening : w.opening a m) : ¬(a = (s.ctx n).source ∧ m = (s.ctx n).msgno) := by
    rintro ⟨rfl, rfl⟩
    exact State.lookupKey_none.1 (otherKey _ _ opening) n used rfl rfl
  rcases h.kept n used with ⟨remains, reads⟩ | leaves
  · refine (remains.effect (step.effect n)).imp (fun remains' => ⟨remains', fun c held o offset => ?_⟩) id
    exact (step.ownBytes h.pool (remains.chain.subset held) offset).trans (reads c held o offset)
  · exact .inr (leaves.effect (step.effect n) unheld)

theorem AllKept.of_records (same : t.records = u.records) (h : AllKept s u) : AllKept s t := by
  have ctx (n : CtxNo) : t.ctx n = u.ctx n := State.ctx_congr (congrArg Records.ctxs same) n
  refine ⟨h.pool.of_records same, fun n used => ?_⟩
  rw [Kept, ctx, mem_of_records same]
  exact h.kept n used

/-- The warrant of a row that may store a segment, and open a record under a key that none holds. -/
def keyedRow (s : State) (storing : Prop) : Warrant :=
  ⟨False, False, True, True, True, True, True, True, storing, fun a m => storing ∧ s.lookupKey a m = none⟩

theorem exec_keyed {c : Instr} (h : exec c s = .next t) (noReset : c ≠ .hardwareReset) :
    Moves (keyedRow s (c = .admissionEvent)) s t :=
  exec_moves h noReset False.elim False.elim (fun _ => trivial) (fun _ => trivial) (fun _ => trivial) (fun _ => trivial)
    (fun _ => trivial) (fun _ => trivial) fun admission => ⟨admission, fun _ _ none => ⟨admission, none⟩⟩

theorem exec_kept {c : Instr} (h : exec c s = .next t) (inv : PoolInv s) (used : (s.ctx n).state ≠ .free) : Kept s t n := by
  by_cases isReset : c = .hardwareReset
  · subst isReset
    refine .inr ?_
    rw [(atReset_of_hardwareReset h).ctx]
    exact .cleared _
  · exact ((exec_keyed h isReset).induct (AllKept s)
      (fun _ _ step kept => kept.change (w := keyedRow s (c = .admissionEvent)) (fun _ _ opening => opening.2) step)
      (fun _ _ same kept => kept.of_records same) (.refl inv)).kept n used

/-- Only an admission event writes payload bytes. -/
theorem exec_mem {c : Instr} (h : exec c s = .next t) (other : c ≠ .admissionEvent) : t.pool.mem = s.pool.mem := by
  by_cases isReset : c = .hardwareReset
  · subst isReset
    cases h
    rfl
  · exact (exec_keyed h isReset).induct (fun u => u.pool.mem = s.pool.mem)
      (fun _ _ step same => (step.mem.resolve_right fun ⟨admission, _⟩ => other admission).trans same)
      (fun _ _ records same => (mem_of_records records).trans same) rfl

end Rows

end Sys2Proof.Machine
end

