-- ==== Sys2Proof/Proofs/StoredBytes.lean ====
section
/-! SUPPORT. The one store of an admission event: the slot that becomes present, its cells and its bytes (spec 01 R3, R19, 02 R35, R36).
-/

namespace Sys2Proof.Machine

/-! ## The cells of a slot -/

section Cells

variable {r q : Ctx} {sl : Slot} {seg : Segment} {s t u : State} {n m : CtxNo} {i : SegIndex}

/-- What joins a chain behind leaves the cells of a slot. -/
theorem slotCells_of_prefix (grown : r.chain <+: q.chain) (enough : (r.slotCells sl).length = sl.cells) :
    q.slotCells sl = r.slotCells sl := by
  obtain ⟨more, grown⟩ := grown
  have room : sl.cells ≤ (r.chain.dropWhile (· != sl.first)).length := by
    rw [Ctx.slotCells, List.length_take] at enough
    omega
  rw [Ctx.slotCells, Ctx.slotCells, ← grown, List.dropWhile_append]
  split
  · rename_i none
    rw [List.isEmpty_iff.1 none] at room ⊢
    rw [Nat.le_zero.1 room, List.take_zero, List.take_zero]
  · exact List.take_append_of_le_length room

theorem slotBytes_congr {a b : Memory} (cells : q.slotCells sl = r.slotCells sl)
    (reads : ∀ c ∈ r.slotCells sl, ∀ o < 32, b.read (cellAddr c o) = a.read (cellAddr c o)) :
    q.slotBytes b sl = r.slotBytes a sl := by
  have same (c : Nat) (mem : c ∈ r.slotCells sl) : b.readCell c 0 32 = a.readCell c 0 32 :=
    List.map_congr_left fun j inside => by rw [Nat.zero_add, reads c mem j (List.mem_range.1 inside)]
  rw [Ctx.slotBytes, Ctx.slotBytes, cells]
  exact congrArg (List.take sl.length) (List.flatMap_congr same)

/-- The slot that a segment's store makes present. -/
def storedSlot (seg : Segment) (cells : List Nat) : Slot := ⟨seg.length, cells.headD 0, cellsFor seg.length, seg.line⟩

/-- The cells that a store takes. -/
def State.taken (s : State) (seg : Segment) : List Nat := s.pool.freeList.take (cellsFor seg.length)

theorem State.length_taken (room : cellsFor seg.length ≤ s.freeCount) : (s.taken seg).length = cellsFor seg.length :=
  taken_length room

theorem PoolInv.taken_nodup (inv : PoolInv s) (seg : Segment) : (s.taken seg).Nodup :=
  inv.freeList_nodup.sublist (List.take_sublist _ _)

/-- The stored segment's cells are those that the store took. -/
theorem stored_slotCells (inv : PoolInv s) (fits : seg.Fits) (room : cellsFor seg.length ≤ s.freeCount)
    (chain : q.chain = (s.ctx n).chain ++ s.taken seg) : q.slotCells (storedSlot seg (s.taken seg)) = s.taken seg := by
  have length := State.length_taken room
  have head : (s.taken seg).head? = some ((s.taken seg).headD 0) :=
    head?_eq_headD (length ▸ cellsFor_pos fits.positive)
  have nodup : ((s.ctx n).chain ++ s.taken seg ++ []).Nodup := by
    rw [List.append_nil]
    refine List.nodup_append.2 ⟨inv.chain_nodup n, inv.taken_nodup seg, fun a held b free same => ?_⟩
    exact inv.not_mem_freeList held (same ▸ List.mem_of_mem_take free)
  have run := take_dropWhile_of_run nodup head
  rw [List.append_nil, length] at run
  rw [Ctx.slotCells, chain]
  exact run

/-- The stored segment's bytes are its payload. -/
theorem stored_slotBytes {mem : Memory} (wf : Memory.wf mem = true) (inv : PoolInv s) (fits : seg.Fits)
    (room : cellsFor seg.length ≤ s.freeCount) (chain : q.chain = (s.ctx n).chain ++ s.taken seg)
    (slot : q.slots[i] = some (storedSlot seg (s.taken seg))) :
    q.slotBytes (mem.writeCells (s.taken seg) seg.payload) (storedSlot seg (s.taken seg)) = seg.payload := by
  have cells := stored_slotCells inv fits room chain
  have length := State.length_taken room
  have has : q.HasSlot i (storedSlot seg (s.taken seg)) := ⟨slot, fits.positive, rfl, by rw [cells, length]; rfl⟩
  have bounds := cellsFor_bounds seg.length
  refine List.ext_getElem (has.length_slotBytes.trans fits.payload.symm) fun j inside inside' => ?_
  have below : j < seg.length := fits.payload ▸ inside'
  have listed : j / 32 < (s.taken seg).length := by omega
  have byte := has.getElem?_slotBytes (m := mem.writeCells (s.taken seg) seg.payload) (t := j) below
  have place : 32 * (j / 32) + j % 32 = j := Nat.div_add_mod j 32
  rw [cells, List.getD_eq_getElem _ _ listed, Memory.read_writeCells wf (inv.taken_nodup seg) listed (Nat.mod_lt _ (by decide)),
    place, if_pos inside', List.getD_eq_getElem _ _ inside', List.getElem?_eq_getElem inside] at byte
  exact Option.some.inj byte

/-- Bytes that the payload does not reach stand. -/
theorem unwritten_stands {mem : Memory} (wf : Memory.wf mem = true) {cells : List Nat} (nodup : cells.Nodup) (bytes : List Byte)
    {c o : Nat} (offset : o < 32) (behind : ∀ j : Nat, cells[j]? = some c → bytes.length ≤ 32 * j + o) :
    (mem.writeCells cells bytes).read (cellAddr c o) = mem.read (cellAddr c o) := by
  by_cases listed : c ∈ cells
  · obtain ⟨j, inside, rfl⟩ := List.mem_iff_getElem.1 listed
    rw [Memory.read_writeCells wf nodup inside offset, if_neg]
    exact Nat.not_lt_of_le (behind j (List.getElem?_eq_getElem inside))
  · exact Memory.read_writeCells_other _ _ _ listed offset

end Cells

/-! ## New slots -/

section Slots

variable {w : Warrant} {s t u : State} {n m : CtxNo} {i : SegIndex} {seg : Segment}

theorem RecordsInv.used_of_slot (inv : RecordsInv s) (present : ((s.ctx n).slots[i]).isSome) : (s.ctx n).state ≠ .free := fun free => by
  rw [inv.collections.freeIsCleared n free] at present
  simp [Ctx.cleared] at present

/-- Without a store no slot becomes present. -/
theorem Change.no_newSlot (h : Change w u t) (still : ¬w.storing) (none : ¬NewSlot s u n i) : ¬NewSlot s t n i := by
  have effect := h.effect n
  generalize new : t.ctx n = p at effect
  unfold NewSlot at none ⊢
  rw [new]
  cases effect with
  | stands stands => rwa [stands.slots, stands.source, stands.msgno]
  | clears => simp [Ctx.cleared]
  | stores seg cells storing => exact absurd storing still
  | opens cls seg =>
    rintro ⟨present, -⟩
    rw [Ctx.opened_slots] at present
    cases present

/-- The warrant of an admission event up to its store. -/
def admissionRow (s : State) : Warrant :=
  ⟨True, False, True, True, True, True, True, True, False, fun a m => s.lookupKey a m = none⟩

/-- What an admission event leaves before its store. -/
structure BeforeStore (s u : State) : Prop where
  mem : u.pool.mem = s.pool.mem
  kept : AllKept s u
  noNew : ∀ n i, ¬NewSlot s u n i

theorem Changes.beforeStore (h : Changes (admissionRow s) s u) (inv : PoolInv s) : BeforeStore s u :=
  h.induct (BeforeStore s)
    (fun _ _ step before => ⟨(step.mem.resolve_right fun stores => stores.1).trans before.mem,
      before.kept.change (w := admissionRow s) (fun _ _ => id) step,
      fun n i => step.no_newSlot id (before.noNew n i)⟩)
    ⟨rfl, .refl inv, fun _ _ new => new.2 ⟨new.1, rfl, rfl⟩⟩

/-- A record joined or not, after the store: its chain and its slots. -/
theorem joined_stored (u : State) (n : CtxNo) (seg : Segment) :
    ((u.ctx n).stored seg (u.taken seg)).Stands ((joinIfWhole n (allocateAndStore n seg u)).ctx n) := by
  have stands := joinIfWhole_stands (allocateAndStore n seg u) n n
  rwa [ctx_allocateAndStore, if_pos rfl] at stands

theorem joined_other (other : m ≠ n) (u : State) (seg : Segment) :
    (u.ctx m).Stands ((joinIfWhole n (allocateAndStore n seg u)).ctx m) := by
  have stands := joinIfWhole_stands (allocateAndStore n seg u) n m
  rwa [ctx_allocateAndStore, if_neg other] at stands

/-- The store makes one slot present that no other change made. -/
theorem newSlot_iff (before : BeforeStore s u) (inv : RecordsInv s) (collecting : (u.ctx n).state = .collecting)
    (absent : (u.ctx n).slots[seg.index] = none) :
    NewSlot s (joinIfWhole n (allocateAndStore n seg u)) m i ↔ m = n ∧ i = seg.index := by
  refine ⟨fun new => ?_, ?_⟩
  · have here : m = n := by_contra fun other => by
      have stands := joined_other other u seg
      rw [NewSlot, stands.slots, stands.source, stands.msgno] at new
      exact before.noNew m i new
    subst here
    refine ⟨rfl, by_contra fun other => ?_⟩
    have stands := joined_stored u m seg
    rw [NewSlot, stands.slots, stands.source, stands.msgno, Ctx.slots_stored, if_neg other] at new
    exact before.noNew m i new
  · rintro ⟨rfl, rfl⟩
    have stands := joined_stored u m seg
    rw [NewSlot, stands.slots, stands.source, stands.msgno, Ctx.slots_stored, if_pos rfl]
    refine ⟨rfl, fun ⟨present, source, msgno⟩ => ?_⟩
    rcases before.kept.kept m (inv.used_of_slot present) with ⟨remains, -⟩ | ⟨-, -, resting⟩ | other
    · rw [← remains.slots _ present, absent] at present
      cases present
    · exact resting collecting
    · exact other ⟨source.symm, msgno.symm⟩

/-- What the store of an admission event writes (spec 01 R3, 02 R36). -/
theorem stored_reads (before : BeforeStore s u) (inv : RecordsInv s) (wf : Memory.wf s.pool.mem = true) (n : CtxNo)
    (stores : StoresAt (admissionRow s) seg n u) :
    let t := joinIfWhole n (allocateAndStore n seg u)
    (∀ (m : CtxNo) (i : SegIndex) (sl : Slot), NewSlot s t m i → (t.ctx m).slots[i] = some sl →
      (t.ctx m).slotBytes t.pool.mem sl = seg.payload ∧
        ∀ c o : Nat, o < 32 → (∀ j : Nat, ((t.ctx m).slotCells sl)[j]? = some c → seg.payload.length ≤ 32 * j + o) →
          t.pool.mem.read (32 * c + o) = s.pool.mem.read (32 * c + o)) ∧
      ∃ m i, NewSlot s t m i := by
  dsimp only
  refine ⟨fun m i sl new slot => ?_, n, seg.index,
    (newSlot_iff before inv stores.collecting stores.absent).2 ⟨rfl, rfl⟩⟩
  obtain ⟨rfl, rfl⟩ := (newSlot_iff before inv stores.collecting stores.absent).1 new
  have stands := joined_stored u m seg
  have mem : (joinIfWhole m (allocateAndStore m seg u)).pool.mem = s.pool.mem.writeCells (u.taken seg) seg.payload := by
    rw [joinIfWhole_pool, ← before.mem]
    rfl
  generalize joinIfWhole m (allocateAndStore m seg u) = t at stands mem slot ⊢
  have chain : (t.ctx m).chain = (u.ctx m).chain ++ u.taken seg := stands.chain
  have present : (t.ctx m).slots[seg.index] = some (storedSlot seg (u.taken seg)) := by
    rw [stands.slots, Ctx.slots_stored, if_pos rfl]
    rfl
  obtain rfl : sl = storedSlot seg (u.taken seg) := Option.some.inj (slot.symm.trans present)
  have room := stores.room trivial
  rw [mem, stored_slotCells before.kept.pool stores.fits room chain]
  refine ⟨stored_slotBytes wf before.kept.pool stores.fits room chain present, fun c o offset behind => ?_⟩
  exact unwritten_stands wf (before.kept.pool.taken_nodup seg) seg.payload offset behind

/-- What an admission event's outputs make of the payload bytes. -/
theorem admitFrame_reads (wf : Memory.wf s.pool.mem = true) (inv : RecordsInv s) (l : LineNo) (content : List Byte) :
    let t := admitFrame l content (s.afterServing l)
    (∀ (n : CtxNo) (i : SegIndex) (sl : Slot), NewSlot s t n i → (t.ctx n).slots[i] = some sl →
      (t.ctx n).slotBytes t.pool.mem sl = (parseSegment l content).payload ∧
        ∀ c o : Nat, o < 32 →
          (∀ j : Nat, ((t.ctx n).slotCells sl)[j]? = some c → (parseSegment l content).payload.length ≤ 32 * j + o) →
          t.pool.mem.read (32 * c + o) = s.pool.mem.read (32 * c + o)) ∧
      ((∀ n i, ¬NewSlot s t n i) → ∀ a, t.pool.mem.read a = s.pool.mem.read a) := by
  have inv' : RecordsInv (s.afterServing l) := RecordsInv.of_records (s := s) rfl inv
  have admits := admitFrame_admits (w := admissionRow (s.afterServing l)) (fun _ => inv'.collections) (fun _ _ => id) l content
  generalize admitFrame l content (s.afterServing l) = t at admits
  dsimp only
  rcases admits with moves | ⟨u, n, moves, stores, rfl⟩
  · have before := moves.beforeStore inv'.pool
    exact ⟨fun n i sl new => absurd new (before.noNew n i), fun _ a => congrArg (Memory.read · a) before.mem⟩
  · obtain ⟨reads, m, i, new⟩ := stored_reads (moves.beforeStore inv'.pool) inv' wf n stores
    exact ⟨reads, fun none => absurd new (none m i)⟩

/-- Settles O27: an admission event's changes, then its store; every other change of the bytes or of a held message is excluded. -/
theorem storedPayloadReadsBackAndStands : Obligations.StoredPayloadReadsBackAndStands := by
  unfold Obligations.StoredPayloadReadsBackAndStands
  refine ⟨fun s t l content wf inv serves h => ?_, fun c s t inv h n i sl slot slot' source msgno => ?_,
    fun c s t h => ⟨fun other a => by rw [exec_mem h other], fun inv n cell o held held' source msgno offset => ?_⟩⟩
  · rw [serves.admits] at h
    cases h
    exact admitFrame_reads wf inv l content
  · have present : ((s.ctx n).slots[i]).isSome := by rw [slot]; rfl
    rcases exec_kept h inv.pool (inv.used_of_slot present) with ⟨remains, reads⟩ | ⟨-, slots, -⟩ | other
    · have enough := (inv.chains n).slotCells_length (inv.pool.chain_nodup n) slot
      exact slotBytes_congr (slotCells_of_prefix remains.chain enough) fun c mem =>
        reads c (slotCells_subset _ _ mem)
    · rw [slots] at slot'
      cases slot'
    · exact absurd ⟨source, msgno⟩ other
  · have used : (s.ctx n).state ≠ .free := fun free => by
      rw [inv.freeHasNone n free] at held
      cases held
    rcases exec_kept h inv used with ⟨-, reads⟩ | ⟨chain, -⟩ | other
    · exact reads cell held o offset
    · rw [chain] at held'
      cases held'
    · exact absurd ⟨source, msgno⟩ other

end Slots

end Sys2Proof.Machine
end
